-- ==== Sys2Proof/Word.lean ====
section
/-! DEFINITION. The word types: a 32-bit bus word and its 16-bit half (R161, R169). -/
namespace Sys2Proof

/-- A word of the host bus, D[31:0]. -/
abbrev Word := BitVec 32

/-- A 16-bit value: a ticket, a timestamp, the prescaler. -/
abbrev Half := BitVec 16

end Sys2Proof
end

