-- ==== Sys2Proof/Config.lean ====
section
/-! DEFINITION. The capacities the BZ2408 fixes (00_scope.md, Capacities). The spec leaves no result value
open, so there is no free value here. -/
namespace Sys2Proof.Config

/-- Agents 0 to 7 (00_scope.md, Capacities). -/
abbrev agents : Nat := 8
/-- Locks 0 to 63. -/
abbrev locks : Nat := 64
/-- Lock classes 0 to 7. -/
abbrev classes : Nat := 8
/-- Wait entries 0 to 31. -/
abbrev waitEntries : Nat := 32
/-- Notice credits of an agent at attachment, and the size of its notice queue (R106, R126). -/
abbrev credits : Nat := 16
/-- The deepest recursion of a holder record (R3). -/
abbrev maxDepth : Nat := 15
/-- Sweep requests that can wait (R147). -/
abbrev sweepSlots : Nat := 4

end Sys2Proof.Config
end

