-- ==== Sys2Proof/Syntax.lean ====
section
/-! DEFINITION. The commands the part takes: one constructor of `Instr` per row of opcode_table.json, and the
names their operands use. A command is a write or read of one register by one agent, a pin reset, or an
event of the timebase, the lock table, the wait pool or the sweep engine. -/
namespace Sys2Proof

/-- The number on AID[2:0]. -/
abbrev AgentId := Fin Config.agents
/-- A lock number within range. -/
abbrev LockId := Fin Config.locks
/-- A class number within range. -/
abbrev ClassId := Fin Config.classes
/-- The number of a wait entry. -/
abbrev EntryId := Fin Config.waitEntries

/-- The two halves of the window (R163): 0x000 to 0x0FF and 0x100 to 0x1FF. -/
inductive View where
  | agent
  | control
deriving DecidableEq, Repr

/-- The registers of the window (R163). -/
inductive Register where
  | cmd | arg0 | arg1 | res0 | res1 | ntake | nword1 | ncount | notify | agent
  | scmd | sarg0 | sarg1 | sres0 | sres1 | tsel
  | tdata (n : Fin 5)
  | tcommit | prescale | units | sweep
deriving DecidableEq, Repr

/-- The commands. `a` is the agent whose number was on AID[2:0] during the access; a command reads its other
arguments from that agent's argument registers (R164, R168). -/
inductive Instr where
  /-- ATTACH (R109). -/
  | attach (a : AgentId)
  /-- DETACH (R110). -/
  | detach (a : AgentId)
  /-- ACQUIRE (R31). -/
  | acquire (a : AgentId)
  /-- RELEASE (R74). -/
  | release (a : AgentId)
  /-- RENEW (R84, R85). -/
  | renew (a : AgentId)
  /-- CANCEL (R63, R64). -/
  | cancel (a : AgentId)
  /-- PROBE (R22, R23). -/
  | probe (a : AgentId)
  /-- OPEN (R13, R14). -/
  | openLock (a : AgentId)
  /-- CLOSE (R15, R16). -/
  | closeLock (a : AgentId)
  /-- REVOKE, an agent target (R18, R19). -/
  | revoke (a : AgentId)
  /-- REVOKE with the target ALL (R18, R20). -/
  | revokeAll (a : AgentId)
  /-- DETACH_AGENT (R149, R150). -/
  | detachAgent (a : AgentId)
  /-- CLEAR_ALL (R151). -/
  | clearAll (a : AgentId)
  /-- GIVE_SUPERVISOR (R116). -/
  | giveSupervisor (a : AgentId)
  /-- TAKE_SUPERVISOR (R117). -/
  | takeSupervisor (a : AgentId)
  /-- A write of CMD or SCMD with a code that is no command of its view (R120). -/
  | badCommand (a : AgentId) (view : View) (code : BitVec 8)
  /-- A read of NTAKE (R131, R132). -/
  | ntake (a : AgentId)
  /-- A write of NOTIFY (R136). -/
  | notifyWrite (a : AgentId) (word : Word)
  /-- A write of TSEL (R165). -/
  | tsel (a : AgentId) (word : Word)
  /-- A write of TDATA0 to TDATA4 (R166). -/
  | tdataWrite (a : AgentId) (n : Fin 5) (word : Word)
  /-- A write of TCOMMIT; its data word is ignored (R101, R102, R164). -/
  | tcommit (a : AgentId)
  /-- A write of PRESCALE (R139). -/
  | prescaleWrite (a : AgentId) (word : Word)
  /-- A write of ARG0, ARG1, SARG0 or SARG1, or a write the decoder answers with BERR_N (R163, R164).
  `offset` is A[8:2], the word offset in the window. -/
  | argumentRegisterWrite (a : AgentId) (offset : BitVec 7) (word : Word)
  /-- RESET_N sampled low (R161). `stillLow` says that it is still low when the event ends; a later
  PIN_RESET with `stillLow = false` is the end of that reset. -/
  | pinReset (stillLow : Bool)
  /-- The timebase advances the unit counter (R138). -/
  | unitAdvance
  /-- A due expiry of agent `a`'s holder record at lock `k` is taken (R81, R142). -/
  | leaseExpiry (k : LockId) (a : AgentId)
  /-- A due timeout of wait entry `e` is taken (R60, R142). -/
  | timeout (e : EntryId)
  /-- The detach sweep in flight makes its next visit (R153). -/
  | detachSweepVisit
  /-- The clear sweep in flight makes its next visit (R154). -/
  | clearSweepVisit
  /-- The sweep in flight completes (R157). -/
  | sweepCompletion
deriving DecidableEq, Repr

/-- The agent that makes the bus access a command stands for; `none` for a command that is no access. -/
def Instr.accessor : Instr → Option AgentId
  | .attach a => some a
  | .detach a => some a
  | .acquire a => some a
  | .release a => some a
  | .renew a => some a
  | .cancel a => some a
  | .probe a => some a
  | .openLock a => some a
  | .closeLock a => some a
  | .revoke a => some a
  | .revokeAll a => some a
  | .detachAgent a => some a
  | .clearAll a => some a
  | .giveSupervisor a => some a
  | .takeSupervisor a => some a
  | .badCommand a _ _ => some a
  | .ntake a => some a
  | .notifyWrite a _ => some a
  | .tsel a _ => some a
  | .tdataWrite a _ _ => some a
  | .tcommit a => some a
  | .prescaleWrite a _ => some a
  | .argumentRegisterWrite a _ _ => some a
  | .pinReset _ => none
  | .unitAdvance => none
  | .leaseExpiry _ _ => none
  | .timeout _ => none
  | .detachSweepVisit => none
  | .clearSweepVisit => none
  | .sweepCompletion => none

/-- The view whose command or register a bus access reaches, where the command fixes it; an argument register
write's view follows from its offset, and is not fixed here. -/
def Instr.view : Instr → Option View
  | .attach _ => some .agent
  | .detach _ => some .agent
  | .acquire _ => some .agent
  | .release _ => some .agent
  | .renew _ => some .agent
  | .cancel _ => some .agent
  | .probe _ => some .agent
  | .openLock _ => some .control
  | .closeLock _ => some .control
  | .revoke _ => some .control
  | .revokeAll _ => some .control
  | .detachAgent _ => some .control
  | .clearAll _ => some .control
  | .giveSupervisor _ => some .control
  | .takeSupervisor _ => some .control
  | .badCommand _ v _ => some v
  | .ntake _ => some .agent
  | .notifyWrite _ _ => some .agent
  | .tsel _ _ => some .control
  | .tdataWrite _ _ _ => some .control
  | .tcommit _ => some .control
  | .prescaleWrite _ _ => some .control
  | .argumentRegisterWrite _ _ _ => none
  | .pinReset _ => none
  | .unitAdvance => none
  | .leaseExpiry _ _ => none
  | .timeout _ => none
  | .detachSweepVisit => none
  | .clearSweepVisit => none
  | .sweepCompletion => none

end Sys2Proof
end

