-- ==== Sys2Proof/Machine/State.lean ====
section
/-! DEFINITION. Everything the spec gives the BZ2408, as plain data, and its value after pin reset. Each field's
rule and reset value are listed in INVENTORY.md under State. -/
namespace Sys2Proof.Machine

/-- The mode of a request, a holder record or a wait entry. -/
inductive Mode where
  | exclusive
  | shared
deriving DecidableEq, Repr

/-! ## Lock table and wait pool -/

/-- The five lock states (R1, R6). -/
inductive LockState where
  | closed | free | exclusive | shared | draining
deriving DecidableEq, Repr

/-- A holder record (R3). -/
structure HolderRecord where
  agent : AgentId
  mode : Mode
  depth : Nat
  ticket : Half
  deadline : Option Word
deriving DecidableEq, Repr

/-- A linked wait entry (R53). Its lock field is the lock in whose queue it stands; `num` is its number in the
pool. The pool is stored in the queues alone (log 6). -/
structure WaitEntry where
  num : EntryId
  agent : AgentId
  mode : Mode
  tag : BitVec 8
  deadline : Option Word
deriving DecidableEq, Repr

/-- A lock entry (R1). `holders` is in grant order, `queue` in arrival order with the head first. -/
structure LockEntry where
  state : LockState
  cls : ClassId
  ticket : Half
  marker : Bool
  drain : Option Mode
  holders : List HolderRecord
  queue : List WaitEntry
deriving DecidableEq, Repr

/-- A lock never opened since pin reset (R1). -/
def LockEntry.reset : LockEntry :=
  { state := .closed, cls := 0, ticket := 0, marker := false, drain := none, holders := [], queue := [] }

/-! ## Class table -/

/-- A class descriptor (R93). Bit `a` of the access mask is agent `a`'s membership. -/
structure ClassDesc where
  mask : BitVec 8
  sharedAllowed : Bool
  recursionAllowed : Bool
  ordered : Bool
  rank : BitVec 4
  lease : BitVec 12
  cap : BitVec 12
deriving DecidableEq, Repr

/-- A class table entry: the descriptor and its use count (R93, R98). -/
structure ClassEntry where
  desc : ClassDesc
  useCount : Nat
deriving DecidableEq, Repr

/-- A class after pin reset (R93). -/
def ClassEntry.reset : ClassEntry :=
  { desc := { mask := 0, sharedAllowed := false, recursionAllowed := false, ordered := false, rank := 0,
              lease := 0, cap := 0 }
    useCount := 0 }

/-! ## Notices -/

/-- What a sweep does: detach one agent, or clear the whole table (R147). -/
inductive SweepJob where
  | detach (target : AgentId)
  | clear
deriving DecidableEq, Repr

/-- A notice record (R125): each kind with the fields it carries. `time` is the timestamp. -/
inductive Notice where
  | granted (lock : LockId) (mode : Mode) (ticket : Half) (tag : BitVec 8) (marker : Bool) (time : Half)
  | timedOut (lock : LockId) (mode : Mode) (tag : BitVec 8) (time : Half)
  | cancelled (lock : LockId) (mode : Mode) (tag : BitVec 8) (time : Half)
  | expired (lock : LockId) (mode : Mode) (ticket : Half) (time : Half)
  | revoked (lock : LockId) (mode : Mode) (ticket : Half) (time : Half)
  | sweepDone (job : SweepJob) (time : Half)
deriving DecidableEq, Repr

/-- The notify mode (R106). -/
inductive NotifyMode where
  | level
  | arrival
deriving DecidableEq, Repr

/-! ## Agent table -/

/-- The agent states (R106). -/
inductive AgentState where
  | absent | attached | detaching
deriving DecidableEq, Repr

/-- The status codes of R167; `noStatus` is NONE. -/
inductive Status where
  | noStatus | done | granted | queued
  | badCommand | badArgument | badLock | notAttached | detaching | alreadyAttached | closed
  | denied | badMode | held | depth | modeConflict | alreadyWaiting | order | noCredit | poolEmpty | wouldWait
  | notHolder | staleTicket | notWaiting | noLease | notClosed | inUse | sweepFull | alreadyQueued
  | sweepActive | lastSupervisor
deriving DecidableEq, Repr

/-- The result record of every command but PROBE (R119); fields a command does not fill are 0. -/
structure CommandResult where
  status : Status
  lock : LockId := 0
  ticket : Half := 0
  depth : Nat := 0
  marker : Bool := false
  recursion : Bool := false
  cleanNotApplied : Bool := false
  credits : Nat := 0
  position : Nat := 0
deriving DecidableEq, Repr

/-- The result record of a PROBE answered with DONE (R23). `drain` and `own` are reported as 0 when absent;
`own` is the mode and depth of the caller's holder record. -/
structure ProbeResult where
  state : LockState
  cls : ClassId
  holderCount : Nat
  drain : Option Mode
  queueLength : Nat
  marker : Bool
  ticket : Half
  own : Option (Mode × Nat)
  position : Nat
  credits : Nat
deriving DecidableEq, Repr

/-- A result record, in one of its two layouts (R119, R169). -/
inductive ResultRecord where
  | command (r : CommandResult)
  | probe (r : ProbeResult)
deriving DecidableEq, Repr

/-- A class descriptor in staging, at the width of its snapshot fields (R101, R171). -/
structure StagedClass where
  mask : BitVec 8
  sharedAllowed : Bool
  recursionAllowed : Bool
  ordered : Bool
  rank : BitVec 8
  lease : BitVec 16
  cap : BitVec 16
  useCount : BitVec 7
deriving DecidableEq, Repr

/-- A LOCK snapshot (R171). -/
structure LockSnapshot where
  state : LockState
  cls : ClassId
  drain : Option Mode
  marker : Bool
  holderCount : Nat
  ticket : Half
  queue : List EntryId
  holders : List AgentId
deriving DecidableEq, Repr

/-- A HOLDER snapshot of a record that is present (R171); `place` counts from 1. -/
structure HolderSnapshot where
  mode : Mode
  depth : Nat
  place : Nat
  ticket : Half
  deadline : Option Word
deriving DecidableEq, Repr

/-- A WAIT snapshot of a linked entry (R71, R171); `position` counts from 1. -/
structure WaitSnapshot where
  mode : Mode
  position : Nat
  agent : AgentId
  lock : LockId
  tag : BitVec 8
  deadline : Option Word
deriving DecidableEq, Repr

/-- An AGENT snapshot (R171). -/
structure AgentSnapshot where
  status : AgentState
  supervisor : Bool
  notifyEnable : Bool
  notifyMode : NotifyMode
  latch : Bool
  epoch : BitVec 8
  credits : Nat
  queueLength : Nat
deriving DecidableEq, Repr

/-- A valid table-port staging: the snapshot with the index it was selected by (R165, R171). `none` inside a
HOLDER or WAIT snapshot is a record not present or a free entry. -/
inductive Staging where
  | lock (index : LockId) (snap : LockSnapshot)
  | holder (index : BitVec 9) (snap : Option HolderSnapshot)
  | wait (index : EntryId) (snap : Option WaitSnapshot)
  | cls (index : ClassId) (snap : StagedClass)
  | agent (index : AgentId) (snap : AgentSnapshot)
deriving DecidableEq, Repr

/-- An agent entry with its notice queue, NWORD1 and notify line (R106, R126, R134). `staging = none` is an
invalid staging. `lineLow` says that the part drives NOTIFY_N low. -/
structure AgentEntry where
  status : AgentState
  epoch : BitVec 8
  credits : Nat
  supervisor : Bool
  notifyEnable : Bool
  notifyMode : NotifyMode
  latch : Bool
  arg0 : Word
  arg1 : Word
  sarg0 : Word
  sarg1 : Word
  result : ResultRecord
  controlResult : ResultRecord
  staging : Option Staging
  notices : List Notice
  nword1 : Word
  lineLow : Bool
deriving DecidableEq, Repr

/-- An agent entry after pin reset (R106, R126); `right` is whether it holds the supervisor right. -/
def AgentEntry.reset (right : Bool) : AgentEntry :=
  { status := .absent, epoch := 0, credits := Config.credits, supervisor := right, notifyEnable := false,
    notifyMode := .level, latch := false, arg0 := 0, arg1 := 0, sarg0 := 0, sarg1 := 0,
    result := .command { status := .noStatus }, controlResult := .command { status := .noStatus },
    staging := none, notices := [], nword1 := 0, lineLow := false }

/-! ## Sweep engine and bus -/

/-- A sweep request (R147); the requester is an agent with the epoch it had when it asked. -/
structure SweepRequest where
  job : SweepJob
  requester : Option (AgentId × BitVec 8)
deriving DecidableEq, Repr

/-- The sweep in flight: its request and position (R147); 64 once lock 63 has been visited. -/
structure SweepFlight where
  request : SweepRequest
  position : Fin (Config.locks + 1)
deriving DecidableEq, Repr

/-- What the part answered to the last bus access (R161): RDY or BERR_N, and the word driven on D[31:0], which is
absent for a write. The model's own record of the three outputs (log 7). -/
inductive BusAnswer where
  | noAccess
  | rdy (data : Option Word)
  | berr (data : Option Word)
deriving DecidableEq, Repr

/-- The state of the part, and the queue of the commands that wait. -/
structure State where
  locks : Vector LockEntry Config.locks
  classes : Vector ClassEntry Config.classes
  agents : Vector AgentEntry Config.agents
  prescaler : Half
  units : Word
  refCount : Half
  sweepQueue : List SweepRequest
  inFlight : Option SweepFlight
  resetLow : Bool
  answer : BusAnswer
  pending : List Instr
deriving DecidableEq, Repr

/-- The part right after pin reset, with RESET_N released (R1, R53, R93, R106, R126, R138, R147). -/
def State.reset : State :=
  { locks := Vector.replicate Config.locks .reset
    classes := Vector.replicate Config.classes .reset
    agents := (Vector.replicate Config.agents (AgentEntry.reset false)).set 0 (AgentEntry.reset true)
    prescaler := 0
    units := 0
    refCount := 0
    sweepQueue := []
    inFlight := none
    resetLow := false
    answer := .noAccess
    pending := [] }

/-! ## Stops -/

/-- The spec describes no fault: misuse is answered with a status code or BERR_N (R120, R161). -/
inductive Fault where
deriving DecidableEq, Repr

/-- Why a command has no meaning here. -/
inductive Refusal where
  /-- An arm of `exec` that has no meaning yet. Safe. No arm uses it. -/
  | notModelled (mnemonic : String)
  /-- Raised by BAD_COMMAND with a code its view lists, and by ARGUMENT_REGISTER_WRITE at a register whose write
  is another row's command: the term is no command of its row, and that row's constructor has the meaning
  (log 10). Safe. -/
  | otherCommand
deriving DecidableEq, Repr

/-- What a command answers. -/
abbrev Outcome := Host.Outcome State Fault Refusal

end Sys2Proof.Machine
end

