-- ==== Sys2Proof/Machine/Flags.lean ====
section
/-! DEFINITION. The conditions the part computes: the notify line (R134), the held rank (R39), when a deadline is due
(R142), and the simple tests on a lock, a queue and a class that the commands' checks make. -/
namespace Sys2Proof.Machine

/-! ## Notify line -/

/-- When NOTIFY_N[a] is driven low (R134). -/
def AgentEntry.lineCondition (e : AgentEntry) : Bool :=
  e.status == .attached && e.notifyEnable &&
    match e.notifyMode with
    | .level => !e.notices.isEmpty
    | .arrival => e.latch

/-! ## Locks -/

/-- FREE, EXCLUSIVE or SHARED (01_locks_and_lock_states.md, 1.4). -/
def LockState.isOpen : LockState → Bool
  | .free | .exclusive | .shared => true
  | .closed | .draining => false

/-- The caller's holder record at the lock (R5: at most one). -/
def LockEntry.holderOf (l : LockEntry) (a : AgentId) : Option HolderRecord :=
  l.holders.find? (fun r => r.agent == a)

/-- The caller's wait entry at the lock (R5: at most one). -/
def LockEntry.waiterOf (l : LockEntry) (a : AgentId) : Option WaitEntry :=
  l.queue.find? (fun w => w.agent == a)

/-- The place of agent `a`'s record in the holder list, 1 for the first, 0 if it holds none (R171). -/
def LockEntry.holderPlace (l : LockEntry) (a : AgentId) : Nat :=
  match l.holders.findIdx? (fun r => r.agent == a) with
  | some i => i + 1
  | none => 0

/-- The position of agent `a`'s wait entry, 1 for the head, 0 if it is not waiting (R55, R23). -/
def LockEntry.queuePosition (l : LockEntry) (a : AgentId) : Nat :=
  match l.queue.findIdx? (fun w => w.agent == a) with
  | some i => i + 1
  | none => 0

/-- The lock can be granted at once to a request of mode `m` (R42). -/
def LockEntry.grantableAtOnce (l : LockEntry) (m : Mode) : Bool :=
  l.state == .free || (l.state == .shared && m == .shared && l.queue.isEmpty)

/-- The agent is a member of the access mask (R35, R94). -/
def ClassDesc.admits (c : ClassDesc) (a : AgentId) : Bool :=
  c.mask.getLsbD a.val

/-! ## Deadlines -/

/-- A deadline is due while it equals the unit counter: it is never formed equal to the counter, and every due
event is taken before the next advance (R141, R142, R146; log 4). -/
def deadlineDue (units : Word) (d : Option Word) : Bool :=
  d == some units

/-- Some holder record or wait entry of the lock has a due deadline. -/
def LockEntry.anyDue (units : Word) (l : LockEntry) : Bool :=
  l.holders.any (fun r => deadlineDue units r.deadline) || l.queue.any (fun w => deadlineDue units w.deadline)

/-- Some expiry or timeout is due and not yet taken (R142). -/
def State.anyDue (s : State) : Bool :=
  s.locks.toList.any (fun l => l.anyDue s.units)

/-! ## Sweep engine -/

/-- A request is a CLEAR request. -/
def SweepRequest.isClear (r : SweepRequest) : Bool :=
  r.job == .clear

/-- The requests queued or in flight, the one in flight first (R147). -/
def State.outstanding (s : State) : List SweepRequest :=
  (s.inFlight.map SweepFlight.request).toList ++ s.sweepQueue

/-- A CLEAR request is waiting in the sweep queue or is the sweep in flight (R13, R151). -/
def State.clearOutstanding (s : State) : Bool :=
  s.outstanding.any SweepRequest.isClear

end Sys2Proof.Machine
end

