-- ==== Sys2Proof/Machine/Operands.lean ====
section
/-! DEFINITION. The argument words each command reads (R168), the written words of NOTIFY, TSEL, PRESCALE and
TDATA (R170, R171), and deadline arithmetic (R27, R56, R57). -/
namespace Sys2Proof.Machine

/-- Mode encoding: 0 EXCLUSIVE, 1 SHARED (10.7). -/
def modeOfBit (b : Bool) : Mode :=
  if b then .shared else .exclusive

/-- Notify mode encoding: 0 LEVEL, 1 ARRIVAL (R168, R170). -/
def notifyModeOfBit (b : Bool) : NotifyMode :=
  if b then .arrival else .level

/-- A lock field, bits 7:0; a value of 64 to 255 names no lock (R168). -/
def lockArg (w : Word) : Option LockId :=
  if h : (w.setWidth 8).toNat < 64 then some ⟨(w.setWidth 8).toNat, h⟩ else none

/-- The class field of OPEN, SARG0 bits 11:8; 8 to 15 names no class (R168). -/
def classArg (w : Word) : Option ClassId :=
  if h : (w.extractLsb' 8 4).toNat < 8 then some ⟨(w.extractLsb' 8 4).toNat, h⟩ else none

/-- A target agent field, bits 3:0; 8 to 15 names no agent (R168). -/
def agentArg (w : Word) : Option AgentId :=
  if h : (w.extractLsb' 0 4).toNat < 8 then some ⟨(w.extractLsb' 0 4).toNat, h⟩ else none

/-- The target field of REVOKE reads ALL, which is 15 (R168). -/
def targetIsAll (w : Word) : Bool :=
  w.extractLsb' 0 4 == 15

/-- ACQUIRE: mode, ARG0 bit 8. -/
def acquireMode (arg0 : Word) : Mode := modeOfBit (arg0.getLsbD 8)
/-- ACQUIRE: try flag, ARG0 bit 9. -/
def acquireTry (arg0 : Word) : Bool := arg0.getLsbD 9
/-- ACQUIRE: tag, ARG0 bits 23:16. -/
def acquireTag (arg0 : Word) : BitVec 8 := arg0.extractLsb' 16 8
/-- ACQUIRE: wait limit, ARG1 bits 11:0. -/
def acquireLimit (arg1 : Word) : BitVec 12 := arg1.extractLsb' 0 12
/-- RELEASE: CLEAN option, ARG0 bit 10. -/
def releaseClean (arg0 : Word) : Bool := arg0.getLsbD 10
/-- RELEASE and RENEW: ticket, ARG1 bits 15:0. -/
def ticketArg (arg1 : Word) : Half := arg1.extractLsb' 0 16
/-- OPEN: clear-marker, SARG1 bit 0. -/
def clearMarkerArg (sarg1 : Word) : Bool := sarg1.getLsbD 0
/-- ATTACH (ARG0) and a NOTIFY write: notify enable, bit 0. -/
def notifyEnableArg (w : Word) : Bool := w.getLsbD 0
/-- ATTACH (ARG0) and a NOTIFY write: notify mode, bit 1. -/
def notifyModeArg (w : Word) : NotifyMode := notifyModeOfBit (w.getLsbD 1)
/-- TSEL: index, bits 8:0 (R170). -/
def tselIndex (w : Word) : BitVec 9 := w.extractLsb' 0 9
/-- TSEL: table code, bits 18:16 (R170). -/
def tselTable (w : Word) : BitVec 3 := w.extractLsb' 16 3
/-- PRESCALE: prescaler, bits 15:0 (R139, R170). -/
def prescaleArg (w : Word) : Half := w.extractLsb' 0 16

/-- A deadline formed at counter value `now` with length `len`: `now + len`, wrapping at 32 bits, or none for a
length of 0 (R27, R57, R141). -/
def formDeadline (now : Word) (len : BitVec 12) : Option Word :=
  if len = 0 then none else some (now + len.setWidth 32)

/-- The effective wait limit of a request limit `w` under a class cap `c` (R56). -/
def effectiveLimit (w c : BitVec 12) : BitVec 12 :=
  if c ≠ 0 ∧ (w = 0 ∨ c < w) then c else w

/-- The timestamp of a notice made at a counter value: its low 16 bits (R145). -/
def stamp (units : Word) : Half := units.setWidth 16

/-- The fields a write of TDATA`n` changes in a CLASS staging, those marked W in R171. -/
def StagedClass.writeWord (c : StagedClass) (n : Fin 5) (w : Word) : StagedClass :=
  match n with
  | 0 => { c with mask := w.extractLsb' 0 8, sharedAllowed := w.getLsbD 8, recursionAllowed := w.getLsbD 9,
                  ordered := w.getLsbD 10 }
  | 1 => { c with rank := w.extractLsb' 0 8 }
  | 2 => { c with lease := w.extractLsb' 0 16 }
  | 3 => { c with cap := w.extractLsb' 0 16 }
  | 4 => { c with useCount := w.extractLsb' 0 7 }

/-- The staged rank, lease length and wait cap are in range (R101, check 2). -/
def StagedClass.inRange (c : StagedClass) : Bool :=
  decide (c.rank.toNat ≤ 15) && decide (c.lease.toNat ≤ 4095) && decide (c.cap.toNat ≤ 4095)

/-- The descriptor a commit writes (R102). -/
def StagedClass.toDesc (c : StagedClass) : ClassDesc :=
  { mask := c.mask, sharedAllowed := c.sharedAllowed, recursionAllowed := c.recursionAllowed, ordered := c.ordered,
    rank := c.rank.setWidth 4, lease := c.lease.setWidth 12, cap := c.cap.setWidth 12 }

end Sys2Proof.Machine
end

