-- ==== Sys2Proof/Machine/Ops.lean ====
section
/-! DEFINITION. The named operations the commands share: reads and writes of the tables, notice arrival, credits,
result records, the bus answer, grants, grant evaluation, holder departure and the sweep queue. -/
namespace Sys2Proof.Machine

/-! ## Table access -/

/-- Every lock number, in ascending order. -/
def allLocks : List LockId := List.finRange Config.locks

/-- Every agent number, in ascending order. -/
def allAgents : List AgentId := List.finRange Config.agents

/-- Every wait entry number, in ascending order. -/
def allEntries : List EntryId := List.finRange Config.waitEntries

/-- Lock entry `k`. -/
def State.lock (s : State) (k : LockId) : LockEntry := s.locks[k.val]

/-- Class table entry `c`. -/
def State.cls (s : State) (c : ClassId) : ClassEntry := s.classes[c.val]

/-- Agent entry `a`. -/
def State.agent (s : State) (a : AgentId) : AgentEntry := s.agents[a.val]

/-- Write lock entry `k`. -/
def State.setLock (s : State) (k : LockId) (l : LockEntry) : State :=
  { s with locks := s.locks.set k.val l }

/-- Write class table entry `c`. -/
def State.setClass (s : State) (c : ClassId) (e : ClassEntry) : State :=
  { s with classes := s.classes.set c.val e }

/-- Write agent entry `a`. -/
def State.setAgent (s : State) (a : AgentId) (e : AgentEntry) : State :=
  { s with agents := s.agents.set a.val e }

/-- Change agent entry `a`. -/
def State.modAgent (s : State) (a : AgentId) (f : AgentEntry → AgentEntry) : State :=
  s.setAgent a (f (s.agent a))

/-- The descriptor of the class named in lock `k`'s class field (R2). -/
def State.lockClass (s : State) (k : LockId) : ClassDesc :=
  (s.cls (s.lock k).cls).desc

/-- The use count of class `c` rises by 1 (R98). -/
def State.raiseUse (s : State) (c : ClassId) : State :=
  s.setClass c { s.cls c with useCount := (s.cls c).useCount + 1 }

/-- The use count of class `c` falls by 1 (R98). -/
def State.lowerUse (s : State) (c : ClassId) : State :=
  s.setClass c { s.cls c with useCount := (s.cls c).useCount - 1 }

/-! ## Bus answers -/

/-- Record the answer to a bus access (R161). -/
def State.answered (s : State) (ans : BusAnswer) : State := { s with answer := ans }

/-- A write the decoder takes: RDY, with nothing driven on D (R161). -/
def State.ready (s : State) : State := s.answered (.rdy none)

/-- A write answered with BERR_N: it changes nothing (R161). -/
def State.busError (s : State) : State := s.answered (.berr none)

/-- An agent-view write with effect `f`: taken from an agent in any state (R163), unless RESET_N is low (R161). -/
def State.agentWrite (s : State) (f : State → State) : Outcome :=
  if s.resetLow then .next s.busError else .next (f s).ready

/-- A control-view write with effect `f`: taken from an agent that holds the supervisor right (R115), unless
RESET_N is low (R161). -/
def State.controlWrite (s : State) (a : AgentId) (f : State → State) : Outcome :=
  if s.resetLow || !(s.agent a).supervisor then .next s.busError else .next (f s).ready

/-! ## Result records -/

/-- Write agent `a`'s agent-view result record; the credits field is `a`'s credits after the command (R119). -/
def State.agentResult (s : State) (a : AgentId) (r : CommandResult) : State :=
  s.modAgent a (fun e => { e with result := .command { r with credits := e.credits } })

/-- Write agent `a`'s control-view result record (R119). -/
def State.controlResult (s : State) (a : AgentId) (r : CommandResult) : State :=
  s.modAgent a (fun e => { e with controlResult := .command { r with credits := e.credits } })

/-- A refused agent-view command: its status, the caller's credits, and zeros (R120). -/
def State.refuse (s : State) (a : AgentId) (st : Status) : State :=
  s.agentResult a { status := st }

/-- A refused control-view command (R120). -/
def State.controlRefuse (s : State) (a : AgentId) (st : Status) : State :=
  s.controlResult a { status := st }

/-! ## Notices, notify lines and credits -/

/-- Drive the notify line for the entry as it stands (R134). -/
def AgentEntry.drive (e : AgentEntry) : AgentEntry :=
  { e with lineLow := e.lineCondition }

/-- A notice addressed to the agent arrives (R127); it is discarded unless the agent is ATTACHED (R128). -/
def AgentEntry.receive (n : Notice) (e : AgentEntry) : AgentEntry :=
  if e.status = .attached then
    AgentEntry.drive { e with
      notices := e.notices ++ [n]
      latch := e.latch || (e.notifyEnable && e.notifyMode == .arrival) }
  else e

/-- `n` credits are returned to the agent; a DETACHING agent's are frozen (R121, R123). -/
def AgentEntry.regain (n : Nat) (e : AgentEntry) : AgentEntry :=
  if e.status = .attached then { e with credits := e.credits + n } else e

/-- `n` credits are charged (R121); the caller's check has found them. -/
def AgentEntry.pay (n : Nat) (e : AgentEntry) : AgentEntry :=
  { e with credits := e.credits - n }

/-- Address a notice to agent `a`. -/
def State.notify (s : State) (a : AgentId) (n : Notice) : State :=
  s.modAgent a (AgentEntry.receive n)

/-- Address notices in order. -/
def State.notifyAll (s : State) (ns : List (AgentId × Notice)) : State :=
  ns.foldl (fun s p => s.notify p.1 p.2) s

/-- The status that refuses a command of an agent that is not ATTACHED (R107, check 1). -/
def AgentState.refusal : AgentState → Option Status
  | .absent => some .notAttached
  | .detaching => some .detaching
  | .attached => none

/-! ## Wait pool views -/

/-- The linked request of wait entry `e`, with its lock: a view over the queues (R53, log 6). -/
def State.poolEntry (s : State) (e : EntryId) : Option (LockId × WaitEntry) :=
  allLocks.findSome? fun k => ((s.lock k).queue.find? (fun w => w.num == e)).map fun w => (k, w)

/-- The lowest-numbered free wait entry (R54). -/
def State.freeEntry (s : State) : Option EntryId :=
  allEntries.find? fun e => (s.poolEntry e).isNone

/-! ## Holder records and wait entries -/

/-- Remove agent `a`'s holder record; the others keep their order (R5). -/
def LockEntry.dropHolder (l : LockEntry) (a : AgentId) : LockEntry :=
  { l with holders := l.holders.filter (fun r => r.agent != a) }

/-- Change agent `a`'s holder record in its place. -/
def LockEntry.modHolder (l : LockEntry) (a : AgentId) (f : HolderRecord → HolderRecord) : LockEntry :=
  { l with holders := l.holders.map (fun r => if r.agent = a then f r else r) }

/-- Unlink agent `a`'s wait entry; the others keep their order (R55, R59). -/
def LockEntry.dropWaiter (l : LockEntry) (a : AgentId) : LockEntry :=
  { l with queue := l.queue.filter (fun w => w.agent != a) }

/-- A grant to agent `a` in mode `m` (R8, R27, R28): the ticket counter advances, the record joins the end of the
holder list, and the state follows the mode. `lease` is the class lease length and `now` the unit counter. -/
def LockEntry.grant (l : LockEntry) (a : AgentId) (m : Mode) (lease : BitVec 12) (now : Word) : LockEntry :=
  { l with
    ticket := l.ticket + 1
    holders := l.holders ++
      [{ agent := a, mode := m, depth := 1, ticket := l.ticket + 1, deadline := formDeadline now lease }]
    state := match m with
      | .exclusive => .exclusive
      | .shared => .shared }

/-! ## Grant evaluation and holder departure -/

/-- The GRANTED notice of a grant from the queue of lock `k` just made (R29): `l` is the lock after the grant. -/
def grantedNotice (k : LockId) (l : LockEntry) (w : WaitEntry) (now : Word) : Notice :=
  .granted k w.mode l.ticket w.tag l.marker (stamp now)

/-- Grant wait entries in order, each complete before the next (R29, R49). -/
def grantEntries (k : LockId) (lease : BitVec 12) (now : Word) :
    List WaitEntry → LockEntry → LockEntry × List (AgentId × Notice)
  | [], l => (l, [])
  | w :: ws, l =>
    let l' := l.grant w.agent w.mode lease now
    let r := grantEntries k lease now ws l'
    (r.1, (w.agent, grantedNotice k l' w now) :: r.2)

/-- The shared batch at the head of a queue (R47, step 3): the entries granted, and the queue left. Entries of
DETACHING agents are removed (R48); an EXCLUSIVE entry of another agent ends the batch. -/
def sharedBatch (detaching : AgentId → Bool) : List WaitEntry → List WaitEntry × List WaitEntry
  | [] => ([], [])
  | w :: q =>
    if detaching w.agent then sharedBatch detaching q
    else match w.mode with
      | .exclusive => ([], w :: q)
      | .shared => (w :: (sharedBatch detaching q).1, (sharedBatch detaching q).2)

/-- Grant evaluation at lock `k` (R47): the lock it leaves and the GRANTED notices it addresses, in order. -/
def LockEntry.evaluate (l : LockEntry) (k : LockId) (detaching : AgentId → Bool) (lease : BitVec 12) (now : Word) :
    LockEntry × List (AgentId × Notice) :=
  match l.queue.dropWhile (fun w => detaching w.agent) with
  | [] => ({ l with queue := [] }, [])
  | w :: q =>
    match w.mode with
    | .exclusive =>
      if l.holders.isEmpty then grantEntries k lease now [w] { l with queue := q }
      else ({ l with queue := w :: q }, [])
    | .shared =>
      if l.state = .free ∨ l.state = .shared then
        grantEntries k lease now (w :: (sharedBatch detaching q).1) { l with queue := (sharedBatch detaching q).2 }
      else ({ l with queue := w :: q }, [])

/-- Agent `a` is DETACHING at the moment its entry is examined (R47). -/
def State.isDetaching (s : State) (a : AgentId) : Bool :=
  (s.agent a).status == .detaching

/-- Grant evaluation at lock `k` (R46, R47). On an empty queue it changes nothing. -/
def State.grantEval (s : State) (k : LockId) : State :=
  let r := (s.lock k).evaluate k s.isDetaching (s.lockClass k).lease s.units
  (s.setLock k r.1).notifyAll r.2

/-- Holder departure at lock `k`, after a holder record has been removed (R4). -/
def State.departure (s : State) (k : LockId) : State :=
  let l := s.lock k
  match l.state with
  | .exclusive | .shared =>
    (if l.holders.isEmpty then s.setLock k { l with state := .free } else s).grantEval k
  | .draining =>
    if l.holders.isEmpty then (s.setLock k { l with state := .closed, drain := none }).lowerUse l.cls else s
  | .closed | .free => s

/-- The entry at place `0` of lock `k`'s queue passes `p`. -/
def LockEntry.headIs (l : LockEntry) (p : WaitEntry → Bool) : Bool :=
  match l.queue with
  | [] => false
  | w :: _ => p w

/-- Remove the wait entries of lock `k` that `p` picks out; grant evaluation runs if the head was one (R46, R59). -/
def State.removeWaiters (s : State) (k : LockId) (p : WaitEntry → Bool) : State :=
  let l := s.lock k
  let s' := s.setLock k { l with queue := l.queue.filter (fun w => !p w) }
  if l.headIs p then s'.grantEval k else s'

/-- A holder record of lock `k` is removed involuntarily, with the marker set (R10) and a notice `n` to its agent
where there is one; holder departure follows (R4). Credits do not change (R81, R19, R153). -/
def State.loseHolder (s : State) (k : LockId) (a : AgentId) (n : Option Notice) : State :=
  let s1 := s.setLock k { (s.lock k).dropHolder a with marker := true }
  let s2 := match n with
    | some n => s1.notify a n
    | none => s1
  s2.departure k

/-- Cancellation of one wait entry of lock `k` by CLOSE or a clear-sweep visit: the CANCELLED notice and 1 credit
(R65). The queue is emptied by the caller. -/
def State.cancelNotice (k : LockId) (s : State) (w : WaitEntry) : State :=
  (s.notify w.agent (.cancelled k w.mode w.tag (stamp s.units))).modAgent w.agent (AgentEntry.regain 1)

/-- Cancellation of every entry of lock `k`'s queue, from the head to the tail (R65). -/
def State.cancelQueue (s : State) (k : LockId) : State :=
  (s.lock k).queue.foldl (State.cancelNotice k) (s.setLock k { s.lock k with queue := [] })

/-- The REVOKED notice of one holder record of lock `k` (R19). -/
def State.revokeNotice (k : LockId) (s : State) (r : HolderRecord) : State :=
  s.notify r.agent (.revoked k r.mode r.ticket (stamp s.units))

/-- Removal of every holder record of lock `k` in holder-list order, each with its REVOKED notice; the marker is set
if a record was removed (R20, R154). No holder departure. -/
def State.revokeHolders (s : State) (k : LockId) : State :=
  let l := s.lock k
  l.holders.foldl (State.revokeNotice k)
    (s.setLock k { l with holders := [], marker := l.marker || !l.holders.isEmpty })

/-! ## Sweep queue -/

/-- The engine takes the oldest request if it is idle, with position 0 (R148). -/
def State.engineTake (s : State) : State :=
  match s.inFlight, s.sweepQueue with
  | none, r :: rs => { s with inFlight := some { request := r, position := 0 }, sweepQueue := rs }
  | _, _ => s

/-- An accepted request joins the tail of the sweep queue, and is taken at once if the engine is idle (R148). -/
def State.request (s : State) (r : SweepRequest) : State :=
  { s with sweepQueue := s.sweepQueue ++ [r] }.engineTake

/-- The sweep queue holds 4 requests (R110, R149, R151). -/
def State.sweepFull (s : State) : Bool :=
  decide (Config.sweepSlots ≤ s.sweepQueue.length)

/-- Entry to DETACHING (R111, R130): the notices are purged, the latch is cleared, the line is released, and the
credits stay where they are. -/
def AgentEntry.enterDetaching (e : AgentEntry) : AgentEntry :=
  AgentEntry.drive { e with status := .detaching, notices := [], latch := false }

/-- The requester a sweep request of caller `a` records: the caller with its epoch while it is ATTACHED (R150). -/
def State.requesterOf (s : State) (a : AgentId) : Option (AgentId × BitVec 8) :=
  if (s.agent a).status = .attached then some (a, (s.agent a).epoch) else none

/-- The charge for a sweep request: 1 credit while the caller is ATTACHED (R121, R150). -/
def AgentEntry.payRequest (e : AgentEntry) : AgentEntry :=
  if e.status = .attached then e.pay 1 else e

/-! ## Held rank -/

/-- Agent `a` holds lock `k`, and the lock's class is ordered (R39). -/
def State.holdsOrdered (s : State) (a : AgentId) (k : LockId) : Bool :=
  ((s.lock k).holderOf a).isSome && (s.lockClass k).ordered

/-- The held rank of agent `a`: the largest rank among the ordered-class locks it holds, if any (R39). -/
def State.heldRank (s : State) (a : AgentId) : Option Nat :=
  ((allLocks.filter (s.holdsOrdered a)).map fun k => (s.lockClass k).rank.toNat).max?

/-- Check 8 of ACQUIRE refuses: the class is ordered and the held rank is present and not below its rank (R40). -/
def State.outOfOrder (s : State) (a : AgentId) (k : LockId) : Bool :=
  (s.lockClass k).ordered &&
    match s.heldRank a with
    | some r => decide ((s.lockClass k).rank.toNat ≤ r)
    | none => false

end Sys2Proof.Machine
end

