-- ==== Sys2Proof/Machine/Acquire.lean ====
section
/-! DEFINITION. ACQUIRE (02_acquisition_and_grant.md, 2.2 to 2.9): the ordered checks decide one outcome, and the
outcome says what changes. -/
namespace Sys2Proof.Machine

/-- What the checks of R31 decide. -/
inductive AcquireOutcome where
  | refuse (st : Status)
  | recursion (k : LockId)
  | grantNow (k : LockId)
  | enqueue (k : LockId) (e : EntryId)
deriving DecidableEq, Repr

/-- Check 6 against the caller's own record `r` (R36). -/
def ownHoldingOutcome (k : LockId) (m : Mode) (recursionAllowed : Bool) (r : HolderRecord) : AcquireOutcome :=
  if r.mode ≠ m then .refuse .modeConflict
  else if !recursionAllowed then .refuse .held
  else if r.depth < Config.maxDepth then .recursion k
  else .refuse .depth

/-- Checks 9 to 11, for a caller that neither holds nor waits (R42, R43, R44). -/
def State.contendOutcome (s : State) (a : AgentId) (k : LockId) : AcquireOutcome :=
  let e := s.agent a
  if (s.lock k).grantableAtOnce (acquireMode e.arg0) then
    if 1 ≤ e.credits then .grantNow k else .refuse .noCredit
  else if acquireTry e.arg0 then .refuse .wouldWait
  else if e.credits < 2 then .refuse .noCredit
  else match s.freeEntry with
    | none => .refuse .poolEmpty
    | some n => .enqueue k n

/-- Checks 3 to 11 at lock `k` (R31). -/
def State.acquireAt (s : State) (a : AgentId) (k : LockId) : AcquireOutcome :=
  let l := s.lock k
  let c := s.lockClass k
  let m := acquireMode (s.agent a).arg0
  if l.state = .closed ∨ l.state = .draining then .refuse .closed
  else if !c.admits a then .refuse .denied
  else if m = .shared ∧ c.sharedAllowed = false then .refuse .badMode
  else match l.holderOf a with
    | some r => ownHoldingOutcome k m c.recursionAllowed r
    | none =>
      if (l.waiterOf a).isSome then .refuse .alreadyWaiting
      else if s.outOfOrder a k then .refuse .order
      else s.contendOutcome a k

/-- The checks of ACQUIRE in order (R31). -/
def State.acquireOutcome (s : State) (a : AgentId) : AcquireOutcome :=
  match (s.agent a).status.refusal with
  | some st => .refuse st
  | none =>
    match lockArg (s.agent a).arg0 with
    | none => .refuse .badLock
    | some k => s.acquireAt a k

/-- A recursive take (R37). -/
def State.recursiveTake (s : State) (a : AgentId) (k : LockId) : State :=
  let s' := s.setLock k ((s.lock k).modHolder a fun r => { r with depth := r.depth + 1 })
  let r := (s'.lock k).holderOf a
  s'.agentResult a
    { status := .granted, lock := k, ticket := (r.map HolderRecord.ticket).getD 0,
      depth := (r.map HolderRecord.depth).getD 0, marker := (s.lock k).marker, recursion := true }

/-- An immediate grant (R27, R28, R42). -/
def State.immediateGrant (s : State) (a : AgentId) (k : LockId) : State :=
  let m := acquireMode (s.agent a).arg0
  let l := (s.lock k).grant a m (s.lockClass k).lease s.units
  ((s.setLock k l).modAgent a (AgentEntry.pay 1)).agentResult a
    { status := .granted, lock := k, ticket := l.ticket, depth := 1, marker := l.marker }

/-- The wait entry a queued request fills (R45, R53): the deadline is the unit counter plus the effective limit. -/
def State.newEntry (s : State) (a : AgentId) (k : LockId) (n : EntryId) : WaitEntry :=
  let e := s.agent a
  { num := n, agent := a, mode := acquireMode e.arg0, tag := acquireTag e.arg0,
    deadline := formDeadline s.units (effectiveLimit (acquireLimit e.arg1) (s.lockClass k).cap) }

/-- A queued request (R45). -/
def State.enqueue (s : State) (a : AgentId) (k : LockId) (n : EntryId) : State :=
  let l := s.lock k
  ((s.setLock k { l with queue := l.queue ++ [s.newEntry a k n] }).modAgent a (AgentEntry.pay 2)).agentResult a
    { status := .queued, lock := k, position := l.queue.length + 1 }

/-- ACQUIRE (R30 to R45). -/
def State.acquire (a : AgentId) (s : State) : State :=
  match s.acquireOutcome a with
  | .refuse st => s.refuse a st
  | .recursion k => s.recursiveTake a k
  | .grantNow k => s.immediateGrant a k
  | .enqueue k n => s.enqueue a k n

/-- ACQUIRE written to CMD. -/
def execAcquire (a : AgentId) (s : State) : Outcome :=
  s.agentWrite (State.acquire a)

end Sys2Proof.Machine
end

