-- ==== Sys2Proof/Machine/Attachment.lean ====
section
/-! DEFINITION. ATTACH and DETACH (06_agents_and_notice_credit.md, 6.3 and 6.4). -/
namespace Sys2Proof.Machine

/-- The agent entry after an ATTACH taken in ABSENT (R109). -/
def AgentEntry.attach (e : AgentEntry) : AgentEntry :=
  AgentEntry.drive { e with
    status := .attached
    epoch := e.epoch + 1
    credits := Config.credits
    notifyEnable := notifyEnableArg e.arg0
    notifyMode := notifyModeArg e.arg0
    latch := false }

/-- ATTACH (R107, R109). -/
def State.attach (a : AgentId) (s : State) : State :=
  match (s.agent a).status with
  | .attached => s.refuse a .alreadyAttached
  | .detaching => s.refuse a .detaching
  | .absent => (s.modAgent a AgentEntry.attach).agentResult a { status := .done }

/-- ATTACH written to CMD. -/
def execAttach (a : AgentId) (s : State) : Outcome :=
  s.agentWrite (State.attach a)

/-- DETACH (R107, R110): the request joins the sweep queue without requester, then the caller enters DETACHING. -/
def State.detach (a : AgentId) (s : State) : State :=
  match (s.agent a).status.refusal with
  | some st => s.refuse a st
  | none =>
    if s.sweepFull then s.refuse a .sweepFull
    else ((s.request { job := .detach a, requester := none }).modAgent a AgentEntry.enterDetaching).agentResult a
      { status := .done }

/-- DETACH written to CMD. -/
def execDetach (a : AgentId) (s : State) : Outcome :=
  s.agentWrite (State.detach a)

end Sys2Proof.Machine
end

