-- ==== Sys2Proof/Machine/Holding.lean ====
section
/-! DEFINITION. The commands of a holder or waiter about its own standing: RELEASE, RENEW
(04_release_renewal_and_leases.md), CANCEL (03_wait_queues_and_the_wait_pool.md, 3.5), and PROBE
(01_locks_and_lock_states.md, 1.10). -/
namespace Sys2Proof.Machine

/-- Checks 1 to 4 of RELEASE and RENEW: the caller's record of the lock under the ticket presented, or the
refusal (R74, R84). -/
def State.presentedHolding (s : State) (a : AgentId) : Except Status (LockId × HolderRecord) :=
  match (s.agent a).status.refusal with
  | some st => .error st
  | none =>
    match lockArg (s.agent a).arg0 with
    | none => .error .badLock
    | some k =>
      match (s.lock k).holderOf a with
      | none => .error .notHolder
      | some r => if r.ticket = ticketArg (s.agent a).arg1 then .ok (k, r) else .error .staleTicket

/-! ## RELEASE -/

/-- RELEASE at depth 2 to 15: the depth falls by 1 (R76). -/
def State.lowerDepth (s : State) (a : AgentId) (k : LockId) (r : HolderRecord) : State :=
  (s.setLock k ((s.lock k).modHolder a fun r => { r with depth := r.depth - 1 })).agentResult a
    { status := .done, lock := k, ticket := r.ticket, depth := r.depth - 1, marker := (s.lock k).marker }

/-- The marker after step 2 of a release that removes record `r` (R78). -/
def markerAfterRelease (marker clean : Bool) (r : HolderRecord) : Bool :=
  marker && !(clean && r.mode == .exclusive)

/-- The lock, the caller's credits and the grants of a RELEASE at depth 1 (R77), before its result is written. -/
def State.giveBack (s : State) (a : AgentId) (k : LockId) (r : HolderRecord) : State :=
  let l := s.lock k
  let clean := releaseClean (s.agent a).arg0
  ((s.setLock k { l.dropHolder a with marker := markerAfterRelease l.marker clean r }).modAgent a
    (AgentEntry.regain 1)).departure k

/-- RELEASE at depth 1 (R77, R78, R79). -/
def State.releaseRecord (s : State) (a : AgentId) (k : LockId) (r : HolderRecord) : State :=
  let s' := s.giveBack a k r
  s'.agentResult a
    { status := .done, lock := k, ticket := r.ticket, depth := 0, marker := (s'.lock k).marker,
      cleanNotApplied := releaseClean (s.agent a).arg0 && r.mode == .shared }

/-- RELEASE (R73 to R79). -/
def State.release (a : AgentId) (s : State) : State :=
  match s.presentedHolding a with
  | .error st => s.refuse a st
  | .ok (k, r) => if 1 < r.depth then s.lowerDepth a k r else s.releaseRecord a k r

/-- RELEASE written to CMD. -/
def execRelease (a : AgentId) (s : State) : Outcome :=
  s.agentWrite (State.release a)

/-! ## RENEW -/

/-- A RENEW that passes its checks replaces the lease deadline (R85). -/
def State.renewRecord (s : State) (a : AgentId) (k : LockId) (r : HolderRecord) : State :=
  (s.setLock k ((s.lock k).modHolder a fun r =>
      { r with deadline := formDeadline s.units (s.lockClass k).lease })).agentResult a
    { status := .done, lock := k, ticket := r.ticket, depth := r.depth, marker := (s.lock k).marker }

/-- RENEW (R84, R85). -/
def State.renew (a : AgentId) (s : State) : State :=
  match s.presentedHolding a with
  | .error st => s.refuse a st
  | .ok (k, r) => if (s.lockClass k).lease = 0 then s.refuse a .noLease else s.renewRecord a k r

/-- RENEW written to CMD. -/
def execRenew (a : AgentId) (s : State) : Outcome :=
  s.agentWrite (State.renew a)

/-! ## CANCEL -/

/-- A CANCEL that passes its checks (R64): the entry leaves, 2 credits return, and grant evaluation runs if it was
the head. -/
def State.withdraw (s : State) (a : AgentId) (k : LockId) : State :=
  ((s.modAgent a (AgentEntry.regain 2)).removeWaiters k (fun w => w.agent == a)).agentResult a
    { status := .done, lock := k, position := (s.lock k).queuePosition a }

/-- CANCEL (R63, R64). -/
def State.cancel (a : AgentId) (s : State) : State :=
  match (s.agent a).status.refusal with
  | some st => s.refuse a st
  | none =>
    match lockArg (s.agent a).arg0 with
    | none => s.refuse a .badLock
    | some k => if ((s.lock k).waiterOf a).isSome then s.withdraw a k else s.refuse a .notWaiting

/-- CANCEL written to CMD. -/
def execCancel (a : AgentId) (s : State) : Outcome :=
  s.agentWrite (State.cancel a)

/-! ## PROBE -/

/-- The PROBE report of lock `k` to agent `a` (R23). -/
def State.probeReport (s : State) (a : AgentId) (k : LockId) : ProbeResult :=
  let l := s.lock k
  { state := l.state, cls := l.cls, holderCount := l.holders.length, drain := l.drain,
    queueLength := l.queue.length, marker := l.marker, ticket := l.ticket,
    own := (l.holderOf a).map fun r => (r.mode, r.depth),
    position := l.queuePosition a, credits := (s.agent a).credits }

/-- PROBE (R22, R23): answered in every agent state. -/
def State.probe (a : AgentId) (s : State) : State :=
  match lockArg (s.agent a).arg0 with
  | none => s.refuse a .badLock
  | some k => s.modAgent a fun e => { e with result := .probe (s.probeReport a k) }

/-- PROBE written to CMD. -/
def execProbe (a : AgentId) (s : State) : Outcome :=
  s.agentWrite (State.probe a)

end Sys2Proof.Machine
end

