-- ==== Sys2Proof/Machine/LockControl.lean ====
section
/-! DEFINITION. The control-view commands addressed to a lock: OPEN, CLOSE, REVOKE and REVOKE ALL
(01_locks_and_lock_states.md, 1.7 to 1.9). -/
namespace Sys2Proof.Machine

/-! ## OPEN -/

/-- An OPEN that passes its checks (R14): the class field is written first, then its use count rises (R7). -/
def State.bringIntoService (s : State) (a : AgentId) (k : LockId) (c : ClassId) : State :=
  let l := s.lock k
  let marker := l.marker && !clearMarkerArg (s.agent a).sarg1
  ((s.setLock k { l with state := .free, cls := c, marker := marker }).raiseUse c).controlResult a
    { status := .done, lock := k, ticket := l.ticket, marker := marker }

/-- OPEN (R13, R14). -/
def State.openLock (a : AgentId) (s : State) : State :=
  match lockArg (s.agent a).sarg0 with
  | none => s.controlRefuse a .badLock
  | some k =>
    match classArg (s.agent a).sarg0 with
    | none => s.controlRefuse a .badArgument
    | some c =>
      if s.clearOutstanding then s.controlRefuse a .sweepActive
      else if (s.lock k).state ≠ .closed then s.controlRefuse a .notClosed
      else s.bringIntoService a k c

/-- OPEN written to SCMD. -/
def execOpen (a : AgentId) (s : State) : Outcome :=
  s.controlWrite a (State.openLock a)

/-! ## CLOSE -/

/-- CLOSE of a held lock (R16): DRAINING in the mode it was held in, and the queue cancelled from the head. -/
def State.drainLock (s : State) (k : LockId) (m : Mode) : State :=
  (s.setLock k { s.lock k with state := .draining, drain := some m }).cancelQueue k

/-- CLOSE (R15, R16). -/
def State.closeLock (a : AgentId) (s : State) : State :=
  match lockArg (s.agent a).sarg0 with
  | none => s.controlRefuse a .badLock
  | some k =>
    match (s.lock k).state with
    | .closed | .draining => s.controlRefuse a .closed
    | .free =>
      ((s.setLock k { s.lock k with state := .closed }).lowerUse (s.lock k).cls).controlResult a
        { status := .done, lock := k }
    | .exclusive => (s.drainLock k .exclusive).controlResult a { status := .done, lock := k }
    | .shared => (s.drainLock k .shared).controlResult a { status := .done, lock := k }

/-- CLOSE written to SCMD. -/
def execClose (a : AgentId) (s : State) : Outcome :=
  s.controlWrite a (State.closeLock a)

/-! ## REVOKE -/

/-- REVOKE of one agent's record `r` of lock `k` (R19). -/
def State.revokeOne (s : State) (a : AgentId) (k : LockId) (t : AgentId) (r : HolderRecord) : State :=
  (s.loseHolder k t (some (.revoked k r.mode r.ticket (stamp s.units)))).controlResult a
    { status := .done, lock := k, ticket := r.ticket, marker := true }

/-- REVOKE of every record of lock `k`, with one holder departure (R20). -/
def State.revokeEvery (s : State) (a : AgentId) (k : LockId) : State :=
  ((s.revokeHolders k).departure k).controlResult a
    { status := .done, lock := k, depth := (s.lock k).holders.length, marker := true }

/-- The command of code 3 of the control view: REVOKE, of the agent or of ALL as SARG1 names (R18, R168). -/
def State.revokeTarget (a : AgentId) (s : State) : State :=
  match lockArg (s.agent a).sarg0 with
  | none => s.controlRefuse a .badLock
  | some k =>
    if targetIsAll (s.agent a).sarg1 then
      if (s.lock k).holders.isEmpty then s.controlRefuse a .notHolder else s.revokeEvery a k
    else match agentArg (s.agent a).sarg1 with
      | none => s.controlRefuse a .badArgument
      | some t =>
        match (s.lock k).holderOf t with
        | none => s.controlRefuse a .notHolder
        | some r => s.revokeOne a k t r

/-- REVOKE written to SCMD. -/
def execRevoke (a : AgentId) (s : State) : Outcome :=
  s.controlWrite a (State.revokeTarget a)

/-- REVOKE written to SCMD while SARG1 names ALL: the same command code, which reads the target itself (log 9). -/
def execRevokeAll (a : AgentId) (s : State) : Outcome :=
  s.controlWrite a (State.revokeTarget a)

end Sys2Proof.Machine
end

