-- ==== Sys2Proof/Machine/Layout.lean ====
section
/-! DEFINITION. Codes and layouts software sees (10_host_bus_window.md, R167, R169, R170, R171): every readable word
as a function of the data behind it. -/
namespace Sys2Proof.Machine

/-- The field `x` with its least significant bit at bit `lo` of a word. -/
def field {n : Nat} (lo : Nat) (x : BitVec n) : Word := x.setWidth 32 <<< lo

/-- A flag at bit `lo`: 1 for set. -/
def flag (lo : Nat) (b : Bool) : Word := field lo (BitVec.ofBool b)

/-- A count in `n` bits from bit `lo`. -/
def count (n lo : Nat) (x : Nat) : Word := field lo (BitVec.ofNat n x)

/-! ## Codes -/

/-- Mode: 0 EXCLUSIVE, 1 SHARED. -/
def Mode.bit : Mode → Bool
  | .exclusive => false
  | .shared => true

/-- Notify mode: 0 LEVEL, 1 ARRIVAL. -/
def NotifyMode.bit : NotifyMode → Bool
  | .level => false
  | .arrival => true

/-- Lock states: CLOSED 0, FREE 1, EXCLUSIVE 2, SHARED 3, DRAINING 4. -/
def LockState.code : LockState → BitVec 3
  | .closed => 0
  | .free => 1
  | .exclusive => 2
  | .shared => 3
  | .draining => 4

/-- Agent states: ABSENT 0, ATTACHED 1, DETACHING 2. -/
def AgentState.code : AgentState → BitVec 2
  | .absent => 0
  | .attached => 1
  | .detaching => 2

/-- Status codes (R167). -/
def Status.code : Status → BitVec 8
  | .noStatus => 0
  | .done => 1
  | .granted => 2
  | .queued => 3
  | .badCommand => 16
  | .badArgument => 17
  | .badLock => 18
  | .notAttached => 19
  | .detaching => 20
  | .alreadyAttached => 21
  | .closed => 22
  | .denied => 23
  | .badMode => 24
  | .held => 25
  | .depth => 26
  | .modeConflict => 27
  | .alreadyWaiting => 28
  | .order => 29
  | .noCredit => 30
  | .poolEmpty => 31
  | .wouldWait => 32
  | .notHolder => 33
  | .staleTicket => 34
  | .notWaiting => 35
  | .noLease => 36
  | .notClosed => 37
  | .inUse => 38
  | .sweepFull => 39
  | .alreadyQueued => 40
  | .sweepActive => 41
  | .lastSupervisor => 42

/-- The drain mode as a bit, 0 when absent. For PROBE that is R23; for a LOCK snapshot R171 gives no value where there is
no drain mode, and 0 is the model's choice (log 19). -/
def optionalModeBit (m : Option Mode) : Bool :=
  match m with
  | some m => m.bit
  | none => false

/-! ## Result records (R169) -/

/-- RES0 or SRES0 of every command but PROBE. -/
def CommandResult.word0 (r : CommandResult) : Word :=
  field 0 r.status.code ||| count 6 8 r.lock.val ||| flag 16 r.marker ||| flag 17 r.recursion |||
    flag 18 r.cleanNotApplied ||| count 5 20 r.credits ||| count 3 25 r.position

/-- RES1 or SRES1 of every command but PROBE. -/
def CommandResult.word1 (r : CommandResult) : Word :=
  field 0 r.ticket ||| count 4 16 r.depth

/-- RES0 of a PROBE. -/
def ProbeResult.word0 (r : ProbeResult) : Word :=
  field 0 Status.done.code ||| field 8 r.state.code ||| count 3 11 r.cls.val ||| count 4 14 r.holderCount |||
    flag 18 (optionalModeBit r.drain) ||| flag 19 r.marker ||| count 5 20 r.credits ||| count 3 25 r.position |||
    count 3 28 r.queueLength

/-- RES1 of a PROBE; own mode and depth are 0 where the caller holds no record. -/
def ProbeResult.word1 (r : ProbeResult) : Word :=
  field 0 r.ticket |||
    match r.own with
    | some (m, d) => count 4 16 d ||| flag 20 m.bit
    | none => 0

/-- RES0 or SRES0. -/
def ResultRecord.word0 : ResultRecord → Word
  | .command r => r.word0
  | .probe r => r.word0

/-- RES1 or SRES1. -/
def ResultRecord.word1 : ResultRecord → Word
  | .command r => r.word1
  | .probe r => r.word1

/-! ## Notice words (R167, R169) -/

/-- The sweep kind and target agent fields of a SWEEP_DONE; a CLEAR sweep reads target 0. -/
def SweepJob.noticeFields : SweepJob → Word
  | .detach t => flag 24 false ||| count 3 25 t.val
  | .clear => flag 24 true

/-- Word 0 of a notice: its kind and the fields its kind carries; absent fields read 0. -/
def Notice.word0 : Notice → Word
  | .granted k m _ tag marker _ =>
    field 0 (1 : BitVec 4) ||| count 6 8 k.val ||| flag 14 m.bit ||| flag 15 marker ||| field 16 tag
  | .timedOut k m tag _ => field 0 (2 : BitVec 4) ||| count 6 8 k.val ||| flag 14 m.bit ||| field 16 tag
  | .cancelled k m tag _ => field 0 (3 : BitVec 4) ||| count 6 8 k.val ||| flag 14 m.bit ||| field 16 tag
  | .expired k m _ _ => field 0 (4 : BitVec 4) ||| count 6 8 k.val ||| flag 14 m.bit
  | .revoked k m _ _ => field 0 (5 : BitVec 4) ||| count 6 8 k.val ||| flag 14 m.bit
  | .sweepDone job _ => field 0 (6 : BitVec 4) ||| job.noticeFields

/-- Word 1 of a notice: ticket and timestamp; the ticket reads 0 where the kind has none. -/
def Notice.word1 : Notice → Word
  | .granted _ _ ticket _ _ time => field 0 ticket ||| field 16 time
  | .timedOut _ _ _ time => field 16 time
  | .cancelled _ _ _ time => field 16 time
  | .expired _ _ ticket time => field 0 ticket ||| field 16 time
  | .revoked _ _ ticket time => field 0 ticket ||| field 16 time
  | .sweepDone _ time => field 16 time

/-- What NTAKE returns when there is no notice: kind EMPTY, other fields 0 (R132). -/
def emptyNotice : Word := 0

/-! ## Status and configuration registers (R170) -/

/-- NCOUNT (R133). -/
def AgentEntry.ncountWord (e : AgentEntry) : Word :=
  count 5 0 e.notices.length ||| count 5 8 e.credits

/-- NOTIFY as read (R136). -/
def AgentEntry.notifyWord (e : AgentEntry) : Word :=
  flag 0 e.notifyEnable ||| flag 1 e.notifyMode.bit ||| flag 2 e.latch ||| flag 3 e.lineLow

/-- AGENT; `a` is the number on AID during the read. -/
def AgentEntry.agentWord (e : AgentEntry) (a : AgentId) : Word :=
  count 3 0 a.val ||| field 4 e.status.code ||| flag 8 e.supervisor ||| field 16 e.epoch

/-- SWEEP (R160): the sweep in flight and the number of requests waiting. -/
def State.sweepWord (s : State) : Word :=
  (match s.inFlight with
    | none => 0
    | some f =>
      count 7 8 f.position.val |||
        match f.request.job with
        | .detach t => field 0 (1 : BitVec 2) ||| count 3 4 t.val
        | .clear => field 0 (2 : BitVec 2)) |||
    count 3 16 s.sweepQueue.length

/-! ## Table port words (R171) -/

/-- The selection header of a valid staging: bit 31 set, the table code, the index. -/
def selectionHeader (table : BitVec 3) (index : BitVec 9) : Word :=
  flag 31 true ||| field 28 table ||| field 16 index

/-- One queue position of a LOCK snapshot: the entry number, and the occupied bit (R171). The number field of a position
that is not occupied reads 0, the model's choice (log 19). -/
def queueSlot (q : List EntryId) (i : Nat) : BitVec 6 :=
  match q[i]? with
  | some e => BitVec.ofNat 6 (e.val + 32)
  | none => 0

/-- One place of a LOCK snapshot's holder list: the agent, and the occupied bit (R171). The agent field of a place that
is not occupied reads 0, the model's choice (log 19). -/
def holderSlot (h : List AgentId) (i : Nat) : BitVec 4 :=
  match h[i]? with
  | some a => BitVec.ofNat 4 (a.val + 8)
  | none => 0

/-- The words of a LOCK snapshot, header aside. -/
def LockSnapshot.word (l : LockSnapshot) (n : Fin 5) : Word :=
  match n with
  | 0 =>
    field 0 l.state.code ||| count 3 3 l.cls.val ||| flag 6 (optionalModeBit l.drain) ||| flag 7 l.marker |||
      count 4 8 l.holderCount
  | 1 => field 0 l.ticket
  | 2 =>
    field 0 (queueSlot l.queue 0) ||| field 6 (queueSlot l.queue 1) ||| field 12 (queueSlot l.queue 2) |||
      field 18 (queueSlot l.queue 3)
  | 3 => field 0 (queueSlot l.queue 4) ||| field 6 (queueSlot l.queue 5) ||| field 12 (queueSlot l.queue 6)
  | 4 =>
    field 0 (holderSlot l.holders 0) ||| field 4 (holderSlot l.holders 1) ||| field 8 (holderSlot l.holders 2) |||
      field 12 (holderSlot l.holders 3) ||| field 16 (holderSlot l.holders 4) ||| field 20 (holderSlot l.holders 5) |||
      field 24 (holderSlot l.holders 6) ||| field 28 (holderSlot l.holders 7)

/-- The words of a HOLDER snapshot of a present record, header aside. -/
def HolderSnapshot.word (h : HolderSnapshot) (n : Fin 5) : Word :=
  match n with
  | 0 =>
    flag 0 true ||| flag 1 h.mode.bit ||| flag 2 h.deadline.isSome ||| count 4 4 h.depth ||| count 4 8 h.place
  | 1 => field 0 h.ticket
  | 2 => h.deadline.getD 0
  | 3 => 0
  | 4 => 0

/-- The words of a WAIT snapshot of a linked entry, header aside. -/
def WaitSnapshot.word (w : WaitSnapshot) (n : Fin 5) : Word :=
  match n with
  | 0 =>
    flag 0 true ||| flag 1 w.mode.bit ||| flag 2 w.deadline.isSome ||| count 3 4 w.position ||| count 3 8 w.agent.val
  | 1 => count 6 0 w.lock.val ||| field 8 w.tag
  | 2 => w.deadline.getD 0
  | 3 => 0
  | 4 => 0

/-- The words of a CLASS snapshot, header aside. -/
def StagedClass.word (c : StagedClass) (n : Fin 5) : Word :=
  match n with
  | 0 => field 0 c.mask ||| flag 8 c.sharedAllowed ||| flag 9 c.recursionAllowed ||| flag 10 c.ordered
  | 1 => field 0 c.rank
  | 2 => field 0 c.lease
  | 3 => field 0 c.cap
  | 4 => field 0 c.useCount

/-- The words of an AGENT snapshot, header aside. -/
def AgentSnapshot.word (e : AgentSnapshot) (n : Fin 5) : Word :=
  match n with
  | 0 =>
    field 0 e.status.code ||| flag 2 e.supervisor ||| flag 3 e.notifyEnable ||| flag 4 e.notifyMode.bit |||
      flag 5 e.latch ||| field 8 e.epoch
  | 1 => count 5 0 e.credits ||| count 5 8 e.queueLength
  | 2 => 0
  | 3 => 0
  | 4 => 0

/-- The word of an optional snapshot: 0 where there is none (R171). -/
def optionalWord {α : Type} (word : α → Fin 5 → Word) (x : Option α) (n : Fin 5) : Word :=
  match x with
  | some x => word x n
  | none => 0

/-- The table code and index of a staging's selection header (R165). -/
def Staging.header : Staging → Word
  | .lock i _ => selectionHeader 1 (BitVec.ofNat 9 i.val)
  | .holder i _ => selectionHeader 2 i
  | .wait i _ => selectionHeader 3 (BitVec.ofNat 9 i.val)
  | .cls i _ => selectionHeader 4 (BitVec.ofNat 9 i.val)
  | .agent i _ => selectionHeader 5 (BitVec.ofNat 9 i.val)

/-- The snapshot fields of word `n`, header aside. -/
def Staging.fields : Staging → Fin 5 → Word
  | .lock _ l, n => l.word n
  | .holder _ h, n => optionalWord HolderSnapshot.word h n
  | .wait _ w, n => optionalWord WaitSnapshot.word w n
  | .cls _ c, n => c.word n
  | .agent _ e, n => e.word n

/-- TDATA`n` of a valid staging: the header stands in TDATA0 beside its fields. -/
def Staging.word (g : Staging) (n : Fin 5) : Word :=
  if n = 0 then g.header ||| g.fields n else g.fields n

/-- TDATA`n`: an invalid staging reads 0 in every word (R165, R171). -/
def tdataWord (g : Option Staging) (n : Fin 5) : Word :=
  match g with
  | some g => g.word n
  | none => 0

end Sys2Proof.Machine
end

