-- ==== Sys2Proof/Machine/Notices.lean ====
section
/-! DEFINITION. The notice unit's registers: NTAKE reads and NOTIFY writes (07_notices_and_notify_lines.md, 7.3 and
7.4). -/
namespace Sys2Proof.Machine

/-- The agent entry after a pop of its head notice `n`, with `rest` behind it (R131). -/
def AgentEntry.pop (e : AgentEntry) (n : Notice) (rest : List Notice) : AgentEntry :=
  AgentEntry.drive { e.regain 1 with nword1 := n.word1, notices := rest, latch := false }

/-- A read of NTAKE: a pop (R131), or EMPTY with no change (R132). The answer carries the word returned. -/
def State.takeNotice (s : State) (a : AgentId) : State :=
  match (s.agent a).notices with
  | [] => s.answered (.rdy (some emptyNotice))
  | n :: rest => (s.modAgent a fun e => e.pop n rest).answered (.rdy (some n.word0))

/-- A read of NTAKE; answered with BERR_N while RESET_N is low, with D driven with 0 (R161). -/
def execNtake (a : AgentId) (s : State) : Outcome :=
  if s.resetLow then .next (s.answered (.berr (some 0))) else .next (s.takeNotice a)

/-- The agent entry after a write of NOTIFY (R136). -/
def AgentEntry.configureNotify (e : AgentEntry) (w : Word) : AgentEntry :=
  AgentEntry.drive { e with notifyEnable := notifyEnableArg w, notifyMode := notifyModeArg w, latch := false }

/-- A write of NOTIFY, taken in every agent state (R136). -/
def execNotifyWrite (a : AgentId) (w : Word) (s : State) : Outcome :=
  s.agentWrite fun s => s.modAgent a fun e => e.configureNotify w

end Sys2Proof.Machine
end

