-- ==== Sys2Proof/Decode.lean ====
section
/-! DEFINITION. The window decoder: the register map and access types (R163), the command codes (R167), and what a
write access spells. opcode_table.json gives no row any bits, so `decodeTableWord` answers none. -/
namespace Sys2Proof

/-- The register map of R163. `offset` is A[8:2]; the map's byte offset is four times it. -/
def registerAt (offset : BitVec 7) : Option Register :=
  match offset.toNat * 4 with
  | 0x000 => some .cmd
  | 0x004 => some .arg0
  | 0x008 => some .arg1
  | 0x010 => some .res0
  | 0x014 => some .res1
  | 0x020 => some .ntake
  | 0x024 => some .nword1
  | 0x028 => some .ncount
  | 0x02C => some .notify
  | 0x030 => some .agent
  | 0x100 => some .scmd
  | 0x104 => some .sarg0
  | 0x108 => some .sarg1
  | 0x110 => some .sres0
  | 0x114 => some .sres1
  | 0x120 => some .tsel
  | 0x124 => some (.tdata 0)
  | 0x128 => some (.tdata 1)
  | 0x12C => some (.tdata 2)
  | 0x130 => some (.tdata 3)
  | 0x134 => some (.tdata 4)
  | 0x140 => some .tcommit
  | 0x150 => some .prescale
  | 0x154 => some .units
  | 0x160 => some .sweep
  | _ => none

/-- The view an offset lies in (R163): bit 8 of the byte offset, which is A[8]. -/
def viewOf (offset : BitVec 7) : View :=
  if offset.getLsbD 6 then .control else .agent

/-- Registers whose access type lets them be written (R163). TDATA is writable for a CLASS snapshot only,
which the access itself checks. -/
def Register.writable : Register → Bool
  | .cmd | .arg0 | .arg1 | .notify | .scmd | .sarg0 | .sarg1 | .tsel | .tdata _ | .tcommit | .prescale => true
  | .res0 | .res1 | .ntake | .nword1 | .ncount | .agent | .sres0 | .sres1 | .units | .sweep => false

/-- Registers whose access type lets them be read (R163). -/
def Register.readable : Register → Bool
  | .cmd | .scmd | .tsel | .tcommit => false
  | .arg0 | .arg1 | .res0 | .res1 | .ntake | .nword1 | .ncount | .notify | .agent | .sarg0 | .sarg1 | .sres0
  | .sres1 | .tdata _ | .prescale | .units | .sweep => true

/-- Registers that keep what is written to them and start nothing: the argument registers (R164). -/
def Register.isArgument : Register → Bool
  | .arg0 | .arg1 | .sarg0 | .sarg1 => true
  | _ => false

/-- Writable registers with a behaviour of their own: a write of one is a command of another row than
ARGUMENT_REGISTER_WRITE. -/
def Register.startsCommand (r : Register) : Bool :=
  r.writable && !r.isArgument

/-- The command codes of R167. Code 3 of the control view is REVOKE; `targetAll` says that its target field
reads ALL, which makes it REVOKE_ALL (R168). -/
def commandOfCode (v : View) (code : BitVec 8) (a : AgentId) (targetAll : Bool) : Option Instr :=
  match v, code.toNat with
  | .agent, 1 => some (.attach a)
  | .agent, 2 => some (.detach a)
  | .agent, 3 => some (.acquire a)
  | .agent, 4 => some (.release a)
  | .agent, 5 => some (.renew a)
  | .agent, 6 => some (.cancel a)
  | .agent, 7 => some (.probe a)
  | .control, 1 => some (.openLock a)
  | .control, 2 => some (.closeLock a)
  | .control, 3 => some (if targetAll then .revokeAll a else .revoke a)
  | .control, 4 => some (.detachAgent a)
  | .control, 5 => some (.clearAll a)
  | .control, 6 => some (.giveSupervisor a)
  | .control, 7 => some (.takeSupervisor a)
  | _, _ => none

/-- Whether a code is listed for a view in R167. -/
def isCommandCode (v : View) (code : BitVec 8) : Bool :=
  (commandOfCode v code 0 false).isSome

/-- The command a write of `word` to CMD or SCMD spells: bits 7:0 are the code, the other bits are ignored (R164);
a code not listed for the view is BAD_COMMAND (R120). -/
def decodeCommandWrite (v : View) (word : Word) (a : AgentId) (targetAll : Bool) : Instr :=
  (commandOfCode v (word.setWidth 8) a targetAll).getD (.badCommand a v (word.setWidth 8))

/-- The command a write access spells (R163, R164): agent `a` writes `word` at word offset `offset`; `targetAll`
is whether the agent's SARG1 names the target ALL. -/
def decodeWrite (a : AgentId) (offset : BitVec 7) (word : Word) (targetAll : Bool) : Instr :=
  match registerAt offset with
  | some .cmd => decodeCommandWrite .agent word a targetAll
  | some .scmd => decodeCommandWrite .control word a targetAll
  | some .notify => .notifyWrite a word
  | some .tsel => .tsel a word
  | some (.tdata n) => .tdataWrite a n word
  | some .tcommit => .tcommit a
  | some .prescale => .prescaleWrite a word
  | _ => .argumentRegisterWrite a offset word

/-- The command a word of the opcode table spells: none, since no row of the table gives bits. -/
def decodeTableWord (_nbits _w : Nat) : Option Instr := none

end Sys2Proof
end

