-- ==== Sys2Proof/Machine/Supervisor.lean ====
section
/-! DEFINITION. GIVE_SUPERVISOR and TAKE_SUPERVISOR (06_agents_and_notice_credit.md, 6.8), and command codes no view
lists (R120). -/
namespace Sys2Proof.Machine

/-- GIVE_SUPERVISOR (R116). -/
def State.giveSupervisor (a : AgentId) (s : State) : State :=
  match agentArg (s.agent a).sarg0 with
  | none => s.controlRefuse a .badArgument
  | some t => (s.modAgent t fun e => { e with supervisor := true }).controlResult a { status := .done }

/-- GIVE_SUPERVISOR written to SCMD. -/
def execGiveSupervisor (a : AgentId) (s : State) : Outcome :=
  s.controlWrite a (State.giveSupervisor a)

/-- Agent `t` holds the supervisor right and no other agent does (R117, check 2). -/
def State.lastSupervisor (s : State) (t : AgentId) : Bool :=
  (s.agent t).supervisor && allAgents.all fun b => b == t || !(s.agent b).supervisor

/-- TAKE_SUPERVISOR (R117). -/
def State.takeSupervisor (a : AgentId) (s : State) : State :=
  match agentArg (s.agent a).sarg0 with
  | none => s.controlRefuse a .badArgument
  | some t =>
    if s.lastSupervisor t then s.controlRefuse a .lastSupervisor
    else (s.modAgent t fun e => { e with supervisor := false }).controlResult a { status := .done }

/-- TAKE_SUPERVISOR written to SCMD. -/
def execTakeSupervisor (a : AgentId) (s : State) : Outcome :=
  s.controlWrite a (State.takeSupervisor a)

/-- A code that is no command of its view (R120). A code the view lists is another row's command (log 10). -/
def execBadCommand (a : AgentId) (v : View) (code : BitVec 8) (s : State) : Outcome :=
  if isCommandCode v code then .refused .otherCommand
  else match v with
    | .agent => s.agentWrite fun s => s.refuse a .badCommand
    | .control => s.controlWrite a fun s => s.controlRefuse a .badCommand

end Sys2Proof.Machine
end

