-- ==== Sys2Proof/Machine/SweepControl.lean ====
section
/-! DEFINITION. The control-view commands that ask for a sweep, DETACH_AGENT and CLEAR_ALL
(09_sweeps_detach_and_clear.md, 9.2). -/
namespace Sys2Proof.Machine

/-- The checks of DETACH_AGENT (R149): the target, or the refusal. -/
def State.detachTarget (s : State) (a : AgentId) : Except Status AgentId :=
  match agentArg (s.agent a).sarg0 with
  | none => .error .badArgument
  | some t =>
    match (s.agent t).status with
    | .absent => .error .notAttached
    | .detaching => .error .alreadyQueued
    | .attached =>
      if t ≠ a ∧ (s.agent a).status = .attached ∧ (s.agent a).credits = 0 then .error .noCredit
      else if s.sweepFull then .error .sweepFull
      else .ok t

/-- A DETACH_AGENT that passes its checks (R150): the request is appended, and taken if the engine is idle, the caller
is debited, and the target enters DETACHING. A self-detach records no requester and costs nothing. -/
def State.retire (s : State) (a t : AgentId) : State :=
  let s1 :=
    if t = a then s.request { job := .detach t, requester := none }
    else (s.request { job := .detach t, requester := s.requesterOf a }).modAgent a AgentEntry.payRequest
  (s1.modAgent t AgentEntry.enterDetaching).controlResult a { status := .done }

/-- DETACH_AGENT (R149, R150). -/
def State.detachAgent (a : AgentId) (s : State) : State :=
  match s.detachTarget a with
  | .error st => s.controlRefuse a st
  | .ok t => s.retire a t

/-- DETACH_AGENT written to SCMD. -/
def execDetachAgent (a : AgentId) (s : State) : Outcome :=
  s.controlWrite a (State.detachAgent a)

/-- CLEAR_ALL (R151). -/
def State.clearAll (a : AgentId) (s : State) : State :=
  if s.clearOutstanding then s.controlRefuse a .alreadyQueued
  else if (s.agent a).status = .attached ∧ (s.agent a).credits = 0 then s.controlRefuse a .noCredit
  else if s.sweepFull then s.controlRefuse a .sweepFull
  else ((s.request { job := .clear, requester := s.requesterOf a }).modAgent a AgentEntry.payRequest).controlResult a
    { status := .done }

/-- CLEAR_ALL written to SCMD. -/
def execClearAll (a : AgentId) (s : State) : Outcome :=
  s.controlWrite a (State.clearAll a)

end Sys2Proof.Machine
end

