-- ==== Sys2Proof/Machine/Sweeps.lean ====
section
/-! DEFINITION. The sweep engine's events: visits and completion (09_sweeps_detach_and_clear.md, 9.3 and 9.5). -/
namespace Sys2Proof.Machine

/-- The position advances past the lock visited (R152). -/
def State.advancePosition (s : State) (f : SweepFlight) (h : f.position.val < Config.locks) : State :=
  { s with inFlight := some { f with position := ⟨f.position.val + 1, Nat.succ_lt_succ h⟩ } }

/-- What the detach sweep with target `t` does at lock `k` (R153, R66). -/
def State.detachVisit (s : State) (t : AgentId) (k : LockId) : State :=
  if (s.lock k).state = .closed then s
  else if ((s.lock k).holderOf t).isSome then s.loseHolder k t none
  else if ((s.lock k).waiterOf t).isSome then s.removeWaiters k (fun w => w.agent == t)
  else s

/-- What the clear sweep does at lock `k` (R154): cancel the waiters, revoke the holders, close the lock. -/
def State.clearVisit (s : State) (k : LockId) : State :=
  if (s.lock k).state = .closed then s
  else
    let s' := (s.cancelQueue k).revokeHolders k
    (s'.setLock k { s'.lock k with state := .closed, drain := none }).lowerUse (s.lock k).cls

/-- DETACH_SWEEP_VISIT: the detach sweep in flight visits the lock at its position (R152, R153). No such visit is made
while no detach sweep is in flight, or after lock 63 (log 5). -/
def execDetachSweepVisit (s : State) : Outcome :=
  match s.inFlight with
  | some f =>
    match f.request.job with
    | .detach t =>
      if h : f.position.val < Config.locks then
        .next ((s.detachVisit t ⟨f.position.val, h⟩).advancePosition f h)
      else .next s
    | .clear => .next s
  | none => .next s

/-- CLEAR_SWEEP_VISIT: the clear sweep in flight visits the lock at its position (R152, R154). -/
def execClearSweepVisit (s : State) : Outcome :=
  match s.inFlight with
  | some f =>
    match f.request.job with
    | .clear =>
      if h : f.position.val < Config.locks then
        .next ((s.clearVisit ⟨f.position.val, h⟩).advancePosition f h)
      else .next s
    | .detach _ => .next s
  | none => .next s

/-- The agent entry after the completion of its detach sweep (R112). -/
def AgentEntry.becomeAbsent (e : AgentEntry) : AgentEntry :=
  AgentEntry.drive { e with status := .absent, credits := Config.credits }

/-- Step 1 of a completion: a detach target becomes ABSENT; a clear sweep changes nothing (R157). -/
def State.completeJob (s : State) (job : SweepJob) : State :=
  match job with
  | .detach t => s.modAgent t AgentEntry.becomeAbsent
  | .clear => s

/-- The epoch test: the requester is ATTACHED with the epoch it had when it asked (R157, step 2). -/
def State.requesterPresent (s : State) (q : AgentId × BitVec 8) : Bool :=
  (s.agent q.1).status == .attached && (s.agent q.1).epoch == q.2

/-- Step 2 of a completion: SWEEP_DONE under the epoch test (R157). -/
def State.addressSweepDone (s : State) (r : SweepRequest) : State :=
  match r.requester with
  | some q => if s.requesterPresent q then s.notify q.1 (.sweepDone r.job (stamp s.units)) else s
  | none => s

/-- The completion of a sweep (R157): its three steps in order. -/
def State.completeSweep (s : State) (r : SweepRequest) : State :=
  { (s.completeJob r.job).addressSweepDone r with inFlight := none }.engineTake

/-- SWEEP_COMPLETION: taken after the visit to lock 63 (R157); there is none at any other position (log 5). -/
def execSweepCompletion (s : State) : Outcome :=
  match s.inFlight with
  | some f => if f.position.val = Config.locks then .next (s.completeSweep f.request) else .next s
  | none => .next s

end Sys2Proof.Machine
end

