-- ==== Sys2Proof/Machine/TablePort.lean ====
section
/-! DEFINITION. The table port: TSEL, TDATA writes and TCOMMIT (10_host_bus_window.md, 10.5; 05_lock_classes.md,
5.5). -/
namespace Sys2Proof.Machine

/-- The LOCK snapshot of lock `k` (R171). -/
def State.lockSnapshot (s : State) (k : LockId) : LockSnapshot :=
  let l := s.lock k
  { state := l.state, cls := l.cls, drain := l.drain, marker := l.marker, holderCount := l.holders.length,
    ticket := l.ticket, queue := l.queue.map WaitEntry.num, holders := l.holders.map HolderRecord.agent }

/-- The HOLDER snapshot of agent `a`'s record at lock `k`, or that it is not present (R92, R171). -/
def State.holderSnapshot (s : State) (k : LockId) (a : AgentId) : Option HolderSnapshot :=
  ((s.lock k).holderOf a).map fun r =>
    { mode := r.mode, depth := r.depth, place := (s.lock k).holderPlace a, ticket := r.ticket,
      deadline := r.deadline }

/-- The WAIT snapshot of entry `e`, or that it is free (R71, R171). -/
def State.waitSnapshot (s : State) (e : EntryId) : Option WaitSnapshot :=
  (s.poolEntry e).map fun p =>
    { mode := p.2.mode, position := (s.lock p.1).queuePosition p.2.agent, agent := p.2.agent, lock := p.1,
      tag := p.2.tag, deadline := p.2.deadline }

/-- The CLASS snapshot of class `c` (R105, R171). -/
def State.classSnapshot (s : State) (c : ClassId) : StagedClass :=
  let e := s.cls c
  { mask := e.desc.mask, sharedAllowed := e.desc.sharedAllowed, recursionAllowed := e.desc.recursionAllowed,
    ordered := e.desc.ordered, rank := e.desc.rank.setWidth 8, lease := e.desc.lease.setWidth 16,
    cap := e.desc.cap.setWidth 16, useCount := BitVec.ofNat 7 e.useCount }

/-- The AGENT snapshot of agent `b` (R124, R171). -/
def State.agentSnapshot (s : State) (b : AgentId) : AgentSnapshot :=
  let e := s.agent b
  { status := e.status, supervisor := e.supervisor, notifyEnable := e.notifyEnable, notifyMode := e.notifyMode,
    latch := e.latch, epoch := e.epoch, credits := e.credits, queueLength := e.notices.length }

/-- Lock of a HOLDER index: the index divided by 8 (R165). -/
def holderIndexLock (i : BitVec 9) : LockId :=
  ⟨i.toNat / 8, by have h : i.toNat < 512 := i.isLt; show i.toNat / 8 < 64; omega⟩

/-- Agent of a HOLDER index: the index modulo 8 (R165). -/
def holderIndexAgent (i : BitVec 9) : AgentId :=
  ⟨i.toNat % 8, Nat.mod_lt _ (by decide)⟩

/-- What a selection puts in staging: a snapshot, or an invalid staging for a table code of 0, 6 or 7 or an index
outside the range of its table (R165). -/
def State.select (s : State) (table : BitVec 3) (index : BitVec 9) : Option Staging :=
  match table.toNat with
  | 1 => if h : index.toNat < 64 then some (.lock ⟨index.toNat, h⟩ (s.lockSnapshot ⟨index.toNat, h⟩)) else none
  | 2 => some (.holder index (s.holderSnapshot (holderIndexLock index) (holderIndexAgent index)))
  | 3 => if h : index.toNat < 32 then some (.wait ⟨index.toNat, h⟩ (s.waitSnapshot ⟨index.toNat, h⟩)) else none
  | 4 => if h : index.toNat < 8 then some (.cls ⟨index.toNat, h⟩ (s.classSnapshot ⟨index.toNat, h⟩)) else none
  | 5 => if h : index.toNat < 8 then some (.agent ⟨index.toNat, h⟩ (s.agentSnapshot ⟨index.toNat, h⟩)) else none
  | _ => none

/-- A write of TSEL (R165). It writes no result record. -/
def execTsel (a : AgentId) (w : Word) (s : State) : Outcome :=
  s.controlWrite a fun s => s.modAgent a fun e => { e with staging := s.select (tselTable w) (tselIndex w) }

/-- A write of TDATA`n` (R166): answered with BERR_N unless the staging is a CLASS snapshot (R163). -/
def execTdataWrite (a : AgentId) (n : Fin 5) (w : Word) (s : State) : Outcome :=
  match (s.agent a).staging with
  | some (.cls i c) =>
    s.controlWrite a fun s => s.modAgent a fun e => { e with staging := some (.cls i (c.writeWord n w)) }
  | _ => .next s.busError

/-- A commit of agent `a`'s staging (R100, R101, R102). -/
def State.commit (a : AgentId) (s : State) : State :=
  match (s.agent a).staging with
  | some (.cls i c) =>
    if !c.inRange then s.controlRefuse a .badArgument
    else if 0 < (s.cls i).useCount then s.controlRefuse a .inUse
    else (s.setClass i { s.cls i with desc := c.toDesc }).controlResult a { status := .done }
  | _ => s.controlRefuse a .badArgument

/-- A write of TCOMMIT; its data word is ignored (R164). -/
def execTcommit (a : AgentId) (s : State) : Outcome :=
  s.controlWrite a (State.commit a)

end Sys2Proof.Machine
end

