-- ==== Sys2Proof/Machine/Timebase.lean ====
section
/-! DEFINITION. The timebase (08_timebase.md): PRESCALE writes, advances of the unit counter and REFCLK periods, and
the two events a reached deadline makes due, lease expiry (R81) and wait timeout (R60). -/
namespace Sys2Proof.Machine

/-- A write of PRESCALE: the prescaler is set and the partial division restarts (R139). -/
def execPrescaleWrite (a : AgentId) (w : Word) (s : State) : Outcome :=
  s.controlWrite a fun s => { s with prescaler := prescaleArg w, refCount := 0 }

/-- An advance of the unit counter by 1, wrapping; the count of REFCLK periods begins again (R138, R140). -/
def State.advance (s : State) : State :=
  { s with units := s.units + 1, refCount := 0 }

/-- The timebase can advance: it is not halted (R138), and every expiry and timeout the last advance made due has
been taken (R142). -/
def State.canAdvance (s : State) : Bool :=
  s.prescaler != 0 && !s.anyDue

/-- UNIT_ADVANCE: the counter advances (R138, R140), whatever number of REFCLK periods had been counted, since the
command stands for those still lacking (the model's choice, log 3). While the timebase is halted (R138), or an event of
the last advance is still to be taken (R142), no advance takes place and nothing changes (log 3). -/
def execUnitAdvance (s : State) : Outcome :=
  if s.canAdvance then .next s.advance else .next s

/-- One REFCLK period: what a step does while no command waits (R138; log 2). The last period of the prescaler's
count is an advance. -/
def State.refPeriod (s : State) : State :=
  if s.prescaler = 0 then s
  else if s.refCount.toNat + 1 < s.prescaler.toNat then { s with refCount := s.refCount + 1 }
  else if s.canAdvance then s.advance else s

/-- LEASE_EXPIRY of agent `a`'s record at lock `k` (R81, R82). It is taken if the record is present and its deadline is
the one reached; otherwise nothing changes (R142). -/
def execLeaseExpiry (k : LockId) (a : AgentId) (s : State) : Outcome :=
  match (s.lock k).holderOf a with
  | none => .next s
  | some r =>
    if deadlineDue s.units r.deadline then
      .next (s.loseHolder k a (some (.expired k r.mode r.ticket (stamp s.units))))
    else .next s

/-- The wait entry `w` of lock `k` times out (R60, R61): a TIMED_OUT notice, 1 credit, removal, and grant evaluation if
it was the head. -/
def State.timeOut (s : State) (k : LockId) (w : WaitEntry) : State :=
  ((s.notify w.agent (.timedOut k w.mode w.tag (stamp s.units))).modAgent w.agent (AgentEntry.regain 1)).removeWaiters k
    (fun x => x.num == w.num)

/-- TIMEOUT of wait entry `e`. It is taken if the request is linked and its deadline is the one reached; otherwise
nothing changes (R142). -/
def execTimeout (e : EntryId) (s : State) : Outcome :=
  match s.poolEntry e with
  | none => .next s
  | some (k, w) => if deadlineDue s.units w.deadline then .next (s.timeOut k w) else .next s

end Sys2Proof.Machine
end

