-- ==== Sys2Proof/WellFormed.lean ====
section
/-! DEFINITION. Which terms are commands of their own row. Operands of fixed width are bounded by their types;
two rows need a check: a BAD_COMMAND must carry a code its view does not list (R120), and an
ARGUMENT_REGISTER_WRITE must not name a register whose write is another row's command (R164). -/
namespace Sys2Proof

/-- The term is a command of its own row. -/
def Instr.wellFormed : Instr → Bool
  | .badCommand _ v code => !isCommandCode v code
  | .argumentRegisterWrite _ offset _ =>
    match registerAt offset with
    | some r => !r.startsCommand
    | none => true
  | .attach _ | .detach _ | .acquire _ | .release _ | .renew _ | .cancel _ | .probe _ => true
  | .openLock _ | .closeLock _ | .revoke _ | .revokeAll _ | .detachAgent _ | .clearAll _ => true
  | .giveSupervisor _ | .takeSupervisor _ | .ntake _ | .notifyWrite _ _ | .tsel _ _ => true
  | .tdataWrite _ _ _ | .tcommit _ | .prescaleWrite _ _ | .pinReset _ | .unitAdvance => true
  | .leaseExpiry _ _ | .timeout _ | .detachSweepVisit | .clearSweepVisit | .sweepCompletion => true

end Sys2Proof
end

