-- ==== Sys2Proof/Machine/Window.lean ====
section
/-! DEFINITION. The host bus window: argument register writes and writes answered with BERR_N (R163, R164), pin reset
(R161, R159), register reads, and the command a write access is (R163, R164, R167). -/
namespace Sys2Proof.Machine

/-- The accessing agent may reach the offset: the agent view is open to all, the control view to the supervisor
right (R115, R163). -/
def State.admitsOffset (s : State) (a : AgentId) (offset : BitVec 7) : Bool :=
  viewOf offset == .agent || (s.agent a).supervisor

/-- The staging can be written through TDATA: it is a valid CLASS snapshot (R163). -/
def AgentEntry.stagingWritable (e : AgentEntry) : Bool :=
  match e.staging with
  | some (.cls _ _) => true
  | _ => false

/-- A write at `offset` by agent `a` is answered with BERR_N (R161, R163). -/
def State.writeFails (s : State) (a : AgentId) (offset : BitVec 7) : Bool :=
  s.resetLow || !s.admitsOffset a offset ||
    match registerAt offset with
    | none => true
    | some (.tdata _) => !(s.agent a).stagingWritable
    | some r => !r.writable

/-- The agent entry after a write of an argument register (R106, R164). -/
def AgentEntry.writeArgument (e : AgentEntry) (r : Register) (w : Word) : AgentEntry :=
  match r with
  | .arg0 => { e with arg0 := w }
  | .arg1 => { e with arg1 := w }
  | .sarg0 => { e with sarg0 := w }
  | .sarg1 => { e with sarg1 := w }
  | _ => e

/-- ARGUMENT_REGISTER_WRITE (R164): BERR_N changes nothing; an argument register takes the word and nothing starts. A
write that starts another row's command is not this one (log 10). -/
def execArgumentRegisterWrite (a : AgentId) (offset : BitVec 7) (w : Word) (s : State) : Outcome :=
  if s.writeFails a offset then .next s.busError
  else match registerAt offset with
    | some r => if r.isArgument then .next (s.modAgent a fun e => e.writeArgument r w).ready else .refused .otherCommand
    | none => .next s.busError

/-- PIN_RESET (R161, R159): every table, queue, counter and agent entry takes its reset value, whatever it held. The
commands that wait outside the part stay waiting (log 14). -/
def execPinReset (stillLow : Bool) (s : State) : Outcome :=
  .next { State.reset with resetLow := stillLow, pending := s.pending }

/-- The value of a readable register for agent `a` (R162, R163). NTAKE's is the word its pop returns. -/
def State.registerValue (s : State) (a : AgentId) (r : Register) : Word :=
  let e := s.agent a
  match r with
  | .arg0 => e.arg0
  | .arg1 => e.arg1
  | .res0 => e.result.word0
  | .res1 => e.result.word1
  | .ntake =>
    match e.notices with
    | [] => emptyNotice
    | n :: _ => n.word0
  | .nword1 => e.nword1
  | .ncount => e.ncountWord
  | .notify => e.notifyWord
  | .agent => e.agentWord a
  | .sarg0 => e.sarg0
  | .sarg1 => e.sarg1
  | .sres0 => e.controlResult.word0
  | .sres1 => e.controlResult.word1
  | .tdata n => tdataWord e.staging n
  | .prescale => field 0 s.prescaler
  | .units => s.units
  | .sweep => s.sweepWord
  | .cmd | .scmd | .tsel | .tcommit => 0

/-- The answer to a read at `offset` by agent `a` (R161, R163). Reads other than NTAKE change nothing and have no
row; this function is what they return. -/
def State.busRead (s : State) (a : AgentId) (offset : BitVec 7) : BusAnswer :=
  if s.resetLow || !s.admitsOffset a offset then .berr (some 0)
  else match registerAt offset with
    | some r => if r.readable then .rdy (some (s.registerValue a r)) else .berr (some 0)
    | none => .berr (some 0)

/-- The command a write access by agent `a` is, as its argument registers stand (R163, R164, R168). -/
def State.windowWrite (s : State) (a : AgentId) (offset : BitVec 7) (w : Word) : Instr :=
  decodeWrite a offset w (targetIsAll (s.agent a).sarg1)

end Sys2Proof.Machine
end

