-- ==== Sys2Proof/Machine/Dispatch.lean ====
section
/-! DEFINITION. One arm per command. -/
namespace Sys2Proof.Machine

def exec (i : Instr) (s : State) : Host.Outcome State Fault Refusal :=
  match i with
  | .attach a => Sys2Proof.Machine.execAttach a s
  | .detach a => Sys2Proof.Machine.execDetach a s
  | .acquire a => Sys2Proof.Machine.execAcquire a s
  | .release a => Sys2Proof.Machine.execRelease a s
  | .renew a => Sys2Proof.Machine.execRenew a s
  | .cancel a => Sys2Proof.Machine.execCancel a s
  | .probe a => Sys2Proof.Machine.execProbe a s
  | .openLock a => Sys2Proof.Machine.execOpen a s
  | .closeLock a => Sys2Proof.Machine.execClose a s
  | .revoke a => Sys2Proof.Machine.execRevoke a s
  | .revokeAll a => Sys2Proof.Machine.execRevokeAll a s
  | .detachAgent a => Sys2Proof.Machine.execDetachAgent a s
  | .clearAll a => Sys2Proof.Machine.execClearAll a s
  | .giveSupervisor a => Sys2Proof.Machine.execGiveSupervisor a s
  | .takeSupervisor a => Sys2Proof.Machine.execTakeSupervisor a s
  | .badCommand a view code => Sys2Proof.Machine.execBadCommand a view code s
  | .ntake a => Sys2Proof.Machine.execNtake a s
  | .notifyWrite a word => Sys2Proof.Machine.execNotifyWrite a word s
  | .tsel a word => Sys2Proof.Machine.execTsel a word s
  | .tdataWrite a n word => Sys2Proof.Machine.execTdataWrite a n word s
  | .tcommit a => Sys2Proof.Machine.execTcommit a s
  | .prescaleWrite a word => Sys2Proof.Machine.execPrescaleWrite a word s
  | .argumentRegisterWrite a offset word => Sys2Proof.Machine.execArgumentRegisterWrite a offset word s
  | .pinReset stillLow => Sys2Proof.Machine.execPinReset stillLow s
  | .unitAdvance => Sys2Proof.Machine.execUnitAdvance s
  | .leaseExpiry k a => Sys2Proof.Machine.execLeaseExpiry k a s
  | .timeout e => Sys2Proof.Machine.execTimeout e s
  | .detachSweepVisit => Sys2Proof.Machine.execDetachSweepVisit s
  | .clearSweepVisit => Sys2Proof.Machine.execClearSweepVisit s
  | .sweepCompletion => Sys2Proof.Machine.execSweepCompletion s

end Sys2Proof.Machine
end

