-- ==== Sys2Proof/Machine/Step.lean ====
section
/-! DEFINITION. One step: the command at the front of the queue, or a REFCLK period while none waits (log 1, log 2). -/
namespace Sys2Proof.Machine

/-- The command at the front of the queue is taken and run with the queue's rest; while no command waits, one REFCLK
period passes. -/
def step (s : State) : Host.Outcome State Fault Refusal :=
  match s.pending with
  | c :: rest => exec c { s with pending := rest }
  | [] => .next s.refPeriod

/-- `s` with the command a table word spells put at the front of its queue; no row of the table gives bits, so no word
spells one (log 13). -/
def State.withFetchWord (s : State) (nbits w : Nat) : State :=
  match decodeTableWord nbits w with
  | some c => { s with pending := c :: s.pending }
  | none => s

end Sys2Proof.Machine
end

