-- ==== Sys2Proof/Safety.lean ====
section
/-! DEFINITION. What the spec says holds at the end of every event: the laws of the lock table, the class table, the
wait pool, the agent table, the notice unit, the timebase and the sweep engine. Each is a property of one state; that
every step keeps it is stated in Certificates. The division law rests on a choice of the model besides (log 2). -/
namespace Sys2Proof.Machine

/-! ## Lock table -/

/-- State, holder list, queue and drain mode agree (R6). -/
def LockEntry.Agrees (l : LockEntry) : Prop :=
  match l.state with
  | .closed => l.holders = [] ∧ l.queue = [] ∧ l.drain = none
  | .free => l.holders = [] ∧ l.queue = [] ∧ l.drain = none
  | .exclusive => l.holders.length = 1 ∧ (∀ r ∈ l.holders, r.mode = .exclusive) ∧ l.drain = none
  | .shared =>
    l.holders ≠ [] ∧ (∀ r ∈ l.holders, r.mode = .shared) ∧ l.drain = none ∧
      ∀ w ∈ l.queue.head?, w.mode = .exclusive
  | .draining =>
    l.holders ≠ [] ∧ l.queue = [] ∧ l.drain.isSome ∧ (∀ r ∈ l.holders, some r.mode = l.drain) ∧
      (l.drain = some .exclusive → l.holders.length = 1)

/-- The agents that hold or wait at the lock, holders first. -/
def LockEntry.parties (l : LockEntry) : List AgentId :=
  l.holders.map HolderRecord.agent ++ l.queue.map WaitEntry.agent

/-- No agent has two holdings, two waits, or a holding and a wait at one lock (R5). -/
def LockEntry.OnePlaceEach (l : LockEntry) : Prop :=
  l.parties.Nodup

/-- Every holder record has a depth of 1 to 15 (R3). -/
def LockEntry.DepthsInRange (l : LockEntry) : Prop :=
  ∀ r ∈ l.holders, 1 ≤ r.depth ∧ r.depth ≤ 15

/-- The laws of one lock entry (R3, R5, R6). -/
structure LockEntry.Sound (l : LockEntry) : Prop where
  agrees : l.Agrees
  onePlace : l.OnePlaceEach
  depths : l.DepthsInRange

/-- Every lock entry meets the laws of R3, R5 and R6. -/
def State.LockLaw (s : State) : Prop :=
  ∀ k, (s.lock k).Sound

/-- Where one EXCLUSIVE holder has the lock, the counter is that holder's ticket (R172). -/
def State.TicketLaw (s : State) : Prop :=
  ∀ k, ((s.lock k).state = .exclusive ∨ (s.lock k).drain = some .exclusive) →
    ∀ r ∈ (s.lock k).holders, r.ticket = (s.lock k).ticket

/-! ## Class table -/

/-- Lock `k` counts towards class `c`: it names `c` and is not CLOSED. -/
def State.usesClass (s : State) (c : ClassId) (k : LockId) : Bool :=
  (s.lock k).state != .closed && (s.lock k).cls == c

/-- The use count of a class is the number of its locks that are not CLOSED (R98). -/
def State.UseLaw (s : State) : Prop :=
  ∀ c, (s.cls c).useCount = (allLocks.filter (s.usesClass c)).length

/-- What the class of a lock promises of its holder records (R97): mask, mode, depth, and lease deadlines that all
records carry or none does. -/
def HolderRecord.Fits (c : ClassDesc) (r : HolderRecord) : Prop :=
  c.admits r.agent = true ∧ (r.mode = .shared → c.sharedAllowed = true) ∧
    (c.recursionAllowed = false → r.depth ≤ 1) ∧ (r.deadline.isSome ↔ c.lease ≠ 0)

/-- What the class of a lock promises of its wait entries (R97, R56). -/
def WaitEntry.Fits (c : ClassDesc) (w : WaitEntry) : Prop :=
  c.admits w.agent = true ∧ (w.mode = .shared → c.sharedAllowed = true) ∧ (c.cap ≠ 0 → w.deadline.isSome)

/-- Every holder record and wait entry fits the class of its lock (R97). -/
def State.ClassLaw (s : State) : Prop :=
  ∀ k, (∀ r ∈ (s.lock k).holders, r.Fits (s.lockClass k)) ∧ ∀ w ∈ (s.lock k).queue, w.Fits (s.lockClass k)

/-! ## Wait pool -/

/-- The numbers of the wait entries linked in any queue. -/
def State.linkedNumbers (s : State) : List EntryId :=
  allLocks.flatMap fun k => (s.lock k).queue.map WaitEntry.num

/-- Each linked entry is in exactly one queue, once (R53). -/
def State.PoolLaw (s : State) : Prop :=
  s.linkedNumbers.Nodup

/-! ## Timebase -/

/-- Every deadline lies at most 4095 advances ahead of the counter (R141). -/
def deadlineNear (units : Word) (d : Option Word) : Prop :=
  match d with
  | some x => (x - units).toNat ≤ 4095
  | none => True

/-- Every deadline in the tables lies at most 4095 advances ahead; at 0 it is due (R141, R146). -/
def State.DeadlineLaw (s : State) : Prop :=
  ∀ k, (∀ r ∈ (s.lock k).holders, deadlineNear s.units r.deadline) ∧
    ∀ w ∈ (s.lock k).queue, deadlineNear s.units w.deadline

/-- The periods counted towards the next advance are fewer than the prescaler; a halted timebase counts none (R138). That
the count is 0 at pin reset, and that a last period which has to wait is not counted, is the model's choice (log 2). -/
def State.DivisionLaw (s : State) : Prop :=
  (s.prescaler = 0 → s.refCount = 0) ∧ (s.prescaler ≠ 0 → s.refCount < s.prescaler)

/-! ## Notices and notify lines -/

/-- Every notify line is driven exactly under the condition of R134. -/
def State.LineLaw (s : State) : Prop :=
  ∀ a, (s.agent a).lineLow = (s.agent a).lineCondition

/-- The notice queue of an agent that is not ATTACHED is empty, and an empty queue has its latch clear (R126, R132). -/
def State.QuietLaw (s : State) : Prop :=
  ∀ a, ((s.agent a).status ≠ .attached → (s.agent a).notices = []) ∧
    ((s.agent a).notices = [] → (s.agent a).latch = false)

/-! ## Supervisor right -/

/-- At least one agent holds the supervisor right (R115). -/
def State.SupervisorLaw (s : State) : Prop :=
  ∃ a, (s.agent a).supervisor = true

/-! ## Sweep engine -/

/-- The laws of the sweep queue (R147, R148): at most 4 wait, none waits while the engine is idle, no job is asked for
twice, and an agent is DETACHING exactly while a DETACH request naming it is outstanding. -/
structure State.SweepLaw (s : State) : Prop where
  slots : s.sweepQueue.length ≤ 4
  idle : s.inFlight = none → s.sweepQueue = []
  once : (s.outstanding.map SweepRequest.job).Nodup
  detaching : ∀ a, (s.agent a).status = .detaching ↔ SweepJob.detach a ∈ s.outstanding.map SweepRequest.job

/-- Agent `a` has no holder record and no wait entry at lock `k`. -/
def State.NoTrace (s : State) (a : AgentId) (k : LockId) : Prop :=
  (∀ r ∈ (s.lock k).holders, r.agent ≠ a) ∧ ∀ w ∈ (s.lock k).queue, w.agent ≠ a

/-- What a sweep in flight has left behind it at the locks below its position (R152). -/
def State.VisitLaw (s : State) : Prop :=
  ∀ f ∈ s.inFlight, ∀ k : LockId, k.val < f.position.val →
    match f.request.job with
    | .detach t => s.NoTrace t k
    | .clear => (s.lock k).state = .closed

/-- An ABSENT agent has no holder record, no wait entry, 16 credits and no notices (R108). -/
def State.AbsentLaw (s : State) : Prop :=
  ∀ a, (s.agent a).status = .absent →
    (∀ k, s.NoTrace a k) ∧ (s.agent a).credits = 16 ∧ (s.agent a).notices = []

/-- Each requester in a list of requests is still the attachment that asked, or has its own DETACH request further
back (R157). -/
def State.RequestersCovered (s : State) : List SweepRequest → Prop
  | [] => True
  | r :: rs =>
    (∀ q ∈ r.requester, s.requesterPresent q = true ∨ SweepJob.detach q.1 ∈ rs.map SweepRequest.job) ∧
      s.RequestersCovered rs

/-- Every outstanding request's requester passes the epoch test or stands ahead of its own detachment (R157). -/
def State.RequesterLaw (s : State) : Prop :=
  s.RequestersCovered s.outstanding

/-! ## Notice credit -/

/-- The number of agent `a`'s holder records. -/
def State.holdings (s : State) (a : AgentId) : Nat :=
  (allLocks.map fun k => (s.lock k).holders.countP (fun r => r.agent == a)).sum

/-- The number of agent `a`'s wait entries. -/
def State.waits (s : State) (a : AgentId) : Nat :=
  (allLocks.map fun k => (s.lock k).queue.countP (fun w => w.agent == a)).sum

/-- The number of sweep requests, queued or in flight, that carry agent `a` with its current epoch as requester. -/
def State.requests (s : State) (a : AgentId) : Nat :=
  s.outstanding.countP (fun r => r.requester == some (a, (s.agent a).epoch))

/-- The sum of R121 for agent `a`. -/
def State.creditSum (s : State) (a : AgentId) : Nat :=
  (s.agent a).credits + (s.agent a).notices.length + 2 * s.waits a + s.holdings a + s.requests a

/-- For every ATTACHED agent the sum is 16 (R121). -/
def State.CreditLaw (s : State) : Prop :=
  ∀ a, (s.agent a).status = .attached → s.creditSum a = 16

/-- Credits and notice queues stay within 16 (R122, R126). -/
def State.CreditBounds (s : State) : Prop :=
  ∀ a, (s.agent a).credits ≤ 16 ∧ (s.agent a).notices.length ≤ 16

/-! ## All of them -/

/-- Every law at once: what holds of the part at the end of every event. -/
structure State.Sane (s : State) : Prop where
  locks : s.LockLaw
  tickets : s.TicketLaw
  uses : s.UseLaw
  classes : s.ClassLaw
  pool : s.PoolLaw
  deadlines : s.DeadlineLaw
  division : s.DivisionLaw
  lines : s.LineLaw
  quiet : s.QuietLaw
  supervisor : s.SupervisorLaw
  sweeps : s.SweepLaw
  visits : s.VisitLaw
  absent : s.AbsentLaw
  requesters : s.RequesterLaw
  credit : s.CreditLaw
  bounds : s.CreditBounds

end Sys2Proof.Machine
end

