-- ==== Sys2Proof/Certificates/Slice0/Obligations.lean ====
section
/-! DEFINITION. The statements for the provers. Where a statement gives the next state, everything that state's
expression does not change is left as it stood: `setLock k`, `setClass c` and `setAgent a` write one entry, `answered`
writes the bus answer alone (log 7). `s.resetLow = false` says that RESET_N is high, so that accesses are taken (R161). -/

open Sys2Proof Sys2Proof.Machine

/-! ## Vocabulary -/

/-- `s` after agent `a`'s agent-view command was refused with `st`: RDY, the status and the caller's credits in its
agent-view record, zeros elsewhere, nothing else changed (R120, R164). -/
def Sys2Proof.Machine.State.refusedTo (s : State) (a : AgentId) (st : Status) : State :=
  (s.setAgent a { s.agent a with result := .command { status := st, credits := (s.agent a).credits } }).answered
    (.rdy none)

/-- `s` after agent `a`'s control-view command was refused with `st` (R120, R164). -/
def Sys2Proof.Machine.State.controlRefusedTo (s : State) (a : AgentId) (st : Status) : State :=
  (s.setAgent a { s.agent a with controlResult := .command { status := st, credits := (s.agent a).credits } }).answered
    (.rdy none)

/-- Agent `a`'s lock argument, ARG0 bits 7:0 (R168). -/
def Sys2Proof.Machine.State.argLock (s : State) (a : AgentId) : Nat := ((s.agent a).arg0.setWidth 8).toNat

/-- Agent `a`'s control lock argument, SARG0 bits 7:0 (R168). -/
def Sys2Proof.Machine.State.sargLock (s : State) (a : AgentId) : Nat := ((s.agent a).sarg0.setWidth 8).toNat

/-- Agent `a`'s target argument in SARG0, bits 3:0 (R168). -/
def Sys2Proof.Machine.State.sargTarget (s : State) (a : AgentId) : Nat := ((s.agent a).sarg0.extractLsb' 0 4).toNat

/-- Agent `a`'s REVOKE target, SARG1 bits 3:0 (R168). -/
def Sys2Proof.Machine.State.revokeArg (s : State) (a : AgentId) : Nat := ((s.agent a).sarg1.extractLsb' 0 4).toNat

/-- The mode agent `a`'s ACQUIRE asks for, ARG0 bit 8 (R168). -/
def Sys2Proof.Machine.State.argMode (s : State) (a : AgentId) : Mode :=
  if (s.agent a).arg0.getLsbD 8 then .shared else .exclusive

/-- `r` is the one holder record of agent `a` at lock `k`. -/
def Sys2Proof.Machine.State.Holds (s : State) (a : AgentId) (k : LockId) (r : HolderRecord) : Prop :=
  r ∈ (s.lock k).holders ∧ r.agent = a ∧ (s.lock k).OnePlaceEach

/-- Control accesses of agent `a` are taken: RESET_N is high and `a` holds the supervisor right (R115, R161). -/
def Sys2Proof.Machine.State.Controls (s : State) (a : AgentId) : Prop :=
  s.resetLow = false ∧ (s.agent a).supervisor = true

/-- Checks 1 to 5 of ACQUIRE pass for agent `a` at lock `k` (R31). -/
structure Sys2Proof.Machine.State.MayAsk (s : State) (a : AgentId) (k : LockId) : Prop where
  reset : s.resetLow = false
  attached : (s.agent a).status = .attached
  lock : s.argLock a = k.val
  inService : (s.lock k).state ≠ .closed ∧ (s.lock k).state ≠ .draining
  member : (s.lockClass k).mask.getLsbD a.val = true
  mode : s.argMode a = .shared → (s.lockClass k).sharedAllowed = true

/-- Checks 6 to 8 of ACQUIRE pass as well: no holding, no wait, and the rank order is kept (R31, R40). -/
structure Sys2Proof.Machine.State.MayContend (s : State) (a : AgentId) (k : LockId) : Prop
    extends s.MayAsk a k where
  notHolding : ∀ r ∈ (s.lock k).holders, r.agent ≠ a
  notWaiting : ∀ w ∈ (s.lock k).queue, w.agent ≠ a
  inOrder : (s.lockClass k).ordered = true → ∀ r, s.heldRank a = some r → r < (s.lockClass k).rank.toNat

/-- The lock can be granted at once to agent `a`'s request (R42). -/
def Sys2Proof.Machine.State.GrantableNow (s : State) (a : AgentId) (k : LockId) : Prop :=
  (s.lock k).state = .free ∨
    ((s.lock k).state = .shared ∧ s.argMode a = .shared ∧ (s.lock k).queue = [])

/-- The agent entry after a notice `n` is addressed to it (R127, R128, R134). -/
def Sys2Proof.Machine.AgentEntry.told (e : AgentEntry) (n : Notice) : AgentEntry :=
  if e.status = .attached then
    { e with
      notices := e.notices ++ [n]
      latch := e.latch || (e.notifyEnable && decide (e.notifyMode = .arrival))
      lineLow := e.notifyEnable &&
        (decide (e.notifyMode = .level) || e.latch || (e.notifyEnable && decide (e.notifyMode = .arrival))) }
  else e

/-- The agent entry after `n` credits are returned to it; a DETACHING agent's credits are frozen (R121, R123). -/
def Sys2Proof.Machine.AgentEntry.repaid (e : AgentEntry) (n : Nat) : AgentEntry :=
  if e.status = .attached then { e with credits := e.credits + n } else e

/-! ## The step and the queue -/

/-- A step with a command waiting runs the front command with the queue's rest. One queue of waiting commands, first in
first out, is the model's choice (log 1, log 13): the spec takes steps whole and leaves their order open. -/
def Obligations.StepRunsTheFrontCommand : Prop :=
  ∀ (c : Instr) (s : State), step { s with pending := c :: s.pending } = exec c s

/-- While no command waits, a step is one REFCLK period (the model's choice, log 2): a halted timebase counts nothing;
a running one counts the period, and on the last period of the prescaler advances the unit counter, once no expiry or
timeout of the last advance is left to take (the period that waits, log 2 and log 3; due as a deadline equal to the
counter, log 4). -/
def Obligations.IdleStepIsOneReferencePeriod : Prop :=
  ∀ s : State, s.pending = [] →
    (s.prescaler = 0 → step s = .next s) ∧
    (s.refCount.toNat + 1 < s.prescaler.toNat → step s = .next { s with refCount := s.refCount + 1 }) ∧
    (s.prescaler ≠ 0 → s.prescaler.toNat ≤ s.refCount.toNat + 1 → s.anyDue = false →
      step s = .next { s with units := s.units + 1, refCount := 0 }) ∧
    (s.prescaler ≠ 0 → s.prescaler.toNat ≤ s.refCount.toNat + 1 → s.anyDue = true → step s = .next s)

/-- No command touches the queue of waiting commands. The queue is the model's choice (log 1, log 13), and so is that a
pin reset keeps it (log 14): the spec speaks of no queue of commands. -/
def Obligations.ExecLeavesTheQueueAlone : Prop :=
  ∀ (c : Instr) (s t : State), exec c s = .next t → t.pending = s.pending

/-- Every command of its own row completes in every state: nothing faults, nothing is refused. An access is taken, with
a refused command told so in its result record, or is answered with BERR_N (R120, R161). That an event command which
names no event of the part completes with no change is the model's choice (log 5; log 3 for UNIT_ADVANCE), and so is
which terms are commands of their own row (log 10). -/
def Obligations.WellFormedCommandsComplete : Prop :=
  ∀ (c : Instr) (s : State), c.wellFormed = true → ∃ t, exec c s = .next t

/-- Pin reset, from any state: every table, counter, queue and agent entry at its reset value (R1, R53, R93, R106, R126,
R138, R147, R159). The model's choice are the count of REFCLK periods, 0 (log 2), the bus answer, which says that
there has been no access (log 7), the level of RESET_N (log 8), and that the waiting commands stay (log 14). -/
def Obligations.PinResetSetsEveryTable : Prop :=
  ∀ (low : Bool) (s : State), ∃ t, exec (.pinReset low) s = .next t ∧
    (∀ k, t.lock k = { state := .closed, cls := 0, ticket := 0, marker := false, drain := none, holders := [],
                       queue := [] }) ∧
    (∀ e, t.poolEntry e = none) ∧
    (∀ c, t.cls c = { desc := { mask := 0, sharedAllowed := false, recursionAllowed := false, ordered := false,
                                rank := 0, lease := 0, cap := 0 }, useCount := 0 }) ∧
    (∀ a, t.agent a =
      { status := .absent, epoch := 0, credits := 16, supervisor := decide (a = 0), notifyEnable := false,
        notifyMode := .level, latch := false, arg0 := 0, arg1 := 0, sarg0 := 0, sarg1 := 0,
        result := .command { status := .noStatus }, controlResult := .command { status := .noStatus },
        staging := none, notices := [], nword1 := 0, lineLow := false }) ∧
    t.prescaler = 0 ∧ t.units = 0 ∧ t.refCount = 0 ∧ t.sweepQueue = [] ∧ t.inFlight = none ∧
    t.resetLow = low ∧ t.answer = .noAccess ∧ t.pending = s.pending

/-- While RESET_N is low every access is answered with BERR_N and changes nothing: the read of NTAKE with D driven with
0, a write with nothing driven (R161). -/
def Obligations.AccessDuringResetIsABusError : Prop :=
  ∀ (c : Instr) (s : State) (a : AgentId), s.resetLow = true → c.wellFormed = true → c.accessor = some a →
    (c = .ntake a → exec c s = .next (s.answered (.berr (some 0)))) ∧
    (c ≠ .ntake a → exec c s = .next (s.answered (.berr none)))

/-- A control-view command, commit, selection or register write by an agent without the supervisor right is answered
with BERR_N and changes nothing (R115). -/
def Obligations.ControlViewNeedsTheSupervisorRight : Prop :=
  ∀ (c : Instr) (s : State) (a : AgentId), (s.agent a).supervisor = false → c.wellFormed = true →
    c.accessor = some a →
    (c.view = some .control ∨ ∃ (o : BitVec 7) (w : Word), c = .argumentRegisterWrite a o w ∧ 64 ≤ o.toNat) →
    exec c s = .next (s.answered (.berr none))

/-! ## Attachment -/

/-- ATTACH of an ABSENT agent: the epoch advances, the credits are 16, the notify configuration comes from ARG0, the latch
is clear, the line released, and the agent ATTACHED; its refusals (R109). -/
def Obligations.AttachMakesAnAbsentAgentAttached : Prop :=
  ∀ (a : AgentId) (s : State), s.resetLow = false →
    ((s.agent a).status = .absent → (s.agent a).notices = [] →
      exec (.attach a) s = .next ((s.setAgent a
        { s.agent a with
          status := .attached
          epoch := (s.agent a).epoch + 1
          credits := 16
          notifyEnable := (s.agent a).arg0.getLsbD 0
          notifyMode := if (s.agent a).arg0.getLsbD 1 then .arrival else .level
          latch := false
          lineLow := false
          result := .command { status := .done, credits := 16 } }).answered (.rdy none))) ∧
    ((s.agent a).status = .attached → exec (.attach a) s = .next (s.refusedTo a .alreadyAttached)) ∧
    ((s.agent a).status = .detaching → exec (.attach a) s = .next (s.refusedTo a .detaching))

/-- DETACH of an ATTACHED agent queues its detach request and freezes it; its refusals (R110, R111). -/
def Obligations.DetachQueuesARequestAndFreezesTheCaller : Prop :=
  ∀ (a : AgentId) (s : State), s.resetLow = false →
    ((s.agent a).status = .absent → exec (.detach a) s = .next (s.refusedTo a .notAttached)) ∧
    ((s.agent a).status = .detaching → exec (.detach a) s = .next (s.refusedTo a .detaching)) ∧
    ((s.agent a).status = .attached → 4 ≤ s.sweepQueue.length →
      exec (.detach a) s = .next (s.refusedTo a .sweepFull)) ∧
    ((s.agent a).status = .attached → s.sweepQueue.length < 4 →
      exec (.detach a) s = .next (((s.request { job := .detach a, requester := none }).setAgent a
        { s.agent a with
          status := .detaching
          notices := []
          latch := false
          lineLow := false
          result := .command { status := .done, credits := (s.agent a).credits } }).answered (.rdy none)))

/-- An accepted request joins the tail of the sweep queue; an idle engine takes the oldest request, at position 0
(R148). -/
def Obligations.AcceptedRequestJoinsTheTailOrTheEngine : Prop :=
  ∀ (s : State) (r : SweepRequest),
    (s.inFlight = none → s.sweepQueue = [] →
      s.request r = { s with inFlight := some { request := r, position := 0 } }) ∧
    (∀ f, s.inFlight = some f → s.request r = { s with sweepQueue := s.sweepQueue ++ [r] }) ∧
    (∀ q rest, s.inFlight = none → s.sweepQueue = q :: rest →
      s.engineTake = { s with inFlight := some { request := q, position := 0 }, sweepQueue := rest })

/-! ## ACQUIRE -/

/-- An ACQUIRE that can be granted at once, with a credit to spend, makes the holder record and costs 1 credit (R27,
R28, R42). -/
def Obligations.AcquireGrantsAtOnce : Prop :=
  ∀ (a : AgentId) (k : LockId) (s : State), s.MayContend a k → s.GrantableNow a k → 1 ≤ (s.agent a).credits →
    exec (.acquire a) s = .next (((s.setLock k
      { s.lock k with
        ticket := (s.lock k).ticket + 1
        state := if (s.agent a).arg0.getLsbD 8 then .shared else .exclusive
        holders := (s.lock k).holders ++
          [{ agent := a, mode := s.argMode a, depth := 1, ticket := (s.lock k).ticket + 1,
             deadline := if (s.lockClass k).lease = 0 then none
                         else some (s.units + (s.lockClass k).lease.setWidth 32) }] }).setAgent a
      { s.agent a with
        credits := (s.agent a).credits - 1
        result := .command { status := .granted, lock := k, ticket := (s.lock k).ticket + 1, depth := 1,
                             marker := (s.lock k).marker, credits := (s.agent a).credits - 1 } }).answered (.rdy none))

/-- A recursive take raises the depth and changes nothing else at the lock; check 6 refuses the other requests of a
holder (R36, R37). -/
def Obligations.AcquireByAHolderDeepensOrIsRefused : Prop :=
  ∀ (a : AgentId) (k : LockId) (s : State) (r : HolderRecord), s.MayAsk a k → s.Holds a k r →
    (r.mode ≠ s.argMode a → exec (.acquire a) s = .next (s.refusedTo a .modeConflict)) ∧
    (r.mode = s.argMode a → (s.lockClass k).recursionAllowed = false →
      exec (.acquire a) s = .next (s.refusedTo a .held)) ∧
    (r.mode = s.argMode a → (s.lockClass k).recursionAllowed = true → 15 ≤ r.depth →
      exec (.acquire a) s = .next (s.refusedTo a .depth)) ∧
    (r.mode = s.argMode a → (s.lockClass k).recursionAllowed = true → r.depth < 15 →
      exec (.acquire a) s = .next (((s.setLock k
        { s.lock k with
          holders := (s.lock k).holders.map fun x => if x.agent = a then { x with depth := x.depth + 1 } else x
          }).setAgent a
        { s.agent a with
          result := .command { status := .granted, lock := k, ticket := r.ticket, depth := r.depth + 1,
                               marker := (s.lock k).marker, recursion := true,
                               credits := (s.agent a).credits } }).answered (.rdy none)))

/-- A request that passes every check is queued at the tail in the lowest free entry, with the deadline of its effective
wait limit, for 2 credits (R45, R56, R57). -/
def Obligations.AcquireQueuesTheRequest : Prop :=
  ∀ (a : AgentId) (k : LockId) (e : EntryId) (s : State), s.MayContend a k → ¬ s.GrantableNow a k →
    (s.agent a).arg0.getLsbD 9 = false → 2 ≤ (s.agent a).credits →
    s.poolEntry e = none → (∀ e' : EntryId, e' < e → s.poolEntry e' ≠ none) →
    ∀ limit : BitVec 12,
      limit = (if (s.lockClass k).cap ≠ 0 ∧ ((s.agent a).arg1.extractLsb' 0 12 = 0 ∨
                   (s.lockClass k).cap < (s.agent a).arg1.extractLsb' 0 12)
               then (s.lockClass k).cap else (s.agent a).arg1.extractLsb' 0 12) →
      exec (.acquire a) s = .next (((s.setLock k
        { s.lock k with
          queue := (s.lock k).queue ++
            [{ num := e, agent := a, mode := s.argMode a, tag := (s.agent a).arg0.extractLsb' 16 8,
               deadline := if limit = 0 then none else some (s.units + limit.setWidth 32) }] }).setAgent a
        { s.agent a with
          credits := (s.agent a).credits - 2
          result := .command { status := .queued, lock := k, position := (s.lock k).queue.length + 1,
                               credits := (s.agent a).credits - 2 } }).answered (.rdy none))

/-- The refusals of ACQUIRE in the order of R31, but for those of check 6, with nothing changed but the result record
(R31, R32). -/
def Obligations.AcquireRefusesInOrder : Prop :=
  ∀ (a : AgentId) (s : State), s.resetLow = false →
    ((s.agent a).status = .absent → exec (.acquire a) s = .next (s.refusedTo a .notAttached)) ∧
    ((s.agent a).status = .detaching → exec (.acquire a) s = .next (s.refusedTo a .detaching)) ∧
    ((s.agent a).status = .attached → 64 ≤ s.argLock a → exec (.acquire a) s = .next (s.refusedTo a .badLock)) ∧
    ∀ k : LockId, (s.agent a).status = .attached → s.argLock a = k.val →
      ((s.lock k).state = .closed ∨ (s.lock k).state = .draining →
        exec (.acquire a) s = .next (s.refusedTo a .closed)) ∧
      ((s.lock k).state ≠ .closed → (s.lock k).state ≠ .draining →
        ((s.lockClass k).mask.getLsbD a.val = false → exec (.acquire a) s = .next (s.refusedTo a .denied)) ∧
        ((s.lockClass k).mask.getLsbD a.val = true → s.argMode a = .shared → (s.lockClass k).sharedAllowed = false →
          exec (.acquire a) s = .next (s.refusedTo a .badMode)) ∧
        (s.MayAsk a k → (∀ r ∈ (s.lock k).holders, r.agent ≠ a) →
          ((∃ w ∈ (s.lock k).queue, w.agent = a) → exec (.acquire a) s = .next (s.refusedTo a .alreadyWaiting)) ∧
          ((∀ w ∈ (s.lock k).queue, w.agent ≠ a) → (s.lockClass k).ordered = true →
            (∃ r, s.heldRank a = some r ∧ (s.lockClass k).rank.toNat ≤ r) →
            exec (.acquire a) s = .next (s.refusedTo a .order))) ∧
        (s.MayContend a k →
          (s.GrantableNow a k → (s.agent a).credits = 0 → exec (.acquire a) s = .next (s.refusedTo a .noCredit)) ∧
          (¬ s.GrantableNow a k → (s.agent a).arg0.getLsbD 9 = true →
            exec (.acquire a) s = .next (s.refusedTo a .wouldWait)) ∧
          (¬ s.GrantableNow a k → (s.agent a).arg0.getLsbD 9 = false → (s.agent a).credits < 2 →
            exec (.acquire a) s = .next (s.refusedTo a .noCredit)) ∧
          (¬ s.GrantableNow a k → (s.agent a).arg0.getLsbD 9 = false → 2 ≤ (s.agent a).credits →
            (∀ e, s.poolEntry e ≠ none) → exec (.acquire a) s = .next (s.refusedTo a .poolEmpty))))

/-- The held rank is absent without a holding of an ordered class, and otherwise the largest rank among those holdings,
in every lock state and at any depth (R39). -/
def Obligations.HeldRankIsTheLargestOrderedRank : Prop :=
  ∀ (s : State) (a : AgentId),
    (s.heldRank a = none ↔
      ∀ k, (∃ r ∈ (s.lock k).holders, r.agent = a) → (s.lockClass k).ordered = false) ∧
    ∀ n, (s.heldRank a = some n ↔
      (∃ k, (∃ r ∈ (s.lock k).holders, r.agent = a) ∧ (s.lockClass k).ordered = true ∧
        (s.lockClass k).rank.toNat = n) ∧
      ∀ k, (∃ r ∈ (s.lock k).holders, r.agent = a) → (s.lockClass k).ordered = true →
        (s.lockClass k).rank.toNat ≤ n)

/-! ## RELEASE, RENEW, CANCEL, PROBE -/

/-- A RELEASE at depth 2 to 15 lowers the depth and does nothing else at the lock (R76). -/
def Obligations.ReleaseAboveDepthOneLowersTheDepth : Prop :=
  ∀ (a : AgentId) (k : LockId) (s : State) (r : HolderRecord), s.resetLow = false →
    (s.agent a).status = .attached → s.argLock a = k.val → s.Holds a k r →
    (s.agent a).arg1.extractLsb' 0 16 = r.ticket → 2 ≤ r.depth →
    exec (.release a) s = .next (((s.setLock k
      { s.lock k with
        holders := (s.lock k).holders.map fun x => if x.agent = a then { x with depth := x.depth - 1 } else x
        }).setAgent a
      { s.agent a with
        result := .command { status := .done, lock := k, ticket := r.ticket, depth := r.depth - 1,
                             marker := (s.lock k).marker, credits := (s.agent a).credits } }).answered (.rdy none))

/-- A RELEASE at depth 1 removes the record, applies CLEAN, returns 1 credit and runs holder departure, and its result
reports the marker as it then stands (R77, R78, R79). -/
def Obligations.ReleaseAtDepthOneRemovesTheRecord : Prop :=
  ∀ (a : AgentId) (k : LockId) (s s1 : State) (r : HolderRecord), s.resetLow = false →
    (s.agent a).status = .attached → s.argLock a = k.val → s.Holds a k r →
    (s.agent a).arg1.extractLsb' 0 16 = r.ticket → r.depth = 1 →
    s1 = ((s.setLock k
      { s.lock k with
        holders := (s.lock k).holders.filter fun x => x.agent != a
        marker := if (s.agent a).arg0.getLsbD 10 = true ∧ r.mode = .exclusive then false
                  else (s.lock k).marker }).setAgent a
      { s.agent a with credits := (s.agent a).credits + 1 }).departure k →
    exec (.release a) s = .next ((s1.setAgent a
      { s1.agent a with
        result := .command { status := .done, lock := k, ticket := r.ticket, depth := 0, marker := (s1.lock k).marker,
                             cleanNotApplied := (s.agent a).arg0.getLsbD 10 && decide (r.mode = .shared),
                             credits := (s.agent a).credits + 1 } }).answered (.rdy none))

/-- A RENEW that passes its checks replaces the lease deadline and changes nothing else of the record; in a class
without lease it is refused with NO_LEASE (R84, R85). -/
def Obligations.RenewReplacesTheDeadline : Prop :=
  ∀ (a : AgentId) (k : LockId) (s : State) (r : HolderRecord), s.resetLow = false →
    (s.agent a).status = .attached → s.argLock a = k.val → s.Holds a k r →
    (s.agent a).arg1.extractLsb' 0 16 = r.ticket →
    ((s.lockClass k).lease = 0 → exec (.renew a) s = .next (s.refusedTo a .noLease)) ∧
    ((s.lockClass k).lease ≠ 0 → exec (.renew a) s = .next (((s.setLock k
      { s.lock k with
        holders := (s.lock k).holders.map fun x =>
          if x.agent = a then { x with deadline := some (s.units + (s.lockClass k).lease.setWidth 32) } else x
        }).setAgent a
      { s.agent a with
        result := .command { status := .done, lock := k, ticket := r.ticket, depth := r.depth,
                             marker := (s.lock k).marker, credits := (s.agent a).credits } }).answered (.rdy none)))

/-- The refusals RELEASE and RENEW share, in their order (R74, R84). -/
def Obligations.ReleaseAndRenewRefuseInOrder : Prop :=
  ∀ (a : AgentId) (s : State) (c : Instr), s.resetLow = false → c = .release a ∨ c = .renew a →
    ((s.agent a).status = .absent → exec c s = .next (s.refusedTo a .notAttached)) ∧
    ((s.agent a).status = .detaching → exec c s = .next (s.refusedTo a .detaching)) ∧
    ((s.agent a).status = .attached → 64 ≤ s.argLock a → exec c s = .next (s.refusedTo a .badLock)) ∧
    ∀ k : LockId, (s.agent a).status = .attached → s.argLock a = k.val →
      ((∀ r ∈ (s.lock k).holders, r.agent ≠ a) → exec c s = .next (s.refusedTo a .notHolder)) ∧
      (∀ r, s.Holds a k r → (s.agent a).arg1.extractLsb' 0 16 ≠ r.ticket →
        exec c s = .next (s.refusedTo a .staleTicket))

/-- CANCEL of the caller's entry `w`: the entry leaves, 2 credits return, no notice is made, and grant evaluation runs if
it was the head; the result reports the position it held. The refusals of CANCEL (R63, R64). -/
def Obligations.CancelWithdrawsTheCallersWait : Prop :=
  ∀ (a : AgentId) (s : State), s.resetLow = false →
    ((s.agent a).status = .absent → exec (.cancel a) s = .next (s.refusedTo a .notAttached)) ∧
    ((s.agent a).status = .detaching → exec (.cancel a) s = .next (s.refusedTo a .detaching)) ∧
    ((s.agent a).status = .attached → 64 ≤ s.argLock a → exec (.cancel a) s = .next (s.refusedTo a .badLock)) ∧
    ∀ k : LockId, (s.agent a).status = .attached → s.argLock a = k.val →
      ((∀ w ∈ (s.lock k).queue, w.agent ≠ a) → exec (.cancel a) s = .next (s.refusedTo a .notWaiting)) ∧
      ∀ (ahead behind : List WaitEntry) (w : WaitEntry) (s1 s2 : State),
        (s.lock k).queue = ahead ++ w :: behind → w.agent = a → (s.lock k).OnePlaceEach →
        s1 = (s.setLock k { s.lock k with queue := ahead ++ behind }).setAgent a
          { s.agent a with credits := (s.agent a).credits + 2 } →
        s2 = (if ahead = [] then s1.grantEval k else s1) →
        exec (.cancel a) s = .next ((s2.setAgent a
          { s2.agent a with
            result := .command { status := .done, lock := k, position := ahead.length + 1,
                                 credits := (s.agent a).credits + 2 } }).answered (.rdy none))

/-- PROBE is answered in every agent state and changes nothing but the caller's result record (R22, R23). -/
def Obligations.ProbeReportsTheLock : Prop :=
  ∀ (a : AgentId) (s : State), s.resetLow = false →
    (64 ≤ s.argLock a → exec (.probe a) s = .next (s.refusedTo a .badLock)) ∧
    ∀ k : LockId, s.argLock a = k.val →
      ∃ p : ProbeResult,
        exec (.probe a) s = .next ((s.setAgent a { s.agent a with result := .probe p }).answered (.rdy none)) ∧
        p.state = (s.lock k).state ∧ p.cls = (s.lock k).cls ∧ p.holderCount = (s.lock k).holders.length ∧
        p.drain = (s.lock k).drain ∧ p.queueLength = (s.lock k).queue.length ∧ p.marker = (s.lock k).marker ∧
        p.ticket = (s.lock k).ticket ∧ p.credits = (s.agent a).credits ∧
        ((∀ r ∈ (s.lock k).holders, r.agent ≠ a) → p.own = none) ∧
        (∀ r, s.Holds a k r → p.own = some (r.mode, r.depth)) ∧
        ((∀ w ∈ (s.lock k).queue, w.agent ≠ a) → p.position = 0) ∧
        (∀ ahead behind w, (s.lock k).queue = ahead ++ w :: behind → w.agent = a →
          (∀ x ∈ ahead, x.agent ≠ a) → p.position = ahead.length + 1)

/-! ## OPEN, CLOSE, REVOKE -/

/-- OPEN of a CLOSED lock under class `c` makes it FREE, raises the use count of `c`, and clears the marker if asked
(R14). -/
def Obligations.OpenBringsALockIntoService : Prop :=
  ∀ (a : AgentId) (k : LockId) (c : ClassId) (s : State), s.Controls a → s.sargLock a = k.val →
    ((s.agent a).sarg0.extractLsb' 8 4).toNat = c.val → (∀ r ∈ s.outstanding, r.job ≠ .clear) →
    (s.lock k).state = .closed →
    ∀ marker : Bool, marker = (if (s.agent a).sarg1.getLsbD 0 then false else (s.lock k).marker) →
    exec (.openLock a) s = .next ((((s.setLock k
      { s.lock k with state := .free, cls := c, marker := marker }).setClass c
      { s.cls c with useCount := (s.cls c).useCount + 1 }).setAgent a
      { s.agent a with
        controlResult := .command { status := .done, lock := k, ticket := (s.lock k).ticket, marker := marker,
                                    credits := (s.agent a).credits } }).answered (.rdy none))

/-- CLOSE of a FREE lock closes it at once and lowers its class's use count (R15). CLOSE of a held lock moves it to
DRAINING in the mode it was held in and empties its queue; each waiter is told CANCELLED and regains 1 credit unless it
is DETACHING; nothing else changes (R16, R65). -/
def Obligations.CloseClosesOrDrainsTheLock : Prop :=
  ∀ (a : AgentId) (k : LockId) (s : State), s.Controls a → s.sargLock a = k.val →
    ((s.lock k).state = .free →
      exec (.closeLock a) s = .next ((((s.setLock k { s.lock k with state := .closed }).setClass (s.lock k).cls
        { s.cls (s.lock k).cls with useCount := (s.cls (s.lock k).cls).useCount - 1 }).setAgent a
        { s.agent a with
          controlResult := .command { status := .done, lock := k, credits := (s.agent a).credits } }).answered
        (.rdy none))) ∧
    ∀ m : Mode, (s.lock k).state = (match m with | .exclusive => LockState.exclusive | .shared => LockState.shared) →
      (s.lock k).OnePlaceEach →
      ∃ t, exec (.closeLock a) s = .next t ∧
        t.lock k = { s.lock k with state := .draining, drain := some m, queue := [] } ∧
        (∀ j, j ≠ k → t.lock j = s.lock j) ∧ t.classes = s.classes ∧ t.units = s.units ∧
        t.prescaler = s.prescaler ∧ t.refCount = s.refCount ∧ t.sweepQueue = s.sweepQueue ∧
        t.inFlight = s.inFlight ∧ t.resetLow = false ∧ t.answer = .rdy none ∧ t.pending = s.pending ∧
        ∀ b, ∃ e : AgentEntry,
          (∀ w ∈ (s.lock k).queue, w.agent = b →
            e = ((s.agent b).told (.cancelled k w.mode w.tag (s.units.setWidth 16))).repaid 1) ∧
          ((∀ w ∈ (s.lock k).queue, w.agent ≠ b) → e = s.agent b) ∧
          t.agent b = (if b = a then
            { e with controlResult := .command { status := .done, lock := k, credits := e.credits } } else e)

/-- REVOKE of one agent's record: the REVOKED notice, the marker, holder departure; no credit changes (R19). REVOKE and
REVOKE_ALL are one code that reads its target from SARG1, so both rows do this (the model's reading, log 9). -/
def Obligations.RevokeTakesOneHolding : Prop :=
  ∀ (c : Instr) (a target : AgentId) (k : LockId) (s s1 : State) (r : HolderRecord),
    c = .revoke a ∨ c = .revokeAll a → s.Controls a → s.sargLock a = k.val →
    s.revokeArg a = target.val → s.Holds target k r →
    s1 = ((s.setLock k
      { s.lock k with
        holders := (s.lock k).holders.filter fun x => x.agent != target
        marker := true }).setAgent target
      ((s.agent target).told (.revoked k r.mode r.ticket (s.units.setWidth 16)))).departure k →
    exec c s = .next ((s1.setAgent a
      { s1.agent a with
        controlResult := .command { status := .done, lock := k, ticket := r.ticket, marker := true,
                                    credits := (s.agent a).credits } }).answered (.rdy none))

/-- REVOKE ALL removes every holder record with a REVOKED notice each, sets the marker, and runs holder departure once;
the result counts the records removed (R20). Both rows of the code do this while SARG1 names ALL (the model's reading,
log 9). -/
def Obligations.RevokeAllTakesEveryHolding : Prop :=
  ∀ (c : Instr) (a : AgentId) (k : LockId) (s : State), c = .revoke a ∨ c = .revokeAll a →
    s.Controls a → s.sargLock a = k.val → s.revokeArg a = 15 →
    (s.lock k).holders ≠ [] → (s.lock k).OnePlaceEach →
    ∃ s1 s2 : State,
      s1.lock k = { s.lock k with holders := [], marker := true } ∧ (∀ j, j ≠ k → s1.lock j = s.lock j) ∧
      (∀ b, (∀ r ∈ (s.lock k).holders, r.agent = b →
          s1.agent b = (s.agent b).told (.revoked k r.mode r.ticket (s.units.setWidth 16))) ∧
        ((∀ r ∈ (s.lock k).holders, r.agent ≠ b) → s1.agent b = s.agent b)) ∧
      s1.classes = s.classes ∧ s1.units = s.units ∧ s1.prescaler = s.prescaler ∧ s1.refCount = s.refCount ∧
      s1.sweepQueue = s.sweepQueue ∧ s1.inFlight = s.inFlight ∧ s1.resetLow = s.resetLow ∧ s1.pending = s.pending ∧
      s2 = s1.departure k ∧
      exec c s = .next ((s2.setAgent a
        { s2.agent a with
          controlResult := .command { status := .done, lock := k, depth := (s.lock k).holders.length, marker := true,
                                      credits := (s.agent a).credits } }).answered (.rdy none))

/-- The refusals of OPEN, CLOSE and REVOKE, in their orders (R13, R15, R18). Both rows of REVOKE's code are refused by
what SARG1 names (the model's reading, log 9). -/
def Obligations.LockControlRefusesInOrder : Prop :=
  ∀ (a : AgentId) (s : State), s.Controls a →
    (64 ≤ s.sargLock a → ∀ c : Instr, c = .openLock a ∨ c = .closeLock a ∨ c = .revoke a ∨ c = .revokeAll a →
      exec c s = .next (s.controlRefusedTo a .badLock)) ∧
    ∀ k : LockId, s.sargLock a = k.val →
      (8 ≤ ((s.agent a).sarg0.extractLsb' 8 4).toNat →
        exec (.openLock a) s = .next (s.controlRefusedTo a .badArgument)) ∧
      (((s.agent a).sarg0.extractLsb' 8 4).toNat < 8 → (∃ r ∈ s.outstanding, r.job = .clear) →
        exec (.openLock a) s = .next (s.controlRefusedTo a .sweepActive)) ∧
      (((s.agent a).sarg0.extractLsb' 8 4).toNat < 8 → (∀ r ∈ s.outstanding, r.job ≠ .clear) →
        (s.lock k).state ≠ .closed → exec (.openLock a) s = .next (s.controlRefusedTo a .notClosed)) ∧
      ((s.lock k).state = .closed ∨ (s.lock k).state = .draining →
        exec (.closeLock a) s = .next (s.controlRefusedTo a .closed)) ∧
      ∀ c : Instr, c = .revoke a ∨ c = .revokeAll a →
        (8 ≤ s.revokeArg a → s.revokeArg a ≤ 14 → exec c s = .next (s.controlRefusedTo a .badArgument)) ∧
        (∀ target : AgentId, s.revokeArg a = target.val → (∀ r ∈ (s.lock k).holders, r.agent ≠ target) →
          exec c s = .next (s.controlRefusedTo a .notHolder)) ∧
        (s.revokeArg a = 15 → (s.lock k).holders = [] → exec c s = .next (s.controlRefusedTo a .notHolder))

/-! ## Sweep requests and the supervisor right -/

/-- DETACH_AGENT of an ATTACHED agent queues its detach request, charges an ATTACHED requester that is not the target 1
credit, and makes the target DETACHING (R150). -/
def Obligations.DetachAgentRetiresTheTarget : Prop :=
  ∀ (a target : AgentId) (s : State), s.Controls a → s.sargTarget a = target.val →
    (s.agent target).status = .attached → s.sweepQueue.length < 4 →
    ∀ gone : AgentEntry, gone = { s.agent target with status := .detaching, notices := [], latch := false,
                                                      lineLow := false } →
    (target = a → exec (.detachAgent a) s = .next
      (((s.request { job := .detach a, requester := none }).setAgent a
        { gone with controlResult := .command { status := .done, credits := (s.agent a).credits } }).answered
        (.rdy none))) ∧
    (target ≠ a → (s.agent a).status = .attached → 1 ≤ (s.agent a).credits →
      exec (.detachAgent a) s = .next
        ((((s.request { job := .detach target, requester := some (a, (s.agent a).epoch) }).setAgent target
          gone).setAgent a
          { s.agent a with
            credits := (s.agent a).credits - 1
            controlResult := .command { status := .done, credits := (s.agent a).credits - 1 } }).answered
          (.rdy none))) ∧
    (target ≠ a → (s.agent a).status ≠ .attached →
      exec (.detachAgent a) s = .next
        ((((s.request { job := .detach target, requester := none }).setAgent target gone).setAgent a
          { s.agent a with controlResult := .command { status := .done, credits := (s.agent a).credits } }).answered
          (.rdy none)))

/-- CLEAR_ALL queues a clear request, with an ATTACHED caller as requester at 1 credit (R151). -/
def Obligations.ClearAllQueuesAClearSweep : Prop :=
  ∀ (a : AgentId) (s : State), s.Controls a → (∀ r ∈ s.outstanding, r.job ≠ .clear) → s.sweepQueue.length < 4 →
    ((s.agent a).status = .attached → 1 ≤ (s.agent a).credits →
      exec (.clearAll a) s = .next
        (((s.request { job := .clear, requester := some (a, (s.agent a).epoch) }).setAgent a
          { s.agent a with
            credits := (s.agent a).credits - 1
            controlResult := .command { status := .done, credits := (s.agent a).credits - 1 } }).answered
          (.rdy none))) ∧
    ((s.agent a).status ≠ .attached →
      exec (.clearAll a) s = .next
        (((s.request { job := .clear, requester := none }).setAgent a
          { s.agent a with controlResult := .command { status := .done, credits := (s.agent a).credits } }).answered
          (.rdy none)))

/-- The refusals of DETACH_AGENT and CLEAR_ALL, in their orders (R149, R151). -/
def Obligations.SweepRequestsRefuseInOrder : Prop :=
  ∀ (a : AgentId) (s : State), s.Controls a →
    (8 ≤ s.sargTarget a → exec (.detachAgent a) s = .next (s.controlRefusedTo a .badArgument)) ∧
    (∀ target : AgentId, s.sargTarget a = target.val →
      ((s.agent target).status = .absent → exec (.detachAgent a) s = .next (s.controlRefusedTo a .notAttached)) ∧
      ((s.agent target).status = .detaching →
        exec (.detachAgent a) s = .next (s.controlRefusedTo a .alreadyQueued)) ∧
      ((s.agent target).status = .attached → target ≠ a → (s.agent a).status = .attached → (s.agent a).credits = 0 →
        exec (.detachAgent a) s = .next (s.controlRefusedTo a .noCredit)) ∧
      ((s.agent target).status = .attached →
        (target = a ∨ (s.agent a).status ≠ .attached ∨ 1 ≤ (s.agent a).credits) → 4 ≤ s.sweepQueue.length →
        exec (.detachAgent a) s = .next (s.controlRefusedTo a .sweepFull))) ∧
    ((∃ r ∈ s.outstanding, r.job = .clear) →
      exec (.clearAll a) s = .next (s.controlRefusedTo a .alreadyQueued)) ∧
    ((∀ r ∈ s.outstanding, r.job ≠ .clear) → (s.agent a).status = .attached → (s.agent a).credits = 0 →
      exec (.clearAll a) s = .next (s.controlRefusedTo a .noCredit)) ∧
    ((∀ r ∈ s.outstanding, r.job ≠ .clear) → ((s.agent a).status ≠ .attached ∨ 1 ≤ (s.agent a).credits) →
      4 ≤ s.sweepQueue.length → exec (.clearAll a) s = .next (s.controlRefusedTo a .sweepFull))

/-- GIVE_SUPERVISOR gives the target the right, in any agent state (R116); TAKE_SUPERVISOR takes the target's right, unless
no other agent holds it (R117). A target field above 7 is refused. -/
def Obligations.SupervisorRightIsGivenAndTaken : Prop :=
  ∀ (a : AgentId) (s : State), s.Controls a →
    (8 ≤ s.sargTarget a → ∀ c : Instr, c = .giveSupervisor a ∨ c = .takeSupervisor a →
      exec c s = .next (s.controlRefusedTo a .badArgument)) ∧
    ∀ (target : AgentId) (s1 : State), s.sargTarget a = target.val →
      (s1 = s.setAgent target { s.agent target with supervisor := true } →
        exec (.giveSupervisor a) s = .next ((s1.setAgent a
          { s1.agent a with
            controlResult := .command { status := .done, credits := (s.agent a).credits } }).answered (.rdy none))) ∧
      ((s.agent target).supervisor = true → (∀ b, b ≠ target → (s.agent b).supervisor = false) →
        exec (.takeSupervisor a) s = .next (s.controlRefusedTo a .lastSupervisor)) ∧
      (((s.agent target).supervisor = false ∨ ∃ b, b ≠ target ∧ (s.agent b).supervisor = true) →
        s1 = s.setAgent target { s.agent target with supervisor := false } →
        exec (.takeSupervisor a) s = .next ((s1.setAgent a
          { s1.agent a with
            controlResult := .command { status := .done, credits := (s.agent a).credits } }).answered (.rdy none)))

/-- A code no command of its view has is refused with BAD_COMMAND in the record of that view (R120, R167). -/
def Obligations.UnlistedCodesAreBadCommands : Prop :=
  ∀ (a : AgentId) (code : BitVec 8) (s : State), (code.toNat = 0 ∨ 8 ≤ code.toNat) →
    (s.resetLow = false → exec (.badCommand a .agent code) s = .next (s.refusedTo a .badCommand)) ∧
    (s.Controls a → exec (.badCommand a .control code) s = .next (s.controlRefusedTo a .badCommand))

/-! ## Notice unit -/

/-- A read of NTAKE pops the head notice: word 0 is returned, word 1 latched, 1 credit returns, and the line follows; on
an empty queue it returns 0 and changes nothing (R131, R132). -/
def Obligations.NtakePopsTheHeadNotice : Prop :=
  ∀ (a : AgentId) (s : State), s.resetLow = false →
    ((s.agent a).notices = [] → exec (.ntake a) s = .next (s.answered (.rdy (some 0)))) ∧
    ∀ n rest, (s.agent a).notices = n :: rest → (s.agent a).status = .attached →
      exec (.ntake a) s = .next ((s.setAgent a
        { s.agent a with
          notices := rest
          nword1 := n.word1
          credits := (s.agent a).credits + 1
          latch := false
          lineLow := (s.agent a).notifyEnable && decide ((s.agent a).notifyMode = .level) && decide (rest ≠ [])
          }).answered (.rdy (some n.word0)))

/-- A write of NOTIFY sets enable and mode, clears the latch and redrives the line, in every agent state (R136). -/
def Obligations.NotifyWriteReconfiguresTheLine : Prop :=
  ∀ (a : AgentId) (w : Word) (s : State), s.resetLow = false →
    exec (.notifyWrite a w) s = .next ((s.setAgent a
      { s.agent a with
        notifyEnable := w.getLsbD 0
        notifyMode := if w.getLsbD 1 then .arrival else .level
        latch := false
        lineLow := decide ((s.agent a).status = .attached) && w.getLsbD 0 && !w.getLsbD 1 &&
          decide ((s.agent a).notices ≠ []) }).answered (.rdy none))

/-- A notice addressed to an ATTACHED agent joins the tail of its queue, sets the latch in ARRIVAL mode, and drives the
line; one addressed to any other agent is discarded (R127, R128). -/
def Obligations.NoticeArrivesOrIsDiscarded : Prop :=
  ∀ (s : State) (a : AgentId) (n : Notice),
    ((s.agent a).status = .attached →
      s.notify a n = s.setAgent a
        { s.agent a with
          notices := (s.agent a).notices ++ [n]
          latch := (s.agent a).latch || ((s.agent a).notifyEnable && decide ((s.agent a).notifyMode = .arrival))
          lineLow := (s.agent a).notifyEnable &&
            (decide ((s.agent a).notifyMode = .level) || (s.agent a).latch ||
              ((s.agent a).notifyEnable && decide ((s.agent a).notifyMode = .arrival))) }) ∧
    ((s.agent a).status ≠ .attached → s.notify a n = s)

/-! ## Table port -/

/-- A selection by TSEL puts a snapshot of the entry as it stands in the caller's staging, or makes it invalid; nothing
else changes (R165, R171). -/
def Obligations.TselSnapshotsTheSelectedEntry : Prop :=
  ∀ (a : AgentId) (w : Word) (s : State), s.Controls a →
    ∃ g : Option Staging,
      exec (.tsel a w) s = .next ((s.setAgent a { s.agent a with staging := g }).answered (.rdy none)) ∧
      ∀ (table index : Nat), table = (w.extractLsb' 16 3).toNat → index = (w.extractLsb' 0 9).toNat →
        (table = 0 ∨ 6 ≤ table ∨ (table = 1 ∧ 64 ≤ index) ∨ (table = 3 ∧ 32 ≤ index) ∨
          ((table = 4 ∨ table = 5) ∧ 8 ≤ index) → g = none) ∧
        (table = 1 → ∀ k : LockId, k.val = index → g = some (.lock k
          { state := (s.lock k).state, cls := (s.lock k).cls, drain := (s.lock k).drain, marker := (s.lock k).marker,
            holderCount := (s.lock k).holders.length, ticket := (s.lock k).ticket,
            queue := (s.lock k).queue.map WaitEntry.num, holders := (s.lock k).holders.map HolderRecord.agent })) ∧
        (table = 2 → ∀ (k : LockId) (b : AgentId), k.val = index / 8 → b.val = index % 8 →
          ((∀ r ∈ (s.lock k).holders, r.agent ≠ b) → g = some (.holder (w.extractLsb' 0 9) none)) ∧
          ∀ before after r, (s.lock k).holders = before ++ r :: after → r.agent = b →
            (∀ x ∈ before, x.agent ≠ b) →
            g = some (.holder (w.extractLsb' 0 9) (some
              { mode := r.mode, depth := r.depth, place := before.length + 1, ticket := r.ticket,
                deadline := r.deadline }))) ∧
        (table = 3 → ∀ e : EntryId, e.val = index →
          (s.poolEntry e = none → g = some (.wait e none)) ∧
          ∀ (k : LockId) (ahead behind : List WaitEntry) (x : WaitEntry), s.poolEntry e = some (k, x) →
            (s.lock k).queue = ahead ++ x :: behind → (∀ y ∈ ahead, y.agent ≠ x.agent) →
            g = some (.wait e (some
              { mode := x.mode, position := ahead.length + 1, agent := x.agent, lock := k, tag := x.tag,
                deadline := x.deadline }))) ∧
        (table = 4 → ∀ c : ClassId, c.val = index → g = some (.cls c
          { mask := (s.cls c).desc.mask, sharedAllowed := (s.cls c).desc.sharedAllowed,
            recursionAllowed := (s.cls c).desc.recursionAllowed, ordered := (s.cls c).desc.ordered,
            rank := (s.cls c).desc.rank.setWidth 8, lease := (s.cls c).desc.lease.setWidth 16,
            cap := (s.cls c).desc.cap.setWidth 16, useCount := BitVec.ofNat 7 (s.cls c).useCount })) ∧
        (table = 5 → ∀ b : AgentId, b.val = index → g = some (.agent b
          { status := (s.agent b).status, supervisor := (s.agent b).supervisor,
            notifyEnable := (s.agent b).notifyEnable, notifyMode := (s.agent b).notifyMode,
            latch := (s.agent b).latch, epoch := (s.agent b).epoch, credits := (s.agent b).credits,
            queueLength := (s.agent b).notices.length }))

/-- A TDATA write changes the writable fields of its word in a CLASS staging and nothing else; with any other staging it
is answered with BERR_N (R163, R166, R171). -/
def Obligations.TdataWriteChangesTheStagedClass : Prop :=
  ∀ (a : AgentId) (n : Fin 5) (w : Word) (s : State),
    (∀ i c, (s.agent a).staging = some (.cls i c) → s.Controls a →
      exec (.tdataWrite a n w) s = .next ((s.setAgent a
        { s.agent a with
          staging := some (.cls i (match n with
            | 0 => { c with mask := w.extractLsb' 0 8, sharedAllowed := w.getLsbD 8,
                            recursionAllowed := w.getLsbD 9, ordered := w.getLsbD 10 }
            | 1 => { c with rank := w.extractLsb' 0 8 }
            | 2 => { c with lease := w.extractLsb' 0 16 }
            | 3 => { c with cap := w.extractLsb' 0 16 }
            | 4 => { c with useCount := w.extractLsb' 0 7 })) }).answered (.rdy none))) ∧
    ((∀ i c, (s.agent a).staging ≠ some (.cls i c)) →
      exec (.tdataWrite a n w) s = .next (s.answered (.berr none)))

/-- TCOMMIT replaces the class descriptor with the staged one, or refuses, in the order of R101; the staging and the use
count stay (R101, R102). -/
def Obligations.TcommitReplacesAnUnusedClass : Prop :=
  ∀ (a : AgentId) (s : State), s.Controls a →
    ((∀ i c, (s.agent a).staging ≠ some (.cls i c)) →
      exec (.tcommit a) s = .next (s.controlRefusedTo a .badArgument)) ∧
    ∀ i c, (s.agent a).staging = some (.cls i c) →
      (15 < c.rank.toNat ∨ 4095 < c.lease.toNat ∨ 4095 < c.cap.toNat →
        exec (.tcommit a) s = .next (s.controlRefusedTo a .badArgument)) ∧
      (c.rank.toNat ≤ 15 → c.lease.toNat ≤ 4095 → c.cap.toNat ≤ 4095 →
        (0 < (s.cls i).useCount → exec (.tcommit a) s = .next (s.controlRefusedTo a .inUse)) ∧
        ((s.cls i).useCount = 0 → exec (.tcommit a) s = .next (((s.setClass i
          { s.cls i with
            desc := { mask := c.mask, sharedAllowed := c.sharedAllowed, recursionAllowed := c.recursionAllowed,
                      ordered := c.ordered, rank := BitVec.ofNat 4 c.rank.toNat,
                      lease := BitVec.ofNat 12 c.lease.toNat, cap := BitVec.ofNat 12 c.cap.toNat } }).setAgent a
          { s.agent a with
            controlResult := .command { status := .done, credits := (s.agent a).credits } }).answered (.rdy none))))

/-! ## Timebase, window -/

/-- A PRESCALE write sets the prescaler and restarts the partial division (R139). An advance moves the unit counter by 1
and begins the count of periods again from 0 (R138, R140); that the command UNIT_ADVANCE is one whatever number of periods
had been counted, standing for those still lacking, is the model's choice (log 3). None takes place while the timebase is
halted (R138) or an event of the last advance is left to take (R142); that the command then changes nothing is the
model's choice (log 3), and due is read as a deadline equal to the counter (log 4). -/
def Obligations.TimebaseCountsUnits : Prop :=
  (∀ (a : AgentId) (w : Word) (s : State), s.Controls a →
    exec (.prescaleWrite a w) s =
      .next (({ s with prescaler := w.extractLsb' 0 16, refCount := 0 } : State).answered (.rdy none))) ∧
  ∀ s : State,
    (s.prescaler ≠ 0 → s.anyDue = false → exec .unitAdvance s = .next { s with units := s.units + 1, refCount := 0 }) ∧
    (s.prescaler = 0 ∨ s.anyDue = true → exec .unitAdvance s = .next s)

/-- A write of ARG0, ARG1, SARG0 or SARG1 changes that register alone (R164); a write at an offset the map does not list,
or to a read-only register, is answered with BERR_N and changes nothing (R163). -/
def Obligations.ArgumentWritesChangeOneRegister : Prop :=
  ∀ (a : AgentId) (w : Word) (s : State),
    (s.resetLow = false →
      exec (.argumentRegisterWrite a 1 w) s =
        .next ((s.setAgent a { s.agent a with arg0 := w }).answered (.rdy none)) ∧
      exec (.argumentRegisterWrite a 2 w) s =
        .next ((s.setAgent a { s.agent a with arg1 := w }).answered (.rdy none))) ∧
    (s.Controls a →
      exec (.argumentRegisterWrite a 65 w) s =
        .next ((s.setAgent a { s.agent a with sarg0 := w }).answered (.rdy none)) ∧
      exec (.argumentRegisterWrite a 66 w) s =
        .next ((s.setAgent a { s.agent a with sarg1 := w }).answered (.rdy none))) ∧
    ∀ o : BitVec 7, (registerAt o = none ∨ ∃ r, registerAt o = some r ∧ r.writable = false) →
      exec (.argumentRegisterWrite a o w) s = .next (s.answered (.berr none))

/-! ## Deadlines -/

/-- A due expiry removes the record whatever its depth, sets the marker, tells the holder and runs holder departure, with
no credit change (R81, R82); one whose record has gone, or has a renewed deadline, changes nothing (R142). That any other
expiry that is not due, or of a record never there, changes nothing is the model's choice (log 5), and due is read as a
deadline equal to the counter (log 4). -/
def Obligations.LeaseExpiryRemovesADueRecord : Prop :=
  ∀ (k : LockId) (a : AgentId) (s : State),
    (∀ r, s.Holds a k r → r.deadline = some s.units →
      exec (.leaseExpiry k a) s = .next (((s.setLock k
        { s.lock k with
          holders := (s.lock k).holders.filter fun x => x.agent != a
          marker := true }).setAgent a
        ((s.agent a).told (.expired k r.mode r.ticket (s.units.setWidth 16)))).departure k)) ∧
    (∀ r, s.Holds a k r → r.deadline ≠ some s.units → exec (.leaseExpiry k a) s = .next s) ∧
    ((∀ r ∈ (s.lock k).holders, r.agent ≠ a) → exec (.leaseExpiry k a) s = .next s)

/-- A due timeout removes the entry, tells its agent TIMED_OUT, returns 1 credit to an ATTACHED agent, and runs grant
evaluation if the entry was the head (R60, R61); one whose request has left its queue changes nothing (R142). That any
other timeout that is not due, or of a free entry, changes nothing is the model's choice (log 5), and due is read as a
deadline equal to the counter (log 4). -/
def Obligations.TimeoutRemovesADueEntry : Prop :=
  ∀ (e : EntryId) (s : State), s.PoolLaw →
    (∀ (k : LockId) (ahead behind : List WaitEntry) (w : WaitEntry) (s1 : State),
      (s.lock k).queue = ahead ++ w :: behind → w.num = e →
      (w.deadline ≠ some s.units → exec (.timeout e) s = .next s) ∧
      (w.deadline = some s.units →
        s1 = (s.setLock k { s.lock k with queue := ahead ++ behind }).setAgent w.agent
          (((s.agent w.agent).told (.timedOut k w.mode w.tag (s.units.setWidth 16))).repaid 1) →
        exec (.timeout e) s = .next (if ahead = [] then s1.grantEval k else s1))) ∧
    ((∀ k, ∀ w ∈ (s.lock k).queue, w.num ≠ e) → exec (.timeout e) s = .next s)

/-! ## Sweep engine -/

/-- A visit of the detach sweep: the target's record is removed with the marker set and holder departure, or its wait
entry with grant evaluation if it was the head, without a notice or a credit change; a lock where it has neither, or that
is CLOSED, is left alone; the position advances by 1 (R153, R152, R66). With no such sweep in flight, or none left to
visit, the command changes nothing (the model's choice, log 5). -/
def Obligations.DetachVisitRemovesTheTarget : Prop :=
  ∀ s : State,
    (∀ (f : SweepFlight) (target : AgentId) (k : LockId) (p : Fin 65), s.inFlight = some f →
      f.request.job = .detach target → f.position.val = k.val → p.val = k.val + 1 →
      (∀ r, s.Holds target k r → (s.lock k).state ≠ .closed →
        exec .detachSweepVisit s = .next
          { (s.setLock k
              { s.lock k with
                holders := (s.lock k).holders.filter fun x => x.agent != target
                marker := true }).departure k with inFlight := some { f with position := p } }) ∧
      (∀ ahead behind w, (s.lock k).queue = ahead ++ w :: behind → w.agent = target → (s.lock k).OnePlaceEach →
        (s.lock k).state ≠ .closed →
        ∀ s1, s1 = s.setLock k { s.lock k with queue := ahead ++ behind } →
          exec .detachSweepVisit s = .next
            { (if ahead = [] then s1.grantEval k else s1) with inFlight := some { f with position := p } }) ∧
      (((s.lock k).state = .closed ∨ s.NoTrace target k) →
        exec .detachSweepVisit s = .next { s with inFlight := some { f with position := p } })) ∧
    ((∀ f ∈ s.inFlight, f.request.job = .clear ∨ f.position.val = 64) → exec .detachSweepVisit s = .next s)

/-- A visit of the clear sweep to a lock that is not CLOSED: waiters are told CANCELLED and regain 1 credit, holders are
told REVOKED, the marker is set if a holder was removed, the lock is CLOSED and its class's use count falls by 1; a
CLOSED lock is left alone; the position advances by 1 (R154, R152). With no such sweep in flight, or none left to visit,
the command changes nothing (the model's choice, log 5). -/
def Obligations.ClearVisitClosesTheLock : Prop :=
  ∀ s : State,
    (∀ (f : SweepFlight) (k : LockId) (p : Fin 65), s.inFlight = some f → f.request.job = .clear →
      f.position.val = k.val → p.val = k.val + 1 →
      ((s.lock k).state = .closed →
        exec .clearSweepVisit s = .next { s with inFlight := some { f with position := p } }) ∧
      ((s.lock k).state ≠ .closed → (s.lock k).OnePlaceEach →
        ∃ t, exec .clearSweepVisit s = .next t ∧
          t.lock k = { s.lock k with state := .closed, drain := none, holders := [], queue := [],
                                     marker := (s.lock k).marker || decide ((s.lock k).holders ≠ []) } ∧
          (∀ j, j ≠ k → t.lock j = s.lock j) ∧
          t.classes = (s.setClass (s.lock k).cls
            { s.cls (s.lock k).cls with useCount := (s.cls (s.lock k).cls).useCount - 1 }).classes ∧
          t.inFlight = some { f with position := p } ∧ t.sweepQueue = s.sweepQueue ∧ t.units = s.units ∧
          t.prescaler = s.prescaler ∧ t.refCount = s.refCount ∧ t.resetLow = s.resetLow ∧ t.answer = s.answer ∧
          t.pending = s.pending ∧
          ∀ b,
            (∀ w ∈ (s.lock k).queue, w.agent = b →
              t.agent b = ((s.agent b).told (.cancelled k w.mode w.tag (s.units.setWidth 16))).repaid 1) ∧
            (∀ r ∈ (s.lock k).holders, r.agent = b →
              t.agent b = (s.agent b).told (.revoked k r.mode r.ticket (s.units.setWidth 16))) ∧
            (s.NoTrace b k → t.agent b = s.agent b))) ∧
    ((∀ f ∈ s.inFlight, f.request.job ≠ .clear ∨ f.position.val = 64) → exec .clearSweepVisit s = .next s)

/-- The completion of a sweep: a detach target becomes ABSENT with 16 credits and its line released; the requester is
told SWEEP_DONE under the epoch test; the engine takes the oldest request or becomes idle (R157, R112). At another
position the command changes nothing (the model's choice, log 5). -/
def Obligations.CompletionEndsTheSweep : Prop :=
  ∀ s : State,
    (∀ (f : SweepFlight) (s1 s2 s3 : State), s.inFlight = some f → f.position.val = 64 →
      s1 = (match f.request.job with
        | .detach target => s.setAgent target
            { s.agent target with status := .absent, credits := 16, lineLow := false }
        | .clear => s) →
      s2 = (match f.request.requester with
        | some (q, epoch) =>
          if (s1.agent q).status = .attached ∧ (s1.agent q).epoch = epoch then
            s1.setAgent q ((s1.agent q).told (.sweepDone f.request.job (s.units.setWidth 16)))
          else s1
        | none => s1) →
      s3 = (match s.sweepQueue with
        | [] => { s2 with inFlight := none }
        | r :: rest => { s2 with inFlight := some { request := r, position := 0 }, sweepQueue := rest }) →
      exec .sweepCompletion s = .next s3) ∧
    ((∀ f ∈ s.inFlight, f.position.val ≠ 64) → exec .sweepCompletion s = .next s)

/-! ## Holder departure and grant evaluation -/

/-- Holder departure, row by row (R4). -/
def Obligations.HolderDepartureFollowsTheTable : Prop :=
  ∀ (s : State) (k : LockId),
    ((s.lock k).state = .exclusive ∨ (s.lock k).state = .shared → (s.lock k).holders = [] →
      ((s.lock k).queue = [] → s.departure k = s.setLock k { s.lock k with state := .free }) ∧
      ((s.lock k).queue ≠ [] → s.departure k = (s.setLock k { s.lock k with state := .free }).grantEval k)) ∧
    ((s.lock k).state = .shared → (s.lock k).holders ≠ [] →
      ((s.lock k).queue = [] → s.departure k = s) ∧
      ((s.lock k).queue ≠ [] → s.departure k = s.grantEval k)) ∧
    ((s.lock k).state = .draining →
      ((s.lock k).holders = [] → s.departure k =
        (s.setLock k { s.lock k with state := .closed, drain := none }).setClass (s.lock k).cls
          { s.cls (s.lock k).cls with useCount := (s.cls (s.lock k).cls).useCount - 1 }) ∧
      ((s.lock k).holders ≠ [] → s.departure k = s))

/-- Grant evaluation at a lock (R47, R48, R49, R8, R27, R29): entries of DETACHING agents at the head are removed; an
EXCLUSIVE head is granted at a lock without holders; a SHARED head at a FREE or SHARED lock is granted with the SHARED
entries behind it up to the first EXCLUSIVE entry of another agent, tickets rising by 1 in queue order, and entries of
DETACHING agents on the way are removed; otherwise nothing is granted. -/
def Obligations.GrantEvaluationServesTheQueue : Prop :=
  ∀ (l : LockEntry) (k : LockId) (detaching : AgentId → Bool) (lease : BitVec 12) (now : Word)
    (pruned rest : List WaitEntry),
    l.queue = pruned ++ rest → (∀ w ∈ pruned, detaching w.agent = true) →
    (∀ w ∈ rest.head?, detaching w.agent = false) →
    (rest = [] → l.evaluate k detaching lease now = ({ l with queue := [] }, [])) ∧
    ∀ w behind, rest = w :: behind →
      (w.mode = .exclusive → l.holders ≠ [] →
        l.evaluate k detaching lease now = ({ l with queue := rest }, [])) ∧
      (w.mode = .shared → l.state ≠ .free → l.state ≠ .shared →
        l.evaluate k detaching lease now = ({ l with queue := rest }, [])) ∧
      (w.mode = .exclusive → l.holders = [] →
        l.evaluate k detaching lease now =
          ({ l with
             state := .exclusive
             ticket := l.ticket + 1
             holders := [{ agent := w.agent, mode := .exclusive, depth := 1, ticket := l.ticket + 1,
                           deadline := if lease = 0 then none else some (now + lease.setWidth 32) }]
             queue := behind },
           [(w.agent, .granted k .exclusive (l.ticket + 1) w.tag l.marker (now.setWidth 16))])) ∧
      (w.mode = .shared → l.state = .free ∨ l.state = .shared →
        ∀ run left granted, rest = run ++ left → granted = run.filter (fun x => !detaching x.agent) →
          (∀ x ∈ run, detaching x.agent = true ∨ x.mode = .shared) →
          (∀ x ∈ left.head?, detaching x.agent = false ∧ x.mode = .exclusive) →
          l.evaluate k detaching lease now =
            ({ l with
               state := .shared
               ticket := l.ticket + BitVec.ofNat 16 granted.length
               holders := l.holders ++ granted.mapIdx fun i x =>
                 { agent := x.agent, mode := .shared, depth := 1, ticket := l.ticket + BitVec.ofNat 16 (i + 1),
                   deadline := if lease = 0 then none else some (now + lease.setWidth 32) }
               queue := left },
             granted.mapIdx fun i x =>
               (x.agent, .granted k .shared (l.ticket + BitVec.ofNat 16 (i + 1)) x.tag l.marker (now.setWidth 16))))

/-- Grant evaluation at lock `k` writes the lock as evaluated against its class's lease, the agent table's states and the
unit counter, addresses its notices in order, and changes nothing else (R47, R50). -/
def Obligations.GrantEvaluationTouchesOneLock : Prop :=
  ∀ (s : State) (k : LockId) (out : LockEntry × List (AgentId × Notice)),
    out = (s.lock k).evaluate k (fun a => decide ((s.agent a).status = .detaching)) (s.lockClass k).lease s.units →
    (s.grantEval k).lock k = out.1 ∧ (∀ j, j ≠ k → (s.grantEval k).lock j = s.lock j) ∧
    (∀ b, (s.grantEval k).agent b =
      (out.2.filter fun p => decide (p.1 = b)).foldl (fun e p => e.told p.2) (s.agent b)) ∧
    (s.grantEval k).classes = s.classes ∧ (s.grantEval k).units = s.units ∧
    (s.grantEval k).prescaler = s.prescaler ∧ (s.grantEval k).refCount = s.refCount ∧
    (s.grantEval k).sweepQueue = s.sweepQueue ∧ (s.grantEval k).inFlight = s.inFlight ∧
    (s.grantEval k).resetLow = s.resetLow ∧ (s.grantEval k).answer = s.answer ∧
    (s.grantEval k).pending = s.pending

/-! ## Codes and layouts -/

/-- A write access by agent `a` is the command its offset and code name: the codes of R167 at CMD and SCMD, bits 31:8
ignored; the registers with a write behaviour of their own; and at every other offset (ARG0, ARG1, SARG0, SARG1, the
read-only and the unlisted ones) ARGUMENT_REGISTER_WRITE (R163, R164, R167, R168). It is a command of its own row, sent
by `a`. Code 3 of SCMD is named after SARG1 as it stands at the write (the model's reading, log 9; rows, log 10). -/
def Obligations.WriteAccessesSpellTheirCommands : Prop :=
  ∀ (a : AgentId) (s : State) (high : BitVec 24) (w : Word),
    s.windowWrite a 0 (high ++ (1 : BitVec 8)) = .attach a ∧
    s.windowWrite a 0 (high ++ (2 : BitVec 8)) = .detach a ∧
    s.windowWrite a 0 (high ++ (3 : BitVec 8)) = .acquire a ∧
    s.windowWrite a 0 (high ++ (4 : BitVec 8)) = .release a ∧
    s.windowWrite a 0 (high ++ (5 : BitVec 8)) = .renew a ∧
    s.windowWrite a 0 (high ++ (6 : BitVec 8)) = .cancel a ∧
    s.windowWrite a 0 (high ++ (7 : BitVec 8)) = .probe a ∧
    s.windowWrite a 64 (high ++ (1 : BitVec 8)) = .openLock a ∧
    s.windowWrite a 64 (high ++ (2 : BitVec 8)) = .closeLock a ∧
    (s.revokeArg a = 15 → s.windowWrite a 64 (high ++ (3 : BitVec 8)) = .revokeAll a) ∧
    (s.revokeArg a ≠ 15 → s.windowWrite a 64 (high ++ (3 : BitVec 8)) = .revoke a) ∧
    s.windowWrite a 64 (high ++ (4 : BitVec 8)) = .detachAgent a ∧
    s.windowWrite a 64 (high ++ (5 : BitVec 8)) = .clearAll a ∧
    s.windowWrite a 64 (high ++ (6 : BitVec 8)) = .giveSupervisor a ∧
    s.windowWrite a 64 (high ++ (7 : BitVec 8)) = .takeSupervisor a ∧
    (∀ code : BitVec 8, code.toNat = 0 ∨ 8 ≤ code.toNat →
      s.windowWrite a 0 (high ++ code) = .badCommand a .agent code ∧
      s.windowWrite a 64 (high ++ code) = .badCommand a .control code) ∧
    s.windowWrite a 11 w = .notifyWrite a w ∧ s.windowWrite a 72 w = .tsel a w ∧
    (∀ n : Fin 5, s.windowWrite a (BitVec.ofNat 7 (73 + n.val)) w = .tdataWrite a n w) ∧
    s.windowWrite a 80 w = .tcommit a ∧ s.windowWrite a 84 w = .prescaleWrite a w ∧
    (∀ o : BitVec 7, o.toNat ∉ [0, 11, 64, 72, 73, 74, 75, 76, 77, 80, 84] →
      s.windowWrite a o w = .argumentRegisterWrite a o w) ∧
    ∀ o : BitVec 7, (s.windowWrite a o w).wellFormed = true ∧ (s.windowWrite a o w).accessor = some a

/-- The status codes of R167 and the lock state codes, and the words of a result record and of a notice, from bit 31
down, in the layouts of R169; fields a notice's kind does not carry read 0, and so do the bits not named. -/
def Obligations.ResultAndNoticeWordsFollowTheLayouts : Prop :=
  [Status.noStatus, .done, .granted, .queued].map (fun st => st.code.toNat) = [0, 1, 2, 3] ∧
  [Status.badCommand, .badArgument, .badLock, .notAttached, .detaching, .alreadyAttached, .closed, .denied, .badMode,
    .held, .depth, .modeConflict, .alreadyWaiting, .order, .noCredit, .poolEmpty, .wouldWait, .notHolder,
    .staleTicket, .notWaiting, .noLease, .notClosed, .inUse, .sweepFull, .alreadyQueued, .sweepActive,
    .lastSupervisor].map (fun st => st.code.toNat) = List.range' 16 27 ∧
  [LockState.closed, .free, .exclusive, .shared, .draining].map (fun st => st.code.toNat) = [0, 1, 2, 3, 4] ∧
  (∀ r : CommandResult,
    (ResultRecord.command r).word0 =
      (0 : BitVec 4) ++ BitVec.ofNat 3 r.position ++ BitVec.ofNat 5 r.credits ++ (0 : BitVec 1) ++
        BitVec.ofBool r.cleanNotApplied ++ BitVec.ofBool r.recursion ++ BitVec.ofBool r.marker ++ (0 : BitVec 2) ++
        BitVec.ofNat 6 r.lock.val ++ r.status.code ∧
    (ResultRecord.command r).word1 = (0 : BitVec 12) ++ BitVec.ofNat 4 r.depth ++ r.ticket) ∧
  (∀ r : ProbeResult,
    (ResultRecord.probe r).word0 =
      (0 : BitVec 1) ++ BitVec.ofNat 3 r.queueLength ++ BitVec.ofNat 3 r.position ++ BitVec.ofNat 5 r.credits ++
        BitVec.ofBool r.marker ++ BitVec.ofBool (decide (r.drain = some .shared)) ++ BitVec.ofNat 4 r.holderCount ++
        BitVec.ofNat 3 r.cls.val ++ r.state.code ++ (1 : BitVec 8) ∧
    (r.own = none → (ResultRecord.probe r).word1 = (0 : BitVec 16) ++ r.ticket) ∧
    ∀ m d, r.own = some (m, d) → (ResultRecord.probe r).word1 =
      (0 : BitVec 11) ++ BitVec.ofBool (decide (m = .shared)) ++ BitVec.ofNat 4 d ++ r.ticket) ∧
  ∀ (k : LockId) (m : Mode) (ticket : Half) (tag : BitVec 8) (marker : Bool) (time : Half) (n : Notice)
    (kind : BitVec 4) (hasTag : BitVec 8) (hasTicket : Half),
    (n = .granted k m ticket tag marker time ∧ kind = 1 ∧ hasTag = tag ∧ hasTicket = ticket) ∨
      (marker = false ∧
        ((n = .timedOut k m tag time ∧ kind = 2 ∧ hasTag = tag ∧ hasTicket = 0) ∨
          (n = .cancelled k m tag time ∧ kind = 3 ∧ hasTag = tag ∧ hasTicket = 0) ∨
          (n = .expired k m ticket time ∧ kind = 4 ∧ hasTag = 0 ∧ hasTicket = ticket) ∨
          (n = .revoked k m ticket time ∧ kind = 5 ∧ hasTag = 0 ∧ hasTicket = ticket))) →
      n.word0 = (0 : BitVec 8) ++ hasTag ++ BitVec.ofBool marker ++ BitVec.ofBool (decide (m = .shared)) ++
        BitVec.ofNat 6 k.val ++ (0 : BitVec 4) ++ kind ∧
      n.word1 = time ++ hasTicket ∧
      (∀ target : AgentId,
        (Notice.sweepDone (.detach target) time).word0 = (0 : BitVec 4) ++ BitVec.ofNat 3 target.val ++ (6 : BitVec 25) ∧
        (Notice.sweepDone (.detach target) time).word1 = time ++ (0 : Half)) ∧
      (Notice.sweepDone .clear time).word0 = (0 : BitVec 7) ++ (1 : BitVec 1) ++ (6 : BitVec 24) ∧
      (Notice.sweepDone .clear time).word1 = time ++ (0 : Half)

/-- A read is answered with the register's value as the accessing agent's own copy or the part holds it, in the layouts
of R170; reads of the control view need the supervisor right, and a read of a
write-only register or of an offset the map does not list is answered with BERR_N and D driven with 0 (R161, R162,
R163, R133, R160). A read of NTAKE returns word 0 of the head notice, or 0 (R131, R132), and is the command NTAKE: the
command's answer is the read's. -/
def Obligations.ReadsReturnTheRegisters : Prop :=
  ∀ (a : AgentId) (s : State) (e : AgentEntry), e = s.agent a →
    (s.resetLow = false →
      s.busRead a 1 = .rdy (some e.arg0) ∧ s.busRead a 2 = .rdy (some e.arg1) ∧
      s.busRead a 4 = .rdy (some e.result.word0) ∧ s.busRead a 5 = .rdy (some e.result.word1) ∧
      (e.notices = [] → s.busRead a 8 = .rdy (some 0)) ∧
      (∀ n rest, e.notices = n :: rest → s.busRead a 8 = .rdy (some n.word0)) ∧
      s.busRead a 9 = .rdy (some e.nword1) ∧
      s.busRead a 10 = .rdy (some ((0 : BitVec 19) ++ BitVec.ofNat 5 e.credits ++ (0 : BitVec 3) ++
        BitVec.ofNat 5 e.notices.length)) ∧
      s.busRead a 11 = .rdy (some ((0 : BitVec 28) ++ BitVec.ofBool e.lineLow ++ BitVec.ofBool e.latch ++
        BitVec.ofBool (decide (e.notifyMode = .arrival)) ++ BitVec.ofBool e.notifyEnable)) ∧
      s.busRead a 12 = .rdy (some ((0 : BitVec 8) ++ e.epoch ++ (0 : BitVec 7) ++ BitVec.ofBool e.supervisor ++
        (0 : BitVec 2) ++ (match e.status with
          | .absent => (0 : BitVec 2)
          | .attached => 1
          | .detaching => 2) ++ (0 : BitVec 1) ++ BitVec.ofNat 3 a.val))) ∧
    (s.Controls a →
      s.busRead a 65 = .rdy (some e.sarg0) ∧ s.busRead a 66 = .rdy (some e.sarg1) ∧
      s.busRead a 68 = .rdy (some e.controlResult.word0) ∧ s.busRead a 69 = .rdy (some e.controlResult.word1) ∧
      (e.staging = none → ∀ n : Fin 5, s.busRead a (BitVec.ofNat 7 (73 + n.val)) = .rdy (some 0)) ∧
      s.busRead a 84 = .rdy (some ((0 : BitVec 16) ++ s.prescaler)) ∧ s.busRead a 85 = .rdy (some s.units) ∧
      (s.inFlight = none →
        s.busRead a 88 = .rdy (some ((0 : BitVec 13) ++ BitVec.ofNat 3 s.sweepQueue.length ++ (0 : Half)))) ∧
      ∀ f, s.inFlight = some f →
        s.busRead a 88 = .rdy (some ((0 : BitVec 13) ++ BitVec.ofNat 3 s.sweepQueue.length ++ (0 : BitVec 1) ++
          BitVec.ofNat 7 f.position.val ++ (0 : BitVec 1) ++ (match f.request.job with
            | .detach t => BitVec.ofNat 3 t.val
            | .clear => 0) ++ (0 : BitVec 2) ++ (match f.request.job with
            | .detach _ => (1 : BitVec 2)
            | .clear => 2)))) ∧
    ((s.agent a).supervisor = false → ∀ o : BitVec 7, 64 ≤ o.toNat → s.busRead a o = .berr (some 0)) ∧
    (∀ o : BitVec 7, (registerAt o = none ∨ ∃ r, registerAt o = some r ∧ r.readable = false) →
      s.busRead a o = .berr (some 0)) ∧
    (s.resetLow = true → ∀ o : BitVec 7, s.busRead a o = .berr (some 0)) ∧
    ∃ t, exec (.ntake a) s = .next t ∧ t.answer = s.busRead a 8

/-- A TDATA read is answered with RDY whatever the staging holds (R163), with the words, from bit 31 down, of the
selection header and the fields of each snapshot in the layouts of R171, and with zeros for an invalid staging, a record
not present and a free entry. That a LOCK snapshot's drain mode bit reads 0 while there is no drain mode, and that a
position or place that is not occupied reads 0, is the model's choice (log 19). -/
def Obligations.StagingWordsFollowTheLayouts : Prop :=
  ∀ (a : AgentId) (s : State), s.Controls a →
    ∃ word : Fin 5 → Word, (∀ n : Fin 5, s.busRead a (BitVec.ofNat 7 (73 + n.val)) = .rdy (some (word n))) ∧
    ((s.agent a).staging = none → ∀ n, word n = 0) ∧
    (∀ (i : LockId) (l : LockSnapshot), (s.agent a).staging = some (.lock i l) →
      word 0 = (9 : BitVec 4) ++ (0 : BitVec 3) ++ BitVec.ofNat 9 i.val ++ (0 : BitVec 4) ++
        BitVec.ofNat 4 l.holderCount ++ BitVec.ofBool l.marker ++ BitVec.ofBool (decide (l.drain = some .shared)) ++
        BitVec.ofNat 3 l.cls.val ++ l.state.code ∧
      word 1 = (0 : Half) ++ l.ticket ∧
      (∀ p : Nat, p < 7 → ∀ lane : Word, lane = (if p < 4 then word 2 >>> (6 * p) else word 3 >>> (6 * (p - 4))) →
        (∀ x, l.queue[p]? = some x → lane.extractLsb' 0 6 = (1 : BitVec 1) ++ BitVec.ofNat 5 x.val) ∧
        (l.queue[p]? = none → lane.extractLsb' 0 6 = 0)) ∧
      (word 2).extractLsb' 24 8 = 0 ∧ (word 3).extractLsb' 18 14 = 0 ∧
      ∀ p : Nat, p < 8 →
        (∀ x, l.holders[p]? = some x → (word 4).extractLsb' (4 * p) 4 = (1 : BitVec 1) ++ BitVec.ofNat 3 x.val) ∧
        (l.holders[p]? = none → (word 4).extractLsb' (4 * p) 4 = 0)) ∧
    (∀ (i : BitVec 9) (x : Option HolderSnapshot), (s.agent a).staging = some (.holder i x) →
      (word 0).extractLsb' 16 16 = (10 : BitVec 4) ++ (0 : BitVec 3) ++ i ∧
      (x = none → (word 0).extractLsb' 0 16 = 0 ∧ word 1 = 0 ∧ word 2 = 0) ∧
      (∀ h, x = some h →
        (word 0).extractLsb' 0 16 = (0 : BitVec 4) ++ BitVec.ofNat 4 h.place ++ BitVec.ofNat 4 h.depth ++
          (0 : BitVec 1) ++ BitVec.ofBool h.deadline.isSome ++ BitVec.ofBool (decide (h.mode = .shared)) ++
          (1 : BitVec 1) ∧
        word 1 = (0 : Half) ++ h.ticket ∧ word 2 = h.deadline.getD 0) ∧ word 3 = 0 ∧ word 4 = 0) ∧
    (∀ (i : EntryId) (x : Option WaitSnapshot), (s.agent a).staging = some (.wait i x) →
      (word 0).extractLsb' 16 16 = (11 : BitVec 4) ++ (0 : BitVec 3) ++ BitVec.ofNat 9 i.val ∧
      (x = none → (word 0).extractLsb' 0 16 = 0 ∧ word 1 = 0 ∧ word 2 = 0) ∧
      (∀ w, x = some w →
        (word 0).extractLsb' 0 16 = (0 : BitVec 5) ++ BitVec.ofNat 3 w.agent.val ++ (0 : BitVec 1) ++
          BitVec.ofNat 3 w.position ++ (0 : BitVec 1) ++ BitVec.ofBool w.deadline.isSome ++
          BitVec.ofBool (decide (w.mode = .shared)) ++ (1 : BitVec 1) ∧
        word 1 = (0 : Half) ++ w.tag ++ (0 : BitVec 2) ++ BitVec.ofNat 6 w.lock.val ∧
        word 2 = w.deadline.getD 0) ∧ word 3 = 0 ∧ word 4 = 0) ∧
    (∀ (i : ClassId) (c : StagedClass), (s.agent a).staging = some (.cls i c) →
      word 0 = (12 : BitVec 4) ++ (0 : BitVec 3) ++ BitVec.ofNat 9 i.val ++ (0 : BitVec 5) ++
        BitVec.ofBool c.ordered ++ BitVec.ofBool c.recursionAllowed ++ BitVec.ofBool c.sharedAllowed ++ c.mask ∧
      word 1 = (0 : BitVec 24) ++ c.rank ∧ word 2 = (0 : Half) ++ c.lease ∧ word 3 = (0 : Half) ++ c.cap ∧
      word 4 = (0 : BitVec 25) ++ c.useCount) ∧
    ∀ (i : AgentId) (e : AgentSnapshot), (s.agent a).staging = some (.agent i e) →
      word 0 = (13 : BitVec 4) ++ (0 : BitVec 3) ++ BitVec.ofNat 9 i.val ++ e.epoch ++ (0 : BitVec 2) ++
        BitVec.ofBool e.latch ++ BitVec.ofBool (decide (e.notifyMode = .arrival)) ++ BitVec.ofBool e.notifyEnable ++
        BitVec.ofBool e.supervisor ++ e.status.code ∧
      word 1 = (0 : BitVec 19) ++ BitVec.ofNat 5 e.queueLength ++ (0 : BitVec 3) ++ BitVec.ofNat 5 e.credits ∧
      word 2 = 0 ∧ word 3 = 0 ∧ word 4 = 0

/-! ## Who changes what -/

/-- An agent's argument registers, result records, staging, NWORD1, notify configuration, epoch and supervisor right are
out of reach of every command but its own accesses, GIVE_SUPERVISOR and TAKE_SUPERVISOR (for the right) and pin reset
(R106, R113, R115, R119, R162). -/
def Obligations.AgentRegistersAreTheirOwnersAlone : Prop :=
  ∀ (c : Instr) (s t : State) (b : AgentId), exec c s = .next t → c.accessor ≠ some b →
    (∀ low, c ≠ .pinReset low) →
    (t.agent b).arg0 = (s.agent b).arg0 ∧ (t.agent b).arg1 = (s.agent b).arg1 ∧
    (t.agent b).sarg0 = (s.agent b).sarg0 ∧ (t.agent b).sarg1 = (s.agent b).sarg1 ∧
    (t.agent b).result = (s.agent b).result ∧ (t.agent b).controlResult = (s.agent b).controlResult ∧
    (t.agent b).staging = (s.agent b).staging ∧ (t.agent b).nword1 = (s.agent b).nword1 ∧
    (t.agent b).notifyEnable = (s.agent b).notifyEnable ∧ (t.agent b).notifyMode = (s.agent b).notifyMode ∧
    (t.agent b).epoch = (s.agent b).epoch ∧
    ((∀ a, c ≠ .giveSupervisor a ∧ c ≠ .takeSupervisor a) → (t.agent b).supervisor = (s.agent b).supervisor)

/-- A lock's class field changes by OPEN and pin reset alone (R2); a class descriptor by TCOMMIT and pin reset alone
(R93); the unit counter by an advance and pin reset alone (R140). -/
def Obligations.ClassFieldsDescriptorsAndUnitsChangeByTheirOwnCommands : Prop :=
  ∀ (c : Instr) (s t : State), exec c s = .next t → (∀ low, c ≠ .pinReset low) →
    ((∀ a, c ≠ .openLock a) → ∀ k, (t.lock k).cls = (s.lock k).cls) ∧
    ((∀ a, c ≠ .tcommit a) → ∀ d, (t.cls d).desc = (s.cls d).desc) ∧
    (c ≠ .unitAdvance → t.units = s.units)

/-! ## Laws every step keeps -/

/-- Every law holds right after reset. For the division law, whose case at reset is a count of 0 REFCLK periods, that is
the model's choice: the spec states no count after pin reset (log 2). -/
def Obligations.ResetMeetsEveryLaw : Prop :=
  State.reset.Sane

/-- Every step keeps the agreement of state, holder list, queue and drain mode, one place for each agent at a lock, and
depths of 1 to 15 (R3, R5, R6). -/
def Obligations.StepKeepsLocksSound : Prop :=
  ∀ s t : State, s.LockLaw → step s = .next t → t.LockLaw

/-- Every step keeps every notify line driven exactly as R134 says, and every deadline within 4095 advances ahead of the
unit counter (R141, R142). -/
def Obligations.StepKeepsLinesAndDeadlines : Prop :=
  ∀ s t : State, step s = .next t → (s.LineLaw → t.LineLaw) ∧ (s.DeadlineLaw → t.DeadlineLaw)

/-- Every step keeps the laws of the sweep queue: 4 waiting at most, one request for each job, and an agent DETACHING
exactly while a DETACH request naming it is outstanding (R147); and what a sweep in flight has done behind its position
(R152). -/
def Obligations.StepKeepsSweepLaws : Prop :=
  ∀ s t : State, s.SweepLaw → step s = .next t →
    t.SweepLaw ∧ (s.LockLaw → s.VisitLaw → t.VisitLaw)

/-- Every step keeps each use count equal to the number of the class's locks that are not CLOSED (R98), and keeps holders
and waiters within what the class of their lock allows (R97, R35). -/
def Obligations.StepKeepsClassLaws : Prop :=
  ∀ s t : State, s.LockLaw → s.UseLaw → step s = .next t → t.UseLaw ∧ (s.ClassLaw → t.ClassLaw)

/-- Every step keeps the credit sum of every ATTACHED agent at 16 (R121), given what the rule counts on: one place for an
agent at a lock (R5), no wait entry linked twice (R53), the sweep queue in order (R147), nothing left of an ABSENT agent
(R108), and requesters that are still the attachment that asked (R157). -/
def Obligations.StepKeepsTheCreditSum : Prop :=
  ∀ s t : State, (∀ k, (s.lock k).OnePlaceEach) → s.PoolLaw → s.SweepLaw → s.AbsentLaw → s.RequesterLaw →
    s.CreditLaw → step s = .next t → t.CreditLaw

/-- Every step keeps every law together, so together they are an invariant of the part: among them the deadline law
(R141), the requester law (R157), the ticket law (R172), and the division law (R138), which rests besides on the model's
choice for the count of REFCLK periods, 0 at pin reset and waiting at the last period while an event of the last advance
is left to take (log 2). -/
def Obligations.StepKeepsEveryLaw : Prop :=
  ∀ s t : State, s.Sane → step s = .next t → t.Sane
end

