-- ==== Sys2Proof/Laws/State.lean ====
section
/-! SUPPORT. One lemma per field per update of `State`, so that no later proof unfolds a record update. -/
namespace Sys2Proof.Machine

variable (s : State) (j k : LockId) (c d : ClassId) (a b : AgentId)

/-! ## Reads after writes of the tables -/

theorem lock_setLock (l : LockEntry) : (s.setLock k l).lock j = if j = k then l else s.lock j := by
  simp only [State.lock, State.setLock, Vector.getElem_set, Fin.ext_iff]
  by_cases h : k.val = j.val
  · rw [if_pos h, if_pos h.symm]
  · rw [if_neg h, if_neg (Ne.symm h)]

theorem cls_setClass (e : ClassEntry) : (s.setClass c e).cls d = if d = c then e else s.cls d := by
  simp only [State.cls, State.setClass, Vector.getElem_set, Fin.ext_iff]
  by_cases h : c.val = d.val
  · rw [if_pos h, if_pos h.symm]
  · rw [if_neg h, if_neg (Ne.symm h)]

theorem agent_setAgent (e : AgentEntry) : (s.setAgent a e).agent b = if b = a then e else s.agent b := by
  simp only [State.agent, State.setAgent, Vector.getElem_set, Fin.ext_iff]
  by_cases h : a.val = b.val
  · rw [if_pos h, if_pos h.symm]
  · rw [if_neg h, if_neg (Ne.symm h)]

@[simp] theorem lock_setLock_self (l : LockEntry) : (s.setLock k l).lock k = l := by
  rw [lock_setLock, if_pos rfl]

@[simp] theorem lock_setLock_ne (l : LockEntry) (h : j ≠ k) : (s.setLock k l).lock j = s.lock j := by
  rw [lock_setLock, if_neg h]

@[simp] theorem cls_setClass_self (e : ClassEntry) : (s.setClass c e).cls c = e := by
  rw [cls_setClass, if_pos rfl]

@[simp] theorem cls_setClass_ne (e : ClassEntry) (h : d ≠ c) : (s.setClass c e).cls d = s.cls d := by
  rw [cls_setClass, if_neg h]

@[simp] theorem agent_setAgent_self (e : AgentEntry) : (s.setAgent a e).agent a = e := by
  rw [agent_setAgent, if_pos rfl]

@[simp] theorem agent_setAgent_ne (e : AgentEntry) (h : b ≠ a) : (s.setAgent a e).agent b = s.agent b := by
  rw [agent_setAgent, if_neg h]

/-! ## Writes over writes -/

@[simp] theorem setLock_setLock (l m : LockEntry) : (s.setLock k l).setLock k m = s.setLock k m := by
  simp [State.setLock]

@[simp] theorem setClass_setClass (e f : ClassEntry) : (s.setClass c e).setClass c f = s.setClass c f := by
  simp [State.setClass]

@[simp] theorem setAgent_setAgent (e f : AgentEntry) : (s.setAgent a e).setAgent a f = s.setAgent a f := by
  simp [State.setAgent]

theorem setAgent_comm (e f : AgentEntry) (h : a ≠ b) :
    (s.setAgent a e).setAgent b f = (s.setAgent b f).setAgent a e := by
  simp only [State.setAgent]
  congr 1
  exact Vector.set_comm _ _ (fun hv => h (Fin.ext hv))

theorem setLock_comm (l m : LockEntry) (h : j ≠ k) :
    (s.setLock j l).setLock k m = (s.setLock k m).setLock j l := by
  simp only [State.setLock]
  congr 1
  exact Vector.set_comm _ _ (fun hv => h (Fin.ext hv))

@[simp] theorem setLock_lock : s.setLock k (s.lock k) = s := by
  simp [State.setLock, State.lock]

@[simp] theorem setAgent_agent : s.setAgent a (s.agent a) = s := by
  simp [State.setAgent, State.agent]

@[simp] theorem setClass_cls : s.setClass c (s.cls c) = s := by
  simp [State.setClass, State.cls]

/-! ## One spelling for the derived updates -/

@[simp] theorem modAgent_eq (f : AgentEntry → AgentEntry) : s.modAgent a f = s.setAgent a (f (s.agent a)) := rfl

@[simp] theorem ready_eq : s.ready = s.answered (.rdy none) := rfl

@[simp] theorem busError_eq : s.busError = s.answered (.berr none) := rfl

@[simp] theorem raiseUse_eq : s.raiseUse c = s.setClass c { s.cls c with useCount := (s.cls c).useCount + 1 } := rfl

@[simp] theorem lowerUse_eq : s.lowerUse c = s.setClass c { s.cls c with useCount := (s.cls c).useCount - 1 } := rfl

theorem lockClass_eq : s.lockClass k = (s.cls (s.lock k).cls).desc := rfl

@[simp] theorem answered_answered (x y : BusAnswer) : (s.answered x).answered y = s.answered y := rfl

/-! ## Fields each update leaves alone -/

@[simp] theorem setLock_cls (l : LockEntry) : (s.setLock k l).cls d = s.cls d := rfl
@[simp] theorem setLock_agent (l : LockEntry) : (s.setLock k l).agent b = s.agent b := rfl
@[simp] theorem setLock_units (l : LockEntry) : (s.setLock k l).units = s.units := rfl
@[simp] theorem setLock_prescaler (l : LockEntry) : (s.setLock k l).prescaler = s.prescaler := rfl
@[simp] theorem setLock_refCount (l : LockEntry) : (s.setLock k l).refCount = s.refCount := rfl
@[simp] theorem setLock_sweepQueue (l : LockEntry) : (s.setLock k l).sweepQueue = s.sweepQueue := rfl
@[simp] theorem setLock_inFlight (l : LockEntry) : (s.setLock k l).inFlight = s.inFlight := rfl
@[simp] theorem setLock_resetLow (l : LockEntry) : (s.setLock k l).resetLow = s.resetLow := rfl
@[simp] theorem setLock_answer (l : LockEntry) : (s.setLock k l).answer = s.answer := rfl
@[simp] theorem setLock_pending (l : LockEntry) : (s.setLock k l).pending = s.pending := rfl

@[simp] theorem setClass_lock (e : ClassEntry) : (s.setClass c e).lock j = s.lock j := rfl
@[simp] theorem setClass_agent (e : ClassEntry) : (s.setClass c e).agent b = s.agent b := rfl
@[simp] theorem setClass_units (e : ClassEntry) : (s.setClass c e).units = s.units := rfl
@[simp] theorem setClass_prescaler (e : ClassEntry) : (s.setClass c e).prescaler = s.prescaler := rfl
@[simp] theorem setClass_refCount (e : ClassEntry) : (s.setClass c e).refCount = s.refCount := rfl
@[simp] theorem setClass_sweepQueue (e : ClassEntry) : (s.setClass c e).sweepQueue = s.sweepQueue := rfl
@[simp] theorem setClass_inFlight (e : ClassEntry) : (s.setClass c e).inFlight = s.inFlight := rfl
@[simp] theorem setClass_resetLow (e : ClassEntry) : (s.setClass c e).resetLow = s.resetLow := rfl
@[simp] theorem setClass_answer (e : ClassEntry) : (s.setClass c e).answer = s.answer := rfl
@[simp] theorem setClass_pending (e : ClassEntry) : (s.setClass c e).pending = s.pending := rfl

@[simp] theorem setAgent_lock (e : AgentEntry) : (s.setAgent a e).lock j = s.lock j := rfl
@[simp] theorem setAgent_cls (e : AgentEntry) : (s.setAgent a e).cls d = s.cls d := rfl
@[simp] theorem setAgent_units (e : AgentEntry) : (s.setAgent a e).units = s.units := rfl
@[simp] theorem setAgent_prescaler (e : AgentEntry) : (s.setAgent a e).prescaler = s.prescaler := rfl
@[simp] theorem setAgent_refCount (e : AgentEntry) : (s.setAgent a e).refCount = s.refCount := rfl
@[simp] theorem setAgent_sweepQueue (e : AgentEntry) : (s.setAgent a e).sweepQueue = s.sweepQueue := rfl
@[simp] theorem setAgent_inFlight (e : AgentEntry) : (s.setAgent a e).inFlight = s.inFlight := rfl
@[simp] theorem setAgent_resetLow (e : AgentEntry) : (s.setAgent a e).resetLow = s.resetLow := rfl
@[simp] theorem setAgent_answer (e : AgentEntry) : (s.setAgent a e).answer = s.answer := rfl
@[simp] theorem setAgent_pending (e : AgentEntry) : (s.setAgent a e).pending = s.pending := rfl

@[simp] theorem answered_lock (x : BusAnswer) : (s.answered x).lock j = s.lock j := rfl
@[simp] theorem answered_cls (x : BusAnswer) : (s.answered x).cls d = s.cls d := rfl
@[simp] theorem answered_agent (x : BusAnswer) : (s.answered x).agent b = s.agent b := rfl
@[simp] theorem answered_units (x : BusAnswer) : (s.answered x).units = s.units := rfl
@[simp] theorem answered_prescaler (x : BusAnswer) : (s.answered x).prescaler = s.prescaler := rfl
@[simp] theorem answered_refCount (x : BusAnswer) : (s.answered x).refCount = s.refCount := rfl
@[simp] theorem answered_sweepQueue (x : BusAnswer) : (s.answered x).sweepQueue = s.sweepQueue := rfl
@[simp] theorem answered_inFlight (x : BusAnswer) : (s.answered x).inFlight = s.inFlight := rfl
@[simp] theorem answered_resetLow (x : BusAnswer) : (s.answered x).resetLow = s.resetLow := rfl
@[simp] theorem answered_answer (x : BusAnswer) : (s.answered x).answer = x := rfl
@[simp] theorem answered_pending (x : BusAnswer) : (s.answered x).pending = s.pending := rfl

@[simp] theorem setAgent_lockClass (e : AgentEntry) : (s.setAgent a e).lockClass j = s.lockClass j := rfl
@[simp] theorem answered_lockClass (x : BusAnswer) : (s.answered x).lockClass j = s.lockClass j := rfl

/-! ## The tables under updates of the other fields -/

@[simp] theorem lock_with_pending (x : List Instr) : State.lock { s with pending := x } j = s.lock j := rfl
@[simp] theorem cls_with_pending (x : List Instr) : State.cls { s with pending := x } d = s.cls d := rfl
@[simp] theorem agent_with_pending (x : List Instr) : State.agent { s with pending := x } b = s.agent b := rfl
@[simp] theorem lock_with_units (x : Word) : State.lock { s with units := x } j = s.lock j := rfl
@[simp] theorem cls_with_units (x : Word) : State.cls { s with units := x } d = s.cls d := rfl
@[simp] theorem agent_with_units (x : Word) : State.agent { s with units := x } b = s.agent b := rfl
@[simp] theorem lock_with_prescaler (x : Half) : State.lock { s with prescaler := x } j = s.lock j := rfl
@[simp] theorem cls_with_prescaler (x : Half) : State.cls { s with prescaler := x } d = s.cls d := rfl
@[simp] theorem agent_with_prescaler (x : Half) : State.agent { s with prescaler := x } b = s.agent b := rfl
@[simp] theorem lock_with_refCount (x : Half) : State.lock { s with refCount := x } j = s.lock j := rfl
@[simp] theorem cls_with_refCount (x : Half) : State.cls { s with refCount := x } d = s.cls d := rfl
@[simp] theorem agent_with_refCount (x : Half) : State.agent { s with refCount := x } b = s.agent b := rfl
@[simp] theorem lock_with_sweepQueue (x : List SweepRequest) : State.lock { s with sweepQueue := x } j = s.lock j := rfl
@[simp] theorem cls_with_sweepQueue (x : List SweepRequest) : State.cls { s with sweepQueue := x } d = s.cls d := rfl
@[simp] theorem agent_with_sweepQueue (x : List SweepRequest) : State.agent { s with sweepQueue := x } b = s.agent b := rfl
@[simp] theorem lock_with_inFlight (x : Option SweepFlight) : State.lock { s with inFlight := x } j = s.lock j := rfl
@[simp] theorem cls_with_inFlight (x : Option SweepFlight) : State.cls { s with inFlight := x } d = s.cls d := rfl
@[simp] theorem agent_with_inFlight (x : Option SweepFlight) : State.agent { s with inFlight := x } b = s.agent b := rfl
@[simp] theorem lock_with_resetLow (x : Bool) : State.lock { s with resetLow := x } j = s.lock j := rfl
@[simp] theorem cls_with_resetLow (x : Bool) : State.cls { s with resetLow := x } d = s.cls d := rfl
@[simp] theorem agent_with_resetLow (x : Bool) : State.agent { s with resetLow := x } b = s.agent b := rfl
@[simp] theorem lock_with_answer (x : BusAnswer) : State.lock { s with answer := x } j = s.lock j := rfl
@[simp] theorem cls_with_answer (x : BusAnswer) : State.cls { s with answer := x } d = s.cls d := rfl
@[simp] theorem agent_with_answer (x : BusAnswer) : State.agent { s with answer := x } b = s.agent b := rfl

@[simp] theorem lock_with_agents (x : Vector AgentEntry Config.agents) :
    State.lock { s with agents := x } j = s.lock j := rfl
@[simp] theorem cls_with_agents (x : Vector AgentEntry Config.agents) :
    State.cls { s with agents := x } d = s.cls d := rfl

@[simp] theorem engineTake_lock : s.engineTake.lock j = s.lock j := by
  unfold State.engineTake; split <;> rfl
@[simp] theorem request_lock (r : SweepRequest) : (s.request r).lock j = s.lock j := by
  simp [State.request]
@[simp] theorem engineTake_cls : s.engineTake.cls d = s.cls d := by
  unfold State.engineTake; split <;> rfl
@[simp] theorem request_cls (r : SweepRequest) : (s.request r).cls d = s.cls d := by
  simp [State.request]
@[simp] theorem engineTake_agent : s.engineTake.agent b = s.agent b := by
  unfold State.engineTake; split <;> rfl
@[simp] theorem request_agent (r : SweepRequest) : (s.request r).agent b = s.agent b := by
  simp [State.request]
@[simp] theorem engineTake_units : s.engineTake.units = s.units := by
  unfold State.engineTake; split <;> rfl
@[simp] theorem request_units (r : SweepRequest) : (s.request r).units = s.units := by
  simp [State.request]
@[simp] theorem engineTake_prescaler : s.engineTake.prescaler = s.prescaler := by
  unfold State.engineTake; split <;> rfl
@[simp] theorem request_prescaler (r : SweepRequest) : (s.request r).prescaler = s.prescaler := by
  simp [State.request]
@[simp] theorem engineTake_refCount : s.engineTake.refCount = s.refCount := by
  unfold State.engineTake; split <;> rfl
@[simp] theorem request_refCount (r : SweepRequest) : (s.request r).refCount = s.refCount := by
  simp [State.request]
@[simp] theorem engineTake_resetLow : s.engineTake.resetLow = s.resetLow := by
  unfold State.engineTake; split <;> rfl
@[simp] theorem request_resetLow (r : SweepRequest) : (s.request r).resetLow = s.resetLow := by
  simp [State.request]
@[simp] theorem engineTake_answer : s.engineTake.answer = s.answer := by
  unfold State.engineTake; split <;> rfl
@[simp] theorem request_answer (r : SweepRequest) : (s.request r).answer = s.answer := by
  simp [State.request]
@[simp] theorem engineTake_pending : s.engineTake.pending = s.pending := by
  unfold State.engineTake; split <;> rfl
@[simp] theorem request_pending (r : SweepRequest) : (s.request r).pending = s.pending := by
  simp [State.request]

end Sys2Proof.Machine
end

