-- ==== Sys2Proof/Laws/Ops.lean ====
section
/-! SUPPORT. One lemma per shared operation: what each lookup, argument field, credit move, notice and pool view
answers, so that no later proof unfolds them. -/
namespace Sys2Proof.Machine

/-! ## Argument fields -/

theorem lockArg_eq_none (w : Word) : lockArg w = none ↔ 64 ≤ (w.setWidth 8).toNat := by
  unfold lockArg
  split
  · simp only [reduceCtorEq, false_iff]; omega
  · simp only [true_iff]; omega

theorem lockArg_eq_some (w : Word) (k : LockId) : lockArg w = some k ↔ (w.setWidth 8).toNat = k.val := by
  unfold lockArg
  split
  · simp only [Option.some.injEq, Fin.ext_iff]
  · rename_i hn
    simp only [reduceCtorEq, false_iff]
    intro h
    exact hn (h ▸ k.isLt)

theorem classArg_eq_none (w : Word) : classArg w = none ↔ 8 ≤ (w.extractLsb' 8 4).toNat := by
  unfold classArg
  split
  · simp only [reduceCtorEq, false_iff]; omega
  · simp only [true_iff]; omega

theorem classArg_eq_some (w : Word) (c : ClassId) : classArg w = some c ↔ (w.extractLsb' 8 4).toNat = c.val := by
  unfold classArg
  split
  · simp only [Option.some.injEq, Fin.ext_iff]
  · rename_i hn
    simp only [reduceCtorEq, false_iff]
    intro h
    exact hn (h ▸ c.isLt)

theorem agentArg_eq_none (w : Word) : agentArg w = none ↔ 8 ≤ (w.extractLsb' 0 4).toNat := by
  unfold agentArg
  split
  · simp only [reduceCtorEq, false_iff]; omega
  · simp only [true_iff]; omega

theorem agentArg_eq_some (w : Word) (a : AgentId) : agentArg w = some a ↔ (w.extractLsb' 0 4).toNat = a.val := by
  unfold agentArg
  split
  · simp only [Option.some.injEq, Fin.ext_iff]
  · rename_i hn
    simp only [reduceCtorEq, false_iff]
    intro h
    exact hn (h ▸ a.isLt)

theorem targetIsAll_iff (w : Word) : targetIsAll w = true ↔ (w.extractLsb' 0 4).toNat = 15 := by
  unfold targetIsAll
  rw [beq_iff_eq, ← BitVec.toNat_inj]
  rfl

theorem acquireMode_eq (w : Word) : acquireMode w = if w.getLsbD 8 = true then .shared else .exclusive := rfl

theorem formDeadline_of_ne {len : BitVec 12} (now : Word) (h : len ≠ 0) :
    formDeadline now len = some (now + len.setWidth 32) := if_neg h

theorem formDeadline_isSome (now : Word) (len : BitVec 12) : (formDeadline now len).isSome ↔ len ≠ 0 := by
  unfold formDeadline
  split <;> simp_all

/-- A deadline just formed lies at most 4095 advances ahead (R141). -/
theorem deadlineNear_formDeadline (now : Word) (len : BitVec 12) : deadlineNear now (formDeadline now len) := by
  unfold formDeadline
  split
  · trivial
  · show (now + len.setWidth 32 - now).toNat ≤ 4095
    have h : now + len.setWidth 32 - now = len.setWidth 32 := by
      rw [BitVec.add_comm, BitVec.add_sub_cancel]
    rw [h, BitVec.toNat_setWidth]
    have := len.isLt
    omega

/-- Under a class with a wait cap every wait has a limit (R56). -/
theorem effectiveLimit_ne_zero {w c : BitVec 12} (h : c ≠ 0) : effectiveLimit w c ≠ 0 := by
  unfold effectiveLimit
  split
  · exact h
  · rename_i hn
    intro h0
    exact hn ⟨h, Or.inl h0⟩

/-! ## Lookups at one lock -/

namespace LockEntry

variable (l : LockEntry) (a : AgentId)

theorem holderOf_eq_none : l.holderOf a = none ↔ ∀ r ∈ l.holders, r.agent ≠ a := by
  simp [holderOf]

theorem waiterOf_eq_none : l.waiterOf a = none ↔ ∀ w ∈ l.queue, w.agent ≠ a := by
  simp [waiterOf]

theorem waiterOf_isSome : (l.waiterOf a).isSome = true ↔ ∃ w ∈ l.queue, w.agent = a := by
  simp [waiterOf]

theorem holderOf_isSome : (l.holderOf a).isSome = true ↔ ∃ r ∈ l.holders, r.agent = a := by
  simp [holderOf]

theorem holderOf_mem {r : HolderRecord} (h : l.holderOf a = some r) : r ∈ l.holders ∧ r.agent = a := by
  have h1 := List.mem_of_find?_eq_some h
  have h2 := List.find?_some h
  exact ⟨h1, by simpa using h2⟩

theorem waiterOf_mem {w : WaitEntry} (h : l.waiterOf a = some w) : w ∈ l.queue ∧ w.agent = a := by
  have h1 := List.mem_of_find?_eq_some h
  have h2 := List.find?_some h
  exact ⟨h1, by simpa using h2⟩

/-- Among holders with distinct agents, the lookup finds the one record there is (R5). -/
theorem holderOf_eq_some (hd : l.OnePlaceEach) (r : HolderRecord) :
    l.holderOf a = some r ↔ r ∈ l.holders ∧ r.agent = a := by
  refine ⟨l.holderOf_mem a, fun ⟨hm, ha⟩ => ?_⟩
  have hn : (l.holders.map HolderRecord.agent).Nodup := (List.nodup_append.1 hd).1
  cases hf : l.holderOf a with
  | none => exact absurd ha ((l.holderOf_eq_none a).1 hf r hm)
  | some q =>
    obtain ⟨hq, hqa⟩ := l.holderOf_mem a hf
    rw [List.inj_on_of_nodup_map hn hq hm (hqa.trans ha.symm)]

/-- Dropping the agents' entry from a queue with distinct agents leaves what stood ahead of and behind it. -/
theorem filter_queue_split {ahead behind : List WaitEntry} {w : WaitEntry} (hd : l.OnePlaceEach)
    (hq : l.queue = ahead ++ w :: behind) :
    l.queue.filter (fun x => x.agent != w.agent) = ahead ++ behind := by
  have hn : (l.queue.map WaitEntry.agent).Nodup := (List.nodup_append.1 hd).2.1
  rw [hq, List.map_append, List.map_cons] at hn
  have h1 := List.nodup_append.1 hn
  have h2 := List.nodup_cons.1 h1.2.1
  rw [hq, List.filter_append, List.filter_cons]
  simp only [bne_self_eq_false, Bool.false_eq_true, if_false]
  congr 1
  · rw [List.filter_eq_self]
    intro x hx
    simpa using fun h => h1.2.2 _ (List.mem_map_of_mem hx) _ List.mem_cons_self h
  · rw [List.filter_eq_self]
    intro x hx
    have : x.agent ≠ w.agent := fun h => h2.1 (List.mem_map.2 ⟨x, hx, h⟩)
    simpa using this

theorem queuePosition_split {ahead behind : List WaitEntry} {w : WaitEntry}
    (hq : l.queue = ahead ++ w :: behind) (hw : w.agent = a) (ha : ∀ x ∈ ahead, x.agent ≠ a) :
    l.queuePosition a = ahead.length + 1 := by
  have hi : l.queue.findIdx? (fun x => x.agent == a) = some ahead.length := by
    rw [hq, List.findIdx?_append, List.findIdx?_eq_none_iff.2 (by simpa using ha)]
    simp [List.findIdx?_cons, hw]
  unfold queuePosition
  rw [hi]

theorem queuePosition_absent (h : ∀ w ∈ l.queue, w.agent ≠ a) : l.queuePosition a = 0 := by
  have hi : l.queue.findIdx? (fun x => x.agent == a) = none :=
    List.findIdx?_eq_none_iff.2 (by simpa using h)
  unfold queuePosition
  rw [hi]

theorem holderPlace_split {before after : List HolderRecord} {r : HolderRecord}
    (hq : l.holders = before ++ r :: after) (hr : r.agent = a) (ha : ∀ x ∈ before, x.agent ≠ a) :
    l.holderPlace a = before.length + 1 ∧ l.holderOf a = some r := by
  have hi : l.holders.findIdx? (fun x => x.agent == a) = some before.length := by
    rw [hq, List.findIdx?_append, List.findIdx?_eq_none_iff.2 (by simpa using ha)]
    simp [List.findIdx?_cons, hr]
  constructor
  · unfold holderPlace
    rw [hi]
  · unfold holderOf
    rw [hq, List.find?_append, List.find?_eq_none.2 (by simpa using ha)]
    simp [hr]

theorem grantableAtOnce_iff (m : Mode) :
    l.grantableAtOnce m = true ↔ l.state = .free ∨ (l.state = .shared ∧ m = .shared ∧ l.queue = []) := by
  simp [grantableAtOnce, List.isEmpty_iff, and_assoc]

end LockEntry

/-! ## Wait pool -/

theorem mem_allLocks (k : LockId) : k ∈ allLocks := List.mem_finRange k

theorem mem_allAgents (a : AgentId) : a ∈ allAgents := List.mem_finRange a

theorem mem_allEntries (e : EntryId) : e ∈ allEntries := List.mem_finRange e

theorem poolEntry_eq_none (s : State) (e : EntryId) :
    s.poolEntry e = none ↔ ∀ k, ∀ w ∈ (s.lock k).queue, w.num ≠ e := by
  simp [State.poolEntry, List.findSome?_eq_none_iff, mem_allLocks]

theorem poolEntry_mem {s : State} {e : EntryId} {k : LockId} {w : WaitEntry} (h : s.poolEntry e = some (k, w)) :
    w ∈ (s.lock k).queue ∧ w.num = e := by
  obtain ⟨j, _, hj⟩ := List.exists_of_findSome?_eq_some h
  obtain ⟨x, hx, hp⟩ := Option.map_eq_some_iff.1 hj
  cases hp
  exact ⟨List.mem_of_find?_eq_some hx, by simpa using List.find?_some hx⟩

/-- With every entry linked once, the pool view finds each entry where it stands (R53). -/
theorem poolEntry_eq_some {s : State} (hp : s.PoolLaw) (e : EntryId) (k : LockId) (w : WaitEntry) :
    s.poolEntry e = some (k, w) ↔ w ∈ (s.lock k).queue ∧ w.num = e := by
  refine ⟨poolEntry_mem, fun ⟨hw, he⟩ => ?_⟩
  cases hf : s.poolEntry e with
  | none => exact absurd he ((poolEntry_eq_none s e).1 hf k w hw)
  | some p =>
    obtain ⟨j, x⟩ := p
    obtain ⟨hx, hxe⟩ := poolEntry_mem hf
    have hn := List.nodup_flatMap.1 hp
    have hjk : j = k := by
      by_contra hne
      have hdis := (List.pairwise_iff_get.1 hn.2)
      have key : ∀ i j : LockId, i < j →
          List.Disjoint ((s.lock i).queue.map WaitEntry.num) ((s.lock j).queue.map WaitEntry.num) := by
        intro i j hij
        have := hdis (Fin.cast (by simp [allLocks]) i) (Fin.cast (by simp [allLocks]) j) hij
        simp only [Function.onFun, allLocks, List.get_finRange] at this
        exact this
      rcases lt_or_gt_of_ne hne with hlt | hlt
      · exact key j k hlt (List.mem_map.2 ⟨x, hx, hxe⟩) (List.mem_map.2 ⟨w, hw, he⟩)
      · exact key k j hlt (List.mem_map.2 ⟨w, hw, he⟩) (List.mem_map.2 ⟨x, hx, hxe⟩)
    subst hjk
    have := List.inj_on_of_nodup_map (hn.1 j (mem_allLocks j)) hx hw (hxe.trans he.symm)
    rw [this]

theorem freeEntry_eq_none (s : State) : s.freeEntry = none ↔ ∀ e, s.poolEntry e ≠ none := by
  simp [State.freeEntry, mem_allEntries, Option.ne_none_iff_isSome]

/-- The free entry found is the lowest-numbered one (R54). -/
theorem freeEntry_eq_some (s : State) (e : EntryId) :
    s.freeEntry = some e ↔ s.poolEntry e = none ∧ ∀ e', e' < e → s.poolEntry e' ≠ none := by
  unfold State.freeEntry allEntries
  rw [List.find?_eq_some_iff_getElem]
  simp only [Option.isNone_iff_eq_none, List.length_finRange, List.getElem_finRange]
  constructor
  · rintro ⟨h0, i, hi, rfl, hlt⟩
    refine ⟨h0, fun e' he' => ?_⟩
    have := hlt e'.val he'
    simpa [Option.isSome_iff_ne_none] using this
  · rintro ⟨h0, hlt⟩
    refine ⟨h0, e.val, e.isLt, rfl, fun j hj => ?_⟩
    have := hlt ⟨j, lt_trans hj e.isLt⟩ hj
    simpa [Option.isSome_iff_ne_none] using this

/-! ## Credits, notices and notify lines of one agent -/

namespace AgentEntry

variable (e : AgentEntry) (n : Notice) (c : Nat)

/-- A notice changes the notice queue, the latch and the line of an ATTACHED agent, and nothing of any other. -/
theorem receive_eq : e.receive n =
    if e.status = .attached then
      { e with
        notices := e.notices ++ [n]
        latch := e.latch || (e.notifyEnable && e.notifyMode == .arrival)
        lineLow := e.notifyEnable &&
          (e.notifyMode == .level || (e.latch || (e.notifyEnable && e.notifyMode == .arrival))) }
    else e := by
  unfold receive
  split
  · rename_i h
    simp only [drive, lineCondition, h]
    have hm : (NotifyMode.arrival == NotifyMode.level) = false := rfl
    cases e.notifyMode <;> simp [hm]
  · rfl

theorem regain_eq : e.regain c = if e.status = .attached then { e with credits := e.credits + c } else e := rfl

@[simp] theorem receive_status : (e.receive n).status = e.status := by rw [receive_eq]; split <;> rfl
@[simp] theorem receive_epoch : (e.receive n).epoch = e.epoch := by rw [receive_eq]; split <;> rfl
@[simp] theorem receive_credits : (e.receive n).credits = e.credits := by rw [receive_eq]; split <;> rfl
@[simp] theorem receive_supervisor : (e.receive n).supervisor = e.supervisor := by rw [receive_eq]; split <;> rfl
@[simp] theorem receive_notifyEnable : (e.receive n).notifyEnable = e.notifyEnable := by rw [receive_eq]; split <;> rfl
@[simp] theorem receive_notifyMode : (e.receive n).notifyMode = e.notifyMode := by rw [receive_eq]; split <;> rfl
@[simp] theorem receive_arg0 : (e.receive n).arg0 = e.arg0 := by rw [receive_eq]; split <;> rfl
@[simp] theorem receive_arg1 : (e.receive n).arg1 = e.arg1 := by rw [receive_eq]; split <;> rfl
@[simp] theorem receive_sarg0 : (e.receive n).sarg0 = e.sarg0 := by rw [receive_eq]; split <;> rfl
@[simp] theorem receive_sarg1 : (e.receive n).sarg1 = e.sarg1 := by rw [receive_eq]; split <;> rfl
@[simp] theorem receive_result : (e.receive n).result = e.result := by rw [receive_eq]; split <;> rfl
@[simp] theorem receive_controlResult : (e.receive n).controlResult = e.controlResult := by
  rw [receive_eq]; split <;> rfl
@[simp] theorem receive_staging : (e.receive n).staging = e.staging := by rw [receive_eq]; split <;> rfl
@[simp] theorem receive_nword1 : (e.receive n).nword1 = e.nword1 := by rw [receive_eq]; split <;> rfl

theorem receive_notices_attached (h : e.status = .attached) : (e.receive n).notices = e.notices ++ [n] := by
  rw [receive_eq, if_pos h]

theorem receive_not_attached (h : e.status ≠ .attached) : e.receive n = e := by
  rw [receive_eq, if_neg h]

/-- A notice leaves the line driven as R134 says, if it was. -/
theorem receive_line (h : e.lineLow = e.lineCondition) : (e.receive n).lineLow = (e.receive n).lineCondition := by
  unfold receive
  split
  · rfl
  · exact h

@[simp] theorem regain_status : (e.regain c).status = e.status := by unfold regain; split <;> rfl
@[simp] theorem regain_epoch : (e.regain c).epoch = e.epoch := by unfold regain; split <;> rfl
@[simp] theorem regain_notices : (e.regain c).notices = e.notices := by unfold regain; split <;> rfl
@[simp] theorem regain_supervisor : (e.regain c).supervisor = e.supervisor := by unfold regain; split <;> rfl
@[simp] theorem regain_notifyEnable : (e.regain c).notifyEnable = e.notifyEnable := by unfold regain; split <;> rfl
@[simp] theorem regain_notifyMode : (e.regain c).notifyMode = e.notifyMode := by unfold regain; split <;> rfl
@[simp] theorem regain_latch : (e.regain c).latch = e.latch := by unfold regain; split <;> rfl
@[simp] theorem regain_arg0 : (e.regain c).arg0 = e.arg0 := by unfold regain; split <;> rfl
@[simp] theorem regain_arg1 : (e.regain c).arg1 = e.arg1 := by unfold regain; split <;> rfl
@[simp] theorem regain_sarg0 : (e.regain c).sarg0 = e.sarg0 := by unfold regain; split <;> rfl
@[simp] theorem regain_sarg1 : (e.regain c).sarg1 = e.sarg1 := by unfold regain; split <;> rfl
@[simp] theorem regain_result : (e.regain c).result = e.result := by unfold regain; split <;> rfl
@[simp] theorem regain_controlResult : (e.regain c).controlResult = e.controlResult := by unfold regain; split <;> rfl
@[simp] theorem regain_staging : (e.regain c).staging = e.staging := by unfold regain; split <;> rfl
@[simp] theorem regain_nword1 : (e.regain c).nword1 = e.nword1 := by unfold regain; split <;> rfl
@[simp] theorem regain_lineLow : (e.regain c).lineLow = e.lineLow := by unfold regain; split <;> rfl

theorem regain_credits_attached (h : e.status = .attached) : (e.regain c).credits = e.credits + c := by
  rw [regain_eq, if_pos h]

theorem regain_not_attached (h : e.status ≠ .attached) : e.regain c = e := if_neg h

theorem regain_line (h : e.lineLow = e.lineCondition) : (e.regain c).lineLow = (e.regain c).lineCondition := by
  unfold regain
  split
  · exact h
  · exact h

end AgentEntry

theorem refusal_absent : AgentState.refusal .absent = some .notAttached := rfl
theorem refusal_attached : AgentState.refusal .attached = none := rfl
theorem refusal_detaching : AgentState.refusal .detaching = some .detaching := rfl

/-- Only an ATTACHED agent passes check 1 (R107). -/
theorem refusal_eq_none (st : AgentState) : st.refusal = none ↔ st = .attached := by
  cases st <;> simp [AgentState.refusal]

/-! ## Notices over the agent table -/

section Notify

variable (s : State) (a b : AgentId) (n : Notice) (ns : List (AgentId × Notice))

theorem notify_eq : s.notify a n = s.setAgent a ((s.agent a).receive n) := rfl

@[simp] theorem notify_lock (j : LockId) : (s.notify a n).lock j = s.lock j := rfl
@[simp] theorem notify_cls (d : ClassId) : (s.notify a n).cls d = s.cls d := rfl

theorem notifyAll_nil : s.notifyAll [] = s := rfl
theorem notifyAll_cons (p : AgentId × Notice) : s.notifyAll (p :: ns) = (s.notify p.1 p.2).notifyAll ns := rfl

/-- Addressing notices changes the agent table alone, and of each agent only what its own notices change. -/
theorem notifyAll_spec :
    ∃ agents, s.notifyAll ns = { s with agents := agents } ∧
      ∀ b, State.agent { s with agents := agents } b =
        (ns.filter fun p => decide (p.1 = b)).foldl (fun e p => e.receive p.2) (s.agent b) := by
  induction ns generalizing s with
  | nil => exact ⟨s.agents, rfl, fun _ => rfl⟩
  | cons p ns ih =>
    obtain ⟨agents, h, hb⟩ := ih (s.notify p.1 p.2)
    refine ⟨agents, h, fun b => ?_⟩
    refine (hb b).trans ?_
    rw [notify_eq, agent_setAgent]
    by_cases hp : b = p.1
    · subst hp
      simp
    · have hp' : ¬ p.1 = b := fun h => hp h.symm
      simp [hp, hp']

@[simp] theorem notifyAll_lock (j : LockId) : (s.notifyAll ns).lock j = s.lock j := by
  obtain ⟨_, h, _⟩ := notifyAll_spec s ns; rw [h]; rfl
@[simp] theorem notifyAll_cls (d : ClassId) : (s.notifyAll ns).cls d = s.cls d := by
  obtain ⟨_, h, _⟩ := notifyAll_spec s ns; rw [h]; rfl
@[simp] theorem notifyAll_locks : (s.notifyAll ns).locks = s.locks := by
  obtain ⟨_, h, _⟩ := notifyAll_spec s ns; rw [h]
@[simp] theorem notifyAll_classes : (s.notifyAll ns).classes = s.classes := by
  obtain ⟨_, h, _⟩ := notifyAll_spec s ns; rw [h]
@[simp] theorem notifyAll_units : (s.notifyAll ns).units = s.units := by
  obtain ⟨_, h, _⟩ := notifyAll_spec s ns; rw [h]
@[simp] theorem notifyAll_prescaler : (s.notifyAll ns).prescaler = s.prescaler := by
  obtain ⟨_, h, _⟩ := notifyAll_spec s ns; rw [h]
@[simp] theorem notifyAll_refCount : (s.notifyAll ns).refCount = s.refCount := by
  obtain ⟨_, h, _⟩ := notifyAll_spec s ns; rw [h]
@[simp] theorem notifyAll_sweepQueue : (s.notifyAll ns).sweepQueue = s.sweepQueue := by
  obtain ⟨_, h, _⟩ := notifyAll_spec s ns; rw [h]
@[simp] theorem notifyAll_inFlight : (s.notifyAll ns).inFlight = s.inFlight := by
  obtain ⟨_, h, _⟩ := notifyAll_spec s ns; rw [h]
@[simp] theorem notifyAll_resetLow : (s.notifyAll ns).resetLow = s.resetLow := by
  obtain ⟨_, h, _⟩ := notifyAll_spec s ns; rw [h]
@[simp] theorem notifyAll_answer : (s.notifyAll ns).answer = s.answer := by
  obtain ⟨_, h, _⟩ := notifyAll_spec s ns; rw [h]
@[simp] theorem notifyAll_pending : (s.notifyAll ns).pending = s.pending := by
  obtain ⟨_, h, _⟩ := notifyAll_spec s ns; rw [h]

theorem notifyAll_agent : (s.notifyAll ns).agent b =
    (ns.filter fun p => decide (p.1 = b)).foldl (fun e p => e.receive p.2) (s.agent b) := by
  obtain ⟨_, h, hb⟩ := notifyAll_spec s ns; rw [h]; exact hb b

theorem notifyAll_setLock (k : LockId) (l : LockEntry) : (s.setLock k l).notifyAll ns = (s.notifyAll ns).setLock k l := by
  induction ns generalizing s with
  | nil => rfl
  | cons p ns ih => exact ih (s.notify p.1 p.2)

end Notify

end Sys2Proof.Machine
end

