-- ==== Sys2Proof/Laws/Grant.lean ====
section
/-! SUPPORT. What the compound operations can do: grants, grant evaluation, holder departure, the removal of waiters and
holders, and the two queue-emptying folds. Each lemma says once which parts of the state the operation leaves alone and
what it makes of the rest. -/
namespace Sys2Proof.Machine

/-! ## Grants in a row -/

/-- The holder record of the grant of `w` that comes `i` grants after the ticket counter stood at `ticket` (R8, R27). -/
def grantRecord (ticket : Half) (lease : BitVec 12) (now : Word) (i : Nat) (w : WaitEntry) : HolderRecord :=
  { agent := w.agent, mode := w.mode, depth := 1, ticket := ticket + BitVec.ofNat 16 (i + 1),
    deadline := formDeadline now lease }

theorem ticket_succ (t : Half) (n : Nat) : t + 1 + BitVec.ofNat 16 n = t + BitVec.ofNat 16 (n + 1) := by
  rw [BitVec.ofNat_add, BitVec.add_assoc, BitVec.add_comm 1]
  rfl

theorem grantRecord_succ (ticket : Half) (lease : BitVec 12) (now : Word) (i : Nat) (w : WaitEntry) :
    grantRecord (ticket + 1) lease now i w = grantRecord ticket lease now (i + 1) w := by
  simp only [grantRecord, ticket_succ]

/-- Granting a non-empty list of SHARED requests: tickets rise by 1, records join the end, and each agent gets its
GRANTED notice (R49, R29). -/
theorem grantEntries_shared (k : LockId) (lease : BitVec 12) (now : Word) (ws : List WaitEntry) (l : LockEntry)
    (hs : ∀ w ∈ ws, w.mode = .shared) (hne : ws ≠ []) :
    grantEntries k lease now ws l =
      ({ l with
         state := .shared
         ticket := l.ticket + BitVec.ofNat 16 ws.length
         holders := l.holders ++ ws.mapIdx (grantRecord l.ticket lease now) },
       ws.mapIdx fun i w =>
         (w.agent, .granted k .shared (l.ticket + BitVec.ofNat 16 (i + 1)) w.tag l.marker (stamp now))) := by
  induction ws generalizing l with
  | nil => exact absurd rfl hne
  | cons w ws ih =>
    have hw : w.mode = .shared := hs w List.mem_cons_self
    by_cases he : ws = []
    · subst he
      simp [grantEntries, LockEntry.grant, grantedNotice, grantRecord, hw]
    · have h3 : grantRecord (l.ticket + 1) lease now = fun i w => grantRecord l.ticket lease now (i + 1) w := by
        funext i w
        exact grantRecord_succ ..
      simp only [grantEntries, ih (l.grant w.agent w.mode lease now) (fun x hx => hs x (List.mem_cons_of_mem _ hx)) he]
      simp only [LockEntry.grant, hw, grantedNotice, List.mapIdx_cons, List.length_cons, ticket_succ, h3, grantRecord,
        List.append_assoc, List.singleton_append]
      rfl

theorem grantEntries_single (k : LockId) (lease : BitVec 12) (now : Word) (w : WaitEntry) (l : LockEntry) :
    grantEntries k lease now [w] l =
      (l.grant w.agent w.mode lease now,
       [(w.agent, grantedNotice k (l.grant w.agent w.mode lease now) w now)]) := rfl

/-- The shared batch grants only SHARED entries of agents that are not DETACHING. -/
theorem sharedBatch_granted (d : AgentId → Bool) (q : List WaitEntry) :
    ∀ w ∈ (sharedBatch d q).1, w ∈ q ∧ w.mode = .shared ∧ d w.agent = false := by
  induction q with
  | nil => intro w hw; cases hw
  | cons x q ih =>
    unfold sharedBatch
    split
    · intro w hw
      obtain ⟨h1, h2⟩ := ih w hw
      exact ⟨List.mem_cons_of_mem _ h1, h2⟩
    · rename_i hd
      split
      · intro w hw; cases hw
      · rename_i hm
        intro w hw
        rcases List.mem_cons.1 hw with rfl | hw
        · exact ⟨List.mem_cons_self, hm, by simpa using hd⟩
        · obtain ⟨h1, h2⟩ := ih w hw
          exact ⟨List.mem_cons_of_mem _ h1, h2⟩

/-- A run of DETACHING or SHARED entries before an EXCLUSIVE entry of another agent is the shared batch (R47). -/
theorem sharedBatch_run (d : AgentId → Bool) (run left : List WaitEntry)
    (hr : ∀ w ∈ run, d w.agent = true ∨ w.mode = .shared)
    (hl : ∀ w ∈ left.head?, d w.agent = false ∧ w.mode = .exclusive) :
    sharedBatch d (run ++ left) = (run.filter (fun w => !d w.agent), left) := by
  induction run with
  | nil =>
    cases left with
    | nil => rfl
    | cons w left =>
      obtain ⟨h1, h2⟩ := hl w rfl
      simp [sharedBatch, h1, h2]
  | cons w run ih =>
    have ih := ih (fun x hx => hr x (List.mem_cons_of_mem _ hx))
    cases hd : d w.agent with
    | true => simp [sharedBatch, hd, ih]
    | false =>
      have hm : w.mode = .shared := by
        rcases hr w List.mem_cons_self with h | h
        · rw [hd] at h; cases h
        · exact h
      simp [sharedBatch, hd, hm, ih]

/-- The shared batch splits the queue: a run of DETACHING or SHARED entries, and what is left, which an EXCLUSIVE entry
of another agent heads. -/
theorem sharedBatch_split (d : AgentId → Bool) (q : List WaitEntry) :
    ∃ run, q = run ++ (sharedBatch d q).2 ∧ (sharedBatch d q).1 = run.filter (fun w => !d w.agent) ∧
      (∀ w ∈ run, d w.agent = true ∨ w.mode = .shared) ∧
      ∀ w ∈ (sharedBatch d q).2.head?, d w.agent = false ∧ w.mode = .exclusive := by
  induction q with
  | nil => exact ⟨[], rfl, rfl, by simp, by simp [sharedBatch]⟩
  | cons x q ih =>
    obtain ⟨run, h1, h2, h3, h4⟩ := ih
    unfold sharedBatch
    by_cases hd : d x.agent = true
    · rw [if_pos hd]
      exact ⟨x :: run, by rw [List.cons_append, ← h1], by simp [hd, h2], by simpa [hd] using h3, h4⟩
    · rw [if_neg hd]
      cases hm : x.mode with
      | exclusive => exact ⟨[], rfl, rfl, by simp, by simpa [hm] using hd⟩
      | shared =>
        refine ⟨x :: run, ?_, ?_, ?_, h4⟩
        · simp only [List.cons_append, ← h1]
        · simp [hd, h2]
        · simpa [hm] using h3

/-! ## Grant evaluation of one lock -/

/-- What grant evaluation can make of a lock (R47): entries of DETACHING agents leave from the head of the queue, and
either nothing is granted, or one EXCLUSIVE request at a lock without holders, or a batch of SHARED requests at a FREE or
SHARED lock. -/
inductive Evaluated (l : LockEntry) (k : LockId) (d : AgentId → Bool) (lease : BitVec 12) (now : Word) :
    LockEntry × List (AgentId × Notice) → Prop where
  | nothing (pruned rest : List WaitEntry) (hq : l.queue = pruned ++ rest) (hd : ∀ w ∈ pruned, d w.agent = true)
      (hh : ∀ w ∈ rest.head?, d w.agent = false ∧
        ((w.mode = .exclusive ∧ l.holders ≠ []) ∨ (w.mode = .shared ∧ l.state ≠ .free ∧ l.state ≠ .shared))) :
      Evaluated l k d lease now ({ l with queue := rest }, [])
  | one (pruned rest : List WaitEntry) (w : WaitEntry) (hq : l.queue = pruned ++ w :: rest)
      (hd : ∀ w ∈ pruned, d w.agent = true) (hw : d w.agent = false) (hm : w.mode = .exclusive) (hh : l.holders = []) :
      Evaluated l k d lease now
        ({ l with
           state := .exclusive
           ticket := l.ticket + 1
           holders := [grantRecord l.ticket lease now 0 w]
           queue := rest },
         [(w.agent, .granted k .exclusive (l.ticket + 1) w.tag l.marker (stamp now))])
  | batch (pruned run rest granted : List WaitEntry) (hq : l.queue = pruned ++ run ++ rest)
      (hd : ∀ w ∈ pruned, d w.agent = true) (hr : ∀ w ∈ run, d w.agent = true ∨ w.mode = .shared)
      (hl : ∀ w ∈ rest.head?, d w.agent = false ∧ w.mode = .exclusive)
      (hg : granted = run.filter (fun w => !d w.agent)) (hne : granted ≠ []) (hst : l.state = .free ∨ l.state = .shared) :
      Evaluated l k d lease now
        ({ l with
           state := .shared
           ticket := l.ticket + BitVec.ofNat 16 granted.length
           holders := l.holders ++ granted.mapIdx (grantRecord l.ticket lease now)
           queue := rest },
         granted.mapIdx fun i w =>
           (w.agent, .granted k .shared (l.ticket + BitVec.ofNat 16 (i + 1)) w.tag l.marker (stamp now)))

/-- A queue is the DETACHING run at its head and the rest, which an entry of another agent heads. -/
theorem dropWhile_split (p : WaitEntry → Bool) (q : List WaitEntry) :
    ∃ pruned, q = pruned ++ q.dropWhile p ∧ (∀ w ∈ pruned, p w = true) ∧ ∀ w ∈ (q.dropWhile p).head?, p w = false := by
  refine ⟨q.takeWhile p, List.takeWhile_append_dropWhile.symm, fun w hw => (List.mem_takeWhile_imp hw), ?_⟩
  intro w hw
  have := List.head?_dropWhile_not p q
  rw [Option.mem_def.1 hw] at this
  simpa using this

theorem dropWhile_of_split (p : WaitEntry → Bool) {pruned rest : List WaitEntry} (hd : ∀ w ∈ pruned, p w = true)
    (hh : ∀ w ∈ rest.head?, p w = false) : (pruned ++ rest).dropWhile p = rest := by
  rw [List.dropWhile_append_of_pos hd]
  cases rest with
  | nil => rfl
  | cons w rest => rw [List.dropWhile_cons_of_neg]; simpa using hh w rfl

/-- Grant evaluation does one of the three things. -/
theorem LockEntry.evaluated (l : LockEntry) (k : LockId) (d : AgentId → Bool) (lease : BitVec 12) (now : Word) :
    Evaluated l k d lease now (l.evaluate k d lease now) := by
  obtain ⟨pruned, hq, hd, hh⟩ := dropWhile_split (fun w => d w.agent) l.queue
  unfold LockEntry.evaluate
  generalize l.queue.dropWhile (fun w => d w.agent) = rest at hq hh
  cases rest with
  | nil => exact .nothing pruned [] hq hd (by simp)
  | cons w q =>
    have hw : d w.agent = false := hh w rfl
    dsimp only
    cases hm : w.mode with
    | exclusive =>
      dsimp only
      split
      · rename_i he
        rw [List.isEmpty_iff] at he
        have := Evaluated.one (k := k) (lease := lease) (now := now) pruned q w hq hd hw hm he
        simpa [grantEntries, LockEntry.grant, grantedNotice, grantRecord, hm, he] using this
      · rename_i he
        refine .nothing pruned (w :: q) hq hd ?_
        intro x hx
        cases hx
        exact ⟨hw, Or.inl ⟨hm, fun h => he (by rw [h]; rfl)⟩⟩
    | shared =>
      dsimp only
      split
      · rename_i hst
        obtain ⟨run, h1, h2, h3, h4⟩ := sharedBatch_split d q
        have hmode : ∀ x ∈ w :: (sharedBatch d q).1, x.mode = .shared := by
          intro x hx
          rcases List.mem_cons.1 hx with rfl | hx
          · exact hm
          · exact (sharedBatch_granted d q x hx).2.1
        rw [grantEntries_shared k lease now _ _ hmode (List.cons_ne_nil _ _)]
        refine .batch pruned (w :: run) (sharedBatch d q).2 (w :: (sharedBatch d q).1) ?_ hd ?_ h4 ?_
          (List.cons_ne_nil _ _) hst
        · rw [hq, List.append_assoc, List.cons_append, ← h1]
        · intro x hx
          rcases List.mem_cons.1 hx with rfl | hx
          · exact Or.inr hm
          · exact h3 x hx
        · simp [hw, h2]
      · rename_i hst
        refine .nothing pruned (w :: q) hq hd ?_
        intro x hx
        cases hx
        exact ⟨hw, Or.inr ⟨hm, not_or.1 hst⟩⟩

/-- On an empty queue grant evaluation changes nothing (R46). -/
theorem LockEntry.evaluate_nil (l : LockEntry) (k : LockId) (d : AgentId → Bool) (lease : BitVec 12) (now : Word)
    (h : l.queue = []) : l.evaluate k d lease now = (l, []) := by
  unfold LockEntry.evaluate
  rw [h, List.dropWhile_nil]
  show ({ l with queue := [] }, []) = (l, [])
  rw [← h]

/-! ## The lock table and the agent table alone -/

/-- `t` differs from `s` in lock entry `k`, in agents' entries and in class use counts at most. -/
structure Touches (k : LockId) (s t : State) : Prop where
  lock : ∀ j, j ≠ k → t.lock j = s.lock j
  desc : ∀ c, (t.cls c).desc = (s.cls c).desc
  units : t.units = s.units
  prescaler : t.prescaler = s.prescaler
  refCount : t.refCount = s.refCount
  sweepQueue : t.sweepQueue = s.sweepQueue
  inFlight : t.inFlight = s.inFlight
  resetLow : t.resetLow = s.resetLow
  answer : t.answer = s.answer
  pending : t.pending = s.pending

namespace Touches

variable {k : LockId} {s t u : State}

theorem refl (k : LockId) (s : State) : Touches k s s :=
  ⟨fun _ _ => rfl, fun _ => rfl, rfl, rfl, rfl, rfl, rfl, rfl, rfl, rfl⟩

theorem trans (h : Touches k s t) (h' : Touches k t u) : Touches k s u :=
  ⟨fun j hj => (h'.lock j hj).trans (h.lock j hj), fun c => (h'.desc c).trans (h.desc c), h'.units.trans h.units,
    h'.prescaler.trans h.prescaler, h'.refCount.trans h.refCount, h'.sweepQueue.trans h.sweepQueue,
    h'.inFlight.trans h.inFlight, h'.resetLow.trans h.resetLow, h'.answer.trans h.answer, h'.pending.trans h.pending⟩

theorem setLock (s : State) (l : LockEntry) : Touches k s (s.setLock k l) :=
  ⟨fun _ hj => lock_setLock_ne s _ _ l hj, fun _ => rfl, rfl, rfl, rfl, rfl, rfl, rfl, rfl, rfl⟩

theorem setAgent (s : State) (a : AgentId) (e : AgentEntry) : Touches k s (s.setAgent a e) :=
  ⟨fun _ _ => rfl, fun _ => rfl, rfl, rfl, rfl, rfl, rfl, rfl, rfl, rfl⟩

theorem withAgents (s : State) (x : Vector AgentEntry Config.agents) : Touches k s { s with agents := x } :=
  ⟨fun _ _ => rfl, fun _ => rfl, rfl, rfl, rfl, rfl, rfl, rfl, rfl, rfl⟩

theorem setUse (s : State) (c : ClassId) (n : Nat) : Touches k s (s.setClass c { s.cls c with useCount := n }) := by
  refine ⟨fun _ _ => rfl, fun d => ?_, rfl, rfl, rfl, rfl, rfl, rfl, rfl, rfl⟩
  rw [cls_setClass]
  split
  · rename_i h; rw [h]
  · rfl

theorem notifyAll (s : State) (ns : List (AgentId × Notice)) : Touches k s (s.notifyAll ns) :=
  ⟨fun _ _ => by simp, fun _ => by simp, by simp, by simp, by simp, by simp, by simp, by simp, by simp, by simp⟩

end Touches

/-! ## Grant evaluation -/

section GrantEval

variable (s : State) (j k : LockId) (b : AgentId) (c : ClassId)

theorem touches_grantEval : Touches k s (s.grantEval k) :=
  (Touches.setLock s _).trans (Touches.notifyAll _ _)

theorem grantEval_lock_self :
    (s.grantEval k).lock k = ((s.lock k).evaluate k s.isDetaching (s.lockClass k).lease s.units).1 := by
  simp [State.grantEval]

@[simp] theorem grantEval_classes : (s.grantEval k).classes = s.classes := by
  simp [State.grantEval, State.setLock]

@[simp] theorem grantEval_cls : (s.grantEval k).cls c = s.cls c := by
  simp [State.cls]

theorem grantEval_agent : (s.grantEval k).agent b =
    (((s.lock k).evaluate k s.isDetaching (s.lockClass k).lease s.units).2.filter fun p => decide (p.1 = b)).foldl
      (fun e p => e.receive p.2) (s.agent b) := by
  simp [State.grantEval, notifyAll_agent]

theorem grantEval_of_queue_nil (h : (s.lock k).queue = []) : s.grantEval k = s := by
  simp only [State.grantEval, LockEntry.evaluate_nil _ _ _ _ _ h, setLock_lock]
  rfl

end GrantEval

/-! ## What notices and credits leave alone in an agent's entry -/

/-- `e'` is `e` but for notices, latch, line and credits: what an event at a lock can do to an agent. -/
structure Keeps (e e' : AgentEntry) : Prop where
  status : e'.status = e.status
  epoch : e'.epoch = e.epoch
  supervisor : e'.supervisor = e.supervisor
  notifyEnable : e'.notifyEnable = e.notifyEnable
  notifyMode : e'.notifyMode = e.notifyMode
  arg0 : e'.arg0 = e.arg0
  arg1 : e'.arg1 = e.arg1
  sarg0 : e'.sarg0 = e.sarg0
  sarg1 : e'.sarg1 = e.sarg1
  result : e'.result = e.result
  controlResult : e'.controlResult = e.controlResult
  staging : e'.staging = e.staging
  nword1 : e'.nword1 = e.nword1

namespace Keeps

theorem refl (e : AgentEntry) : Keeps e e :=
  ⟨rfl, rfl, rfl, rfl, rfl, rfl, rfl, rfl, rfl, rfl, rfl, rfl, rfl⟩

theorem trans {e f g : AgentEntry} (h : Keeps e f) (h' : Keeps f g) : Keeps e g :=
  ⟨h'.status.trans h.status, h'.epoch.trans h.epoch, h'.supervisor.trans h.supervisor,
    h'.notifyEnable.trans h.notifyEnable, h'.notifyMode.trans h.notifyMode, h'.arg0.trans h.arg0,
    h'.arg1.trans h.arg1, h'.sarg0.trans h.sarg0, h'.sarg1.trans h.sarg1, h'.result.trans h.result,
    h'.controlResult.trans h.controlResult, h'.staging.trans h.staging, h'.nword1.trans h.nword1⟩

theorem receive (e : AgentEntry) (n : Notice) : Keeps e (e.receive n) := by
  constructor <;> simp

theorem regain (e : AgentEntry) (n : Nat) : Keeps e (e.regain n) := by
  constructor <;> simp

theorem receiveAll (e : AgentEntry) (ps : List (AgentId × Notice)) :
    Keeps e (ps.foldl (fun e p => e.receive p.2) e) := by
  induction ps generalizing e with
  | nil => exact refl e
  | cons p ps ih => exact (receive e p.2).trans (ih _)

end Keeps

/-- A run of notices leaves credits alone. -/
theorem receiveAll_credits (e : AgentEntry) (ps : List (AgentId × Notice)) :
    (ps.foldl (fun e p => e.receive p.2) e).credits = e.credits := by
  induction ps generalizing e with
  | nil => rfl
  | cons p ps ih => simpa using ih (e.receive p.2)

/-- A run of notices to an ATTACHED agent lengthens its queue by one each. -/
theorem receiveAll_notices (e : AgentEntry) (ps : List (AgentId × Notice)) (h : e.status = .attached) :
    (ps.foldl (fun e p => e.receive p.2) e).notices = e.notices ++ ps.map Prod.snd := by
  induction ps generalizing e with
  | nil => simp
  | cons p ps ih =>
    have := ih (e.receive p.2) (by simpa using h)
    simp only [List.foldl_cons, this, e.receive_notices_attached p.2 h, List.map_cons, List.append_assoc,
      List.singleton_append]

theorem receiveAll_not_attached (e : AgentEntry) (ps : List (AgentId × Notice)) (h : e.status ≠ .attached) :
    ps.foldl (fun e p => e.receive p.2) e = e := by
  induction ps generalizing e with
  | nil => rfl
  | cons p ps ih => rw [List.foldl_cons, e.receive_not_attached p.2 h, ih e h]

theorem receiveAll_line (e : AgentEntry) (ps : List (AgentId × Notice)) (h : e.lineLow = e.lineCondition) :
    (ps.foldl (fun e p => e.receive p.2) e).lineLow = (ps.foldl (fun e p => e.receive p.2) e).lineCondition := by
  induction ps generalizing e with
  | nil => exact h
  | cons p ps ih => exact ih _ (e.receive_line p.2 h)

/-! ## Holder departure -/

/-- What holder departure is, state by state (R4). -/
theorem departure_eq (s : State) (k : LockId) : s.departure k =
    match (s.lock k).state with
    | .exclusive | .shared =>
      (if (s.lock k).holders = [] then s.setLock k { s.lock k with state := .free } else s).grantEval k
    | .draining =>
      if (s.lock k).holders = [] then
        (s.setLock k { s.lock k with state := .closed, drain := none }).setClass (s.lock k).cls
          { s.cls (s.lock k).cls with useCount := (s.cls (s.lock k).cls).useCount - 1 }
      else s
    | .closed | .free => s := by
  unfold State.departure
  simp only [List.isEmpty_iff]
  cases (s.lock k).state <;> rfl

theorem touches_departure (s : State) (k : LockId) : Touches k s (s.departure k) := by
  rw [departure_eq]
  split
  all_goals first
    | exact Touches.refl k s
    | (split
       · first
         | exact (Touches.setLock s _).trans (touches_grantEval _ k)
         | exact (Touches.setLock s _).trans (Touches.setUse _ _ _)
       · first
         | exact touches_grantEval _ k
         | exact Touches.refl k s)

theorem keeps_grantEval (s : State) (k : LockId) (b : AgentId) : Keeps (s.agent b) ((s.grantEval k).agent b) := by
  rw [grantEval_agent]
  exact Keeps.receiveAll _ _

theorem grantEval_credits (s : State) (k : LockId) (b : AgentId) :
    ((s.grantEval k).agent b).credits = (s.agent b).credits := by
  rw [grantEval_agent]
  exact receiveAll_credits _ _

/-- Holder departure tells agents GRANTED and does nothing else to them. -/
theorem keeps_departure (s : State) (k : LockId) (b : AgentId) :
    Keeps (s.agent b) ((s.departure k).agent b) ∧ ((s.departure k).agent b).credits = (s.agent b).credits := by
  rw [departure_eq]
  split
  all_goals first
    | exact ⟨Keeps.refl _, rfl⟩
    | (split
       · first
         | exact ⟨keeps_grantEval (s.setLock k _) k b, grantEval_credits (s.setLock k _) k b⟩
         | exact ⟨Keeps.refl _, rfl⟩
       · first
         | exact ⟨keeps_grantEval s k b, grantEval_credits s k b⟩
         | exact ⟨Keeps.refl _, rfl⟩)

/-! ## Removal of waiters and holders -/

theorem removeWaiters_eq (s : State) (k : LockId) (p : WaitEntry → Bool) : s.removeWaiters k p =
    if (s.lock k).headIs p then
      (s.setLock k { s.lock k with queue := (s.lock k).queue.filter (fun w => !p w) }).grantEval k
    else s.setLock k { s.lock k with queue := (s.lock k).queue.filter (fun w => !p w) } := rfl

theorem touches_removeWaiters (s : State) (k : LockId) (p : WaitEntry → Bool) : Touches k s (s.removeWaiters k p) := by
  rw [removeWaiters_eq]
  split
  · exact (Touches.setLock s _).trans (touches_grantEval _ k)
  · exact Touches.setLock s _

theorem keeps_removeWaiters (s : State) (k : LockId) (p : WaitEntry → Bool) (b : AgentId) :
    Keeps (s.agent b) ((s.removeWaiters k p).agent b) ∧
      ((s.removeWaiters k p).agent b).credits = (s.agent b).credits := by
  rw [removeWaiters_eq]
  split
  · exact ⟨keeps_grantEval (s.setLock k _) k b, grantEval_credits (s.setLock k _) k b⟩
  · exact ⟨Keeps.refl _, rfl⟩

/-- Taking one waiter's entry out of a queue with distinct agents, with grant evaluation if it was the head (R46,
R59). -/
theorem removeWaiters_split (s : State) (k : LockId) {ahead behind : List WaitEntry} {w : WaitEntry}
    (hd : (s.lock k).OnePlaceEach) (hq : (s.lock k).queue = ahead ++ w :: behind) :
    s.removeWaiters k (fun x => x.agent == w.agent) =
      if ahead = [] then (s.setLock k { s.lock k with queue := ahead ++ behind }).grantEval k
      else s.setLock k { s.lock k with queue := ahead ++ behind } := by
  have hf : (s.lock k).queue.filter (fun x => !(x.agent == w.agent)) = ahead ++ behind :=
    (s.lock k).filter_queue_split hd hq
  have hh : (s.lock k).headIs (fun x => x.agent == w.agent) = true ↔ ahead = [] := by
    unfold LockEntry.headIs
    cases ahead with
    | nil => simp [hq]
    | cons x ahead =>
      have hn : ((s.lock k).queue.map WaitEntry.agent).Nodup := (List.nodup_append.1 hd).2.1
      rw [hq, List.cons_append, List.map_cons, List.nodup_cons] at hn
      have hx : x.agent ≠ w.agent := fun h => hn.1 (by simp [h])
      simp [hq, hx]
  rw [removeWaiters_eq, hf]
  by_cases ha : ahead = []
  · rw [if_pos ha, if_pos (hh.2 ha)]
  · rw [if_neg ha, if_neg (mt hh.1 ha)]

theorem loseHolder_eq (s : State) (k : LockId) (a : AgentId) (n : Option Notice) : s.loseHolder k a n =
    ((match n with
      | some n => (s.setLock k { (s.lock k).dropHolder a with marker := true }).notify a n
      | none => s.setLock k { (s.lock k).dropHolder a with marker := true }).departure k) := rfl

theorem touches_loseHolder (s : State) (k : LockId) (a : AgentId) (n : Option Notice) :
    Touches k s (s.loseHolder k a n) := by
  rw [loseHolder_eq]
  cases n with
  | none => exact (Touches.setLock s _).trans (touches_departure _ k)
  | some n => exact ((Touches.setLock s _).trans (Touches.setAgent _ _ _)).trans (touches_departure _ k)

theorem keeps_notify (s : State) (a b : AgentId) (n : Notice) :
    Keeps (s.agent b) ((s.notify a n).agent b) ∧ ((s.notify a n).agent b).credits = (s.agent b).credits := by
  rw [notify_eq, agent_setAgent]
  split
  · rename_i h; rw [h]; exact ⟨Keeps.receive _ n, AgentEntry.receive_credits _ n⟩
  · exact ⟨Keeps.refl _, rfl⟩

/-- The involuntary loss of a holding changes no credits (R121). -/
theorem keeps_loseHolder (s : State) (k : LockId) (a b : AgentId) (n : Option Notice) :
    Keeps (s.agent b) ((s.loseHolder k a n).agent b) ∧
      ((s.loseHolder k a n).agent b).credits = (s.agent b).credits := by
  rw [loseHolder_eq]
  cases n with
  | none => exact keeps_departure (s.setLock k _) k b
  | some n =>
    have h1 := keeps_notify (s.setLock k { (s.lock k).dropHolder a with marker := true }) a b n
    have h2 := keeps_departure ((s.setLock k { (s.lock k).dropHolder a with marker := true }).notify a n) k b
    exact ⟨h1.1.trans h2.1, h2.2.trans h1.2⟩

/-! ## The queue-emptying folds -/

/-- The cancellation of a list of waiters: the agent table alone changes, and each agent as its own entries ask (R65). -/
theorem foldl_cancelNotice (k : LockId) (s : State) (q : List WaitEntry) :
    ∃ agents, q.foldl (State.cancelNotice k) s = { s with agents := agents } ∧
      ∀ b, State.agent { s with agents := agents } b =
        (q.filter fun w => decide (w.agent = b)).foldl
          (fun e w => (e.receive (.cancelled k w.mode w.tag (stamp s.units))).regain 1) (s.agent b) := by
  induction q generalizing s with
  | nil => exact ⟨s.agents, rfl, fun _ => rfl⟩
  | cons w q ih =>
    obtain ⟨agents, h, hb⟩ := ih (State.cancelNotice k s w)
    refine ⟨agents, h, fun b => (hb b).trans ?_⟩
    have ha : (State.cancelNotice k s w).agent b =
        if b = w.agent then ((s.agent b).receive (.cancelled k w.mode w.tag (stamp s.units))).regain 1
        else s.agent b := by
      simp only [State.cancelNotice, notify_eq, modAgent_eq, setAgent_setAgent, agent_setAgent_self, agent_setAgent]
      split
      · rename_i h; rw [h]
      · rfl
    rw [ha]
    by_cases hw : w.agent = b
    · simp only [hw, decide_true, List.filter_cons_of_pos, List.foldl_cons, if_true]
      rfl
    · have hw' : ¬ b = w.agent := fun h => hw h.symm
      simp only [hw, hw', decide_false, Bool.false_eq_true, not_false_eq_true, List.filter_cons_of_neg, if_false]
      rfl

/-- The REVOKED notices of a list of records: the agent table alone changes (R19, R20). -/
theorem foldl_revokeNotice (k : LockId) (s : State) (hs : List HolderRecord) :
    ∃ agents, hs.foldl (State.revokeNotice k) s = { s with agents := agents } ∧
      ∀ b, State.agent { s with agents := agents } b =
        (hs.filter fun r => decide (r.agent = b)).foldl
          (fun e r => e.receive (.revoked k r.mode r.ticket (stamp s.units))) (s.agent b) := by
  induction hs generalizing s with
  | nil => exact ⟨s.agents, rfl, fun _ => rfl⟩
  | cons r hs ih =>
    obtain ⟨agents, h, hb⟩ := ih (State.revokeNotice k s r)
    refine ⟨agents, h, fun b => (hb b).trans ?_⟩
    have ha : (State.revokeNotice k s r).agent b =
        if b = r.agent then (s.agent b).receive (.revoked k r.mode r.ticket (stamp s.units)) else s.agent b := by
      simp only [State.revokeNotice, notify_eq, agent_setAgent]
      split
      · rename_i h; rw [h]
      · rfl
    rw [ha]
    by_cases hw : r.agent = b
    · simp only [hw, decide_true, List.filter_cons_of_pos, List.foldl_cons, if_true]
      rfl
    · have hw' : ¬ b = r.agent := fun h => hw h.symm
      simp only [hw, hw', decide_false, Bool.false_eq_true, not_false_eq_true, List.filter_cons_of_neg, if_false]
      rfl

/-- Among agents that are all different, the entries of one agent are one or none. -/
theorem filter_agent_eq {α : Type} (agent : α → AgentId) (q : List α) (hn : (q.map agent).Nodup) (b : AgentId) :
    (∀ w ∈ q, agent w = b → (q.filter fun w => decide (agent w = b)) = [w]) ∧
      ((∀ w ∈ q, agent w ≠ b) → (q.filter fun w => decide (agent w = b)) = []) := by
  constructor
  · intro w hw hb
    induction q with
    | nil => cases hw
    | cons x q ih =>
      rw [List.map_cons, List.nodup_cons] at hn
      rcases List.mem_cons.1 hw with rfl | hw
      · have : ∀ y ∈ q, ¬ agent y = b := fun y hy h => hn.1 (List.mem_map.2 ⟨y, hy, h.trans hb.symm⟩)
        rw [List.filter_cons_of_pos (by simpa using hb), List.filter_eq_nil_iff.2 (by simpa using this)]
      · have : ¬ agent x = b := fun h => hn.1 (List.mem_map.2 ⟨w, hw, hb.trans h.symm⟩)
        rw [List.filter_cons_of_neg (by simpa using this), ih hn.2 hw]
  · intro h
    rw [List.filter_eq_nil_iff]
    simpa using h

section Folds

variable (s : State) (k : LockId) (b : AgentId)

theorem cancelQueue_spec :
    ∃ agents, s.cancelQueue k = { s.setLock k { s.lock k with queue := [] } with agents := agents } ∧
      ∀ b, State.agent { s with agents := agents } b =
        ((s.lock k).queue.filter fun w => decide (w.agent = b)).foldl
          (fun e w => (e.receive (.cancelled k w.mode w.tag (stamp s.units))).regain 1) (s.agent b) :=
  foldl_cancelNotice k (s.setLock k { s.lock k with queue := [] }) (s.lock k).queue

/-- `cancelQueue` changes lock `k` and agents at most (R65). -/
theorem touches_cancelQueue : Touches k s (s.cancelQueue k) := by
  obtain ⟨agents, h, _⟩ := cancelQueue_spec s k
  rw [h]
  exact (Touches.setLock s _).trans (Touches.withAgents (s.setLock k _) agents)

/-- `cancelQueue` empties the queue of lock `k`. -/
theorem cancelQueue_lock_self : (s.cancelQueue k).lock k = { s.lock k with queue := [] } := by
  obtain ⟨agents, h, _⟩ := cancelQueue_spec s k
  rw [h]
  exact lock_setLock_self s k _

theorem cancelQueue_classes : (s.cancelQueue k).classes = s.classes := by
  obtain ⟨agents, h, _⟩ := cancelQueue_spec s k
  rw [h]
  rfl

/-- `cancelQueue` tells each waiter CANCELLED and returns 1 credit (R65). -/
theorem cancelQueue_agent : (s.cancelQueue k).agent b =
    ((s.lock k).queue.filter fun w => decide (w.agent = b)).foldl
      (fun e w => (e.receive (.cancelled k w.mode w.tag (stamp s.units))).regain 1) (s.agent b) := by
  obtain ⟨agents, h, hb⟩ := cancelQueue_spec s k
  rw [h]
  exact hb b

theorem revokeHolders_spec :
    ∃ agents, s.revokeHolders k =
        { s.setLock k { s.lock k with holders := [], marker := (s.lock k).marker || !(s.lock k).holders.isEmpty } with
          agents := agents } ∧
      ∀ b, State.agent { s with agents := agents } b =
        ((s.lock k).holders.filter fun r => decide (r.agent = b)).foldl
          (fun e r => e.receive (.revoked k r.mode r.ticket (stamp s.units))) (s.agent b) :=
  foldl_revokeNotice k _ _

/-- `revokeHolders` changes lock `k` and agents at most (R20, R154). -/
theorem touches_revokeHolders : Touches k s (s.revokeHolders k) := by
  obtain ⟨agents, h, _⟩ := revokeHolders_spec s k
  rw [h]
  exact (Touches.setLock s _).trans (Touches.withAgents (s.setLock k _) agents)

/-- `revokeHolders` empties the holder list of lock `k` and sets the marker if it had a record. -/
theorem revokeHolders_lock_self : (s.revokeHolders k).lock k =
    { s.lock k with holders := [], marker := (s.lock k).marker || !(s.lock k).holders.isEmpty } := by
  obtain ⟨agents, h, _⟩ := revokeHolders_spec s k
  rw [h]
  exact lock_setLock_self s k _

theorem revokeHolders_classes : (s.revokeHolders k).classes = s.classes := by
  obtain ⟨agents, h, _⟩ := revokeHolders_spec s k
  rw [h]
  rfl

/-- `revokeHolders` tells each holder REVOKED (R19). -/
theorem revokeHolders_agent : (s.revokeHolders k).agent b =
    ((s.lock k).holders.filter fun r => decide (r.agent = b)).foldl
      (fun e r => e.receive (.revoked k r.mode r.ticket (stamp s.units))) (s.agent b) := by
  obtain ⟨agents, h, hb⟩ := revokeHolders_spec s k
  rw [h]
  exact hb b

end Folds

end Sys2Proof.Machine
end

