-- ==== Sys2Proof/Laws/Locks.lean ====
section
/-! SUPPORT. How the operations keep the laws of one lock: when grant evaluation, holder departure and the removal of a
waiter leave a sound lock, and that none of them brings an agent to a lock where it was not. -/
namespace Sys2Proof.Machine

namespace LockEntry

variable {l : LockEntry}

/-- The lock before grant evaluation: as R6 says, but for the head of a SHARED lock's queue and the queue of a FREE
lock. -/
structure Evaluable (l : LockEntry) : Prop where
  state : match l.state with
    | .closed => l.holders = [] ∧ l.queue = [] ∧ l.drain = none
    | .free => l.holders = [] ∧ l.drain = none
    | .exclusive => l.holders.length = 1 ∧ (∀ r ∈ l.holders, r.mode = .exclusive) ∧ l.drain = none
    | .shared => l.holders ≠ [] ∧ (∀ r ∈ l.holders, r.mode = .shared) ∧ l.drain = none
    | .draining =>
      l.holders ≠ [] ∧ l.queue = [] ∧ l.drain.isSome ∧ (∀ r ∈ l.holders, some r.mode = l.drain) ∧
        (l.drain = some .exclusive → l.holders.length = 1)
  onePlace : l.OnePlaceEach
  depths : l.DepthsInRange

/-- The lock before holder departure: as R6 says, but that its last holder may have left. -/
structure Departing (l : LockEntry) : Prop where
  state : match l.state with
    | .closed => l.holders = [] ∧ l.queue = [] ∧ l.drain = none
    | .free => l.holders = [] ∧ l.queue = [] ∧ l.drain = none
    | .exclusive => l.holders.length ≤ 1 ∧ (∀ r ∈ l.holders, r.mode = .exclusive) ∧ l.drain = none
    | .shared => (∀ r ∈ l.holders, r.mode = .shared) ∧ l.drain = none
    | .draining =>
      l.queue = [] ∧ l.drain.isSome ∧ (∀ r ∈ l.holders, some r.mode = l.drain) ∧
        (l.drain = some .exclusive → l.holders.length ≤ 1)
  onePlace : l.OnePlaceEach
  depths : l.DepthsInRange

theorem onePlace_of_sublist {m : LockEntry} (h : l.OnePlaceEach) (hs : List.Sublist m.parties l.parties) :
    m.OnePlaceEach := List.Nodup.sublist hs h

theorem parties_sublist {m : LockEntry} (hh : List.Sublist (m.holders.map HolderRecord.agent)
    (l.holders.map HolderRecord.agent)) (hq : List.Sublist (m.queue.map WaitEntry.agent) (l.queue.map WaitEntry.agent)) :
    List.Sublist m.parties l.parties := List.Sublist.append hh hq

end LockEntry

/-! ## Grant evaluation -/

namespace Evaluated

variable {l : LockEntry} {k : LockId} {d : AgentId → Bool} {lease : BitVec 12} {now : Word}
  {out : LockEntry × List (AgentId × Notice)}

theorem cls (h : Evaluated l k d lease now out) : out.1.cls = l.cls := by cases h <;> rfl

theorem drain (h : Evaluated l k d lease now out) : out.1.drain = l.drain := by cases h <;> rfl

theorem marker (h : Evaluated l k d lease now out) : out.1.marker = l.marker := by cases h <;> rfl

/-- Grant evaluation leaves a suffix of the queue. -/
theorem queue_suffix (h : Evaluated l k d lease now out) : out.1.queue <:+ l.queue := by
  cases h with
  | nothing pruned rest hq => exact ⟨pruned, hq.symm⟩
  | one pruned rest w hq => exact ⟨pruned ++ [w], by simp [hq]⟩
  | batch pruned run rest granted hq => exact ⟨pruned ++ run, hq.symm⟩

theorem granted_agents (run : List WaitEntry) (d : AgentId → Bool) (ticket : Half) (lease : BitVec 12) (now : Word) :
    (List.mapIdx (grantRecord ticket lease now) (run.filter fun w => !d w.agent)).map HolderRecord.agent =
      (run.filter fun w => !d w.agent).map WaitEntry.agent := by
  apply List.ext_getElem
  · simp
  · intro i h1 h2
    simp [grantRecord]

/-- Grant evaluation moves agents from the queue to the holder list, or out: nobody comes. -/
theorem parties_sublist (h : Evaluated l k d lease now out) : List.Sublist out.1.parties l.parties := by
  cases h with
  | nothing pruned rest hq =>
    simp only [LockEntry.parties, hq, List.map_append]
    exact List.Sublist.append (List.Sublist.refl _) (List.sublist_append_right _ _)
  | one pruned rest w hq hd hw hm hh =>
    simp only [LockEntry.parties, hq, hh, List.map_append, List.map_cons, List.map_nil, List.nil_append, grantRecord,
      List.singleton_append]
    exact List.sublist_append_right _ _
  | batch pruned run rest granted hq hd hr hl hg =>
    simp only [LockEntry.parties, hq, List.map_append, List.append_assoc, hg, granted_agents]
    refine List.Sublist.append (List.Sublist.refl _) ?_
    refine List.Sublist.trans ?_ (List.sublist_append_right _ _)
    exact List.Sublist.append (List.Sublist.map _ List.filter_sublist) (List.Sublist.refl _)

/-- What grant evaluation grants: the holders it adds hold at depth 1 under the class's lease, in the mode and for the
agent of an entry of the queue. -/
theorem holders (h : Evaluated l k d lease now out) (r : HolderRecord) (hr : r ∈ out.1.holders) :
    r ∈ l.holders ∨ ∃ w ∈ l.queue, r.agent = w.agent ∧ r.mode = w.mode ∧ r.depth = 1 ∧
      r.deadline = formDeadline now lease := by
  cases h with
  | nothing pruned rest hq => exact Or.inl hr
  | one pruned rest w hq hd hw hm hh =>
    rw [List.mem_singleton] at hr
    subst hr
    exact Or.inr ⟨w, by simp [hq], rfl, rfl, rfl, rfl⟩
  | batch pruned run rest granted hq hd hr' hl hg =>
    rcases List.mem_append.1 hr with hr | hr
    · exact Or.inl hr
    · obtain ⟨i, hi, rfl⟩ := List.mem_mapIdx.1 hr
      have hsub : ∀ w ∈ granted, w ∈ run := fun w hw => (List.mem_filter.1 (hg ▸ hw)).1
      have hm : granted[i] ∈ run := hsub _ (List.getElem_mem hi)
      exact Or.inr ⟨granted[i], by simp [hq, hm], rfl, rfl, rfl, rfl⟩

/-- Grant evaluation of an evaluable lock leaves it sound. -/
theorem sound (h : Evaluated l k d lease now out) (he : l.Evaluable) : out.1.Sound := by
  have hone := LockEntry.onePlace_of_sublist he.onePlace h.parties_sublist
  have hdep : out.1.DepthsInRange := by
    intro r hr
    rcases h.holders r hr with hr | ⟨w, _, _, _, hd, _⟩
    · exact he.depths r hr
    · rw [hd]; decide
  refine ⟨?_, hone, hdep⟩
  have hs := he.state
  cases h with
  | nothing pruned rest hq hd hh =>
    have hnil : l.queue = [] → rest = [] := fun h0 => by
      rw [hq] at h0; exact (List.append_eq_nil_iff.1 h0).2
    unfold LockEntry.Agrees
    dsimp only
    cases hst : l.state with
    | closed => rw [hst] at hs; exact ⟨hs.1, hnil hs.2.1, hs.2.2⟩
    | free =>
      rw [hst] at hs
      refine ⟨hs.1, ?_, hs.2⟩
      cases rest with
      | nil => rfl
      | cons w rest =>
        rcases (hh w rfl).2 with h | h
        · exact absurd hs.1 h.2
        · exact absurd hst h.2.1
    | exclusive => rw [hst] at hs; exact hs
    | shared =>
      rw [hst] at hs
      refine ⟨hs.1, hs.2.1, hs.2.2, fun w hw => ?_⟩
      rcases (hh w hw).2 with h | h
      · exact h.1
      · exact absurd hst h.2.2
    | draining => rw [hst] at hs; exact ⟨hs.1, hnil hs.2.1, hs.2.2.1, hs.2.2.2⟩
  | one pruned rest w hq hd hw hm hh =>
    have hne : l.queue ≠ [] := by simp [hq]
    refine ⟨rfl, fun r hr => ?_, ?_⟩
    · rw [List.mem_singleton] at hr
      rw [hr]
      exact hm
    · cases hst : l.state with
      | closed => rw [hst] at hs; exact hs.2.2
      | free => rw [hst] at hs; exact hs.2
      | exclusive => rw [hst] at hs; exact hs.2.2
      | shared => rw [hst] at hs; exact hs.2.2
      | draining => rw [hst] at hs; exact absurd hs.2.1 hne
  | batch pruned run rest granted hq hd hr hl hg hne hst =>
    have hsh : (∀ r ∈ l.holders, r.mode = .shared) ∧ l.drain = none := by
      rcases hst with hst | hst
      · rw [hst] at hs; exact ⟨by simp [hs.1], hs.2⟩
      · rw [hst] at hs; exact hs.2
    refine ⟨?_, fun r hr' => ?_, hsh.2, fun w hw => (hl w hw).2⟩
    · intro h0
      have := (List.append_eq_nil_iff.1 h0).2
      rw [List.mapIdx_eq_nil_iff] at this
      exact hne this
    · rcases List.mem_append.1 hr' with hr' | hr'
      · exact hsh.1 r hr'
      · obtain ⟨i, hi, rfl⟩ := List.mem_mapIdx.1 hr'
        have hsub : ∀ w ∈ granted, w ∈ run ∧ (!d w.agent) = true := fun w hw => List.mem_filter.1 (hg ▸ hw)
        obtain ⟨h1, h2⟩ := hsub _ (List.getElem_mem hi)
        rcases hr _ h1 with h | h
        · simp [h] at h2
        · exact h

/-- Grant evaluation neither opens nor closes a lock. -/
theorem closed_iff (h : Evaluated l k d lease now out) (he : l.Evaluable) :
    out.1.state = .closed ↔ l.state = .closed := by
  have hs := he.state
  cases h with
  | nothing => rfl
  | one pruned rest w hq =>
    simp only [reduceCtorEq, false_iff]
    intro hst
    rw [hst] at hs
    simp [hq] at hs
  | batch pruned run rest granted hq hd hr hl hg hne hst =>
    simp only [reduceCtorEq, false_iff]
    intro h0
    rw [h0] at hst
    simp at hst

end Evaluated

/-! ## Removal of a holder or a waiter from a sound lock -/

namespace LockEntry

variable {l : LockEntry}

theorem Sound.evaluable (h : l.Sound) : l.Evaluable := by
  refine ⟨?_, h.onePlace, h.depths⟩
  have ha := h.agrees
  unfold Agrees at ha
  cases hs : l.state <;> rw [hs] at ha <;> dsimp only at ha ⊢
  · exact ha
  · exact ⟨ha.1, ha.2.2⟩
  · exact ha
  · exact ⟨ha.1, ha.2.1, ha.2.2.1⟩
  · exact ha

/-- Holder records that are a part of a sound lock's, in their order, leave the lock ready for holder departure. -/
theorem Sound.departing (h : l.Sound) (hs : List HolderRecord) (m : Bool) (hl : List.Sublist hs l.holders) :
    ({ l with holders := hs, marker := m } : LockEntry).Departing := by
  refine ⟨?_, ?_, fun r hr => h.depths r (hl.subset hr)⟩
  · have ha := h.agrees
    unfold Agrees at ha
    dsimp only
    cases hst : l.state <;> rw [hst] at ha <;> dsimp only at ha ⊢
    · exact ⟨List.eq_nil_of_sublist_nil (ha.1 ▸ hl), ha.2⟩
    · exact ⟨List.eq_nil_of_sublist_nil (ha.1 ▸ hl), ha.2⟩
    · exact ⟨ha.1 ▸ hl.length_le, fun r hr => ha.2.1 r (hl.subset hr), ha.2.2⟩
    · exact ⟨fun r hr => ha.2.1 r (hl.subset hr), ha.2.2.1⟩
    · exact ⟨ha.2.1, ha.2.2.1, fun r hr => ha.2.2.2.1 r (hl.subset hr),
        fun h0 => (ha.2.2.2.2 h0) ▸ hl.length_le⟩
  · exact onePlace_of_sublist h.onePlace (parties_sublist (hl.map _) (List.Sublist.refl _))

/-- A holder that leaves, leaves the lock ready for holder departure. -/
theorem Sound.dropHolder (h : l.Sound) (a : AgentId) (m : Bool) : ({ l.dropHolder a with marker := m }).Departing :=
  h.departing _ m List.filter_sublist

/-- Changes of holder records that keep agent, mode and depth range keep a lock sound. -/
theorem Sound.modHolder (h : l.Sound) (a : AgentId) (f : HolderRecord → HolderRecord)
    (hf : ∀ r ∈ l.holders, r.agent = a → (f r).agent = r.agent ∧ (f r).mode = r.mode ∧ 1 ≤ (f r).depth ∧ (f r).depth ≤ 15) :
    (l.modHolder a f).Sound := by
  have hmem : ∀ r ∈ (l.modHolder a f).holders, ∃ q ∈ l.holders, r.mode = q.mode ∧ 1 ≤ r.depth ∧ r.depth ≤ 15 := by
    intro r hr
    obtain ⟨q, hq, rfl⟩ := List.mem_map.1 hr
    split
    · rename_i hqa
      have := hf q hq hqa
      exact ⟨q, hq, this.2.1, this.2.2⟩
    · exact ⟨q, hq, rfl, h.depths q hq⟩
  have hag : (l.modHolder a f).holders.map HolderRecord.agent = l.holders.map HolderRecord.agent := by
    simp only [LockEntry.modHolder, List.map_map]
    apply List.map_congr_left
    intro q hq
    simp only [Function.comp]
    split
    · rename_i hqa; exact (hf q hq hqa).1
    · rfl
  have hlen : (l.modHolder a f).holders.length = l.holders.length := by simp [LockEntry.modHolder]
  have hnil : (l.modHolder a f).holders = [] ↔ l.holders = [] := by simp [LockEntry.modHolder]
  refine ⟨?_, ?_, fun r hr => by obtain ⟨q, _, _, h⟩ := hmem r hr; exact h⟩
  · have ha := h.agrees
    unfold Agrees at ha ⊢
    have hstate : (l.modHolder a f).state = l.state := rfl
    cases hst : l.state <;> rw [hst] at ha <;> rw [hstate, hst] <;> dsimp only at ha ⊢
    · exact ⟨hnil.2 ha.1, ha.2⟩
    · exact ⟨hnil.2 ha.1, ha.2⟩
    · refine ⟨hlen.trans ha.1, fun r hr => ?_, ha.2.2⟩
      obtain ⟨q, hq, hm, _⟩ := hmem r hr
      exact hm.trans (ha.2.1 q hq)
    · refine ⟨mt hnil.1 ha.1, fun r hr => ?_, ha.2.2⟩
      obtain ⟨q, hq, hm, _⟩ := hmem r hr
      exact hm.trans (ha.2.1 q hq)
    · refine ⟨mt hnil.1 ha.1, ha.2.1, ha.2.2.1, fun r hr => ?_, fun h0 => hlen.trans (ha.2.2.2.2 h0)⟩
      obtain ⟨q, hq, hm, _⟩ := hmem r hr
      rw [hm]
      exact ha.2.2.2.1 q hq
  · unfold OnePlaceEach parties
    rw [hag]
    exact h.onePlace

/-- Without some waiters the lock is evaluable; if its head stays, it is sound as it is. -/
theorem Sound.filterQueue (h : l.Sound) (p : WaitEntry → Bool) :
    ({ l with queue := l.queue.filter (fun w => !p w) } : LockEntry).Evaluable ∧
      (l.headIs p = false → ({ l with queue := l.queue.filter (fun w => !p w) } : LockEntry).Sound) := by
  have hone : ({ l with queue := l.queue.filter (fun w => !p w) } : LockEntry).OnePlaceEach :=
    onePlace_of_sublist h.onePlace (parties_sublist (List.Sublist.refl _) (List.filter_sublist.map _))
  have ha := h.agrees
  unfold Agrees at ha
  refine ⟨⟨?_, hone, h.depths⟩, fun hp => ⟨?_, hone, h.depths⟩⟩
  · dsimp only
    cases hst : l.state <;> rw [hst] at ha <;> dsimp only at ha ⊢
    · exact ⟨ha.1, by simp [ha.2.1], ha.2.2⟩
    · exact ⟨ha.1, ha.2.2⟩
    · exact ha
    · exact ⟨ha.1, ha.2.1, ha.2.2.1⟩
    · exact ⟨ha.1, by simp [ha.2.1], ha.2.2⟩
  · unfold Agrees
    dsimp only
    cases hst : l.state <;> rw [hst] at ha <;> dsimp only at ha ⊢
    · exact ⟨ha.1, by simp [ha.2.1], ha.2.2⟩
    · exact ⟨ha.1, by simp [ha.2.1], ha.2.2⟩
    · exact ha
    · refine ⟨ha.1, ha.2.1, ha.2.2.1, fun w hw => ?_⟩
      unfold headIs at hp
      cases hq : l.queue with
      | nil => rw [hq] at hw; cases hw
      | cons x q =>
        rw [hq] at hw hp
        simp only at hp
        rw [List.filter_cons_of_pos (by simp [hp])] at hw
        exact ha.2.2.2 w (by rw [hq]; exact hw)
    · exact ⟨ha.1, by simp [ha.2.1], ha.2.2⟩

/-- A closed lock has no parties. -/
theorem Sound.closed (h : l.Sound) (hs : l.state = .closed) : l.holders = [] ∧ l.queue = [] ∧ l.drain = none := by
  have ha := h.agrees
  unfold Agrees at ha
  rw [hs] at ha
  exact ha

end LockEntry

/-! ## The state operations -/

section Ops

variable {s : State} {k : LockId}

theorem grantEval_evaluated (s : State) (k : LockId) :
    Evaluated (s.lock k) k s.isDetaching (s.lockClass k).lease s.units
      ((s.lock k).evaluate k s.isDetaching (s.lockClass k).lease s.units) := LockEntry.evaluated ..

theorem grantEval_sound (h : (s.lock k).Evaluable) : ((s.grantEval k).lock k).Sound := by
  rw [grantEval_lock_self]
  exact (grantEval_evaluated s k).sound h

/-- Holder departure leaves a sound lock (R4, R6). -/
theorem departure_sound (h : (s.lock k).Departing) : ((s.departure k).lock k).Sound := by
  have hs := h.state
  rw [departure_eq]
  cases hst : (s.lock k).state <;> rw [hst] at hs <;> dsimp only at hs ⊢
  · exact ⟨by unfold LockEntry.Agrees; rw [hst]; exact hs, h.onePlace, h.depths⟩
  · exact ⟨by unfold LockEntry.Agrees; rw [hst]; exact hs, h.onePlace, h.depths⟩
  · split
    · rename_i hn
      apply grantEval_sound
      rw [lock_setLock_self]
      exact ⟨⟨hn, hs.2.2⟩, h.onePlace, h.depths⟩
    · rename_i hn
      apply grantEval_sound
      have hpos := List.length_pos_iff.2 hn
      exact ⟨by rw [hst]; exact ⟨by omega, hs.2⟩, h.onePlace, h.depths⟩
  · split
    · rename_i hn
      apply grantEval_sound
      rw [lock_setLock_self]
      exact ⟨⟨hn, hs.2⟩, h.onePlace, h.depths⟩
    · rename_i hn
      apply grantEval_sound
      exact ⟨by rw [hst]; exact ⟨hn, hs⟩, h.onePlace, h.depths⟩
  · split
    · rename_i hn
      rw [setClass_lock, lock_setLock_self]
      refine ⟨⟨hn, hs.1, rfl⟩, h.onePlace, h.depths⟩
    · rename_i hn
      refine ⟨?_, h.onePlace, h.depths⟩
      unfold LockEntry.Agrees
      rw [hst]
      refine ⟨hn, hs.1, hs.2.1, hs.2.2.1, fun h0 => ?_⟩
      have := hs.2.2.2 h0
      have := List.length_pos_iff.2 hn
      omega

theorem removeWaiters_sound (h : (s.lock k).Sound) (p : WaitEntry → Bool) : ((s.removeWaiters k p).lock k).Sound := by
  rw [removeWaiters_eq]
  split
  · apply grantEval_sound
    rw [lock_setLock_self]
    exact (h.filterQueue p).1
  · rename_i hp
    rw [lock_setLock_self]
    exact (h.filterQueue p).2 (by simpa using hp)

theorem loseHolder_sound (h : (s.lock k).Sound) (a : AgentId) (n : Option Notice) :
    ((s.loseHolder k a n).lock k).Sound := by
  rw [loseHolder_eq]
  apply departure_sound
  cases n
  · rw [lock_setLock_self]; exact h.dropHolder a true
  · rw [notify_lock, lock_setLock_self]; exact h.dropHolder a true

end Ops

/-! ## Nobody comes -/

section Parties

variable (s : State) (k : LockId)

/-- Grant evaluation brings nobody to a lock. -/
theorem grantEval_parties : List.Sublist ((s.grantEval k).lock k).parties (s.lock k).parties := by
  rw [grantEval_lock_self]
  exact (grantEval_evaluated s k).parties_sublist

/-- Holder departure brings nobody to a lock. -/
theorem departure_parties : List.Sublist ((s.departure k).lock k).parties (s.lock k).parties := by
  rw [departure_eq]
  split
  all_goals first
    | exact List.Sublist.refl _
    | (split
       · first
         | (have := grantEval_parties (s.setLock k { s.lock k with state := .free }) k
            rw [lock_setLock_self] at this
            exact this)
         | (rw [setClass_lock, lock_setLock_self]; exact List.Sublist.refl (s.lock k).parties)
       · first
         | exact grantEval_parties s k
         | exact List.Sublist.refl _)

theorem removeWaiters_parties (p : WaitEntry → Bool) :
    List.Sublist ((s.removeWaiters k p).lock k).parties
      ({ s.lock k with queue := (s.lock k).queue.filter (fun w => !p w) } : LockEntry).parties := by
  rw [removeWaiters_eq]
  split
  · have := grantEval_parties (s.setLock k { s.lock k with queue := (s.lock k).queue.filter (fun w => !p w) }) k
    rw [lock_setLock_self] at this
    exact this
  · rw [lock_setLock_self]

theorem loseHolder_parties (a : AgentId) (n : Option Notice) :
    List.Sublist ((s.loseHolder k a n).lock k).parties ((s.lock k).dropHolder a).parties := by
  rw [loseHolder_eq]
  cases n with
  | none =>
    have := departure_parties (s.setLock k { (s.lock k).dropHolder a with marker := true }) k
    rw [lock_setLock_self] at this
    exact this
  | some n =>
    have := departure_parties ((s.setLock k { (s.lock k).dropHolder a with marker := true }).notify a n) k
    rw [notify_lock, lock_setLock_self] at this
    exact this

/-- An agent has no trace at a lock exactly if it is none of its parties. -/
theorem noTrace_iff (a : AgentId) : s.NoTrace a k ↔ a ∉ (s.lock k).parties := by
  simp only [State.NoTrace, LockEntry.parties, List.mem_append, List.mem_map, not_or, not_exists, not_and]

end Parties

end Sys2Proof.Machine
end

