-- ==== Sys2Proof/Laws/Sweeps.lean ====
section
/-! SUPPORT. What the sweep engine's events leave alone, and what a visit leaves at the lock it visits. -/
namespace Sys2Proof.Machine

section Visits

variable (s : State) (k : LockId)

theorem touches_detachVisit (t : AgentId) : Touches k s (s.detachVisit t k) := by
  unfold State.detachVisit
  split
  · exact Touches.refl k s
  split
  · exact touches_loseHolder s k t none
  split
  · exact touches_removeWaiters s k _
  · exact Touches.refl k s

theorem touches_clearVisit : Touches k s (s.clearVisit k) := by
  unfold State.clearVisit
  split
  · exact Touches.refl k s
  · exact (((touches_cancelQueue s k).trans (touches_revokeHolders _ k)).trans (Touches.setLock _ _)).trans
      (Touches.setUse _ _ _)

theorem clearVisit_lock_self (h : (s.lock k).state ≠ .closed) : (s.clearVisit k).lock k =
    { s.lock k with state := .closed, drain := none, holders := [], queue := [],
                    marker := (s.lock k).marker || !(s.lock k).holders.isEmpty } := by
  unfold State.clearVisit
  rw [if_neg h]
  simp [revokeHolders_lock_self, cancelQueue_lock_self]

/-- After a visit of the detach sweep to a sound lock its target has no trace there (R152). -/
theorem detachVisit_noTrace (t : AgentId) (h : (s.lock k).Sound) : (s.detachVisit t k).NoTrace t k := by
  unfold State.detachVisit
  split
  · rename_i hc
    obtain ⟨h1, h2, _⟩ := h.closed hc
    exact ⟨by simp [h1], by simp [h2]⟩
  split
  · rename_i hh
    rw [noTrace_iff]
    intro hm
    have hm := (loseHolder_parties s k t none).subset hm
    obtain ⟨r, hr, hra⟩ := (LockEntry.holderOf_isSome _ _).1 hh
    rcases List.mem_append.1 hm with hm | hm
    · obtain ⟨q, hq, hqa⟩ := List.mem_map.1 hm
      have := (List.mem_filter.1 hq).2
      simp [hqa] at this
    · exact (List.nodup_append.1 h.onePlace).2.2 _ (List.mem_map.2 ⟨r, hr, hra⟩) _ hm rfl
  split
  · rename_i hh hw
    rw [noTrace_iff]
    intro hm
    have hm := (removeWaiters_parties s k (fun w => w.agent == t)).subset hm
    rcases List.mem_append.1 hm with hm | hm
    · obtain ⟨q, hq, hqa⟩ := List.mem_map.1 hm
      exact hh ((LockEntry.holderOf_isSome _ _).2 ⟨q, hq, hqa⟩)
    · obtain ⟨q, hq, hqa⟩ := List.mem_map.1 hm
      have := (List.mem_filter.1 hq).2
      simp [hqa] at this
  · rename_i hh hw
    refine ⟨fun r hr ha => hh ((LockEntry.holderOf_isSome _ _).2 ⟨r, hr, ha⟩), fun w hw' ha => hw ?_⟩
    exact (LockEntry.waiterOf_isSome _ _).2 ⟨w, hw', ha⟩

theorem detachVisit_sound (t : AgentId) (h : (s.lock k).Sound) : ((s.detachVisit t k).lock k).Sound := by
  unfold State.detachVisit
  split
  · exact h
  split
  · exact loseHolder_sound h t none
  split
  · exact removeWaiters_sound h _
  · exact h

theorem clearVisit_closed : ((s.clearVisit k).lock k).state = .closed := by
  by_cases h : (s.lock k).state = .closed
  · unfold State.clearVisit
    rw [if_pos h, h]
  · rw [clearVisit_lock_self s k h]

theorem clearVisit_sound (h : (s.lock k).Sound) : ((s.clearVisit k).lock k).Sound := by
  by_cases hc : (s.lock k).state = .closed
  · unfold State.clearVisit
    rw [if_pos hc]
    exact h
  · rw [clearVisit_lock_self s k hc]
    exact ⟨⟨rfl, rfl, rfl⟩, List.nodup_nil, fun r hr => by cases hr⟩

end Visits

/-! ## Position and completion -/

section Engine

variable (s : State) (j : LockId) (c : ClassId) (b : AgentId) (f : SweepFlight) (h : f.position.val < Config.locks)

@[simp] theorem advancePosition_lock : (s.advancePosition f h).lock j = s.lock j := rfl
@[simp] theorem advancePosition_cls : (s.advancePosition f h).cls c = s.cls c := rfl
@[simp] theorem advancePosition_agent : (s.advancePosition f h).agent b = s.agent b := rfl
@[simp] theorem advancePosition_units : (s.advancePosition f h).units = s.units := rfl
@[simp] theorem advancePosition_prescaler : (s.advancePosition f h).prescaler = s.prescaler := rfl
@[simp] theorem advancePosition_refCount : (s.advancePosition f h).refCount = s.refCount := rfl
@[simp] theorem advancePosition_sweepQueue : (s.advancePosition f h).sweepQueue = s.sweepQueue := rfl

variable (r : SweepRequest)

/-- A completion changes agents and the sweep engine at most (R157). -/
theorem completeSweep_eq : ∃ agents, (s.completeJob r.job).addressSweepDone r = { s with agents := agents } := by
  have h1 : ∃ agents, s.completeJob r.job = { s with agents := agents } := by
    unfold State.completeJob
    split
    · exact ⟨_, rfl⟩
    · exact ⟨s.agents, rfl⟩
  obtain ⟨agents, h1⟩ := h1
  rw [h1]
  unfold State.addressSweepDone
  split
  · split
    · exact ⟨_, rfl⟩
    · exact ⟨agents, rfl⟩
  · exact ⟨agents, rfl⟩

@[simp] theorem completeSweep_lock : (s.completeSweep r).lock j = s.lock j := by
  obtain ⟨agents, h⟩ := completeSweep_eq s r
  simp only [State.completeSweep, h, engineTake_lock]
  rfl
@[simp] theorem completeSweep_cls : (s.completeSweep r).cls c = s.cls c := by
  obtain ⟨agents, h⟩ := completeSweep_eq s r
  simp only [State.completeSweep, h, engineTake_cls]
  rfl
@[simp] theorem completeSweep_units : (s.completeSweep r).units = s.units := by
  obtain ⟨agents, h⟩ := completeSweep_eq s r
  simp [State.completeSweep, h]
@[simp] theorem completeSweep_prescaler : (s.completeSweep r).prescaler = s.prescaler := by
  obtain ⟨agents, h⟩ := completeSweep_eq s r
  simp [State.completeSweep, h]
@[simp] theorem completeSweep_refCount : (s.completeSweep r).refCount = s.refCount := by
  obtain ⟨agents, h⟩ := completeSweep_eq s r
  simp [State.completeSweep, h]

theorem completeSweep_agent : (s.completeSweep r).agent b = ((s.completeJob r.job).addressSweepDone r).agent b := by
  simp [State.completeSweep]

/-- After a completion the oldest request is in flight, and the rest wait (R148, R157). -/
theorem completeSweep_engine :
    (s.completeSweep r).inFlight = s.sweepQueue.head?.map (fun q => { request := q, position := 0 }) ∧
      (s.completeSweep r).sweepQueue = s.sweepQueue.tail := by
  obtain ⟨agents, h⟩ := completeSweep_eq s r
  unfold State.completeSweep State.engineTake
  rw [h]
  cases hq : s.sweepQueue <;> simp

/-- What is outstanding after a completion: the requests that waited. -/
theorem completeSweep_outstanding : (s.completeSweep r).outstanding = s.sweepQueue := by
  unfold State.outstanding
  rw [(completeSweep_engine s r).1, (completeSweep_engine s r).2]
  cases s.sweepQueue <;> simp

/-- A request that the queue takes is outstanding behind all others (R148). -/
theorem request_outstanding (h : s.inFlight = none → s.sweepQueue = []) :
    (s.request r).outstanding = s.outstanding ++ [r] := by
  unfold State.request State.engineTake State.outstanding
  cases hf : s.inFlight with
  | none => simp [h hf]
  | some f => simp

theorem advancePosition_outstanding (hf : s.inFlight = some f) : (s.advancePosition f h).outstanding = s.outstanding := by
  simp [State.outstanding, State.advancePosition, hf]

end Engine

end Sys2Proof.Machine
end

