-- ==== Sys2Proof/Laws/Agents.lean ====
section
/-! SUPPORT. What an event at a lock does to agents: it serves them notices and credits and nothing else, and for an
ATTACHED agent the credits, notices, waits and holdings balance (R121). -/
namespace Sys2Proof.Machine

/-! ## Served agents -/

/-- `e'` is `e` after some notices addressed to it and some credits returned to it. -/
inductive Served (e : AgentEntry) : AgentEntry → Prop where
  | refl : Served e e
  | receive {f : AgentEntry} (n : Notice) (h : Served e f) : Served e (f.receive n)
  | regain {f : AgentEntry} (c : Nat) (h : Served e f) : Served e (f.regain c)

namespace Served

variable {e f g : AgentEntry}

theorem trans (h : Served e f) (h' : Served f g) : Served e g := by
  induction h' with
  | refl => exact h
  | receive n _ ih => exact ih.receive n
  | regain c _ ih => exact ih.regain c

theorem keeps (h : Served e f) : Keeps e f := by
  induction h with
  | refl => exact .refl e
  | receive n _ ih => exact ih.trans (.receive _ n)
  | regain c _ ih => exact ih.trans (.regain _ c)

theorem line (h : Served e f) (hl : e.lineLow = e.lineCondition) : f.lineLow = f.lineCondition := by
  induction h with
  | refl => exact hl
  | receive n _ ih => exact AgentEntry.receive_line _ n ih
  | regain c _ ih => exact AgentEntry.regain_line _ c ih

theorem not_attached (h : Served e f) (hs : e.status ≠ .attached) : f = e := by
  induction h with
  | refl => rfl
  | receive n _ ih => rw [ih]; exact e.receive_not_attached n hs
  | regain c _ ih => rw [ih]; exact e.regain_not_attached c hs

/-- A served agent with an empty queue has the latch it had. -/
theorem quiet (h : Served e f) (hq : e.notices = [] → e.latch = false) : f.notices = [] → f.latch = false := by
  induction h with
  | refl => exact hq
  | @receive f n _ ih =>
    intro h0
    by_cases ha : f.status = .attached
    · rw [f.receive_notices_attached n ha] at h0
      simp at h0
    · rw [f.receive_not_attached n ha] at h0 ⊢
      exact ih h0
  | @regain f c _ ih =>
    intro h0
    rw [AgentEntry.regain_latch]
    rw [AgentEntry.regain_notices] at h0
    exact ih h0

theorem receiveAll (e : AgentEntry) (ps : List (AgentId × Notice)) :
    Served e (ps.foldl (fun e p => e.receive p.2) e) := by
  induction ps generalizing e with
  | nil => exact .refl
  | cons p ps ih => exact (Served.refl.receive p.2).trans (ih _)

theorem cancelAll (k : LockId) (now : Half) (e : AgentEntry) (ws : List WaitEntry) :
    Served e (ws.foldl (fun e w => (e.receive (.cancelled k w.mode w.tag now)).regain 1) e) := by
  induction ws generalizing e with
  | nil => exact .refl
  | cons w ws ih => exact ((Served.refl.receive _).regain 1).trans (ih _)

theorem revokeAll (k : LockId) (now : Half) (e : AgentEntry) (rs : List HolderRecord) :
    Served e (rs.foldl (fun e r => e.receive (.revoked k r.mode r.ticket now)) e) := by
  induction rs generalizing e with
  | nil => exact .refl
  | cons r rs ih => exact (Served.refl.receive _).trans (ih _)

end Served

section ServedOps

variable (s : State) (k : LockId) (b : AgentId)

theorem served_grantEval : Served (s.agent b) ((s.grantEval k).agent b) := by
  rw [grantEval_agent]
  exact .receiveAll _ _

theorem served_departure : Served (s.agent b) ((s.departure k).agent b) := by
  rw [departure_eq]
  split
  all_goals first
    | exact .refl
    | (split
       · first
         | exact served_grantEval (s.setLock k _) k b
         | exact .refl
       · first
         | exact served_grantEval s k b
         | exact .refl)

theorem served_removeWaiters (p : WaitEntry → Bool) : Served (s.agent b) ((s.removeWaiters k p).agent b) := by
  rw [removeWaiters_eq]
  split
  · exact served_grantEval (s.setLock k _) k b
  · exact .refl

theorem served_notify (a : AgentId) (n : Notice) : Served (s.agent b) ((s.notify a n).agent b) := by
  rw [notify_eq, agent_setAgent]
  split
  · rename_i h; rw [h]; exact Served.refl.receive n
  · exact .refl

theorem served_regain (a : AgentId) (c : Nat) :
    Served (s.agent b) ((s.setAgent a ((s.agent a).regain c)).agent b) := by
  rw [agent_setAgent]
  split
  · rename_i h; rw [h]; exact Served.refl.regain c
  · exact .refl

theorem served_loseHolder (a : AgentId) (n : Option Notice) : Served (s.agent b) ((s.loseHolder k a n).agent b) := by
  rw [loseHolder_eq]
  cases n with
  | none => exact served_departure (s.setLock k _) k b
  | some n =>
    have h := served_notify (s.setLock k { (s.lock k).dropHolder a with marker := true }) b a n
    exact h.trans (served_departure _ k b)

theorem served_cancelQueue : Served (s.agent b) ((s.cancelQueue k).agent b) := by
  rw [cancelQueue_agent]
  exact .cancelAll k _ _ _

theorem served_revokeHolders : Served (s.agent b) ((s.revokeHolders k).agent b) := by
  rw [revokeHolders_agent]
  exact .revokeAll k _ _ _

theorem served_timeOut (w : WaitEntry) : Served (s.agent b) ((s.timeOut k w).agent b) := by
  have h1 := served_notify s b w.agent (.timedOut k w.mode w.tag (stamp s.units))
  have h2 := served_regain (s.notify w.agent (.timedOut k w.mode w.tag (stamp s.units))) b w.agent 1
  exact h1.trans (h2.trans (served_removeWaiters _ k b _))

theorem served_giveBack (a : AgentId) (r : HolderRecord) : Served (s.agent b) ((s.giveBack a k r).agent b) :=
  (served_regain (s.setLock k _) b a 1).trans (served_departure _ k b)

theorem served_detachVisit (t : AgentId) : Served (s.agent b) ((s.detachVisit t k).agent b) := by
  unfold State.detachVisit
  split
  · exact .refl
  split
  · exact served_loseHolder s k b t none
  split
  · exact served_removeWaiters s k b _
  · exact .refl

theorem served_clearVisit : Served (s.agent b) ((s.clearVisit k).agent b) := by
  unfold State.clearVisit
  split
  · exact .refl
  · exact (served_cancelQueue s k b).trans (served_revokeHolders (s.cancelQueue k) k b)

end ServedOps

/-! ## Sums over the lock table -/

/-- The sum of a figure over all locks. -/
def State.total (s : State) (f : LockEntry → Nat) : Nat := (allLocks.map fun k => f (s.lock k)).sum

theorem sum_update (ks : List LockId) (hn : ks.Nodup) (k : LockId) (hk : k ∈ ks) (f g : LockId → Nat)
    (h : ∀ j, j ≠ k → g j = f j) : (ks.map g).sum + f k = (ks.map f).sum + g k := by
  induction ks with
  | nil => cases hk
  | cons j ks ih =>
    rw [List.nodup_cons] at hn
    simp only [List.map_cons, List.sum_cons]
    rcases List.mem_cons.1 hk with rfl | hk
    · have : ks.map g = ks.map f := List.map_congr_left fun x hx => h x fun he => hn.1 (he ▸ hx)
      rw [this]
      omega
    · have := ih hn.2 hk
      have := h j fun he => hn.1 (he ▸ hk)
      omega

/-- A change at one lock changes a sum by what it changes there. -/
theorem Touches.total {k : LockId} {s t : State} (h : Touches k s t) (f : LockEntry → Nat) :
    t.total f + f (s.lock k) = s.total f + f (t.lock k) :=
  sum_update allLocks (List.nodup_finRange _) k (mem_allLocks k) (fun j => f (s.lock j)) (fun j => f (t.lock j))
    fun j hj => by rw [h.lock j hj]

theorem length_filter_eq_sum {α : Type} (xs : List α) (p : α → Bool) :
    (xs.filter p).length = (xs.map fun x => if p x then 1 else 0).sum := by
  induction xs with
  | nil => rfl
  | cons x xs ih =>
    rw [List.filter_cons, List.map_cons, List.sum_cons, ← ih]
    split <;> simp [Nat.add_comm]

/-! ## The balance of R121 at one lock -/

/-- What agent `b` owes or is owed at a lock: 2 for its wait, 1 for its holding. -/
def LockEntry.stake (l : LockEntry) (b : AgentId) : Nat :=
  2 * l.queue.countP (fun w => w.agent == b) + l.holders.countP (fun r => r.agent == b)

/-- What an agent has in credits and unread notices. -/
def AgentEntry.assets (e : AgentEntry) : Nat := e.credits + e.notices.length

theorem creditSum_eq (s : State) (b : AgentId) :
    s.creditSum b = (s.agent b).assets + s.total (fun l => l.stake b) + s.requests b := by
  have h : s.total (fun l => l.stake b) = 2 * s.waits b + s.holdings b := by
    unfold State.total State.waits State.holdings LockEntry.stake
    induction allLocks with
    | nil => rfl
    | cons k ks ih => simp only [List.map_cons, List.sum_cons] at ih ⊢; omega
  unfold State.creditSum AgentEntry.assets
  omega

theorem receive_assets (e : AgentEntry) (n : Notice) (h : e.status = .attached) :
    (e.receive n).assets = e.assets + 1 := by
  simp only [AgentEntry.assets, AgentEntry.receive_credits, e.receive_notices_attached n h, List.length_append,
    List.length_singleton]
  omega

theorem regain_assets (e : AgentEntry) (c : Nat) (h : e.status = .attached) : (e.regain c).assets = e.assets + c := by
  simp only [AgentEntry.assets, AgentEntry.regain_notices, e.regain_credits_attached c h]
  omega

theorem receiveAll_assets (e : AgentEntry) (ps : List (AgentId × Notice)) (h : e.status = .attached) :
    (ps.foldl (fun e p => e.receive p.2) e).assets = e.assets + ps.length := by
  simp only [AgentEntry.assets, receiveAll_credits, receiveAll_notices e ps h, List.length_append, List.length_map]
  omega

theorem countP_eq_zero_of {α : Type} (agent : α → AgentId) (q : List α) (d : AgentId → Bool) (b : AgentId)
    (hb : d b = false) (hq : ∀ w ∈ q, d (agent w) = true) : q.countP (fun w => agent w == b) = 0 := by
  rw [List.countP_eq_zero]
  intro w hw
  have := hq w hw
  simp only [beq_iff_eq]
  intro h
  rw [h, hb] at this
  cases this

theorem countP_filter_detaching (q : List WaitEntry) (d : AgentId → Bool) (b : AgentId) (hb : d b = false) :
    (q.filter fun w => !d w.agent).countP (fun w => w.agent == b) = q.countP (fun w => w.agent == b) := by
  rw [List.countP_filter]
  apply List.countP_congr
  intro w _
  simp only [Bool.and_eq_true, beq_iff_eq, Bool.not_eq_true', and_iff_left_iff_imp]
  intro h
  rw [h, hb]

/-- Grant evaluation balances: a grant turns a wait of 2 into a holding of 1 and a notice of 1. -/
theorem Evaluated.balance {l : LockEntry} {k : LockId} {d : AgentId → Bool} {lease : BitVec 12} {now : Word}
    {out : LockEntry × List (AgentId × Notice)} (h : Evaluated l k d lease now out) (b : AgentId) (hb : d b = false) :
    (out.2.filter fun p => decide (p.1 = b)).length + out.1.stake b = l.stake b := by
  cases h with
  | nothing pruned rest hq hd =>
    have := countP_eq_zero_of WaitEntry.agent pruned d b hb hd
    simp only [LockEntry.stake, hq, List.countP_append, this, List.filter_nil, List.length_nil]
    omega
  | one pruned rest w hq hd hw hm hh =>
    have := countP_eq_zero_of WaitEntry.agent pruned d b hb hd
    simp only [LockEntry.stake, hq, hh, List.countP_append, this, List.countP_cons, List.countP_nil, grantRecord,
      List.filter_cons, List.filter_nil, decide_eq_true_eq, beq_iff_eq]
    split
    all_goals first
      | (simp; done)
      | (simp; omega)
  | batch pruned run rest granted hq hd hr hl hg hne =>
    have h1 := countP_eq_zero_of WaitEntry.agent pruned d b hb hd
    have h2 := countP_filter_detaching run d b hb
    rw [← hg] at h2
    have h3 : (granted.mapIdx fun i w => ((w.agent, Notice.granted k .shared (l.ticket + BitVec.ofNat 16 (i + 1)) w.tag
        l.marker (stamp now)) : AgentId × Notice)).countP (fun p => decide (p.1 = b)) =
        granted.countP (fun w => w.agent == b) := by
      generalize l.ticket = tk
      clear hg h2 hne
      induction granted generalizing tk with
      | nil => rfl
      | cons w ws ih =>
        have := ih (tk + 1)
        simp only [ticket_succ] at this
        simp only [List.mapIdx_cons, List.countP_cons, this, beq_eq_decide]
    have h4 : (granted.mapIdx (grantRecord l.ticket lease now)).countP (fun r => r.agent == b) =
        granted.countP (fun w => w.agent == b) := by
      generalize l.ticket = tk
      clear hg h2 h3 hne
      induction granted generalizing tk with
      | nil => rfl
      | cons w ws ih =>
        have h3 : grantRecord (tk + 1) lease now = fun i w => grantRecord tk lease now (i + 1) w := by
          funext i w
          exact grantRecord_succ ..
        have := ih (tk + 1)
        rw [h3] at this
        simp only [List.mapIdx_cons, List.countP_cons, this]
        rfl
    simp only [LockEntry.stake, hq, List.countP_append, h1, ← List.countP_eq_length_filter, h3, h4, h2]
    omega

section Balance

variable (s : State) (k : LockId) (b : AgentId)

theorem grantEval_balance (h : (s.agent b).status = .attached) :
    ((s.grantEval k).agent b).assets + ((s.grantEval k).lock k).stake b = (s.agent b).assets + (s.lock k).stake b := by
  have hd : s.isDetaching b = false := by simp [State.isDetaching, h]
  have := (grantEval_evaluated s k).balance b hd
  rw [grantEval_agent, receiveAll_assets _ _ h, grantEval_lock_self]
  omega

theorem departure_balance (h : (s.agent b).status = .attached) :
    ((s.departure k).agent b).assets + ((s.departure k).lock k).stake b = (s.agent b).assets + (s.lock k).stake b := by
  rw [departure_eq]
  split
  all_goals first
    | rfl
    | (split
       · first
         | (have := grantEval_balance (s.setLock k { s.lock k with state := .free }) k b h
            rw [lock_setLock_self] at this
            exact this)
         | (rw [setClass_lock, lock_setLock_self]; rfl)
       · first
         | exact grantEval_balance s k b h
         | rfl)

theorem removeWaiters_balance (p : WaitEntry → Bool) (h : (s.agent b).status = .attached) :
    ((s.removeWaiters k p).agent b).assets + ((s.removeWaiters k p).lock k).stake b =
      (s.agent b).assets +
        ({ s.lock k with queue := (s.lock k).queue.filter (fun w => !p w) } : LockEntry).stake b := by
  rw [removeWaiters_eq]
  split
  · have := grantEval_balance (s.setLock k { s.lock k with queue := (s.lock k).queue.filter (fun w => !p w) }) k b h
    rw [lock_setLock_self] at this
    exact this
  · rw [lock_setLock_self]; rfl

/-- A lost holding of an ATTACHED agent is a holding less and a notice more. -/
theorem loseHolder_balance (a : AgentId) (n : Notice) (h : (s.agent b).status = .attached) :
    ((s.loseHolder k a (some n)).agent b).assets + ((s.loseHolder k a (some n)).lock k).stake b =
      (s.agent b).assets + (if b = a then 1 else 0) + ((s.lock k).dropHolder a).stake b := by
  rw [loseHolder_eq]
  dsimp only
  have hst : (((s.setLock k { (s.lock k).dropHolder a with marker := true }).notify a n).agent b).status = .attached := by
    rw [(keeps_notify (s.setLock k { (s.lock k).dropHolder a with marker := true }) a b n).1.status]
    exact h
  rw [departure_balance _ k b hst, notify_lock, lock_setLock_self, notify_eq, agent_setAgent]
  split
  · rename_i hb
    subst hb
    rw [receive_assets _ _ (by exact h)]
    rfl
  · rfl

/-- The cancellation of a queue balances: a wait of 2 becomes a notice and a credit (R65). -/
theorem cancelQueue_balance (h : (s.agent b).status = .attached) :
    ((s.cancelQueue k).agent b).assets + ((s.cancelQueue k).lock k).stake b = (s.agent b).assets + (s.lock k).stake b := by
  have key : ∀ (ws : List WaitEntry) (e : AgentEntry) (now : Half), e.status = .attached →
      (ws.foldl (fun e w => (e.receive (.cancelled k w.mode w.tag now)).regain 1) e).assets =
        e.assets + 2 * ws.length := by
    intro ws
    induction ws with
    | nil => intro e now _; simp
    | cons w ws ih =>
      intro e now he
      rw [List.foldl_cons, ih _ now (by simpa using he), regain_assets _ _ (by simpa using he), receive_assets _ _ he,
        List.length_cons]
      omega
  rw [cancelQueue_agent, key _ _ _ h, cancelQueue_lock_self]
  simp only [LockEntry.stake, List.countP_nil, ← List.countP_eq_length_filter, beq_eq_decide]
  omega

/-- The removal of every holder balances: a holding of 1 becomes a notice of 1 (R20). -/
theorem revokeHolders_balance (h : (s.agent b).status = .attached) :
    ((s.revokeHolders k).agent b).assets + ((s.revokeHolders k).lock k).stake b =
      (s.agent b).assets + (s.lock k).stake b := by
  have key : ∀ (rs : List HolderRecord) (e : AgentEntry) (now : Half), e.status = .attached →
      (rs.foldl (fun e r => e.receive (.revoked k r.mode r.ticket now)) e).assets = e.assets + rs.length := by
    intro rs
    induction rs with
    | nil => intro e now _; simp
    | cons r rs ih =>
      intro e now he
      rw [List.foldl_cons, ih _ now (by simpa using he), receive_assets _ _ he, List.length_cons]
      omega
  rw [revokeHolders_agent, key _ _ _ h, revokeHolders_lock_self]
  simp only [LockEntry.stake, List.countP_nil, ← List.countP_eq_length_filter, beq_eq_decide]
  omega

end Balance

end Sys2Proof.Machine
end

