-- ==== Sys2Proof/Laws/Effect.lean ====
section
/-! SUPPORT. What a step can do, once and for all: `Effect s t` lists every change a command can make to the tables,
counters and queues, with what the command's checks have found; `Alike` says that two states differ in registers no law
reads. Every next state of `exec` and of `step` is alike to one of the effects. -/
namespace Sys2Proof.Machine

/-! ## Differences no law reads -/

/-- Two agent entries that differ in argument registers, result records, staging and NWORD1 at most. -/
structure SameStanding (e e' : AgentEntry) : Prop where
  status : e'.status = e.status
  epoch : e'.epoch = e.epoch
  credits : e'.credits = e.credits
  supervisor : e'.supervisor = e.supervisor
  notifyEnable : e'.notifyEnable = e.notifyEnable
  notifyMode : e'.notifyMode = e.notifyMode
  latch : e'.latch = e.latch
  notices : e'.notices = e.notices
  lineLow : e'.lineLow = e.lineLow

theorem SameStanding.refl (e : AgentEntry) : SameStanding e e := ⟨rfl, rfl, rfl, rfl, rfl, rfl, rfl, rfl, rfl⟩

theorem SameStanding.trans {e f g : AgentEntry} (h : SameStanding e f) (h' : SameStanding f g) : SameStanding e g :=
  ⟨h'.status.trans h.status, h'.epoch.trans h.epoch, h'.credits.trans h.credits, h'.supervisor.trans h.supervisor,
    h'.notifyEnable.trans h.notifyEnable, h'.notifyMode.trans h.notifyMode, h'.latch.trans h.latch,
    h'.notices.trans h.notices, h'.lineLow.trans h.lineLow⟩

/-- Two states that differ in registers of agents, the bus answer, the RESET_N level and the waiting commands at most. -/
structure Alike (s t : State) : Prop where
  locks : t.locks = s.locks
  classes : t.classes = s.classes
  agents : ∀ b, SameStanding (s.agent b) (t.agent b)
  prescaler : t.prescaler = s.prescaler
  units : t.units = s.units
  refCount : t.refCount = s.refCount
  sweepQueue : t.sweepQueue = s.sweepQueue
  inFlight : t.inFlight = s.inFlight

namespace Alike

theorem refl (s : State) : Alike s s := ⟨rfl, rfl, fun _ => .refl _, rfl, rfl, rfl, rfl, rfl⟩

theorem trans {s t u : State} (h : Alike s t) (h' : Alike t u) : Alike s u :=
  ⟨h'.locks.trans h.locks, h'.classes.trans h.classes, fun b => (h.agents b).trans (h'.agents b),
    h'.prescaler.trans h.prescaler, h'.units.trans h.units, h'.refCount.trans h.refCount,
    h'.sweepQueue.trans h.sweepQueue, h'.inFlight.trans h.inFlight⟩

theorem lock {s t : State} (h : Alike s t) (k : LockId) : t.lock k = s.lock k := by
  simp only [State.lock, h.locks]

theorem cls {s t : State} (h : Alike s t) (c : ClassId) : t.cls c = s.cls c := by
  simp only [State.cls, h.classes]

theorem lockClass {s t : State} (h : Alike s t) (k : LockId) : t.lockClass k = s.lockClass k := by
  simp only [State.lockClass, h.lock, h.cls]

theorem outstanding {s t : State} (h : Alike s t) : t.outstanding = s.outstanding := by
  simp only [State.outstanding, h.sweepQueue, h.inFlight]

theorem answered (s : State) (x : BusAnswer) : Alike s (s.answered x) :=
  ⟨rfl, rfl, fun _ => .refl _, rfl, rfl, rfl, rfl, rfl⟩

theorem pending (s : State) (x : List Instr) : Alike s { s with pending := x } :=
  ⟨rfl, rfl, fun _ => .refl _, rfl, rfl, rfl, rfl, rfl⟩

theorem setAgent (s : State) (a : AgentId) (e : AgentEntry) (h : SameStanding (s.agent a) e) :
    Alike s (s.setAgent a e) := by
  refine ⟨rfl, rfl, fun b => ?_, rfl, rfl, rfl, rfl, rfl⟩
  rw [agent_setAgent]
  split
  · rename_i hb; rw [hb]; exact h
  · exact .refl _

theorem agentResult (s : State) (a : AgentId) (r : CommandResult) : Alike s (s.agentResult a r) :=
  setAgent s a _ ⟨rfl, rfl, rfl, rfl, rfl, rfl, rfl, rfl, rfl⟩

theorem controlResult (s : State) (a : AgentId) (r : CommandResult) : Alike s (s.controlResult a r) :=
  setAgent s a _ ⟨rfl, rfl, rfl, rfl, rfl, rfl, rfl, rfl, rfl⟩

end Alike

/-! ## Effects -/

/-- A holding `r` of agent `a` at lock `k`, as a lookup finds it. -/
abbrev State.Finds (s : State) (a : AgentId) (k : LockId) (r : HolderRecord) : Prop :=
  (s.lock k).holderOf a = some r

/-- The checks that let a request contend for lock `k` have passed (R31, checks 1 and 3 to 8). -/
structure State.Contends (s : State) (a : AgentId) (k : LockId) (m : Mode) : Prop where
  attached : (s.agent a).status = .attached
  inService : (s.lock k).state ≠ .closed ∧ (s.lock k).state ≠ .draining
  member : (s.lockClass k).admits a = true
  mode : m = .shared → (s.lockClass k).sharedAllowed = true
  notHolding : (s.lock k).holderOf a = none
  notWaiting : (s.lock k).waiterOf a = none

/-- The request queued and the target made DETACHING, with the requester charged (R110, R150): what DETACH, a self-detach
and DETACH_AGENT share. -/
def State.retired (s : State) (a t : AgentId) : State :=
  (if t = a then s.request { job := .detach t, requester := none }
    else (s.request { job := .detach t, requester := s.requesterOf a }).modAgent a AgentEntry.payRequest).modAgent t
      AgentEntry.enterDetaching

/-- Every change a command or a due event can make at lock `k`, with what its checks have found. -/
inductive LockEffect (s : State) (k : LockId) : State → Prop where
  | deepen (a : AgentId) (r : HolderRecord) (h : s.Finds a k r) (hd : r.depth < Config.maxDepth)
      (hr : (s.lockClass k).recursionAllowed = true) :
      LockEffect s k (s.setLock k ((s.lock k).modHolder a fun r => { r with depth := r.depth + 1 }))
  | grant (a : AgentId) (m : Mode) (h : s.Contends a k m) (hg : (s.lock k).grantableAtOnce m = true)
      (hc : 1 ≤ (s.agent a).credits) :
      LockEffect s k
        ((s.setLock k ((s.lock k).grant a m (s.lockClass k).lease s.units)).modAgent a (AgentEntry.pay 1))
  | queue (a : AgentId) (w : WaitEntry) (h : s.Contends a k w.mode) (ha : w.agent = a)
      (hg : (s.lock k).grantableAtOnce w.mode = false) (hc : 2 ≤ (s.agent a).credits) (hn : s.freeEntry = some w.num)
      (hd : ∃ len, w.deadline = formDeadline s.units len) (hl : (s.lockClass k).cap ≠ 0 → w.deadline.isSome) :
      LockEffect s k
        ((s.setLock k { s.lock k with queue := (s.lock k).queue ++ [w] }).modAgent a (AgentEntry.pay 2))
  | lower (a : AgentId) (r : HolderRecord) (h : s.Finds a k r) (hd : 1 < r.depth) :
      LockEffect s k (s.setLock k ((s.lock k).modHolder a fun r => { r with depth := r.depth - 1 }))
  | giveBack (a : AgentId) (r : HolderRecord) (ha : (s.agent a).status = .attached) (h : s.Finds a k r) :
      LockEffect s k (s.giveBack a k r)
  | renew (a : AgentId) (r : HolderRecord) (h : s.Finds a k r) (hl : (s.lockClass k).lease ≠ 0) :
      LockEffect s k (s.setLock k ((s.lock k).modHolder a fun r =>
        { r with deadline := formDeadline s.units (s.lockClass k).lease }))
  | withdraw (a : AgentId) (ha : (s.agent a).status = .attached) (hw : ((s.lock k).waiterOf a).isSome = true) :
      LockEffect s k ((s.modAgent a (AgentEntry.regain 2)).removeWaiters k (fun w => w.agent == a))
  | openLock (c : ClassId) (m : Bool) (hc : s.clearOutstanding = false) (hs : (s.lock k).state = .closed) :
      LockEffect s k ((s.setLock k { s.lock k with state := .free, cls := c, marker := m }).raiseUse c)
  | closeFree (hs : (s.lock k).state = .free) :
      LockEffect s k ((s.setLock k { s.lock k with state := .closed }).lowerUse (s.lock k).cls)
  | drain (m : Mode) (hs : (s.lock k).state = match m with | .exclusive => LockState.exclusive | .shared => .shared) :
      LockEffect s k (s.drainLock k m)
  | lose (a : AgentId) (r : HolderRecord) (h : s.Finds a k r) (n : Notice) :
      LockEffect s k (s.loseHolder k a (some n))
  | revokeEvery (h : (s.lock k).holders ≠ []) : LockEffect s k ((s.revokeHolders k).departure k)
  | timeOut (w : WaitEntry) (h : s.poolEntry w.num = some (k, w)) : LockEffect s k (s.timeOut k w)

/-- Every change a step can make, with what the checks have found. -/
inductive Effect (s : State) : State → Prop where
  | same : Effect s s
  | attach (a : AgentId) (h : (s.agent a).status = .absent) : Effect s (s.modAgent a AgentEntry.attach)
  | retire (a t : AgentId) (ht : (s.agent t).status = .attached)
      (hc : t ≠ a → (s.agent a).status = .attached → (s.agent a).credits ≠ 0) (hf : s.sweepFull = false) :
      Effect s (s.retired a t)
  | clear (a : AgentId) (ho : s.clearOutstanding = false)
      (hc : (s.agent a).status = .attached → (s.agent a).credits ≠ 0) (hf : s.sweepFull = false) :
      Effect s ((s.request { job := .clear, requester := s.requesterOf a }).modAgent a AgentEntry.payRequest)
  | give (t : AgentId) : Effect s (s.modAgent t fun e => { e with supervisor := true })
  | take (t : AgentId) (h : s.lastSupervisor t = false) : Effect s (s.modAgent t fun e => { e with supervisor := false })
  | pop (a : AgentId) (n : Notice) (rest : List Notice) (h : (s.agent a).notices = n :: rest) :
      Effect s (s.modAgent a fun e => e.pop n rest)
  | configure (a : AgentId) (w : Word) : Effect s (s.modAgent a fun e => e.configureNotify w)
  | commit (i : ClassId) (d : ClassDesc) (h : (s.cls i).useCount = 0) :
      Effect s (s.setClass i { s.cls i with desc := d })
  | prescale (p : Half) : Effect s { s with prescaler := p, refCount := 0 }
  | advance (hp : s.prescaler ≠ 0) (hd : s.anyDue = false) : Effect s s.advance
  | tick (h : s.refCount.toNat + 1 < s.prescaler.toNat) : Effect s { s with refCount := s.refCount + 1 }
  | lock (k : LockId) {t : State} (h : LockEffect s k t) : Effect s t
  | detachVisit (f : SweepFlight) (t : AgentId) (hf : s.inFlight = some f) (hj : f.request.job = .detach t)
      (h : f.position.val < Config.locks) :
      Effect s ((s.detachVisit t ⟨f.position.val, h⟩).advancePosition f h)
  | clearVisit (f : SweepFlight) (hf : s.inFlight = some f) (hj : f.request.job = .clear)
      (h : f.position.val < Config.locks) :
      Effect s ((s.clearVisit ⟨f.position.val, h⟩).advancePosition f h)
  | complete (f : SweepFlight) (hf : s.inFlight = some f) (h : f.position.val = Config.locks) :
      Effect s (s.completeSweep f.request)
  | reset : Effect s State.reset

/-- What an effect at a lock touches. -/
theorem LockEffect.touches {s t : State} {k : LockId} (h : LockEffect s k t) : Touches k s t := by
  cases h with
  | deepen => exact .setLock s _
  | grant => exact (Touches.setLock s _).trans (.setAgent _ _ _)
  | queue => exact (Touches.setLock s _).trans (.setAgent _ _ _)
  | lower => exact .setLock s _
  | giveBack => exact ((Touches.setLock s _).trans (.setAgent _ _ _)).trans (touches_departure _ k)
  | renew => exact .setLock s _
  | withdraw => exact (Touches.setAgent s _ _).trans (touches_removeWaiters _ k _)
  | openLock => exact (Touches.setLock s _).trans (.setUse _ _ _)
  | closeFree => exact (Touches.setLock s _).trans (.setUse _ _ _)
  | drain => exact (Touches.setLock s _).trans (touches_cancelQueue _ k)
  | lose => exact touches_loseHolder s k _ _
  | revokeEvery => exact (touches_revokeHolders s k).trans (touches_departure _ k)
  | timeOut => exact ((Touches.setAgent s _ _).trans (.setAgent _ _ _)).trans (touches_removeWaiters _ k _)

/-- What an effect at a lock does to an agent: it serves it, or charges it while it is ATTACHED. -/
theorem LockEffect.agents {s t : State} {k : LockId} (h : LockEffect s k t) (b : AgentId) :
    Served (s.agent b) (t.agent b) ∨ ∃ c, t.agent b = (s.agent b).pay c ∧ (s.agent b).status = .attached := by
  cases h with
  | deepen => exact Or.inl .refl
  | grant a m h =>
    simp only [modAgent_eq, agent_setAgent, setLock_agent]
    split
    · rename_i hb; rw [hb]; exact Or.inr ⟨1, rfl, h.attached⟩
    · exact Or.inl .refl
  | queue a w h =>
    simp only [modAgent_eq, agent_setAgent, setLock_agent]
    split
    · rename_i hb; rw [hb]; exact Or.inr ⟨2, rfl, h.attached⟩
    · exact Or.inl .refl
  | lower => exact Or.inl .refl
  | giveBack a r => exact Or.inl (served_giveBack s k b a r)
  | renew => exact Or.inl .refl
  | withdraw a => exact Or.inl ((served_regain s b a 2).trans (served_removeWaiters _ k b _))
  | openLock => exact Or.inl .refl
  | closeFree => exact Or.inl .refl
  | drain m => exact Or.inl (served_cancelQueue (s.setLock k _) k b)
  | lose a r h n => exact Or.inl (served_loseHolder s k b a _)
  | revokeEvery => exact Or.inl ((served_revokeHolders s k b).trans (served_departure _ k b))
  | timeOut w => exact Or.inl (served_timeOut s k b w)

theorem LockEffect.status {s t : State} {k : LockId} (h : LockEffect s k t) (b : AgentId) :
    (t.agent b).status = (s.agent b).status ∧ (t.agent b).epoch = (s.agent b).epoch := by
  rcases h.agents b with h | ⟨c, h, _⟩
  · exact ⟨h.keeps.status, h.keeps.epoch⟩
  · rw [h]; exact ⟨rfl, rfl⟩

/-! ## Every command's effect -/

theorem next_agentWrite {s t : State} {f : State → State} (h : s.agentWrite f = .next t) :
    t = s.busError ∨ t = (f s).ready := by
  unfold State.agentWrite at h
  split at h
  · cases h; exact Or.inl rfl
  · cases h; exact Or.inr rfl

theorem next_controlWrite {s t : State} {a : AgentId} {f : State → State} (h : s.controlWrite a f = .next t) :
    t = s.busError ∨ (t = (f s).ready ∧ (s.agent a).supervisor = true) := by
  unfold State.controlWrite at h
  split at h
  · cases h; exact Or.inl rfl
  · rename_i hs
    cases h
    simp only [Bool.or_eq_true, Bool.not_eq_true', not_or, Bool.not_eq_false] at hs
    exact Or.inr ⟨rfl, hs.2⟩

/-- Some effect leads to a state alike to `t`. -/
def HasEffect (s t : State) : Prop := ∃ u, Effect s u ∧ Alike u t

theorem HasEffect.same {s t : State} (h : Alike s t) : HasEffect s t := ⟨s, .same, h⟩

theorem HasEffect.then {s t u : State} (h : HasEffect s t) (h' : Alike t u) : HasEffect s u := by
  obtain ⟨v, hv, ha⟩ := h
  exact ⟨v, hv, ha.trans h'⟩

theorem HasEffect.busError (s : State) : HasEffect s s.busError := .same (.answered s _)

theorem HasEffect.of_agentWrite {s t : State} {f : State → State} (h : s.agentWrite f = .next t)
    (hf : HasEffect s (f s)) : HasEffect s t := by
  rcases next_agentWrite h with rfl | rfl
  · exact .busError s
  · exact hf.then (.answered _ _)

theorem HasEffect.of_controlWrite {s t : State} {a : AgentId} {f : State → State} (h : s.controlWrite a f = .next t)
    (hf : HasEffect s (f s)) : HasEffect s t := by
  rcases next_controlWrite h with rfl | ⟨rfl, _⟩
  · exact .busError s
  · exact hf.then (.answered _ _)

theorem HasEffect.refuse (s : State) (a : AgentId) (st : Status) : HasEffect s (s.refuse a st) :=
  .same (.agentResult s a _)

theorem HasEffect.controlRefuse (s : State) (a : AgentId) (st : Status) : HasEffect s (s.controlRefuse a st) :=
  .same (.controlResult s a _)

theorem HasEffect.agentResult {s t : State} (h : Effect s t) (a : AgentId) (r : CommandResult) :
    HasEffect s (t.agentResult a r) := ⟨t, h, .agentResult t a r⟩

theorem HasEffect.controlResult {s t : State} (h : Effect s t) (a : AgentId) (r : CommandResult) :
    HasEffect s (t.controlResult a r) := ⟨t, h, .controlResult t a r⟩

theorem refusal_none {st : AgentState} (h : st.refusal = none) : st = .attached := (refusal_eq_none st).1 h

theorem attach_effect (s : State) (a : AgentId) : HasEffect s (s.attach a) := by
  unfold State.attach
  split
  · exact .refuse ..
  · exact .refuse ..
  · rename_i h; exact .agentResult (.attach a h) a _

theorem detach_effect (s : State) (a : AgentId) : HasEffect s (s.detach a) := by
  unfold State.detach
  split
  · exact .refuse ..
  · rename_i h
    split
    · exact .refuse ..
    · rename_i hf
      have he : s.retired a a =
          (s.request { job := .detach a, requester := none }).modAgent a AgentEntry.enterDetaching := by
        simp [State.retired]
      rw [← he]
      exact .agentResult (.retire a a (refusal_none h) (fun hn => absurd rfl hn) (by simpa using hf)) a _

/-- What the ordered checks of ACQUIRE have found when they decide an outcome (R31). -/
def AcquireOutcome.Backed (s : State) (a : AgentId) : AcquireOutcome → Prop
  | .refuse _ => True
  | .recursion k => ∃ r, s.Finds a k r ∧ r.depth < Config.maxDepth ∧ (s.lockClass k).recursionAllowed = true ∧
      (s.agent a).status = .attached ∧ r.mode = acquireMode (s.agent a).arg0
  | .grantNow k => s.Contends a k (acquireMode (s.agent a).arg0) ∧
      (s.lock k).grantableAtOnce (acquireMode (s.agent a).arg0) = true ∧ 1 ≤ (s.agent a).credits
  | .enqueue k n => s.Contends a k (acquireMode (s.agent a).arg0) ∧
      (s.lock k).grantableAtOnce (acquireMode (s.agent a).arg0) = false ∧ 2 ≤ (s.agent a).credits ∧
      s.freeEntry = some n

theorem acquireOutcome_backed (s : State) (a : AgentId) : (s.acquireOutcome a).Backed s a := by
  unfold State.acquireOutcome
  split
  · trivial
  rename_i hst
  have hat := refusal_none hst
  split
  · trivial
  rename_i k hk
  unfold State.acquireAt
  dsimp only
  split
  · trivial
  rename_i h1
  split
  · trivial
  rename_i h2
  split
  · trivial
  rename_i h3
  have h2' : (s.lockClass k).admits a = true := by simpa using h2
  have h3' : acquireMode (s.agent a).arg0 = .shared → (s.lockClass k).sharedAllowed = true := by
    intro hm
    by_contra hn
    exact h3 ⟨hm, by simpa using hn⟩
  cases hh : (s.lock k).holderOf a with
  | some r =>
    dsimp only
    unfold ownHoldingOutcome
    split
    · trivial
    rename_i h4
    split
    · trivial
    rename_i h5
    split
    · rename_i h6
      exact ⟨r, hh, h6, by simpa using h5, hat, not_not.1 h4⟩
    · trivial
  | none =>
    dsimp only
    split
    · trivial
    rename_i h4
    split
    · trivial
    have hc : s.Contends a k (acquireMode (s.agent a).arg0) :=
      ⟨hat, not_or.1 h1, h2', h3', hh, by simpa using h4⟩
    unfold State.contendOutcome
    dsimp only
    split
    · rename_i hg
      split
      · rename_i h6; exact ⟨hc, hg, h6⟩
      · trivial
    · rename_i hg
      have hg' : (s.lock k).grantableAtOnce (acquireMode (s.agent a).arg0) = false := by simpa using hg
      split
      · trivial
      split
      · trivial
      rename_i h7
      cases hfe : s.freeEntry with
      | none => trivial
      | some n => exact ⟨hc, hg', by omega, hfe⟩

theorem acquire_effect (s : State) (a : AgentId) : HasEffect s (s.acquire a) := by
  have h := acquireOutcome_backed s a
  unfold State.acquire
  split
  · exact .refuse ..
  · rename_i k hk
    rw [hk] at h
    obtain ⟨r, h1, h2, h3, _⟩ := h
    exact .agentResult (.lock k (.deepen a r h1 h2 h3)) a _
  · rename_i k hk
    rw [hk] at h
    exact .agentResult (.lock k (.grant a _ h.1 h.2.1 h.2.2)) a _
  · rename_i k n hk
    rw [hk] at h
    refine .agentResult (.lock k (.queue a (s.newEntry a k n) h.1 rfl h.2.1 h.2.2.1 h.2.2.2 ⟨_, rfl⟩ ?_)) a _
    intro hc
    exact (formDeadline_isSome _ _).2 (effectiveLimit_ne_zero hc)

/-- What checks 1 to 4 of RELEASE and RENEW have found when they pass (R74, R84). -/
theorem presentedHolding_spec {s : State} {a : AgentId} {k : LockId} {r : HolderRecord}
    (h : s.presentedHolding a = .ok (k, r)) : (s.agent a).status = .attached ∧ s.Finds a k r := by
  unfold State.presentedHolding at h
  split at h
  · cases h
  rename_i hst
  split at h
  · cases h
  split at h
  · cases h
  rename_i q hq
  split at h
  · cases h
    exact ⟨refusal_none hst, hq⟩
  · cases h

theorem release_effect (s : State) (a : AgentId) : HasEffect s (s.release a) := by
  unfold State.release
  split
  · exact .refuse ..
  · rename_i k r h
    obtain ⟨h1, h2⟩ := presentedHolding_spec h
    split
    · rename_i hd; exact .agentResult (.lock k (.lower a r h2 hd)) a _
    · exact .agentResult (.lock k (.giveBack a r h1 h2)) a _

theorem renew_effect (s : State) (a : AgentId) : HasEffect s (s.renew a) := by
  unfold State.renew
  split
  · exact .refuse ..
  · rename_i k r h
    obtain ⟨h1, h2⟩ := presentedHolding_spec h
    split
    · exact .refuse ..
    · rename_i hl; exact .agentResult (.lock k (.renew a r h2 hl)) a _

theorem cancel_effect (s : State) (a : AgentId) : HasEffect s (s.cancel a) := by
  unfold State.cancel
  split
  · exact .refuse ..
  rename_i hst
  split
  · exact .refuse ..
  split
  · rename_i h; exact .agentResult (.lock _ (.withdraw a (refusal_none hst) h)) a _
  · exact .refuse ..

theorem probe_effect (s : State) (a : AgentId) : HasEffect s (s.probe a) := by
  unfold State.probe
  split
  · exact .refuse ..
  · exact .same (.setAgent s a _ ⟨rfl, rfl, rfl, rfl, rfl, rfl, rfl, rfl, rfl⟩)

theorem openLock_effect (s : State) (a : AgentId) : HasEffect s (s.openLock a) := by
  unfold State.openLock
  split
  · exact .controlRefuse ..
  split
  · exact .controlRefuse ..
  split
  · exact .controlRefuse ..
  rename_i h1
  split
  · exact .controlRefuse ..
  rename_i h2
  exact .controlResult (.lock _ (.openLock _ _ (by simpa using h1) (not_not.1 h2))) a _

theorem closeLock_effect (s : State) (a : AgentId) : HasEffect s (s.closeLock a) := by
  unfold State.closeLock
  split
  · exact .controlRefuse ..
  split
  · exact .controlRefuse ..
  · exact .controlRefuse ..
  · rename_i h; exact .controlResult (.lock _ (.closeFree h)) a _
  · rename_i h; exact .controlResult (.lock _ (.drain .exclusive h)) a _
  · rename_i h; exact .controlResult (.lock _ (.drain .shared h)) a _

theorem revokeTarget_effect (s : State) (a : AgentId) : HasEffect s (s.revokeTarget a) := by
  unfold State.revokeTarget
  split
  · exact .controlRefuse ..
  split
  · split
    · exact .controlRefuse ..
    · rename_i h; exact .controlResult (.lock _ (.revokeEvery (by simpa using h))) a _
  · split
    · exact .controlRefuse ..
    split
    · exact .controlRefuse ..
    · rename_i h; exact .controlResult (.lock _ (.lose _ _ h _)) a _

/-- What the checks of DETACH_AGENT have found when they pass (R149). -/
theorem detachTarget_spec {s : State} {a t : AgentId} (h : s.detachTarget a = .ok t) :
    (s.agent t).status = .attached ∧ (t ≠ a → (s.agent a).status = .attached → (s.agent a).credits ≠ 0) ∧
      s.sweepFull = false := by
  unfold State.detachTarget at h
  split at h
  · cases h
  split at h
  · cases h
  · cases h
  rename_i hst
  split at h
  · cases h
  rename_i hc
  split at h
  · cases h
  rename_i hf
  cases h
  exact ⟨hst, fun h1 h2 h3 => hc ⟨h1, h2, h3⟩, by simpa using hf⟩

theorem detachAgent_effect (s : State) (a : AgentId) : HasEffect s (s.detachAgent a) := by
  unfold State.detachAgent
  split
  · exact .controlRefuse ..
  · rename_i t h
    obtain ⟨h1, h2, h3⟩ := detachTarget_spec h
    exact .controlResult (.retire a t h1 h2 h3) a _

theorem clearAll_effect (s : State) (a : AgentId) : HasEffect s (s.clearAll a) := by
  unfold State.clearAll
  split
  · exact .controlRefuse ..
  rename_i h1
  split
  · exact .controlRefuse ..
  rename_i h2
  split
  · exact .controlRefuse ..
  rename_i h3
  exact .controlResult (.clear a (by simpa using h1) (fun h4 h5 => h2 ⟨h4, h5⟩) (by simpa using h3)) a _

theorem giveSupervisor_effect (s : State) (a : AgentId) : HasEffect s (s.giveSupervisor a) := by
  unfold State.giveSupervisor
  split
  · exact .controlRefuse ..
  · exact .controlResult (.give _) a _

theorem takeSupervisor_effect (s : State) (a : AgentId) : HasEffect s (s.takeSupervisor a) := by
  unfold State.takeSupervisor
  split
  · exact .controlRefuse ..
  split
  · exact .controlRefuse ..
  · rename_i h; exact .controlResult (.take _ (by simpa using h)) a _

theorem commit_effect (s : State) (a : AgentId) : HasEffect s (s.commit a) := by
  unfold State.commit
  split
  · split
    · exact .controlRefuse ..
    split
    · exact .controlRefuse ..
    · rename_i h; exact .controlResult (.commit _ _ (Nat.eq_zero_of_not_pos h)) a _
  · exact .controlRefuse ..

theorem writeArgument_standing (e : AgentEntry) (r : Register) (w : Word) : SameStanding e (e.writeArgument r w) := by
  cases r <;> exact ⟨rfl, rfl, rfl, rfl, rfl, rfl, rfl, rfl, rfl⟩

/-- Every next state of a command is alike to one of its effects. -/
theorem exec_effect {c : Instr} {s t : State} (h : exec c s = .next t) : HasEffect s t := by
  cases c with
  | attach a => exact .of_agentWrite h (attach_effect s a)
  | detach a => exact .of_agentWrite h (detach_effect s a)
  | acquire a => exact .of_agentWrite h (acquire_effect s a)
  | release a => exact .of_agentWrite h (release_effect s a)
  | renew a => exact .of_agentWrite h (renew_effect s a)
  | cancel a => exact .of_agentWrite h (cancel_effect s a)
  | probe a => exact .of_agentWrite h (probe_effect s a)
  | openLock a => exact .of_controlWrite h (openLock_effect s a)
  | closeLock a => exact .of_controlWrite h (closeLock_effect s a)
  | revoke a => exact .of_controlWrite h (revokeTarget_effect s a)
  | revokeAll a => exact .of_controlWrite h (revokeTarget_effect s a)
  | detachAgent a => exact .of_controlWrite h (detachAgent_effect s a)
  | clearAll a => exact .of_controlWrite h (clearAll_effect s a)
  | giveSupervisor a => exact .of_controlWrite h (giveSupervisor_effect s a)
  | takeSupervisor a => exact .of_controlWrite h (takeSupervisor_effect s a)
  | badCommand a v code =>
    simp only [exec, execBadCommand] at h
    split at h
    · cases h
    · cases v
      · exact .of_agentWrite h (.refuse ..)
      · exact .of_controlWrite h (.controlRefuse ..)
  | ntake a =>
    simp only [exec, execNtake] at h
    split at h
    · cases h; exact .same (.answered s _)
    · cases h
      unfold State.takeNotice
      split
      · exact .same (.answered s _)
      · rename_i n rest hn
        exact ⟨_, .pop a n rest hn, .answered _ _⟩
  | notifyWrite a w =>
    simp only [exec, execNotifyWrite] at h
    exact .of_agentWrite h ⟨_, .configure a w, .refl _⟩
  | tsel a w =>
    simp only [exec, execTsel] at h
    exact .of_controlWrite h (.same (.setAgent s a _ ⟨rfl, rfl, rfl, rfl, rfl, rfl, rfl, rfl, rfl⟩))
  | tdataWrite a n w =>
    simp only [exec, execTdataWrite] at h
    split at h
    · exact .of_controlWrite h (.same (.setAgent s a _ ⟨rfl, rfl, rfl, rfl, rfl, rfl, rfl, rfl, rfl⟩))
    · cases h; exact .busError s
  | tcommit a => exact .of_controlWrite h (commit_effect s a)
  | prescaleWrite a w =>
    simp only [exec, execPrescaleWrite] at h
    exact .of_controlWrite h ⟨_, .prescale _, .refl _⟩
  | argumentRegisterWrite a o w =>
    simp only [exec, execArgumentRegisterWrite] at h
    split at h
    · cases h; exact .busError s
    split at h
    · split at h
      · cases h
        exact .then (.same (.setAgent s a _ (writeArgument_standing _ _ _))) (.answered _ _)
      · cases h
    · cases h; exact .busError s
  | pinReset low =>
    cases h
    exact ⟨_, .reset, ⟨rfl, rfl, fun _ => .refl _, rfl, rfl, rfl, rfl, rfl⟩⟩
  | unitAdvance =>
    simp only [exec, execUnitAdvance] at h
    split at h
    · rename_i hc
      cases h
      simp only [State.canAdvance, Bool.and_eq_true, bne_iff_ne, ne_eq, Bool.not_eq_true'] at hc
      exact ⟨_, .advance hc.1 hc.2, .refl _⟩
    · cases h; exact .same (.refl _)
  | leaseExpiry k a =>
    simp only [exec, execLeaseExpiry] at h
    split at h
    · cases h; exact .same (.refl _)
    rename_i r hr
    split at h
    · cases h; exact ⟨_, .lock k (.lose a r hr _), .refl _⟩
    · cases h; exact .same (.refl _)
  | timeout e =>
    simp only [exec, execTimeout] at h
    split at h
    · cases h; exact .same (.refl _)
    rename_i k w hw
    split at h
    · cases h
      have he := (poolEntry_mem hw).2
      exact ⟨_, .lock k (.timeOut w (he ▸ hw)), .refl _⟩
    · cases h; exact .same (.refl _)
  | detachSweepVisit =>
    simp only [exec, execDetachSweepVisit] at h
    split at h
    · rename_i f hf
      split at h
      · rename_i t ht
        split at h
        · rename_i hp; cases h; exact ⟨_, .detachVisit f t hf ht hp, .refl _⟩
        · cases h; exact .same (.refl _)
      · cases h; exact .same (.refl _)
    · cases h; exact .same (.refl _)
  | clearSweepVisit =>
    simp only [exec, execClearSweepVisit] at h
    split at h
    · rename_i f hf
      split at h
      · rename_i ht
        split at h
        · rename_i hp; cases h; exact ⟨_, .clearVisit f hf ht hp, .refl _⟩
        · cases h; exact .same (.refl _)
      · cases h; exact .same (.refl _)
    · cases h; exact .same (.refl _)
  | sweepCompletion =>
    simp only [exec, execSweepCompletion] at h
    split at h
    · rename_i f hf
      split at h
      · rename_i hp; cases h; exact ⟨_, .complete f hf hp, .refl _⟩
      · cases h; exact .same (.refl _)
    · cases h; exact .same (.refl _)

theorem refPeriod_effect (s : State) : HasEffect s s.refPeriod := by
  unfold State.refPeriod
  split
  · exact .same (.refl _)
  split
  · rename_i h; exact ⟨_, .tick h, .refl _⟩
  split
  · rename_i hc
    simp only [State.canAdvance, Bool.and_eq_true, bne_iff_ne, ne_eq, Bool.not_eq_true'] at hc
    exact ⟨_, .advance hc.1 hc.2, .refl _⟩
  · exact .same (.refl _)

/-- What a step can do: an effect on `s`, or on `s` with the front command taken off the queue. -/
theorem step_effect {s t : State} (h : step s = .next t) : ∃ u, Alike s u ∧ HasEffect u t := by
  unfold step at h
  split at h
  · exact ⟨_, .pending s _, exec_effect h⟩
  · cases h; exact ⟨s, .refl s, refPeriod_effect s⟩

/-- A property that alike states share and every effect keeps is kept by every step. -/
theorem step_keeps {P : State → Prop} (alike : ∀ s t, Alike s t → P s → P t) (effect : ∀ s t, Effect s t → P s → P t)
    {s t : State} (h : step s = .next t) (hs : P s) : P t := by
  obtain ⟨u, hu, v, hv, hvt⟩ := step_effect h
  exact alike _ _ hvt (effect _ _ hv (alike _ _ hu hs))

end Sys2Proof.Machine
end

