-- ==== Sys2Proof/Laws/Keep.lean ====
section
/-! SUPPORT. What an effect at a lock keeps: one lemma per law, each about the one lock or the sums the effect changes. -/
namespace Sys2Proof.Machine

variable {s t : State} {k : LockId}

/-- An effect at a sound lock leaves it sound (R3, R5, R6). -/
theorem LockEffect.sound (h : LockEffect s k t) (hs : (s.lock k).Sound) : (t.lock k).Sound := by
  cases h with
  | deepen a r h hd hr =>
    rw [lock_setLock_self]
    refine hs.modHolder a _ ?_
    intro q hq hqa
    have := (LockEntry.holderOf_eq_some _ _ hs.onePlace q).2 ⟨hq, hqa⟩
    rw [h] at this; cases this
    have := hs.depths r hq
    exact ⟨rfl, rfl, by simp, hd⟩
  | grant a m h hg hc =>
    simp only [modAgent_eq, setAgent_lock, lock_setLock_self]
    have ha := hs.agrees
    rw [LockEntry.grantableAtOnce_iff] at hg
    refine ⟨?_, ?_, ?_⟩
    · unfold LockEntry.Agrees at ha ⊢
      rcases hg with hg | ⟨hg, rfl, hq⟩
      · rw [hg] at ha
        cases m <;> simp [LockEntry.grant, ha]
      · rw [hg] at ha
        simp only [LockEntry.grant]
        refine ⟨by simp, ?_, ha.2.2.1, by simp [hq]⟩
        intro r hr; rcases List.mem_append.1 hr with hr | hr
        · exact ha.2.1 r hr
        · rw [List.mem_singleton] at hr; rw [hr]
    · have h1 := hs.onePlace
      have h2 := (LockEntry.holderOf_eq_none _ _).1 h.notHolding
      have h3 := (LockEntry.waiterOf_eq_none _ _).1 h.notWaiting
      unfold LockEntry.OnePlaceEach LockEntry.parties at h1 ⊢
      simp only [LockEntry.grant, List.map_append, List.map_cons, List.map_nil, List.append_assoc, List.singleton_append]
      rw [List.nodup_middle]
      refine List.nodup_cons.2 ⟨?_, h1⟩
      simp only [List.mem_append, List.mem_map, not_or, not_exists, not_and]
      exact ⟨h2, h3⟩
    · intro r hr
      rcases List.mem_append.1 hr with hr | hr
      · exact hs.depths r hr
      · rw [List.mem_singleton] at hr; rw [hr]; exact ⟨le_refl 1, show (1 : Nat) ≤ 15 by decide⟩
  | queue a w h ha hg hc hn hd hl =>
    simp only [modAgent_eq, setAgent_lock, lock_setLock_self]
    have hag := hs.agrees
    have hg' : ¬ ((s.lock k).state = .free ∨ ((s.lock k).state = .shared ∧ w.mode = .shared ∧ (s.lock k).queue = [])) := by
      rw [← LockEntry.grantableAtOnce_iff, hg]; simp
    rw [not_or] at hg'
    refine ⟨?_, ?_, hs.depths⟩
    · unfold LockEntry.Agrees at hag ⊢
      dsimp only
      cases hst : (s.lock k).state <;> rw [hst] at hag <;> dsimp only at hag ⊢
      · exact absurd hst h.inService.1
      · exact absurd hst hg'.1
      · exact hag
      · refine ⟨hag.1, hag.2.1, hag.2.2.1, fun x hx => ?_⟩
        cases hq : (s.lock k).queue with
        | nil =>
          rw [hq] at hx; cases hx
          cases hm : w.mode with
          | exclusive => rfl
          | shared => exact absurd ⟨hst, hm, hq⟩ hg'.2
        | cons y q => rw [hq] at hx; exact hag.2.2.2 x (by rw [hq]; exact hx)
      · exact absurd hst h.inService.2
    · have h1 := hs.onePlace
      have h2 := (LockEntry.holderOf_eq_none _ _).1 h.notHolding
      have h3 := (LockEntry.waiterOf_eq_none _ _).1 h.notWaiting
      unfold LockEntry.OnePlaceEach LockEntry.parties at h1 ⊢
      simp only [List.map_append, List.map_cons, List.map_nil, ← List.append_assoc]
      rw [List.nodup_append_comm, List.singleton_append]
      refine List.nodup_cons.2 ⟨?_, h1⟩
      simp only [List.mem_append, List.mem_map, not_or, not_exists, not_and, ha]
      exact ⟨h2, h3⟩
  | lower a r h hd =>
    rw [lock_setLock_self]
    refine hs.modHolder a _ ?_
    intro q hq hqa
    have := (LockEntry.holderOf_eq_some _ _ hs.onePlace q).2 ⟨hq, hqa⟩
    rw [h] at this; cases this
    have := hs.depths r hq
    exact ⟨rfl, rfl, by show 1 ≤ r.depth - 1; omega, by show r.depth - 1 ≤ 15; omega⟩
  | giveBack a r ha h =>
    apply departure_sound
    simp only [modAgent_eq, setAgent_lock, lock_setLock_self]
    exact hs.dropHolder a _
  | renew a r h hl =>
    rw [lock_setLock_self]
    refine hs.modHolder a _ ?_
    intro q hq hqa
    exact ⟨rfl, rfl, hs.depths q hq⟩
  | withdraw a ha hw =>
    exact removeWaiters_sound (s := s.modAgent a (AgentEntry.regain 2)) hs _
  | openLock c m hc hst =>
    simp only [raiseUse_eq, setClass_lock, lock_setLock_self]
    exact ⟨hs.closed hst, hs.onePlace, hs.depths⟩
  | closeFree hst =>
    simp only [lowerUse_eq, setClass_lock, lock_setLock_self]
    have hag := hs.agrees
    unfold LockEntry.Agrees at hag; rw [hst] at hag
    exact ⟨hag, hs.onePlace, hs.depths⟩
  | drain m hst =>
    rw [State.drainLock, cancelQueue_lock_self, lock_setLock_self]
    have hag := hs.agrees
    unfold LockEntry.Agrees at hag
    refine ⟨?_, LockEntry.onePlace_of_sublist hs.onePlace
      (LockEntry.parties_sublist (List.Sublist.refl _) (List.nil_sublist _)), hs.depths⟩
    cases m <;> rw [hst] at hag
    · refine ⟨?_, rfl, rfl, fun r hr => by rw [hag.2.1 r hr], fun _ => hag.1⟩
      intro h
      rw [h] at hag
      simp at hag
    · exact ⟨hag.1, rfl, rfl, fun r hr => by rw [hag.2.1 r hr], fun h => by cases h⟩
  | lose a r h n =>
    exact loseHolder_sound hs a _
  | revokeEvery h =>
    apply departure_sound
    rw [revokeHolders_lock_self]
    exact hs.departing [] _ (List.nil_sublist _)
  | timeOut w h =>
    exact removeWaiters_sound (s := (s.notify w.agent _).modAgent w.agent (AgentEntry.regain 1)) hs _

/-! ## Nobody new, nothing new -/

/-- `l'` has what `l` had at most: its queue is a part of `l`'s, and each holder either held before or was granted from
`l`'s queue. -/
structure LockEntry.Derives (lease : BitVec 12) (now : Word) (l l' : LockEntry) : Prop where
  cls : l'.cls = l.cls
  queue : List.Sublist l'.queue l.queue
  holders : ∀ r ∈ l'.holders, r ∈ l.holders ∨ ∃ w ∈ l.queue, r.agent = w.agent ∧ r.mode = w.mode ∧ r.depth = 1 ∧
    r.deadline = formDeadline now lease

namespace LockEntry.Derives

variable {lease : BitVec 12} {now : Word} {l m n : LockEntry}

theorem refl (l : LockEntry) : l.Derives lease now l := ⟨rfl, List.Sublist.refl _, fun _ h => Or.inl h⟩

theorem trans (h : l.Derives lease now m) (h' : m.Derives lease now n) : l.Derives lease now n := by
  refine ⟨h'.cls.trans h.cls, h'.queue.trans h.queue, fun r hr => ?_⟩
  rcases h'.holders r hr with hr | ⟨w, hw, hr⟩
  · exact h.holders r hr
  · exact Or.inr ⟨w, h.queue.subset hw, hr⟩

theorem part (hc : m.cls = l.cls) (hq : List.Sublist m.queue l.queue) (hh : List.Sublist m.holders l.holders) :
    l.Derives lease now m := ⟨hc, hq, fun _ hr => Or.inl (hh.subset hr)⟩

end LockEntry.Derives

theorem grantEval_derives (s : State) (k : LockId) :
    (s.lock k).Derives (s.lockClass k).lease s.units ((s.grantEval k).lock k) := by
  rw [grantEval_lock_self]
  have h := grantEval_evaluated s k
  exact ⟨h.cls, h.queue_suffix.sublist, h.holders⟩

/-- Grant evaluation after lock `k` was written with an entry of the same class. -/
theorem grantEval_setLock_derives (s : State) (k : LockId) (l : LockEntry) (hc : l.cls = (s.lock k).cls) :
    l.Derives (s.lockClass k).lease s.units (((s.setLock k l).grantEval k).lock k) := by
  have h := grantEval_derives (s.setLock k l) k
  rw [lock_setLock_self] at h
  have hl : (s.setLock k l).lockClass k = s.lockClass k := by
    simp only [lockClass_eq, lock_setLock_self, setLock_cls, hc]
  rw [hl] at h
  exact h

theorem departure_derives (s : State) (k : LockId) :
    (s.lock k).Derives (s.lockClass k).lease s.units ((s.departure k).lock k) := by
  have hfree : (s.lock k).Derives (s.lockClass k).lease s.units { s.lock k with state := .free } :=
    .part rfl (List.Sublist.refl _) (List.Sublist.refl _)
  rw [departure_eq]
  split
  all_goals first
    | exact .refl _
    | (split
       · first
         | exact hfree.trans (grantEval_setLock_derives s k { s.lock k with state := .free } rfl)
         | (rw [setClass_lock, lock_setLock_self]
            exact .part rfl (List.Sublist.refl _) (List.Sublist.refl _))
       · first
         | exact grantEval_derives s k
         | exact .refl _)

/-- Holder departure after lock `k` was written with an entry of the same class and agents were told. -/
theorem departure_setLock_derives (s u : State) (k : LockId) (l : LockEntry) (hu : Touches k s u) (hl : u.lock k = l)
    (hc : l.cls = (s.lock k).cls) : l.Derives (s.lockClass k).lease s.units ((u.departure k).lock k) := by
  have h := departure_derives u k
  have hcl : u.lockClass k = s.lockClass k := by
    simp only [lockClass_eq, hl, hc, hu.desc]
  rw [hl, hcl, hu.units] at h
  exact h

theorem removeWaiters_derives (s : State) (k : LockId) (p : WaitEntry → Bool) :
    (s.lock k).Derives (s.lockClass k).lease s.units ((s.removeWaiters k p).lock k) := by
  have h0 : (s.lock k).Derives (s.lockClass k).lease s.units
      { s.lock k with queue := (s.lock k).queue.filter (fun w => !p w) } :=
    .part rfl List.filter_sublist (List.Sublist.refl _)
  rw [removeWaiters_eq]
  split
  · exact h0.trans (grantEval_setLock_derives s k _ rfl)
  · rw [lock_setLock_self]; exact h0

theorem loseHolder_derives (s : State) (k : LockId) (a : AgentId) (n : Option Notice) :
    (s.lock k).Derives (s.lockClass k).lease s.units ((s.loseHolder k a n).lock k) := by
  have h0 : (s.lock k).Derives (s.lockClass k).lease s.units { (s.lock k).dropHolder a with marker := true } :=
    .part rfl (List.Sublist.refl _) List.filter_sublist
  rw [loseHolder_eq]
  cases n with
  | none => exact h0.trans (departure_setLock_derives s _ k _ (.setLock s _) (lock_setLock_self s k _) rfl)
  | some n =>
    refine h0.trans (departure_setLock_derives s _ k _ ((Touches.setLock s _).trans (.setAgent _ _ _)) ?_ rfl)
    rw [notify_lock, lock_setLock_self]

theorem detachVisit_derives (s : State) (k : LockId) (a : AgentId) :
    (s.lock k).Derives (s.lockClass k).lease s.units ((s.detachVisit a k).lock k) := by
  unfold State.detachVisit
  split
  · exact .refl _
  split
  · exact loseHolder_derives s k a none
  split
  · exact removeWaiters_derives s k _
  · exact .refl _

theorem clearVisit_derives (s : State) (k : LockId) :
    (s.lock k).Derives (s.lockClass k).lease s.units ((s.clearVisit k).lock k) := by
  by_cases hc : (s.lock k).state = .closed
  · unfold State.clearVisit
    rw [if_pos hc]
    exact .refl _
  · rw [clearVisit_lock_self s k hc]
    exact .part rfl (List.nil_sublist _) (List.nil_sublist _)

/-- What an effect at a lock makes of its records: nothing new but by the four commands that say so. -/
inductive LockChange (s : State) (k : LockId) (l' : LockEntry) : Prop where
  | derived (h : (s.lock k).Derives (s.lockClass k).lease s.units l')
  | modified (a : AgentId) (f : HolderRecord → HolderRecord) (he : l' = (s.lock k).modHolder a f)
      (hf : ∀ r, (f r).agent = r.agent ∧ (f r).mode = r.mode)
      (hd : (s.lockClass k).recursionAllowed = true ∨ ∀ r, (f r).depth ≤ r.depth)
      (hl : ∀ r, (f r).deadline = r.deadline ∨
        ((s.lockClass k).lease ≠ 0 ∧ (f r).deadline = formDeadline s.units (s.lockClass k).lease))
      (ht : ∀ r, (f r).ticket = r.ticket)
  | granted (a : AgentId) (m : Mode) (h : s.Contends a k m)
      (he : l' = (s.lock k).grant a m (s.lockClass k).lease s.units)
      (hg : (s.lock k).grantableAtOnce m = true)
  | queued (a : AgentId) (w : WaitEntry) (h : s.Contends a k w.mode) (ha : w.agent = a)
      (he : l' = { s.lock k with queue := (s.lock k).queue ++ [w] }) (hn : s.freeEntry = some w.num)
      (hd : ∃ len, w.deadline = formDeadline s.units len) (hl : (s.lockClass k).cap ≠ 0 → w.deadline.isSome)
  | opened (c : ClassId) (m : Bool) (hs : (s.lock k).state = .closed) (hc : s.clearOutstanding = false)
      (he : l' = { s.lock k with state := .free, cls := c, marker := m })

theorem LockEffect.change (h : LockEffect s k t) : LockChange s k (t.lock k) := by
  cases h with
  | deepen a r h hd hr =>
    rw [lock_setLock_self]
    exact .modified a _ rfl (fun _ => ⟨rfl, rfl⟩) (Or.inl hr) (fun _ => Or.inl rfl) (fun _ => rfl)
  | grant a m h hg hc =>
    simp only [modAgent_eq, setAgent_lock, lock_setLock_self]
    exact .granted a m h rfl hg
  | queue a w h ha hg hc hn hd hl =>
    simp only [modAgent_eq, setAgent_lock, lock_setLock_self]
    exact .queued a w h ha rfl hn hd hl
  | lower a r h hd =>
    rw [lock_setLock_self]
    exact .modified a _ rfl (fun _ => ⟨rfl, rfl⟩) (Or.inr fun _ => Nat.sub_le _ _) (fun _ => Or.inl rfl) (fun _ => rfl)
  | giveBack a r ha h =>
    refine .derived (LockEntry.Derives.trans ?_ (departure_setLock_derives s _ k _
      ((Touches.setLock s _).trans (.setAgent _ _ _)) (lock_setLock_self s k _) rfl))
    exact .part rfl (List.Sublist.refl _) List.filter_sublist
  | renew a r h hl =>
    rw [lock_setLock_self]
    exact .modified a _ rfl (fun _ => ⟨rfl, rfl⟩) (Or.inr fun _ => le_refl _) (fun _ => Or.inr ⟨hl, rfl⟩) (fun _ => rfl)
  | withdraw a ha hw => exact .derived (removeWaiters_derives (s.modAgent a (AgentEntry.regain 2)) k _)
  | openLock c m hc hs =>
    simp only [raiseUse_eq, setClass_lock, lock_setLock_self]
    exact .opened c m hs hc rfl
  | closeFree hs =>
    simp only [lowerUse_eq, setClass_lock, lock_setLock_self]
    exact .derived (.part rfl (List.Sublist.refl _) (List.Sublist.refl _))
  | drain m hs =>
    rw [State.drainLock, cancelQueue_lock_self, lock_setLock_self]
    exact .derived (.part rfl (List.nil_sublist _) (List.Sublist.refl _))
  | lose a r h n => exact .derived (loseHolder_derives s k a _)
  | revokeEvery h =>
    refine .derived (LockEntry.Derives.trans ?_ (departure_setLock_derives s _ k _ (touches_revokeHolders s k)
      (revokeHolders_lock_self s k) rfl))
    exact .part rfl (List.Sublist.refl _) (List.nil_sublist _)
  | timeOut w h =>
    exact .derived (removeWaiters_derives ((s.notify w.agent _).modAgent w.agent (AgentEntry.regain 1)) k _)

/-! ## The class of a lock -/

/-- Every holder record and wait entry of lock `k` fits its class (R97). -/
def State.FitsAt (s : State) (k : LockId) : Prop :=
  (∀ r ∈ (s.lock k).holders, r.Fits (s.lockClass k)) ∧ ∀ w ∈ (s.lock k).queue, w.Fits (s.lockClass k)

theorem Derives.fits {c : ClassDesc} {now : Word} {l l' : LockEntry} (h : l.Derives c.lease now l')
    (hh : ∀ r ∈ l.holders, r.Fits c) (hq : ∀ w ∈ l.queue, w.Fits c) :
    (∀ r ∈ l'.holders, r.Fits c) ∧ ∀ w ∈ l'.queue, w.Fits c := by
  refine ⟨fun r hr => ?_, fun w hw => hq w (h.queue.subset hw)⟩
  rcases h.holders r hr with hr | ⟨w, hw, h1, h2, h3, h4⟩
  · exact hh r hr
  · have := hq w hw
    refine ⟨by rw [h1]; exact this.1, by rw [h2]; exact this.2.1, fun _ => by rw [h3], ?_⟩
    rw [h4]
    exact formDeadline_isSome _ _

theorem LockChange.lockClass (h : LockChange s k (t.lock k)) (ht : Touches k s t) :
    (∃ c m, t.lock k = { s.lock k with state := .free, cls := c, marker := m }) ∨ t.lockClass k = s.lockClass k := by
  have hcls : (t.lock k).cls = (s.lock k).cls → t.lockClass k = s.lockClass k := by
    intro hc
    simp only [lockClass_eq, hc, ht.desc]
  cases h with
  | derived h => exact Or.inr (hcls h.cls)
  | modified a f he => exact Or.inr (hcls (by rw [he]; rfl))
  | granted a m h he => exact Or.inr (hcls (by rw [he]; rfl))
  | queued a w h ha he => exact Or.inr (hcls (by rw [he]))
  | opened c m hs hc he => exact Or.inl ⟨c, m, he⟩

theorem LockEffect.fits (h : LockEffect s k t) (hs : (s.lock k).Sound) (hf : s.FitsAt k) : t.FitsAt k := by
  have hch := h.change
  have hcl := hch.lockClass h.touches
  unfold State.FitsAt
  cases hch with
  | opened c m hc ho he =>
    obtain ⟨h1, h2, _⟩ := hs.closed hc
    rw [he]
    simp [h1, h2]
  | derived hd =>
    rcases hcl with ⟨c, m, he⟩ | hcl
    · have hp := h.sound hs
      have := hp.agrees
      unfold LockEntry.Agrees at this
      rw [he] at this ⊢
      simp only at this
      simp [this.1, this.2.1]
    · rw [hcl]
      exact Derives.fits hd hf.1 hf.2
  | modified a f he hf' hd hl =>
    rcases hcl with ⟨c, m, he'⟩ | hcl
    · have hp := h.sound hs
      have := hp.agrees
      unfold LockEntry.Agrees at this
      rw [he'] at this ⊢
      simp only at this
      simp [this.1, this.2.1]
    · rw [hcl, he]
      refine ⟨fun r hr => ?_, hf.2⟩
      obtain ⟨q, hq, rfl⟩ := List.mem_map.1 hr
      have hq' := hf.1 q hq
      split
      · refine ⟨by rw [(hf' q).1]; exact hq'.1, by rw [(hf' q).2]; exact hq'.2.1, fun hr => ?_, ?_⟩
        · rcases hd with hd | hd
          · rw [hd] at hr; cases hr
          · exact le_trans (hd q) (hq'.2.2.1 hr)
        · rcases hl q with hl | ⟨hl, hl'⟩
          · rw [hl]; exact hq'.2.2.2
          · rw [hl']; exact formDeadline_isSome _ _
      · exact hq'
  | granted a m hc he hg =>
    have hcl' : t.lockClass k = s.lockClass k := by
      simp only [lockClass_eq, he, h.touches.desc]
      rfl
    rw [hcl', he]
    refine ⟨fun r hr => ?_, hf.2⟩
    rcases List.mem_append.1 hr with hr | hr
    · exact hf.1 r hr
    · rw [List.mem_singleton] at hr
      subst hr
      exact ⟨hc.member, hc.mode, fun _ => le_refl 1, formDeadline_isSome _ _⟩
  | queued a w hc ha he hn hd hl =>
    have hcl' : t.lockClass k = s.lockClass k := by
      simp only [lockClass_eq, he, h.touches.desc]
    rw [hcl', he]
    refine ⟨hf.1, fun x hx => ?_⟩
    rcases List.mem_append.1 hx with hx | hx
    · exact hf.2 x hx
    · rw [List.mem_singleton] at hx
      subst hx
      exact ⟨by rw [ha]; exact hc.member, hc.mode, hl⟩

/-! ## Deadlines -/

/-- Every deadline at lock `k` lies at most 4095 advances ahead (R141). -/
def State.NearAt (s : State) (k : LockId) : Prop :=
  (∀ r ∈ (s.lock k).holders, deadlineNear s.units r.deadline) ∧
    ∀ w ∈ (s.lock k).queue, deadlineNear s.units w.deadline

theorem Derives.near {lease : BitVec 12} {now : Word} {l l' : LockEntry} (h : l.Derives lease now l')
    (hh : ∀ r ∈ l.holders, deadlineNear now r.deadline) (hq : ∀ w ∈ l.queue, deadlineNear now w.deadline) :
    (∀ r ∈ l'.holders, deadlineNear now r.deadline) ∧ ∀ w ∈ l'.queue, deadlineNear now w.deadline := by
  refine ⟨fun r hr => ?_, fun w hw => hq w (h.queue.subset hw)⟩
  rcases h.holders r hr with hr | ⟨w, _, _, _, _, h4⟩
  · exact hh r hr
  · rw [h4]
    exact deadlineNear_formDeadline _ _

theorem LockEffect.near (h : LockEffect s k t) (hs : s.NearAt k) : t.NearAt k := by
  unfold State.NearAt
  rw [h.touches.units]
  have hch := h.change
  cases hch with
  | derived hd => exact Derives.near hd hs.1 hs.2
  | modified a f he hf hd hl =>
    rw [he]
    refine ⟨fun r hr => ?_, hs.2⟩
    obtain ⟨q, hq, rfl⟩ := List.mem_map.1 hr
    split
    · rcases hl q with hl | ⟨_, hl⟩
      · rw [hl]; exact hs.1 q hq
      · rw [hl]; exact deadlineNear_formDeadline _ _
    · exact hs.1 q hq
  | granted a m hc he =>
    rw [he]
    refine ⟨fun r hr => ?_, hs.2⟩
    rcases List.mem_append.1 hr with hr | hr
    · exact hs.1 r hr
    · rw [List.mem_singleton] at hr
      rw [hr]
      exact deadlineNear_formDeadline _ _
  | queued a w hc ha he hn hd =>
    rw [he]
    refine ⟨hs.1, fun x hx => ?_⟩
    rcases List.mem_append.1 hx with hx | hx
    · exact hs.2 x hx
    · rw [List.mem_singleton] at hx
      obtain ⟨len, hd⟩ := hd
      rw [hx, hd]
      exact deadlineNear_formDeadline _ _
  | opened c m hc ho he =>
    rw [he]
    exact hs

/-- An advance brings every deadline one nearer, once none is due (R141, R142). -/
theorem deadlineNear_advance {now : Word} {d : Option Word} (h : deadlineNear now d) (hd : deadlineDue now d = false) :
    deadlineNear (now + 1) d := by
  cases d with
  | none => trivial
  | some x =>
    unfold deadlineNear at h ⊢
    simp only at h ⊢
    unfold deadlineDue at hd
    have hne : x ≠ now := by simpa using hd
    have hne' : x - now ≠ 0 := by
      intro h0
      apply hne
      have := BitVec.sub_add_cancel x now
      rw [h0] at this
      exact this.symm.trans (BitVec.zero_add now)
    have heq : x - (now + 1) = x - now - 1 := by
      rw [BitVec.sub_eq_add_neg, BitVec.sub_eq_add_neg x now, BitVec.sub_eq_add_neg _ 1, BitVec.neg_add,
        BitVec.sub_eq_add_neg, BitVec.add_assoc]
    rw [heq]
    have hpos : 0 < (x - now).toNat := by
      rcases Nat.eq_zero_or_pos (x - now).toNat with h0 | h0
      · exact absurd (BitVec.eq_of_toNat_eq (by simpa using h0)) hne'
      · exact h0
    have h1 : (1 : Word).toNat = 1 := rfl
    rw [BitVec.toNat_sub, h1]
    have := (x - now).isLt
    omega

/-! ## Newcomers, and locks that stay closed -/

theorem Derives.parties {lease : BitVec 12} {now : Word} {l l' : LockEntry} (h : l.Derives lease now l') (b : AgentId)
    (hb : b ∈ l'.parties) : b ∈ l.parties := by
  rcases List.mem_append.1 hb with hb | hb
  · obtain ⟨r, hr, rfl⟩ := List.mem_map.1 hb
    rcases h.holders r hr with hr | ⟨w, hw, h1, _⟩
    · exact List.mem_append_left _ (List.mem_map_of_mem hr)
    · rw [h1]; exact List.mem_append_right _ (List.mem_map_of_mem hw)
  · obtain ⟨w, hw, rfl⟩ := List.mem_map.1 hb
    exact List.mem_append_right _ (List.mem_map_of_mem (h.queue.subset hw))

/-- Only an ATTACHED agent comes to a lock (R31). -/
theorem LockEffect.noTrace (h : LockEffect s k t) {b : AgentId} (hb : (s.agent b).status ≠ .attached)
    (hn : s.NoTrace b k) : t.NoTrace b k := by
  rw [noTrace_iff] at hn ⊢
  intro hm
  have hch := h.change
  cases hch with
  | derived hd => exact hn (Derives.parties hd b hm)
  | modified a f he hf =>
    rw [he] at hm
    rcases List.mem_append.1 hm with hm | hm
    · obtain ⟨r, hr, rfl⟩ := List.mem_map.1 hm
      obtain ⟨q, hq, rfl⟩ := List.mem_map.1 hr
      apply hn
      refine List.mem_append_left _ (List.mem_map.2 ⟨q, hq, ?_⟩)
      split
      · exact (hf q).1.symm
      · rfl
    · exact hn (List.mem_append_right _ hm)
  | granted a m hc he =>
    rw [he] at hm
    rcases List.mem_append.1 hm with hm | hm
    · obtain ⟨r, hr, rfl⟩ := List.mem_map.1 hm
      rcases List.mem_append.1 hr with hr | hr
      · exact hn (List.mem_append_left _ (List.mem_map_of_mem hr))
      · rw [List.mem_singleton] at hr
        rw [hr] at hb
        exact hb hc.attached
    · exact hn (List.mem_append_right _ hm)
  | queued a w hc ha he =>
    rw [he] at hm
    rcases List.mem_append.1 hm with hm | hm
    · exact hn (List.mem_append_left _ hm)
    · obtain ⟨x, hx, rfl⟩ := List.mem_map.1 hm
      rcases List.mem_append.1 hx with hx | hx
      · exact hn (List.mem_append_right _ (List.mem_map_of_mem hx))
      · rw [List.mem_singleton] at hx
        rw [hx, ha] at hb
        exact hb hc.attached
  | opened c m hc ho he =>
    rw [he] at hm
    exact hn hm

/-- Holder departure of a closed lock does nothing. -/
theorem departure_closed (h : (s.lock k).state = .closed) : s.departure k = s := by
  rw [departure_eq, h]

theorem removeWaiters_closed (p : WaitEntry → Bool) (h : (s.lock k).state = .closed) (hs : (s.lock k).queue = []) :
    ((s.removeWaiters k p).lock k).state = .closed := by
  rw [removeWaiters_eq]
  split
  · rename_i hp
    simp [LockEntry.headIs, hs] at hp
  · rw [lock_setLock_self]; exact h

/-- While a clear sweep is outstanding a CLOSED lock stays CLOSED (R13). -/
theorem LockEffect.closed (h : LockEffect s k t) (hs : (s.lock k).Sound) (ho : s.clearOutstanding = true)
    (hc : (s.lock k).state = .closed) : (t.lock k).state = .closed := by
  obtain ⟨h1, h2, _⟩ := hs.closed hc
  cases h with
  | deepen a r h => simp [State.Finds, LockEntry.holderOf, h1] at h
  | grant a m h => exact absurd hc h.inService.1
  | queue a w h => exact absurd hc h.inService.1
  | lower a r h => simp [State.Finds, LockEntry.holderOf, h1] at h
  | giveBack a r ha h => simp [State.Finds, LockEntry.holderOf, h1] at h
  | renew a r h => simp [State.Finds, LockEntry.holderOf, h1] at h
  | withdraw a ha hw => simp [LockEntry.waiterOf, h2] at hw
  | openLock c m hc' => rw [ho] at hc'; cases hc'
  | closeFree hs => rw [hc] at hs; cases hs
  | drain m hs => rw [hc] at hs; cases m <;> cases hs
  | lose a r h => simp [State.Finds, LockEntry.holderOf, h1] at h
  | revokeEvery h => exact absurd h1 h
  | timeOut w h =>
    have := (poolEntry_mem h).1
    rw [h2] at this
    cases this

/-! ## Use counts -/

/-- 1 for a lock that counts towards class `c`, else 0 (R98). -/
def LockEntry.counts (c : ClassId) (l : LockEntry) : Nat :=
  if l.state ≠ .closed ∧ l.cls = c then 1 else 0

theorem useCount_total (s : State) (c : ClassId) :
    (allLocks.filter (s.usesClass c)).length = s.total (LockEntry.counts c) := by
  rw [length_filter_eq_sum]
  unfold State.total
  congr 2
  funext k
  simp [State.usesClass, LockEntry.counts]

/-- The use counts and what lock `k` counts changed together (R98). -/
structure Accounts (k : LockId) (s t : State) : Prop where
  account : ∀ c, (s.lock k).counts c ≤ (s.cls c).useCount →
    (t.cls c).useCount + (s.lock k).counts c = (s.cls c).useCount + (t.lock k).counts c

theorem Accounts.of_same (hc : ∀ c, (t.cls c).useCount = (s.cls c).useCount)
    (hl : ∀ c, (t.lock k).counts c = (s.lock k).counts c) : Accounts k s t :=
  ⟨fun c _ => by rw [hc, hl]⟩

theorem counts_congr {l l' : LockEntry} (hs : l'.state = .closed ↔ l.state = .closed) (hc : l'.cls = l.cls)
    (c : ClassId) : l'.counts c = l.counts c := by
  unfold LockEntry.counts
  rw [hc]
  by_cases h : l.state = .closed
  · simp [h, hs.2 h]
  · simp [h, mt hs.1 h]

theorem grantEval_counts (h : (s.lock k).Evaluable) (c : ClassId) :
    ((s.grantEval k).lock k).counts c = (s.lock k).counts c := by
  rw [grantEval_lock_self]
  have he := grantEval_evaluated s k
  exact counts_congr (he.closed_iff h) he.cls c

/-- Use count of a class after a write of class `d`'s use count. -/
theorem useCount_setClass (s : State) (c d : ClassId) (n : Nat) :
    ((s.setClass d { s.cls d with useCount := n }).cls c).useCount = if c = d then n else (s.cls c).useCount := by
  rw [cls_setClass]
  split <;> rfl

theorem departure_accounts (h : (s.lock k).Departing) : Accounts k s (s.departure k) := by
  have hs := h.state
  rw [departure_eq]
  cases hst : (s.lock k).state <;> rw [hst] at hs <;> dsimp only at hs ⊢
  · exact .of_same (fun _ => rfl) (fun _ => rfl)
  · exact .of_same (fun _ => rfl) (fun _ => rfl)
  · split
    · rename_i hn
      refine .of_same (fun c => by rw [grantEval_cls]; rfl) (fun c => ?_)
      rw [grantEval_counts, lock_setLock_self]
      · refine counts_congr ?_ ?_ c
        · simp [hst]
        · rfl
      · rw [lock_setLock_self]; exact ⟨⟨hn, hs.2.2⟩, h.onePlace, h.depths⟩
    · rename_i hn
      have hpos := List.length_pos_iff.2 hn
      refine .of_same (fun c => by rw [grantEval_cls]) (fun c => grantEval_counts ?_ c)
      exact ⟨by rw [hst]; exact ⟨by omega, hs.2⟩, h.onePlace, h.depths⟩
  · split
    · rename_i hn
      refine .of_same (fun c => by rw [grantEval_cls]; rfl) (fun c => ?_)
      rw [grantEval_counts, lock_setLock_self]
      · refine counts_congr ?_ ?_ c
        · simp [hst]
        · rfl
      · rw [lock_setLock_self]; exact ⟨⟨hn, hs.2⟩, h.onePlace, h.depths⟩
    · rename_i hn
      refine .of_same (fun c => by rw [grantEval_cls]) (fun c => grantEval_counts ?_ c)
      exact ⟨by rw [hst]; exact ⟨hn, hs⟩, h.onePlace, h.depths⟩
  · split
    · rename_i hn
      refine ⟨fun c hc => ?_⟩
      rw [cls_setClass, setClass_lock, lock_setLock_self]
      have h0 : ({ s.lock k with state := .closed, drain := none } : LockEntry).counts c = 0 := by
        simp [LockEntry.counts]
      rw [h0]
      by_cases he : c = (s.lock k).cls
      · subst he
        have h1 : (s.lock k).counts (s.lock k).cls = 1 := by simp [LockEntry.counts, hst]
        rw [h1] at hc ⊢
        rw [if_pos rfl]
        show (s.cls (s.lock k).cls).useCount - 1 + 1 = _
        omega
      · have h1 : (s.lock k).counts c = 0 := by simp [LockEntry.counts, Ne.symm he]
        rw [h1, if_neg he]
        rfl
    · exact .of_same (fun _ => rfl) (fun _ => rfl)

/-- Holder departure after a step that changed neither use counts nor what lock `k` counts. -/
theorem Accounts.departure {u : State} (hu : (u.lock k).Departing)
    (hc : ∀ c, (u.cls c).useCount = (s.cls c).useCount) (hl : ∀ c, (u.lock k).counts c = (s.lock k).counts c) :
    Accounts k s (u.departure k) := by
  have h := departure_accounts hu
  refine ⟨fun c hle => ?_⟩
  have := h.account c (by rw [hc, hl]; exact hle)
  rw [hc, hl] at this
  exact this

theorem removeWaiters_accounts (p : WaitEntry → Bool) (h : (s.lock k).Sound) : Accounts k s (s.removeWaiters k p) := by
  rw [removeWaiters_eq]
  split
  · refine .of_same (fun c => by rw [grantEval_cls]; rfl) (fun c => ?_)
    rw [grantEval_counts, lock_setLock_self]
    · exact counts_congr (by simp) rfl c
    · rw [lock_setLock_self]; exact (h.filterQueue p).1
  · refine .of_same (fun c => rfl) (fun c => ?_)
    rw [lock_setLock_self]
    exact counts_congr (by simp) rfl c

theorem loseHolder_accounts (a : AgentId) (n : Option Notice) (h : (s.lock k).Sound) :
    Accounts k s (s.loseHolder k a n) := by
  rw [loseHolder_eq]
  cases n with
  | none =>
    refine .departure ?_ (fun _ => rfl) (fun c => ?_)
    · rw [lock_setLock_self]; exact h.dropHolder a true
    · rw [lock_setLock_self]; exact counts_congr (by simp [LockEntry.dropHolder]) rfl c
  | some n =>
    refine .departure ?_ (fun _ => rfl) (fun c => ?_)
    · rw [notify_lock, lock_setLock_self]; exact h.dropHolder a true
    · rw [notify_lock, lock_setLock_self]; exact counts_congr (by simp [LockEntry.dropHolder]) rfl c

theorem detachVisit_accounts (a : AgentId) (h : (s.lock k).Sound) : Accounts k s (s.detachVisit a k) := by
  unfold State.detachVisit
  split
  · exact .of_same (fun _ => rfl) (fun _ => rfl)
  split
  · exact loseHolder_accounts a none h
  split
  · exact removeWaiters_accounts _ h
  · exact .of_same (fun _ => rfl) (fun _ => rfl)

/-- A lock that closes takes 1 from the use count of its class. -/
theorem Accounts.lower {u : State} {l : LockEntry} (hst : (s.lock k).state ≠ .closed)
    (hc : ∀ c, u.cls c = s.cls c) (hl : u.lock k = l) (h0 : l.state = .closed) :
    Accounts k s (u.lowerUse (s.lock k).cls) := by
  refine ⟨fun c hle => ?_⟩
  have h1 : (u.lowerUse (s.lock k).cls).lock k = l := hl
  have h2 : l.counts c = 0 := by simp [LockEntry.counts, h0]
  rw [h1, h2, lowerUse_eq, useCount_setClass, hc, hc]
  by_cases he : c = (s.lock k).cls
  · subst he
    have h3 : (s.lock k).counts (s.lock k).cls = 1 := by simp [LockEntry.counts, hst]
    rw [h3] at hle ⊢
    rw [if_pos rfl]
    omega
  · have h3 : (s.lock k).counts c = 0 := by simp [LockEntry.counts, Ne.symm he]
    rw [h3, if_neg he]

theorem clearVisit_accounts (s : State) (k : LockId) : Accounts k s (s.clearVisit k) := by
  unfold State.clearVisit
  split
  · exact .of_same (fun _ => rfl) (fun _ => rfl)
  · rename_i hst
    refine .lower hst (fun c => ?_) (lock_setLock_self _ k _) rfl
    simp only [State.cls, State.setLock, revokeHolders_classes, cancelQueue_classes]

/-- An effect at a lock keeps use counts in step with it (R98). -/
theorem LockEffect.accounts (h : LockEffect s k t) (hs : (s.lock k).Sound) : Accounts k s t := by
  cases h with
  | deepen =>
    refine .of_same (fun _ => rfl) (fun c => ?_)
    rw [lock_setLock_self]
    exact counts_congr Iff.rfl rfl c
  | grant a m h hg =>
    refine .of_same (fun _ => rfl) (fun c => ?_)
    simp only [modAgent_eq, setAgent_lock, lock_setLock_self]
    refine counts_congr ?_ ?_ c
    · constructor
      · intro h0; cases m <;> simp [LockEntry.grant] at h0
      · intro h0; exact absurd h0 h.inService.1
    · rfl
  | queue =>
    refine .of_same (fun _ => rfl) (fun c => ?_)
    simp only [modAgent_eq, setAgent_lock, lock_setLock_self]
    exact counts_congr Iff.rfl rfl c
  | lower =>
    refine .of_same (fun _ => rfl) (fun c => ?_)
    rw [lock_setLock_self]
    exact counts_congr Iff.rfl rfl c
  | giveBack a r =>
    refine .departure ?_ (fun _ => rfl) (fun c => ?_)
    · simp only [modAgent_eq, setAgent_lock, lock_setLock_self]; exact hs.dropHolder a _
    · simp only [modAgent_eq, setAgent_lock, lock_setLock_self]; exact counts_congr (by simp [LockEntry.dropHolder]) rfl c
  | renew =>
    refine .of_same (fun _ => rfl) (fun c => ?_)
    rw [lock_setLock_self]
    exact counts_congr Iff.rfl rfl c
  | withdraw a =>
    exact ⟨(removeWaiters_accounts (s := s.modAgent a (AgentEntry.regain 2)) (fun w => w.agent == a) hs).account⟩
  | openLock c m hc hst =>
    refine ⟨fun d _ => ?_⟩
    have h0 : (s.lock k).counts d = 0 := by simp [LockEntry.counts, hst]
    rw [h0]
    simp only [raiseUse_eq, setClass_lock, lock_setLock_self, cls_setClass, setLock_cls]
    unfold LockEntry.counts
    dsimp only
    by_cases he : d = c
    · subst he
      simp
    · simp [he, Ne.symm he]
  | closeFree hst => exact .lower (by simp [hst]) (fun _ => rfl) (lock_setLock_self s k _) rfl
  | drain m hst =>
    refine .of_same (fun c => ?_) (fun c => ?_)
    · simp only [State.cls, State.drainLock, cancelQueue_classes]; rfl
    · rw [State.drainLock, cancelQueue_lock_self, lock_setLock_self]
      refine counts_congr ?_ ?_ c
      · cases m <;> simp [hst]
      · rfl
  | lose a r h n => exact loseHolder_accounts a _ hs
  | revokeEvery h =>
    refine .departure ?_ (fun c => ?_) (fun c => ?_)
    · rw [revokeHolders_lock_self]; exact hs.departing [] _ (List.nil_sublist _)
    · simp only [State.cls, revokeHolders_classes]
    · rw [revokeHolders_lock_self]; exact counts_congr (by simp) rfl c
  | timeOut w =>
    exact ⟨(removeWaiters_accounts (s := (s.notify w.agent (.timedOut k w.mode w.tag (stamp s.units))).modAgent w.agent
      (AgentEntry.regain 1)) (fun x => x.num == w.num) hs).account⟩

end Sys2Proof.Machine
end

