-- ==== Sys2Proof/Laws/Balance.lean ====
section
/-! SUPPORT. What effects at a lock keep beyond the lock itself: the balance of credits, notices, waits and holdings
(R121), the wait pool (R53), and the ticket of an EXCLUSIVE holder (R172). -/
namespace Sys2Proof.Machine

variable {s t : State} {k : LockId}

/-! ## Stakes -/

theorem countP_filter_ne {α : Type} (agent : α → AgentId) (q : List α) (a b : AgentId) :
    (q.filter fun w => agent w != a).countP (fun w => agent w == b) =
      if b = a then 0 else q.countP (fun w => agent w == b) := by
  rw [List.countP_filter]
  split
  · rename_i h
    rw [List.countP_eq_zero]
    intro w _
    simp [h]
  · rename_i h
    apply List.countP_congr
    intro w _
    simp only [Bool.and_eq_true, beq_iff_eq, bne_iff_ne, ne_eq, and_iff_left_iff_imp]
    intro hw ha
    exact h (hw.symm.trans ha)

theorem countP_eq_one {α : Type} (agent : α → AgentId) (q : List α) (hn : (q.map agent).Nodup) {x : α} (hx : x ∈ q) :
    q.countP (fun w => agent w == agent x) = 1 := by
  have := (filter_agent_eq agent q hn (agent x)).1 x hx rfl
  rw [List.countP_eq_length_filter]
  simp only [beq_eq_decide, this, List.length_singleton]

namespace LockEntry

variable {l : LockEntry}

theorem stake_dropHolder (hd : l.OnePlaceEach) {a : AgentId} {r : HolderRecord} (h : l.holderOf a = some r)
    (b : AgentId) (m : Bool) :
    ({ l.dropHolder a with marker := m } : LockEntry).stake b + (if b = a then 1 else 0) = l.stake b := by
  obtain ⟨hr, ha⟩ := l.holderOf_mem a h
  have h1 := countP_filter_ne HolderRecord.agent l.holders a b
  unfold stake dropHolder
  simp only [h1]
  split
  · rename_i hb
    have := countP_eq_one HolderRecord.agent l.holders (List.nodup_append.1 hd).1 hr
    rw [ha] at this
    rw [hb, this]
  · rfl

theorem stake_dropOther {a b : AgentId} (h : b ≠ a) (m : Bool) :
    ({ l.dropHolder a with marker := m } : LockEntry).stake b = l.stake b := by
  have h1 := countP_filter_ne HolderRecord.agent l.holders a b
  unfold stake dropHolder
  simp only [h1, if_neg h]

theorem stake_dropWaiter (hd : l.OnePlaceEach) {a : AgentId} (h : (l.waiterOf a).isSome = true) (b : AgentId) :
    ({ l with queue := l.queue.filter fun w => !(w.agent == a) } : LockEntry).stake b + (if b = a then 2 else 0) =
      l.stake b := by
  obtain ⟨w, hw, ha⟩ := (l.waiterOf_isSome a).1 h
  have h1 := countP_filter_ne WaitEntry.agent l.queue a b
  have h2 : (fun w : WaitEntry => !(w.agent == a)) = fun w => w.agent != a := rfl
  unfold stake
  simp only [h2, h1]
  split
  · rename_i hb
    have := countP_eq_one WaitEntry.agent l.queue (List.nodup_append.1 hd).2.1 hw
    rw [ha] at this
    rw [hb, this]
    omega
  · rfl

theorem stake_dropOtherWaiter {a b : AgentId} (h : b ≠ a) :
    ({ l with queue := l.queue.filter fun w => !(w.agent == a) } : LockEntry).stake b = l.stake b := by
  have h1 := countP_filter_ne WaitEntry.agent l.queue a b
  have h2 : (fun w : WaitEntry => !(w.agent == a)) = fun w => w.agent != a := rfl
  unfold stake
  simp only [h2, h1, if_neg h]

/-- Taking one entry out of a queue by its number takes out that entry alone. -/
theorem stake_dropNumber (hn : (l.queue.map WaitEntry.num).Nodup) {w : WaitEntry} (hw : w ∈ l.queue) (b : AgentId) :
    ({ l with queue := l.queue.filter fun x => !(x.num == w.num) } : LockEntry).stake b +
      (if b = w.agent then 2 else 0) = l.stake b := by
  have key : ∀ q : List WaitEntry, (q.map WaitEntry.num).Nodup → w ∈ q →
      (q.filter fun x => !(x.num == w.num)).countP (fun x => x.agent == b) + (if b = w.agent then 1 else 0) =
        q.countP (fun x => x.agent == b) := by
    intro q
    induction q with
    | nil => intro _ h; cases h
    | cons x q ih =>
      intro hn hm
      rw [List.map_cons, List.nodup_cons] at hn
      rcases List.mem_cons.1 hm with rfl | hm
      · have hf : q.filter (fun x => !(x.num == w.num)) = q := by
          rw [List.filter_eq_self]
          intro y hy
          have : y.num ≠ w.num := fun h => hn.1 (List.mem_map.2 ⟨y, hy, h⟩)
          simpa using this
        rw [List.filter_cons_of_neg (by simp), hf, List.countP_cons]
        congr 1
        by_cases hb : b = w.agent
        · simp [hb]
        · simp [hb, Ne.symm hb]
      · have hx : x.num ≠ w.num := fun h => hn.1 (h ▸ List.mem_map_of_mem hm)
        rw [List.filter_cons_of_pos (by simpa using hx), List.countP_cons, List.countP_cons, ← ih hn.2 hm]
        omega
  have := key l.queue hn hw
  unfold stake
  split at this
  · rename_i hb; rw [if_pos hb]; simp only; omega
  · rename_i hb; rw [if_neg hb]; simp only; omega

theorem stake_modHolder (a b : AgentId) (f : HolderRecord → HolderRecord) (hf : ∀ r, (f r).agent = r.agent) :
    (l.modHolder a f).stake b = l.stake b := by
  unfold stake modHolder
  simp only [List.countP_map]
  congr 1
  apply List.countP_congr
  intro r _
  simp only [Function.comp]
  split
  · rw [hf]
  · rfl

end LockEntry

theorem pay_assets (e : AgentEntry) (c : Nat) (h : c ≤ e.credits) : (e.pay c).assets + c = e.assets := by
  unfold AgentEntry.assets AgentEntry.pay
  dsimp only
  omega

/-- An effect at a lock where no agent has two places balances for every ATTACHED agent (R121). -/
theorem LockEffect.balance (h : LockEffect s k t) (hs : (s.lock k).OnePlaceEach)
    (hn : ((s.lock k).queue.map WaitEntry.num).Nodup) (b : AgentId) (hb : (s.agent b).status = .attached) :
    (t.agent b).assets + (t.lock k).stake b = (s.agent b).assets + (s.lock k).stake b := by
  cases h with
  | deepen a =>
    rw [lock_setLock_self, LockEntry.stake_modHolder a b (fun r => { r with depth := r.depth + 1 }) fun _ => rfl]
    rfl
  | grant a m h hg hc =>
    simp only [modAgent_eq, setAgent_lock, lock_setLock_self, agent_setAgent, setLock_agent]
    have h1 : ((s.lock k).grant a m (s.lockClass k).lease s.units).stake b =
        (s.lock k).stake b + if a = b then 1 else 0 := by
      simp only [LockEntry.stake, LockEntry.grant, List.countP_append, List.countP_singleton, beq_iff_eq]
      omega
    rw [h1]
    split
    · rename_i hba
      subst hba
      have := pay_assets (s.agent b) 1 hc
      rw [if_pos rfl]
      omega
    · rename_i hba
      rw [if_neg (Ne.symm hba)]
      rfl
  | queue a w h ha hg hc =>
    simp only [modAgent_eq, setAgent_lock, lock_setLock_self, agent_setAgent, setLock_agent]
    have h1 : ({ s.lock k with queue := (s.lock k).queue ++ [w] } : LockEntry).stake b =
        (s.lock k).stake b + if a = b then 2 else 0 := by
      simp only [LockEntry.stake, List.countP_append, List.countP_singleton, beq_iff_eq, ha]
      split <;> omega
    rw [h1]
    split
    · rename_i hba
      subst hba
      have := pay_assets (s.agent b) 2 hc
      rw [if_pos rfl]
      omega
    · rename_i hba
      rw [if_neg (Ne.symm hba)]
      rfl
  | lower a =>
    rw [lock_setLock_self, LockEntry.stake_modHolder a b (fun r => { r with depth := r.depth - 1 }) fun _ => rfl]
    rfl
  | giveBack a r ha h =>
    unfold State.giveBack
    have hst : ∀ m : Bool, (((s.setLock k { (s.lock k).dropHolder a with marker := m }).modAgent a
        (AgentEntry.regain 1)).agent b).status = .attached := by
      intro m
      simp only [modAgent_eq, agent_setAgent, setLock_agent]
      split
      · rw [AgentEntry.regain_status]; exact ha
      · exact hb
    dsimp only
    rw [departure_balance _ k b (hst _)]
    simp only [modAgent_eq, setAgent_lock, lock_setLock_self, agent_setAgent, setLock_agent]
    have h1 := LockEntry.stake_dropHolder hs h b
      (markerAfterRelease (s.lock k).marker (releaseClean (s.agent a).arg0) r)
    simp only [LockEntry.dropHolder] at h1 ⊢
    split at h1
    · rename_i hba
      rw [if_pos hba, regain_assets _ _ ha, hba] at *
      omega
    · rename_i hba
      rw [if_neg hba]
      omega
  | renew a =>
    rw [lock_setLock_self, LockEntry.stake_modHolder a b
      (fun r => { r with deadline := formDeadline s.units (s.lockClass k).lease }) fun _ => rfl]
    rfl
  | withdraw a ha hw =>
    have hst : ((s.modAgent a (AgentEntry.regain 2)).agent b).status = .attached := by
      simp only [modAgent_eq, agent_setAgent]
      split
      · rw [AgentEntry.regain_status]; exact ha
      · exact hb
    rw [removeWaiters_balance _ k b _ hst]
    simp only [modAgent_eq, setAgent_lock, agent_setAgent]
    have h1 := LockEntry.stake_dropWaiter hs hw b
    split at h1
    · rename_i hba
      rw [if_pos hba, regain_assets _ _ ha, hba] at *
      omega
    · rename_i hba
      rw [if_neg hba]
      omega
  | openLock c m hc ho =>
    simp only [raiseUse_eq, setClass_lock, lock_setLock_self, setClass_agent, setLock_agent]
    rfl
  | closeFree ho =>
    simp only [lowerUse_eq, setClass_lock, lock_setLock_self, setClass_agent, setLock_agent]
    rfl
  | drain m hm =>
    have := cancelQueue_balance (s.setLock k { s.lock k with state := .draining, drain := some m }) k b hb
    rw [lock_setLock_self] at this
    exact this
  | lose a r h n =>
    rw [loseHolder_balance s k b a n hb]
    have h1 := LockEntry.stake_dropHolder hs h b (s.lock k).marker
    change ((s.lock k).dropHolder a).stake b + _ = _ at h1
    omega
  | revokeEvery h =>
    have h1 := revokeHolders_balance s k b hb
    have hst : ((s.revokeHolders k).agent b).status = .attached := by
      rw [(served_revokeHolders s k b).keeps.status]
      exact hb
    rw [departure_balance _ k b hst]
    exact h1
  | timeOut w h =>
    obtain ⟨hw, _⟩ := poolEntry_mem h
    have hst : (((s.notify w.agent (.timedOut k w.mode w.tag (stamp s.units))).modAgent w.agent
        (AgentEntry.regain 1)).agent b).status = .attached := by
      simp only [modAgent_eq, notify_eq, setAgent_setAgent, agent_setAgent_self, agent_setAgent]
      split
      · rename_i hba
        rw [AgentEntry.regain_status, AgentEntry.receive_status, ← hba]
        exact hb
      · exact hb
    unfold State.timeOut
    rw [removeWaiters_balance _ k b _ hst]
    have h1 := LockEntry.stake_dropNumber hn hw b
    simp only [modAgent_eq, notify_eq, setAgent_setAgent, agent_setAgent_self, agent_setAgent, setAgent_lock]
    split at h1
    · rename_i hba
      rw [if_pos hba, ← hba, regain_assets _ _ (by simpa using hb), receive_assets _ _ hb]
      omega
    · rename_i hba
      rw [if_neg hba]
      omega

/-- A visit of the detach sweep balances for every ATTACHED agent but its target (R153). -/
theorem detachVisit_balance (s : State) (k : LockId) {a b : AgentId} (hne : b ≠ a)
    (hb : (s.agent b).status = .attached) :
    ((s.detachVisit a k).agent b).assets + ((s.detachVisit a k).lock k).stake b =
      (s.agent b).assets + (s.lock k).stake b := by
  unfold State.detachVisit
  split
  · rfl
  split
  · rw [loseHolder_eq]
    have := departure_balance (s.setLock k { (s.lock k).dropHolder a with marker := true }) k b hb
    rw [lock_setLock_self, LockEntry.stake_dropOther hne] at this
    exact this
  split
  · rw [removeWaiters_balance s k b _ hb, LockEntry.stake_dropOtherWaiter hne]
  · rfl

/-- A visit of the clear sweep balances for every ATTACHED agent (R154). -/
theorem clearVisit_balance (s : State) (k : LockId) (b : AgentId) (hb : (s.agent b).status = .attached) :
    ((s.clearVisit k).agent b).assets + ((s.clearVisit k).lock k).stake b = (s.agent b).assets + (s.lock k).stake b := by
  unfold State.clearVisit
  split
  · rfl
  · have h1 := cancelQueue_balance s k b hb
    have hst : ((s.cancelQueue k).agent b).status = .attached := by
      rw [(served_cancelQueue s k b).keeps.status]
      exact hb
    have h2 := revokeHolders_balance (s.cancelQueue k) k b hst
    have h3 : (((s.cancelQueue k).revokeHolders k).lock k).stake b = 0 := by
      rw [revokeHolders_lock_self, cancelQueue_lock_self]
      rfl
    simp only [lowerUse_eq, setClass_lock, lock_setLock_self, setClass_agent, setLock_agent]
    have h4 : ({ ((s.cancelQueue k).revokeHolders k).lock k with state := .closed, drain := none } : LockEntry).stake b =
        (((s.cancelQueue k).revokeHolders k).lock k).stake b := rfl
    rw [h4]
    omega

/-! ## The wait pool -/

/-- The pool law, lock by lock: no number twice in a queue, and none in two queues (R53). -/
theorem poolLaw_iff (s : State) : s.PoolLaw ↔
    (∀ k, ((s.lock k).queue.map WaitEntry.num).Nodup) ∧
      ∀ j k, j ≠ k → ∀ n, n ∈ (s.lock j).queue.map WaitEntry.num → n ∉ (s.lock k).queue.map WaitEntry.num := by
  unfold State.PoolLaw State.linkedNumbers
  rw [List.nodup_flatMap]
  constructor
  · rintro ⟨h1, h2⟩
    refine ⟨fun k => h1 k (mem_allLocks k), fun j k hjk n hj hk => ?_⟩
    have hpair := List.pairwise_iff_get.1 h2
    have key : ∀ i j : LockId, i < j →
        List.Disjoint ((s.lock i).queue.map WaitEntry.num) ((s.lock j).queue.map WaitEntry.num) := by
      intro i j hij
      have := hpair (Fin.cast (by simp [allLocks]) i) (Fin.cast (by simp [allLocks]) j) hij
      simp only [Function.onFun, allLocks, List.get_finRange] at this
      exact this
    rcases lt_or_gt_of_ne hjk with hlt | hlt
    · exact key j k hlt hj hk
    · exact key k j hlt hk hj
  · rintro ⟨h1, h2⟩
    refine ⟨fun k _ => h1 k, ?_⟩
    have hn : allLocks.Pairwise (· ≠ ·) := List.nodup_finRange _
    exact hn.imp fun hjk => fun n hj hk => h2 _ _ hjk n hj hk

/-- A queue that lost entries, beside queues that stayed, keeps the pool law. -/
theorem PoolLaw.of_sublist (hp : s.PoolLaw) (ht : Touches k s t)
    (hq : List.Sublist (t.lock k).queue (s.lock k).queue) : t.PoolLaw := by
  rw [poolLaw_iff] at hp ⊢
  have hsub : ∀ j, List.Sublist ((t.lock j).queue.map WaitEntry.num) ((s.lock j).queue.map WaitEntry.num) := by
    intro j
    by_cases hj : j = k
    · rw [hj]; exact hq.map _
    · rw [ht.lock j hj]
  exact ⟨fun j => (hp.1 j).sublist (hsub j), fun i j hij n hi hj => hp.2 i j hij n ((hsub i).subset hi) ((hsub j).subset hj)⟩

/-- An effect at a lock keeps the pool law (R53, R54). -/
theorem LockEffect.pool (h : LockEffect s k t) (hp : s.PoolLaw) : t.PoolLaw := by
  have hch := h.change
  cases hch with
  | derived hd => exact PoolLaw.of_sublist hp h.touches hd.queue
  | modified a f he => exact PoolLaw.of_sublist hp h.touches (by rw [he]; exact List.Sublist.refl _)
  | granted a m hc he => exact PoolLaw.of_sublist hp h.touches (by rw [he]; exact List.Sublist.refl _)
  | opened c m hs hc he => exact PoolLaw.of_sublist hp h.touches (by rw [he])
  | queued a w hc ha he hn =>
    have hfree := (poolEntry_eq_none s w.num).1 ((freeEntry_eq_some s w.num).1 hn).1
    have hno : ∀ j, w.num ∉ (s.lock j).queue.map WaitEntry.num := by
      intro j hj
      obtain ⟨x, hx, hxn⟩ := List.mem_map.1 hj
      exact hfree j x hx hxn
    rw [poolLaw_iff] at hp ⊢
    have hqk : (t.lock k).queue.map WaitEntry.num = (s.lock k).queue.map WaitEntry.num ++ [w.num] := by
      rw [he]
      simp
    have hq : ∀ j, j ≠ k → (t.lock j).queue.map WaitEntry.num = (s.lock j).queue.map WaitEntry.num := by
      intro j hj
      rw [h.touches.lock j hj]
    refine ⟨fun j => ?_, fun i j hij n hi hj => ?_⟩
    · by_cases hjk : j = k
      · rw [hjk, hqk, List.nodup_append_comm, List.singleton_append, List.nodup_cons]
        exact ⟨hno k, hp.1 k⟩
      · rw [hq j hjk]; exact hp.1 j
    · by_cases hik : i = k
      · subst hik
        rw [hqk] at hi
        rw [hq j (Ne.symm hij)] at hj
        rcases List.mem_append.1 hi with hi | hi
        · exact hp.2 i j hij n hi hj
        · rw [List.mem_singleton] at hi
          exact hno j (hi ▸ hj)
      · rw [hq i hik] at hi
        by_cases hjk : j = k
        · subst hjk
          rw [hqk] at hj
          rcases List.mem_append.1 hj with hj | hj
          · exact hp.2 i j hij n hi hj
          · rw [List.mem_singleton] at hj
            exact hno i (hj ▸ hi)
        · rw [hq j hjk] at hj
          exact hp.2 i j hij n hi hj

/-! ## Tickets of EXCLUSIVE holders -/

/-- Where one EXCLUSIVE holder has the lock, the counter is its ticket (R172). -/
def LockEntry.TicketOk (l : LockEntry) : Prop :=
  (l.state = .exclusive ∨ l.drain = some .exclusive) → ∀ r ∈ l.holders, r.ticket = l.ticket

theorem Evaluated.ticketOk {l : LockEntry} {d : AgentId → Bool} {lease : BitVec 12} {now : Word}
    {out : LockEntry × List (AgentId × Notice)} (h : Evaluated l k d lease now out) (he : l.Evaluable)
    (hl : l.TicketOk) : out.1.TicketOk := by
  have hs := he.state
  cases h with
  | nothing => exact hl
  | one pruned rest w hq =>
    intro _ r hr
    rw [List.mem_singleton] at hr
    rw [hr]
    rfl
  | batch pruned run rest granted hq hd hr hl' hg hne hst =>
    intro h0
    exfalso
    rcases hst with hst | hst
    · rw [hst] at hs
      rcases h0 with h0 | h0
      · cases h0
      · simp only [hs.2, reduceCtorEq] at h0
    · rw [hst] at hs
      rcases h0 with h0 | h0
      · cases h0
      · simp only [hs.2.2, reduceCtorEq] at h0

theorem grantEval_ticketOk (h : (s.lock k).Evaluable) (hl : (s.lock k).TicketOk) :
    ((s.grantEval k).lock k).TicketOk := by
  rw [grantEval_lock_self]
  exact (grantEval_evaluated s k).ticketOk h hl

theorem departure_ticketOk (h : (s.lock k).Departing) (hl : (s.lock k).TicketOk) :
    ((s.departure k).lock k).TicketOk := by
  have hs := h.state
  rw [departure_eq]
  cases hst : (s.lock k).state <;> rw [hst] at hs <;> dsimp only at hs ⊢
  · exact hl
  · exact hl
  · split
    · rename_i hn
      apply grantEval_ticketOk
      · rw [lock_setLock_self]; exact ⟨⟨hn, hs.2.2⟩, h.onePlace, h.depths⟩
      · rw [lock_setLock_self]; intro _ r hr; simp [hn] at hr
    · rename_i hn
      have hpos := List.length_pos_iff.2 hn
      exact grantEval_ticketOk ⟨by rw [hst]; exact ⟨by omega, hs.2⟩, h.onePlace, h.depths⟩ hl
  · split
    · rename_i hn
      apply grantEval_ticketOk
      · rw [lock_setLock_self]; exact ⟨⟨hn, hs.2⟩, h.onePlace, h.depths⟩
      · rw [lock_setLock_self]; intro _ r hr; simp [hn] at hr
    · rename_i hn
      exact grantEval_ticketOk ⟨by rw [hst]; exact ⟨hn, hs⟩, h.onePlace, h.depths⟩ hl
  · split
    · rename_i hn
      rw [setClass_lock, lock_setLock_self]
      intro _ r hr
      simp [hn] at hr
    · exact hl

theorem TicketOk.part {l : LockEntry} {hs : List HolderRecord} {m : Bool} {q : List WaitEntry} (hl : l.TicketOk)
    (hp : List.Sublist hs l.holders) : ({ l with holders := hs, marker := m, queue := q } : LockEntry).TicketOk :=
  fun h r hr => hl h r (hp.subset hr)

theorem removeWaiters_ticketOk (h : (s.lock k).Sound) (p : WaitEntry → Bool) (hl : (s.lock k).TicketOk) :
    ((s.removeWaiters k p).lock k).TicketOk := by
  rw [removeWaiters_eq]
  split
  · apply grantEval_ticketOk
    · rw [lock_setLock_self]; exact (h.filterQueue p).1
    · rw [lock_setLock_self]; exact hl
  · rw [lock_setLock_self]; exact hl

theorem loseHolder_ticketOk (h : (s.lock k).Sound) (a : AgentId) (n : Option Notice) (hl : (s.lock k).TicketOk) :
    ((s.loseHolder k a n).lock k).TicketOk := by
  rw [loseHolder_eq]
  have hp : ({ (s.lock k).dropHolder a with marker := true } : LockEntry).TicketOk :=
    TicketOk.part (l := s.lock k) hl List.filter_sublist
  apply departure_ticketOk
  · cases n
    · rw [lock_setLock_self]; exact h.dropHolder a true
    · rw [notify_lock, lock_setLock_self]; exact h.dropHolder a true
  · cases n
    · rw [lock_setLock_self]; exact hp
    · rw [notify_lock, lock_setLock_self]; exact hp

theorem detachVisit_ticketOk (h : (s.lock k).Sound) (a : AgentId) (hl : (s.lock k).TicketOk) :
    ((s.detachVisit a k).lock k).TicketOk := by
  unfold State.detachVisit
  split
  · exact hl
  split
  · exact loseHolder_ticketOk h a none hl
  split
  · exact removeWaiters_ticketOk h _ hl
  · exact hl

theorem clearVisit_ticketOk (hl : (s.lock k).TicketOk) : ((s.clearVisit k).lock k).TicketOk := by
  by_cases hc : (s.lock k).state = .closed
  · unfold State.clearVisit
    rw [if_pos hc]
    exact hl
  · rw [clearVisit_lock_self s k hc]
    intro _ r hr
    cases hr

/-- An effect at a sound lock keeps its EXCLUSIVE holder's ticket at the counter (R172). -/
theorem LockEffect.ticketOk (h : LockEffect s k t) (hs : (s.lock k).Sound) (hl : (s.lock k).TicketOk) :
    (t.lock k).TicketOk := by
  have hmod : ∀ a f, (∀ r : HolderRecord, (f r).ticket = r.ticket) → ((s.lock k).modHolder a f).TicketOk := by
    intro a f hf h0 r hr
    obtain ⟨q, hq, rfl⟩ := List.mem_map.1 hr
    split
    · rw [hf]; exact hl h0 q hq
    · exact hl h0 q hq
  have hag := hs.agrees
  unfold LockEntry.Agrees at hag
  cases h with
  | deepen a => rw [lock_setLock_self]; exact hmod a _ fun _ => rfl
  | grant a m h hg =>
    simp only [modAgent_eq, setAgent_lock, lock_setLock_self]
    rw [LockEntry.grantableAtOnce_iff] at hg
    intro h0 r hr
    rcases hg with hg | ⟨hg, rfl, _⟩
    · rw [hg] at hag
      simp only [LockEntry.grant, hag.1, List.nil_append, List.mem_singleton] at hr
      rw [hr]
      rfl
    · rw [hg] at hag
      rcases h0 with h0 | h0
      · cases h0
      · simp only [LockEntry.grant, hag.2.2.1, reduceCtorEq] at h0
  | queue => simp only [modAgent_eq, setAgent_lock, lock_setLock_self]; exact hl
  | lower a => rw [lock_setLock_self]; exact hmod a _ fun _ => rfl
  | giveBack a r =>
    apply departure_ticketOk
    · simp only [modAgent_eq, setAgent_lock, lock_setLock_self]; exact hs.dropHolder a _
    · simp only [modAgent_eq, setAgent_lock, lock_setLock_self]; exact TicketOk.part (l := s.lock k) hl List.filter_sublist
  | renew a => rw [lock_setLock_self]; exact hmod a _ fun _ => rfl
  | withdraw a => exact removeWaiters_ticketOk (s := s.modAgent a (AgentEntry.regain 2)) hs _ hl
  | openLock c m hc hst =>
    simp only [raiseUse_eq, setClass_lock, lock_setLock_self]
    rw [hst] at hag
    intro _ r hr
    simp [hag.1] at hr
  | closeFree hst =>
    simp only [lowerUse_eq, setClass_lock, lock_setLock_self]
    rw [hst] at hag
    intro _ r hr
    simp [hag.1] at hr
  | drain m hst =>
    rw [State.drainLock, cancelQueue_lock_self, lock_setLock_self]
    intro h0 r hr
    cases m with
    | exclusive => exact hl (Or.inl hst) r hr
    | shared => rcases h0 with h0 | h0 <;> cases h0
  | lose a r h n => exact loseHolder_ticketOk hs a _ hl
  | revokeEvery h =>
    apply departure_ticketOk
    · rw [revokeHolders_lock_self]; exact hs.departing [] _ (List.nil_sublist _)
    · rw [revokeHolders_lock_self]; intro _ r hr; cases hr
  | timeOut w =>
    exact removeWaiters_ticketOk (s := (s.notify w.agent _).modAgent w.agent (AgentEntry.regain 1)) hs _ hl

end Sys2Proof.Machine
end

