-- ==== Sys2Proof/Laws/PerInstr.lean ====
section
/-! SUPPORT. Statements made for every command, one lemma per constructor. `Rows`: a term is a command of its own row,
or it is a BAD_COMMAND with a listed code, or an ARGUMENT_REGISTER_WRITE at a register whose write is another row's
command (log 10). -/
namespace Sys2Proof.Laws.Rows

/-- The term is a command of its own row, or spells another row's command. -/
def Statement (i : Instr) : Prop :=
  i.wellFormed = true ∨ (∃ a v code, i = .badCommand a v code ∧ isCommandCode v code = true) ∨
    ∃ a o w r, i = .argumentRegisterWrite a o w ∧ registerAt o = some r ∧ r.startsCommand = true

theorem attach (a : AgentId) : Statement (.attach a) := Or.inl rfl

theorem detach (a : AgentId) : Statement (.detach a) := Or.inl rfl

theorem acquire (a : AgentId) : Statement (.acquire a) := Or.inl rfl

theorem release (a : AgentId) : Statement (.release a) := Or.inl rfl

theorem renew (a : AgentId) : Statement (.renew a) := Or.inl rfl

theorem cancel (a : AgentId) : Statement (.cancel a) := Or.inl rfl

theorem probe (a : AgentId) : Statement (.probe a) := Or.inl rfl

theorem openLock (a : AgentId) : Statement (.openLock a) := Or.inl rfl

theorem closeLock (a : AgentId) : Statement (.closeLock a) := Or.inl rfl

theorem revoke (a : AgentId) : Statement (.revoke a) := Or.inl rfl

theorem revokeAll (a : AgentId) : Statement (.revokeAll a) := Or.inl rfl

theorem detachAgent (a : AgentId) : Statement (.detachAgent a) := Or.inl rfl

theorem clearAll (a : AgentId) : Statement (.clearAll a) := Or.inl rfl

theorem giveSupervisor (a : AgentId) : Statement (.giveSupervisor a) := Or.inl rfl

theorem takeSupervisor (a : AgentId) : Statement (.takeSupervisor a) := Or.inl rfl

theorem badCommand (a : AgentId) (v : View) (code : BitVec 8) : Statement (.badCommand a v code) := by
  cases h : isCommandCode v code with
  | true => exact Or.inr (Or.inl ⟨a, v, code, rfl, h⟩)
  | false => exact Or.inl (by simp only [Instr.wellFormed, h, Bool.not_false])

theorem ntake (a : AgentId) : Statement (.ntake a) := Or.inl rfl

theorem notifyWrite (a : AgentId) (w : Word) : Statement (.notifyWrite a w) := Or.inl rfl

theorem tsel (a : AgentId) (w : Word) : Statement (.tsel a w) := Or.inl rfl

theorem tdataWrite (a : AgentId) (n : Fin 5) (w : Word) : Statement (.tdataWrite a n w) := Or.inl rfl

theorem tcommit (a : AgentId) : Statement (.tcommit a) := Or.inl rfl

theorem prescaleWrite (a : AgentId) (w : Word) : Statement (.prescaleWrite a w) := Or.inl rfl

theorem argumentRegisterWrite (a : AgentId) (o : BitVec 7) (w : Word) : Statement (.argumentRegisterWrite a o w) := by
  cases h : registerAt o with
  | none => exact Or.inl (by simp only [Instr.wellFormed, h])
  | some r =>
    cases hr : r.startsCommand with
    | true => exact Or.inr (Or.inr ⟨a, o, w, r, rfl, h, hr⟩)
    | false => exact Or.inl (by simp only [Instr.wellFormed, h, hr, Bool.not_false])

theorem pinReset (low : Bool) : Statement (.pinReset low) := Or.inl rfl

theorem unitAdvance : Statement (.unitAdvance) := Or.inl rfl

theorem leaseExpiry (k : LockId) (a : AgentId) : Statement (.leaseExpiry k a) := Or.inl rfl

theorem timeout (e : EntryId) : Statement (.timeout e) := Or.inl rfl

theorem detachSweepVisit : Statement (.detachSweepVisit) := Or.inl rfl

theorem clearSweepVisit : Statement (.clearSweepVisit) := Or.inl rfl

theorem sweepCompletion : Statement (.sweepCompletion) := Or.inl rfl

end Sys2Proof.Laws.Rows
end

