-- ==== Sys2Proof/Tests/Slice0.lean ====
section
/-! SUPPORT. The model's own tests: ill-formed terms refused, events of the spec's worked examples, and for every
statement with hypotheses a state and operands that meet them, clause by clause. -/
namespace Sys2Proof.Tests

set_option Elab.async false

open Sys2Proof.Machine

/-! ## Small states -/

/-- What `f` sees of the next state of command `c`. -/
def after {α : Type} (c : Instr) (s : State) (f : State → α) : Option α :=
  match exec c s with
  | .next t => some (f t)
  | _ => none

/-- A class that one lock uses. -/
def used (mask : BitVec 8) (shared recursion ordered : Bool) (rank : BitVec 4) (lease cap : BitVec 12) : ClassEntry :=
  { desc := { mask := mask, sharedAllowed := shared, recursionAllowed := recursion, ordered := ordered,
              rank := rank, lease := lease, cap := cap }
    useCount := 1 }

/-- The reset state with every agent ATTACHED, at unit 1000, with classes 1 and 2 in place: class 1 allows everything,
is ordered at rank 3, and has lease 500 and wait cap 100; class 2 admits agent 1 alone, in EXCLUSIVE mode. -/
def bench : State :=
  { State.reset with
    agents := State.reset.agents.map fun e => { e with status := .attached }
    classes := (State.reset.classes.set 1 (used 255 true true true 3 500 100)).set 2 (used 2 false false false 0 0 0)
    prescaler := 1
    units := 1000 }

/-- Agent-view arguments. -/
def args (a : AgentId) (x y : Word) (s : State) : State := s.modAgent a fun e => { e with arg0 := x, arg1 := y }

/-- Control-view arguments. -/
def sargs (a : AgentId) (x y : Word) (s : State) : State := s.modAgent a fun e => { e with sarg0 := x, sarg1 := y }

/-- An agent's state. -/
def status (a : AgentId) (st : AgentState) (s : State) : State := s.modAgent a fun e => { e with status := st }

/-- An agent's credits. -/
def credits (a : AgentId) (n : Nat) (s : State) : State := s.modAgent a fun e => { e with credits := n }

/-- A FREE lock under class `c`. -/
def free (c : ClassId) : LockEntry := { LockEntry.reset with state := .free, cls := c, ticket := 9 }

/-- A holder record with ticket 9. -/
def record (a : AgentId) (m : Mode) (d : Nat) (due : Option Word) : HolderRecord :=
  { agent := a, mode := m, depth := d, ticket := 9, deadline := due }

/-- A lock under class `c`, held in mode `m` by `rs`, with queue `q`. -/
def held (c : ClassId) (m : Mode) (rs : List HolderRecord) (q : List WaitEntry) : LockEntry :=
  { free c with
    state := match m with
      | .exclusive => .exclusive
      | .shared => .shared
    holders := rs
    queue := q }

/-- A wait entry. -/
def waiter (e : EntryId) (a : AgentId) (m : Mode) (due : Option Word) : WaitEntry :=
  { num := e, agent := a, mode := m, tag := 7, deadline := due }

/-- The bench with lock 5 as given. -/
def at5 (l : LockEntry) : State := bench.setLock 5 l

/-- Lock 5 of class 1 held in EXCLUSIVE mode by agent 1 at depth `d`, deadline 1500. -/
def mine (d : Nat) : State := at5 (held 1 .exclusive [record 1 .exclusive d (some 1500)] [])

/-- Lock 5 held by agent 1, with agents 2 and 3 waiting; agent 2's deadline is 1000, the counter's value. -/
def queued : State :=
  at5 (held 1 .exclusive [record 1 .exclusive 1 (some 1500)]
    [waiter 0 2 .exclusive (some 1000), waiter 1 3 .shared (some 1100)])

/-- `n` detach requests waiting, with the job `j` in flight at position `p`. -/
def sweeping (j : SweepJob) (p : Fin 65) (n : Nat) (s : State) : State :=
  { s with
    inFlight := some { request := { job := j, requester := some (0, 0) }, position := p }
    sweepQueue := List.replicate n { job := .detach 7, requester := none } }

/-- A small state that meets every law: agent 1 is ATTACHED and holds lock 5 under class 1, at unit 7. -/
def sane : State :=
  { (((State.reset.setClass 1 (used 2 false false false 0 10 0)).setLock 5
      { free 1 with state := .exclusive, holders := [record 1 .exclusive 1 (some 12)] }).modAgent 1
      fun e => { e with status := .attached, credits := 15 }) with units := 7, prescaler := 1 }

/-! ## Ill-formed terms -/

theorem test_bad_command_with_a_listed_code_is_ill_formed :
    (Instr.badCommand 0 .agent 1).wellFormed = false ∧ (Instr.badCommand 0 .control 7).wellFormed = false ∧
    (Instr.badCommand 0 .agent 0).wellFormed = true ∧ (Instr.badCommand 0 .agent 8).wellFormed = true := by
  decide

theorem test_bad_command_with_a_listed_code_is_refused :
    exec (.badCommand 0 .agent 3) State.reset = .refused .otherCommand := rfl

theorem test_argument_write_at_a_command_register_is_ill_formed :
    (Instr.argumentRegisterWrite 0 0 1).wellFormed = false ∧ (Instr.argumentRegisterWrite 0 11 1).wellFormed = false ∧
    (Instr.argumentRegisterWrite 0 84 1).wellFormed = false ∧ (Instr.argumentRegisterWrite 0 1 1).wellFormed = true ∧
    (Instr.argumentRegisterWrite 0 3 1).wellFormed = true := by
  decide

theorem test_argument_write_at_a_command_register_is_refused :
    exec (.argumentRegisterWrite 0 80 1) State.reset = .refused .otherCommand := rfl

theorem test_no_table_word_spells_a_command : decodeTableWord 0 0 = none ∧ decodeTableWord 32 7 = none := ⟨rfl, rfl⟩

/-! ## Events of the worked examples -/

/-- Lock 30 of 02_acquisition_and_grant.md, 2.12, before its first event, at unit 5010. -/
def example2 : State :=
  { (((bench.setClass 2 (used 254 true false false 0 0 0)).setLock 30
      { LockEntry.reset with
        state := .exclusive, cls := 2, ticket := 100
        holders := [{ agent := 3, mode := .exclusive, depth := 1, ticket := 100, deadline := none }]
        queue := [{ num := 0, agent := 1, mode := .shared, tag := 4, deadline := none },
          { num := 2, agent := 6, mode := .shared, tag := 5, deadline := none },
          { num := 5, agent := 2, mode := .shared, tag := 6, deadline := none },
          { num := 7, agent := 7, mode := .exclusive, tag := 1, deadline := some 5300 },
          { num := 9, agent := 5, mode := .shared, tag := 2, deadline := none }] }).modAgent 6
      fun e => { e with status := .detaching }) with units := 5010 }

theorem test_release_grants_a_shared_batch :
    after (.release 3) (args 3 30 100 (credits 3 15 example2))
      (fun t => ((t.lock 30).state, (t.lock 30).ticket, (t.lock 30).holders.map (fun r => (r.agent, r.ticket)),
        (t.lock 30).queue.map WaitEntry.num)) =
      some (.shared, 102, [(1, 101), (2, 102)], [7, 9]) := by decide +kernel

theorem test_release_tells_the_grantees :
    after (.release 3) (args 3 30 100 (credits 3 15 example2))
      (fun t => ((t.agent 1).notices, (t.agent 6).notices, (t.agent 3).credits, (t.agent 3).result)) =
      some ([.granted 30 .shared 101 4 false 5010], [], 16,
        .command { status := .done, lock := 30, ticket := 100, depth := 0, credits := 16 }) := by decide +kernel

theorem test_timeout_of_the_head_grants_those_behind :
    after (.timeout 7) { example2.setLock 30 { example2.lock 30 with
        state := .shared, ticket := 102
        holders := [{ agent := 1, mode := .shared, depth := 1, ticket := 101, deadline := none }]
        queue := (example2.lock 30).queue.drop 3 } with units := 5300 }
      (fun t => ((t.lock 30).holders.map (fun r => (r.agent, r.ticket)), (t.lock 30).queue, (t.agent 7).notices)) =
      some ([(1, 101), (5, 103)], [], [.timedOut 30 .exclusive 1 (5300 : Half)]) := by decide +kernel

theorem test_acquire_is_queued_in_the_lowest_free_entry :
    after (.acquire 4) (args 4 (30 + 256 + 8 * 65536) 0 example2)
      (fun t => ((t.lock 30).queue.getLast?, (t.agent 4).credits, (t.agent 4).result)) =
      some (some { num := 1, agent := 4, mode := .shared, tag := 8, deadline := none }, 14,
        .command { status := .queued, lock := 30, position := 6, credits := 14 }) := by decide +kernel

theorem test_close_cancels_the_queue :
    after (.closeLock 0) (sargs 0 5 0 queued)
      (fun t => ((t.lock 5).state, (t.lock 5).drain, (t.lock 5).queue, (t.agent 2).notices, (t.agent 3).credits)) =
      some (.draining, some .exclusive, [], [.cancelled 5 .exclusive 7 1000], 17) := by decide +kernel

theorem test_lease_expiry_sets_the_marker :
    after (.leaseExpiry 5 1) { mine 3 with units := 1500 }
      (fun t => ((t.lock 5).state, (t.lock 5).marker, (t.lock 5).holders, (t.agent 1).notices, (t.agent 1).credits)) =
      some (.free, true, [], [.expired 5 .exclusive 9 1500], 16) := by decide +kernel

theorem test_tsel_reads_a_holder :
    after (.tsel 0 (43 + 2 * 65536)) ((mine 2).setLock 5 { (mine 2).lock 5 with holders :=
        [{ agent := 3, mode := .exclusive, depth := 2, ticket := 52, deadline := some 1770 }] })
      (fun t => (t.busRead 0 73, t.busRead 0 74, t.busRead 0 75, t.busRead 5 73)) =
      some (.rdy (some (BitVec.ofNat 32 (2 ^ 31 + 2 * 2 ^ 28 + 43 * 65536 + 256 + 32 + 4 + 1))), .rdy (some 52),
        .rdy (some 1770), .berr (some 0)) := by decide +kernel

theorem test_pin_reset_discards_a_sweep :
    after (.pinReset true) (sweeping .clear 30 2 queued)
      (fun t => (t.inFlight, t.sweepQueue, t.lock 5, t.resetLow)) = some (none, [], .reset, true) := by
  decide +kernel

theorem test_detach_visit_takes_the_holding :
    after .detachSweepVisit (sweeping (.detach 1) 5 0 queued)
      (fun t => ((t.lock 5).holders.map HolderRecord.agent, (t.lock 5).marker, (t.agent 1).notices,
        t.inFlight.map (fun f => f.position.val))) = some ([2], true, [], some 6) := by decide +kernel

theorem test_clear_visit_closes_the_lock :
    after .clearSweepVisit (sweeping .clear 5 0 queued)
      (fun t => ((t.lock 5).state, (t.lock 5).holders, (t.lock 5).queue, (t.lock 5).marker, (t.cls 1).useCount)) =
      some (.closed, [], [], true, 0) := by decide +kernel

/-! ## Witnesses: states and operands that meet the hypotheses of each statement

Clauses stand in the statement's order. -/

theorem witness_idle_step :
    (bench.pending = [] ∧ { bench with prescaler := 0 }.prescaler = 0) ∧
    ({ bench with prescaler := 2 } : State).refCount.toNat + 1 < ({ bench with prescaler := 2 } : State).prescaler.toNat ∧
    (bench.prescaler ≠ 0 ∧ bench.prescaler.toNat ≤ bench.refCount.toNat + 1 ∧ bench.anyDue = false) ∧
    (queued.prescaler ≠ 0 ∧ queued.prescaler.toNat ≤ queued.refCount.toNat + 1 ∧ queued.anyDue = true) := by
  decide +kernel

theorem witness_exec_leaves_the_queue_alone : exec .unitAdvance State.reset = .next State.reset := rfl

theorem witness_well_formed : (Instr.attach 0).wellFormed = true := rfl

theorem witness_access_during_reset :
    { bench with resetLow := true }.resetLow = true ∧ (Instr.ntake 3).wellFormed = true ∧
    (Instr.ntake 3).accessor = some 3 ∧ (Instr.tsel 3 0).wellFormed = true ∧ (Instr.tsel 3 0).accessor = some 3 ∧
    Instr.tsel 3 0 ≠ .ntake 3 := ⟨rfl, rfl, rfl, rfl, rfl, by decide⟩

theorem witness_control_view :
    (bench.agent 1).supervisor = false ∧
    ((Instr.tcommit 1).wellFormed = true ∧ (Instr.tcommit 1).accessor = some 1 ∧
      (Instr.tcommit 1).view = some .control) ∧
    ((Instr.argumentRegisterWrite 1 65 0).wellFormed = true ∧ (Instr.argumentRegisterWrite 1 65 0).accessor = some 1 ∧
      64 ≤ (65 : BitVec 7).toNat) ∧
    (Instr.argumentRegisterWrite 1 127 0).wellFormed = true := by decide +kernel

theorem witness_attach :
    (State.reset.resetLow = false ∧ (State.reset.agent 1).status = .absent ∧ (State.reset.agent 1).notices = []) ∧
    (bench.resetLow = false ∧ (bench.agent 1).status = .attached) ∧
    (status 1 .detaching bench).resetLow = false ∧ ((status 1 .detaching bench).agent 1).status = .detaching := by
  decide +kernel

theorem witness_detach :
    (State.reset.agent 1).status = .absent ∧ ((status 1 .detaching bench).agent 1).status = .detaching ∧
    ((sweeping .clear 0 4 bench).agent 1).status = .attached ∧ 4 ≤ (sweeping .clear 0 4 bench).sweepQueue.length ∧
    ((sweeping .clear 0 3 bench).agent 1).status = .attached ∧ (sweeping .clear 0 3 bench).sweepQueue.length < 4 ∧
    (sweeping .clear 0 3 bench).resetLow = false := by decide +kernel

theorem witness_request :
    (bench.inFlight = none ∧ bench.sweepQueue = []) ∧
    (sweeping .clear 0 3 bench).inFlight = some { request := { job := .clear, requester := some (0, 0) }, position := 0 } ∧
    { sweeping .clear 0 1 bench with inFlight := none }.sweepQueue = { job := .detach 7, requester := none } :: [] := by
  decide +kernel

/-- `MayAsk` from what a state shows. -/
theorem mayAsk_of {s : State} {a : AgentId} {k : LockId}
    (h : s.resetLow = false ∧ (s.agent a).status = .attached ∧ s.argLock a = k.val ∧
      ((s.lock k).state ≠ .closed ∧ (s.lock k).state ≠ .draining) ∧ (s.lockClass k).mask.getLsbD a.val = true ∧
      (s.argMode a = .shared → (s.lockClass k).sharedAllowed = true)) : s.MayAsk a k :=
  ⟨h.1, h.2.1, h.2.2.1, h.2.2.2.1, h.2.2.2.2.1, h.2.2.2.2.2⟩

/-- `MayContend` from what a state shows. -/
theorem mayContend_of {s : State} {a : AgentId} {k : LockId} (h : s.MayAsk a k)
    (h' : (∀ r ∈ (s.lock k).holders, r.agent ≠ a) ∧ (∀ w ∈ (s.lock k).queue, w.agent ≠ a) ∧
      (s.heldRank a).all (fun r => decide (r < (s.lockClass k).rank.toNat)) = true) : s.MayContend a k :=
  { toMayAsk := h, notHolding := h'.1, notWaiting := h'.2.1
    inOrder := fun _ r hr => by
      have := h'.2.2
      rw [hr] at this
      simpa using this }

/-- `MayContend` holds of agent 2 at lock 5, FREE and with a lock of rank 2 held elsewhere, and held in SHARED mode. -/
theorem witness_may_contend :
    (args 2 5 0 (at5 (free 1))).MayContend 2 5 ∧
    (((args 2 (5 + 256) 0 (at5 (free 1))).setClass 3 (used 255 true true true 2 0 0)).setLock 6
      (held 3 .exclusive [record 2 .exclusive 1 none] [])).MayContend 2 5 :=
  ⟨mayContend_of (mayAsk_of (by decide +kernel)) (by decide +kernel),
    mayContend_of (mayAsk_of (by decide +kernel)) (by decide +kernel)⟩

theorem witness_acquire_grants_at_once :
    ((credits 2 1 (args 2 5 0 (at5 (free 1)))).MayContend 2 5 ∧
      (credits 2 1 (args 2 5 0 (at5 (free 1)))).GrantableNow 2 5 ∧
      1 ≤ ((credits 2 1 (args 2 5 0 (at5 (free 1)))).agent 2).credits) ∧
    (args 2 (5 + 256) 0 (at5 (held 1 .shared [record 1 .shared 1 (some 1500)] []))).MayContend 2 5 ∧
    (args 2 (5 + 256) 0 (at5 (held 1 .shared [record 1 .shared 1 (some 1500)] []))).GrantableNow 2 5 :=
  ⟨⟨mayContend_of (mayAsk_of (by decide +kernel)) (by decide +kernel), by
      unfold State.GrantableNow; decide +kernel, by decide +kernel⟩,
    mayContend_of (mayAsk_of (by decide +kernel)) (by decide +kernel), by
      unfold State.GrantableNow; decide +kernel⟩

/-- `Holds` from what a state shows. -/
theorem holds_of {s : State} {a : AgentId} {k : LockId} {r : HolderRecord}
    (h : r ∈ (s.lock k).holders ∧ r.agent = a ∧
      ((s.lock k).holders.map HolderRecord.agent ++ (s.lock k).queue.map WaitEntry.agent).Nodup) : s.Holds a k r := h

theorem witness_acquire_by_a_holder :
    ((args 1 (5 + 256) 0 (mine 1)).MayAsk 1 5 ∧
      (args 1 (5 + 256) 0 (mine 1)).Holds 1 5 (record 1 .exclusive 1 (some 1500)) ∧
      Mode.exclusive ≠ (args 1 (5 + 256) 0 (mine 1)).argMode 1) ∧
    ((args 1 5 0 (at5 (held 2 .exclusive [record 1 .exclusive 1 none] []))).MayAsk 1 5 ∧
      (args 1 5 0 (at5 (held 2 .exclusive [record 1 .exclusive 1 none] []))).Holds 1 5 (record 1 .exclusive 1 none) ∧
      ((args 1 5 0 (at5 (held 2 .exclusive [record 1 .exclusive 1 none] []))).lockClass 5).recursionAllowed = false) ∧
    ((args 1 5 0 (mine 15)).MayAsk 1 5 ∧ (args 1 5 0 (mine 15)).Holds 1 5 (record 1 .exclusive 15 (some 1500)) ∧
      ((args 1 5 0 (mine 15)).lockClass 5).recursionAllowed = true) ∧
    (args 1 5 0 (mine 14)).MayAsk 1 5 ∧ (args 1 5 0 (mine 14)).Holds 1 5 (record 1 .exclusive 14 (some 1500)) :=
  ⟨⟨mayAsk_of (by decide +kernel), holds_of (by decide +kernel), by decide +kernel⟩,
    ⟨mayAsk_of (by decide +kernel), holds_of (by decide +kernel), by decide +kernel⟩,
    ⟨mayAsk_of (by decide +kernel), holds_of (by decide +kernel), by decide +kernel⟩,
    mayAsk_of (by decide +kernel), holds_of (by decide +kernel)⟩

/-- Agent 4 asks for the lock of `queued`, with 2 credits, a wait limit of `x` and the flags of `y`. -/
def asking (n : Nat) (y x : Word) : State := credits 4 n (args 4 (5 + y) x queued)

theorem witness_acquire_queues :
    ((asking 2 0 0).MayContend 4 5 ∧ ¬ (asking 2 0 0).GrantableNow 4 5 ∧
      ((asking 2 0 0).agent 4).arg0.getLsbD 9 = false ∧ 2 ≤ ((asking 2 0 0).agent 4).credits) ∧
    (asking 2 0 0).poolEntry 2 = none ∧ (∀ e' : EntryId, e' < 2 → (asking 2 0 0).poolEntry e' ≠ none) ∧
    (asking 2 0 0).poolEntry 3 = none :=
  ⟨⟨mayContend_of (mayAsk_of (by decide +kernel)) (by decide +kernel), by
      unfold State.GrantableNow; decide +kernel, by decide +kernel, by decide +kernel⟩, by decide +kernel⟩

/-- A state in which all 32 wait entries are linked: 8 at each of the locks 10 to 13. -/
def full : State :=
  [10, 11, 12, 13].foldl (fun s (k : LockId) => s.setLock k (held 1 .exclusive []
    ((List.finRange 8).map fun a => waiter (Fin.ofNat 32 ((k.val - 10) * 8 + a.val)) a .exclusive none)))
    (args 4 5 0 queued)

theorem witness_acquire_refuses :
    ((State.reset.agent 1).status = .absent ∧ ((status 1 .detaching bench).agent 1).status = .detaching) ∧
    (((args 1 64 0 bench).agent 1).status = .attached ∧ 64 ≤ (args 1 64 0 bench).argLock 1) ∧
    ((args 1 63 0 bench).argLock 1 = (63 : LockId).val ∧ ((args 1 63 0 bench).lock 63).state = .closed) ∧
    (((args 2 5 0 (at5 (free 2))).lockClass 5).mask.getLsbD 2 = false ∧
      ((args 2 5 0 (at5 (free 2))).lock 5).state ≠ .closed ∧ ((args 2 5 0 (at5 (free 2))).lock 5).state ≠ .draining) ∧
    (((args 1 261 0 (at5 (free 2))).lockClass 5).mask.getLsbD 1 = true ∧
      (args 1 261 0 (at5 (free 2))).argMode 1 = .shared ∧
      ((args 1 261 0 (at5 (free 2))).lockClass 5).sharedAllowed = false) := by decide +kernel

theorem witness_acquire_refuses_its_waiters_and_ranks :
    ((args 2 5 0 queued).MayAsk 2 5 ∧ (∀ r ∈ ((args 2 5 0 queued).lock 5).holders, r.agent ≠ 2) ∧
      (∃ w ∈ ((args 2 5 0 queued).lock 5).queue, w.agent = 2)) ∧
    ((args 1 6 0 (mine 1)).setLock 6 (free 1)).MayAsk 1 6 ∧
    (∀ r ∈ (((args 1 6 0 (mine 1)).setLock 6 (free 1)).lock 6).holders, r.agent ≠ 1) ∧
    (∀ w ∈ (((args 1 6 0 (mine 1)).setLock 6 (free 1)).lock 6).queue, w.agent ≠ 1) ∧
    (((args 1 6 0 (mine 1)).setLock 6 (free 1)).lockClass 6).ordered = true ∧
    ∃ r, ((args 1 6 0 (mine 1)).setLock 6 (free 1)).heldRank 1 = some r ∧
      (((args 1 6 0 (mine 1)).setLock 6 (free 1)).lockClass 6).rank.toNat ≤ r :=
  ⟨⟨mayAsk_of (by decide +kernel), by decide +kernel, by decide +kernel⟩, mayAsk_of (by decide +kernel), by
    decide +kernel, by decide +kernel, by decide +kernel, 3, by decide +kernel⟩

theorem witness_acquire_refuses_for_credit_and_pool :
    ((credits 2 0 (args 2 5 0 (at5 (free 1)))).MayContend 2 5 ∧
      (credits 2 0 (args 2 5 0 (at5 (free 1)))).GrantableNow 2 5 ∧
      ((credits 2 0 (args 2 5 0 (at5 (free 1)))).agent 2).credits = 0) ∧
    ((asking 0 512 0).MayContend 4 5 ∧ ¬ (asking 0 512 0).GrantableNow 4 5 ∧
      ((asking 0 512 0).agent 4).arg0.getLsbD 9 = true) ∧
    ((asking 1 0 0).MayContend 4 5 ∧ ¬ (asking 1 0 0).GrantableNow 4 5 ∧
      ((asking 1 0 0).agent 4).arg0.getLsbD 9 = false ∧ ((asking 1 0 0).agent 4).credits < 2) ∧
    full.MayContend 4 5 ∧ ¬ full.GrantableNow 4 5 ∧ (full.agent 4).arg0.getLsbD 9 = false ∧
    2 ≤ (full.agent 4).credits ∧ ∀ e, full.poolEntry e ≠ none :=
  ⟨⟨mayContend_of (mayAsk_of (by decide +kernel)) (by decide +kernel), by
      unfold State.GrantableNow; decide +kernel, by decide +kernel⟩,
    ⟨mayContend_of (mayAsk_of (by decide +kernel)) (by decide +kernel), by
      unfold State.GrantableNow; decide +kernel, by decide +kernel⟩,
    ⟨mayContend_of (mayAsk_of (by decide +kernel)) (by decide +kernel), by
      unfold State.GrantableNow; decide +kernel, by decide +kernel⟩,
    mayContend_of (mayAsk_of (by decide +kernel)) (by decide +kernel), by
      unfold State.GrantableNow; decide +kernel, by decide +kernel, by decide +kernel, by decide +kernel⟩

theorem witness_held_rank : bench.heldRank 1 = none ∧ (mine 1).heldRank 1 = some 3 := by decide +kernel

theorem witness_release_above_depth_one :
    (args 1 5 9 (mine 2)).resetLow = false ∧ ((args 1 5 9 (mine 2)).agent 1).status = .attached ∧
    (args 1 5 9 (mine 2)).argLock 1 = (5 : LockId).val ∧
    (args 1 5 9 (mine 2)).Holds 1 5 (record 1 .exclusive 2 (some 1500)) ∧
    ((args 1 5 9 (mine 2)).agent 1).arg1.extractLsb' 0 16 = 9 :=
  ⟨by decide +kernel, by decide +kernel, by decide +kernel, holds_of (by decide +kernel), by decide +kernel⟩

theorem witness_release_at_depth_one_and_renew :
    (args 1 5 9 (mine 1)).resetLow = false ∧ ((args 1 5 9 (mine 1)).agent 1).status = .attached ∧
    (args 1 5 9 (mine 1)).argLock 1 = (5 : LockId).val ∧
    (args 1 5 9 (mine 1)).Holds 1 5 (record 1 .exclusive 1 (some 1500)) ∧
    ((args 1 5 9 (mine 1)).agent 1).arg1.extractLsb' 0 16 = 9 ∧ ((args 1 5 9 (mine 1)).lockClass 5).lease ≠ 0 ∧
    ((args 1 5 9 (at5 (held 2 .exclusive [record 1 .exclusive 1 none] []))).lockClass 5).lease = 0 ∧
    (args 1 5 9 (at5 (held 2 .exclusive [record 1 .exclusive 1 none] []))).Holds 1 5 (record 1 .exclusive 1 none) :=
  ⟨by decide +kernel, by decide +kernel, by decide +kernel, holds_of (by decide +kernel), by decide +kernel, by
    decide +kernel, by decide +kernel, holds_of (by decide +kernel)⟩

theorem witness_release_and_renew_refuse :
    (64 ≤ (args 1 255 0 bench).argLock 1 ∧ ((args 1 255 0 bench).agent 1).status = .attached) ∧
    ((args 2 5 9 (mine 1)).argLock 2 = (5 : LockId).val ∧
      ∀ r ∈ ((args 2 5 9 (mine 1)).lock 5).holders, r.agent ≠ 2) ∧
    (args 1 5 8 (mine 1)).Holds 1 5 (record 1 .exclusive 1 (some 1500)) ∧
    ((args 1 5 8 (mine 1)).agent 1).arg1.extractLsb' 0 16 ≠ (9 : Half) :=
  ⟨by decide +kernel, by decide +kernel, holds_of (by decide +kernel), by decide +kernel⟩

theorem witness_cancel :
    ((args 1 5 0 queued).argLock 1 = (5 : LockId).val ∧
      ∀ w ∈ ((args 1 5 0 queued).lock 5).queue, w.agent ≠ 1) ∧
    (((args 2 5 0 queued).lock 5).queue =
        [] ++ waiter 0 2 .exclusive (some 1000) :: [waiter 1 3 .shared (some 1100)] ∧
      ((args 2 5 0 queued).lock 5).queue =
        [waiter 0 2 .exclusive (some 1000)] ++ waiter 1 3 .shared (some 1100) :: [] ∧
      ((args 2 5 0 queued).agent 2).status = .attached) ∧
    ((args 2 5 0 queued).lock 5).OnePlaceEach :=
  ⟨by decide +kernel, by decide +kernel, by unfold LockEntry.OnePlaceEach LockEntry.parties; decide +kernel⟩

theorem witness_probe :
    64 ≤ (args 1 64 0 queued).argLock 1 ∧ (args 1 5 0 queued).argLock 1 = (5 : LockId).val ∧
    (∀ r ∈ (queued.lock 5).holders, r.agent ≠ 2) ∧ queued.Holds 1 5 (record 1 .exclusive 1 (some 1500)) ∧
    (∀ w ∈ (queued.lock 5).queue, w.agent ≠ 1) ∧
    ((queued.lock 5).queue = [waiter 0 2 .exclusive (some 1000)] ++ waiter 1 3 .shared (some 1100) :: [] ∧
      ∀ x ∈ [waiter 0 2 .exclusive (some 1000)], x.agent ≠ 3) :=
  ⟨by decide +kernel, by decide +kernel, by decide +kernel, holds_of (by decide +kernel), by decide +kernel, by
    decide +kernel⟩

theorem witness_open :
    ((sargs 0 (63 + 7 * 256) 1 bench).resetLow = false ∧
      ((sargs 0 (63 + 7 * 256) 1 bench).agent 0).supervisor = true) ∧
    (sargs 0 (63 + 7 * 256) 1 bench).sargLock 0 = (63 : LockId).val ∧
    (((sargs 0 (63 + 7 * 256) 1 bench).agent 0).sarg0.extractLsb' 8 4).toNat = (7 : ClassId).val ∧
    (∀ r ∈ (sargs 0 (63 + 7 * 256) 1 bench).outstanding, r.job ≠ .clear) ∧
    ((sargs 0 (63 + 7 * 256) 1 bench).lock 63).state = .closed := by decide +kernel

theorem witness_close :
    ((sargs 0 5 0 (at5 (free 1))).Controls 0 ∧ (sargs 0 5 0 (at5 (free 1))).sargLock 0 = (5 : LockId).val ∧
      ((sargs 0 5 0 (at5 (free 1))).lock 5).state = .free) ∧
    ((sargs 0 5 0 queued).Controls 0 ∧ ((sargs 0 5 0 queued).lock 5).state = .exclusive ∧
      ((sargs 0 5 0 queued).lock 5).OnePlaceEach) ∧
    ((at5 (held 1 .shared [record 1 .shared 1 none] [])).lock 5).state = .shared :=
  ⟨⟨⟨rfl, by decide +kernel⟩, by decide +kernel, by decide +kernel⟩, ⟨⟨rfl, by decide +kernel⟩, by decide +kernel, by
    unfold LockEntry.OnePlaceEach LockEntry.parties; decide +kernel⟩, by decide +kernel⟩

theorem witness_revoke :
    (Instr.revoke 0 = .revoke 0 ∨ Instr.revoke 0 = .revokeAll 0) ∧
    (Instr.revokeAll 0 = .revoke 0 ∨ Instr.revokeAll 0 = .revokeAll 0) ∧
    ((sargs 0 5 1 queued).Controls 0 ∧ (sargs 0 5 1 queued).sargLock 0 = (5 : LockId).val ∧
      (sargs 0 5 1 queued).revokeArg 0 = (1 : AgentId).val ∧
      (sargs 0 5 1 queued).Holds 1 5 (record 1 .exclusive 1 (some 1500))) ∧
    ((sargs 0 5 15 queued).Controls 0 ∧ (sargs 0 5 15 queued).revokeArg 0 = 15 ∧
      ((sargs 0 5 15 queued).lock 5).holders ≠ [] ∧ ((sargs 0 5 15 queued).lock 5).OnePlaceEach) :=
  ⟨.inl rfl, .inr rfl, ⟨⟨rfl, by decide +kernel⟩, by decide +kernel, by decide +kernel, holds_of (by decide +kernel)⟩,
    ⟨rfl, by decide +kernel⟩, by decide +kernel, by decide +kernel, by
      unfold LockEntry.OnePlaceEach LockEntry.parties; decide +kernel⟩

theorem witness_lock_control_refuses :
    64 ≤ (sargs 0 64 0 bench).sargLock 0 ∧ 8 ≤ (((sargs 0 (5 + 8 * 256) 0 bench).agent 0).sarg0.extractLsb' 8 4).toNat ∧
    (∃ r ∈ (sweeping .clear 0 0 bench).outstanding, r.job = .clear) ∧
    ((∀ r ∈ queued.outstanding, r.job ≠ .clear) ∧ (queued.lock 5).state ≠ .closed) ∧ (bench.lock 5).state = .closed ∧
    ((sargs 0 5 8 bench).revokeArg 0 = 8 ∧ (sargs 0 5 14 bench).revokeArg 0 = 14) ∧
    ((sargs 0 5 7 queued).revokeArg 0 = (7 : AgentId).val ∧ ∀ r ∈ ((sargs 0 5 7 queued).lock 5).holders, r.agent ≠ 7) ∧
    ((sargs 0 5 15 bench).revokeArg 0 = 15 ∧ ((sargs 0 5 15 bench).lock 5).holders = []) := by decide +kernel

theorem witness_detach_agent :
    ((sargs 0 0 0 (sweeping .clear 0 3 bench)).Controls 0 ∧
      (sargs 0 0 0 (sweeping .clear 0 3 bench)).sargTarget 0 = (0 : AgentId).val ∧
      ((sargs 0 0 0 (sweeping .clear 0 3 bench)).agent 0).status = .attached ∧
      (sargs 0 0 0 (sweeping .clear 0 3 bench)).sweepQueue.length < 4) ∧
    ((sargs 0 7 0 (credits 0 1 bench)).sargTarget 0 = (7 : AgentId).val ∧
      ((sargs 0 7 0 (credits 0 1 bench)).agent 7).status = .attached ∧
      1 ≤ ((sargs 0 7 0 (credits 0 1 bench)).agent 0).credits) ∧
    (sargs 0 7 0 (status 0 .absent bench)).Controls 0 ∧
    ((sargs 0 7 0 (status 0 .absent bench)).agent 0).status ≠ .attached ∧
    ((sargs 0 7 0 (status 0 .absent bench)).agent 7).status = .attached :=
  ⟨⟨⟨rfl, by decide +kernel⟩, by decide +kernel⟩, by decide +kernel, ⟨rfl, by decide +kernel⟩, by decide +kernel⟩

theorem witness_clear_all :
    bench.Controls 0 ∧ (∀ r ∈ bench.outstanding, r.job ≠ .clear) ∧ bench.sweepQueue.length < 4 ∧
    ((bench.agent 0).status = .attached ∧ 1 ≤ (bench.agent 0).credits) ∧
    ((status 0 .absent bench).agent 0).status ≠ .attached := ⟨⟨rfl, by decide +kernel⟩, by decide +kernel⟩

theorem witness_sweep_requests_refuse :
    8 ≤ (sargs 0 8 0 bench).sargTarget 0 ∧ (State.reset.agent 7).status = .absent ∧
    ((status 7 .detaching bench).agent 7).status = .detaching ∧
    ((bench.agent 7).status = .attached ∧ ((credits 0 0 bench).agent 0).credits = 0) ∧
    4 ≤ (sweeping (.detach 6) 0 4 bench).sweepQueue.length ∧
    (∃ r ∈ (sweeping .clear 64 0 bench).outstanding, r.job = .clear) ∧
    (∀ r ∈ (sweeping (.detach 6) 0 4 bench).outstanding, r.job ≠ .clear) ∧
    (sweeping (.detach 6) 0 4 bench).Controls 0 :=
  ⟨by decide +kernel, by decide +kernel, by decide +kernel, by decide +kernel, by decide +kernel, by decide +kernel, by
    decide +kernel, rfl, by decide +kernel⟩

theorem witness_supervisor :
    8 ≤ (sargs 0 15 0 bench).sargTarget 0 ∧ (sargs 0 7 0 bench).sargTarget 0 = (7 : AgentId).val ∧
    ((bench.agent 0).supervisor = true ∧ ∀ b, b ≠ 0 → (bench.agent b).supervisor = false) ∧
    (bench.agent 7).supervisor = false ∧ bench.Controls 0 :=
  ⟨by decide +kernel, by decide +kernel, by decide +kernel, by decide +kernel, rfl, by decide +kernel⟩

/-- Agents 0 and 7 hold the right; agent 0 names agent 7, or itself. -/
theorem witness_supervisor_beside_another :
    ((sargs 0 7 0 bench).modAgent 7 fun e => { e with supervisor := true }).Controls 0 ∧
    ((sargs 0 7 0 bench).modAgent 7 fun e => { e with supervisor := true }).sargTarget 0 = (7 : AgentId).val ∧
    (∃ b, b ≠ 7 ∧ (((sargs 0 7 0 bench).modAgent 7 fun e => { e with supervisor := true }).agent b).supervisor = true) ∧
    ((sargs 0 0 0 bench).modAgent 7 fun e => { e with supervisor := true }).sargTarget 0 = (0 : AgentId).val ∧
    ∃ b, b ≠ 0 ∧ (((sargs 0 0 0 bench).modAgent 7 fun e => { e with supervisor := true }).agent b).supervisor = true :=
  ⟨⟨rfl, by decide +kernel⟩, by decide +kernel, ⟨0, by decide +kernel⟩, by decide +kernel, 7, by decide +kernel⟩

theorem witness_unlisted_codes :
    (0 : BitVec 8).toNat = 0 ∧ 8 ≤ (8 : BitVec 8).toNat ∧ 8 ≤ (255 : BitVec 8).toNat ∧ bench.resetLow = false := by
  decide

/-- An agent with notices waiting. -/
def notified : State :=
  bench.modAgent 1 fun e =>
    { e with notices := [.cancelled 5 .shared 7 1000, .expired 5 .shared 9 1000], notifyEnable := true, lineLow := true }

theorem witness_ntake :
    (bench.agent 1).notices = [] ∧
    ((notified.agent 1).notices = .cancelled 5 .shared 7 1000 :: [.expired 5 .shared 9 1000] ∧
      (notified.agent 1).status = .attached ∧ notified.resetLow = false) := by decide +kernel

theorem witness_notice_arrives :
    (bench.agent 1).status = .attached ∧ ((status 1 .detaching bench).agent 1).status ≠ .attached ∧
    (State.reset.agent 1).status ≠ .attached := by decide +kernel

theorem witness_tsel :
    bench.Controls 0 ∧ ((7 * 65536 : Word).extractLsb' 16 3).toNat = 7 ∧
    ((65536 + 64 : Word).extractLsb' 0 9).toNat = 64 ∧
    (((2 * 65536 + 41 : Word).extractLsb' 0 9).toNat / 8 = (5 : LockId).val ∧
      ((2 * 65536 + 41 : Word).extractLsb' 0 9).toNat % 8 = (1 : AgentId).val ∧
      (queued.lock 5).holders = [] ++ record 1 .exclusive 1 (some 1500) :: []) ∧
    (((0 : Word).extractLsb' 16 3).toNat = 0 ∧ ((3 * 65536 + 32 : Word).extractLsb' 0 9).toNat = 32 ∧
      ((4 * 65536 + 8 : Word).extractLsb' 0 9).toNat = 8 ∧ ((5 * 65536 + 7 : Word).extractLsb' 0 9).toNat = 7) ∧
    queued.poolEntry 31 = none ∧ queued.poolEntry 1 = some (5, waiter 1 3 .shared (some 1100)) :=
  ⟨⟨rfl, by decide +kernel⟩, by decide +kernel⟩

/-- Agent 0 with a CLASS snapshot of class 3 staged. -/
def staged (rank : BitVec 8) (lease cap : BitVec 16) : State :=
  bench.modAgent 0 fun e =>
    { e with
      staging := some (.cls 3 { mask := 255, sharedAllowed := true, recursionAllowed := false, ordered := true,
                                rank := rank, lease := lease, cap := cap, useCount := 0 }) }

theorem witness_tdata :
    ((staged 16 0 0).agent 0).staging =
      some (.cls 3 { mask := 255, sharedAllowed := true, recursionAllowed := false, ordered := true, rank := 16,
                     lease := 0, cap := 0, useCount := 0 }) ∧
    (staged 16 0 0).Controls 0 ∧ ∀ i c, (bench.agent 0).staging ≠ some (.cls i c) :=
  ⟨by decide +kernel, ⟨rfl, by decide +kernel⟩, fun i c => by
    rw [show (bench.agent 0).staging = none by decide +kernel]; simp⟩

theorem witness_tcommit :
    15 < (16 : BitVec 8).toNat ∧ 4095 < (4096 : BitVec 16).toNat ∧
    ((15 : BitVec 8).toNat ≤ 15 ∧ (4095 : BitVec 16).toNat ≤ 4095) ∧ ((staged 15 4095 4095).cls 3).useCount = 0 ∧
    0 < (bench.cls 1).useCount ∧ (staged 15 4095 4095).Controls 0 :=
  ⟨by decide, by decide, by decide, by decide +kernel, by decide +kernel, rfl, by decide +kernel⟩

theorem witness_timebase :
    (bench.prescaler ≠ 0 ∧ bench.anyDue = false) ∧ State.reset.prescaler = 0 ∧ queued.anyDue = true ∧
    bench.Controls 0 := ⟨by decide +kernel, by decide +kernel, by decide +kernel, rfl, by decide +kernel⟩

theorem witness_argument_writes :
    registerAt 3 = none ∧ registerAt 127 = none ∧
    ∃ r, registerAt 85 = some r ∧ r.writable = false := ⟨rfl, rfl, .units, rfl, rfl⟩

theorem witness_lease_expiry :
    (at5 (held 1 .exclusive [record 1 .exclusive 3 (some 1000)] [])).Holds 1 5 (record 1 .exclusive 3 (some 1000)) ∧
    (record 1 .exclusive 3 (some 1000)).deadline = some (at5 (free 1)).units ∧
    ((mine 1).Holds 1 5 (record 1 .exclusive 1 (some 1500)) ∧
      (record 1 .exclusive 1 (some 1500)).deadline ≠ some (mine 1).units) ∧
    ∀ r ∈ ((mine 1).lock 5).holders, r.agent ≠ 2 :=
  ⟨holds_of (by decide +kernel), by decide +kernel, ⟨holds_of (by decide +kernel), by decide +kernel⟩, by
    decide +kernel⟩

theorem witness_timeout :
    queued.PoolLaw ∧
    ((queued.lock 5).queue = [] ++ waiter 0 2 .exclusive (some 1000) :: [waiter 1 3 .shared (some 1100)] ∧
      (waiter 0 2 .exclusive (some 1000)).deadline = some queued.units) ∧
    ((queued.lock 5).queue = [waiter 0 2 .exclusive (some 1000)] ++ waiter 1 3 .shared (some 1100) :: [] ∧
      (waiter 1 3 .shared (some 1100)).deadline ≠ some queued.units) ∧
    ∀ k, ∀ w ∈ (queued.lock k).queue, w.num ≠ 2 :=
  ⟨by unfold State.PoolLaw; decide +kernel, by decide +kernel, by decide +kernel, by decide +kernel⟩

theorem witness_detach_visit :
    (sweeping (.detach 1) 5 0 queued).inFlight =
      some { request := { job := .detach 1, requester := some (0, 0) }, position := 5 } ∧
    (6 : Fin 65).val = (5 : LockId).val + 1 ∧
    (sweeping (.detach 1) 5 0 queued).Holds 1 5 (record 1 .exclusive 1 (some 1500)) ∧
    ((sweeping (.detach 2) 5 0 queued).lock 5).queue =
      [] ++ waiter 0 2 .exclusive (some 1000) :: [waiter 1 3 .shared (some 1100)] ∧
    ((sweeping (.detach 3) 5 0 queued).lock 5).queue =
      [waiter 0 2 .exclusive (some 1000)] ++ waiter 1 3 .shared (some 1100) :: [] ∧
    ((sweeping (.detach 1) 5 0 queued).lock 5).state ≠ .closed ∧ (queued.lock 63).state = .closed ∧
    queued.NoTrace 4 5 ∧ (∀ f ∈ (sweeping (.detach 1) 64 0 queued).inFlight, f.position.val = 64) :=
  ⟨by decide +kernel, by decide, holds_of (by decide +kernel), by decide +kernel, by decide +kernel, by decide +kernel, by
    decide +kernel, by unfold State.NoTrace; decide +kernel, by decide +kernel⟩

theorem witness_clear_visit :
    (sweeping .clear 63 0 queued).inFlight =
      some { request := { job := .clear, requester := some (0, 0) }, position := 63 } ∧
    (64 : Fin 65).val = (63 : LockId).val + 1 ∧ ((sweeping .clear 63 0 queued).lock 63).state = .closed ∧
    ((sweeping .clear 5 0 queued).lock 5).state ≠ .closed ∧ ((sweeping .clear 5 0 queued).lock 5).OnePlaceEach ∧
    (∀ f ∈ bench.inFlight, f.request.job ≠ .clear ∨ f.position.val = 64) :=
  ⟨by decide +kernel, by decide, by decide +kernel, by decide +kernel, by
    unfold LockEntry.OnePlaceEach LockEntry.parties; decide +kernel, by decide +kernel⟩

theorem witness_completion :
    (sweeping (.detach 6) 64 1 bench).inFlight =
      some { request := { job := .detach 6, requester := some (0, 0) }, position := 64 } ∧
    (sweeping .clear 64 0 bench).inFlight =
      some { request := { job := .clear, requester := some (0, 0) }, position := 64 } ∧
    ∀ f ∈ (sweeping .clear 63 0 bench).inFlight, f.position.val ≠ 64 := by decide +kernel

theorem witness_holder_departure :
    (held 1 .exclusive [] []).state = .exclusive ∧ (held 1 .exclusive [] []).holders = [] ∧
    (held 1 .exclusive [] [waiter 0 2 .shared none]).queue ≠ [] ∧
    ((held 1 .shared [record 1 .shared 1 none] []).state = .shared ∧
      (held 1 .shared [record 1 .shared 1 none] []).holders ≠ [] ∧
      (held 1 .shared [record 1 .shared 1 none] [waiter 0 2 .exclusive none]).queue ≠ []) ∧
    (({ held 1 .shared [] [] with state := .draining } : LockEntry).state = .draining ∧
      ({ held 1 .shared [] [] with state := .draining } : LockEntry).holders = []) ∧
    ({ held 1 .shared [record 1 .shared 1 none] [] with state := .draining } : LockEntry).state = .draining ∧
    ({ held 1 .shared [record 1 .shared 1 none] [] with state := .draining } : LockEntry).holders ≠ [] := by decide

/-- Agent 6 is DETACHING and its entry heads the queue of every lock below. -/
theorem witness_grant_evaluation_prunes :
    (held 1 .exclusive [] [waiter 0 6 .shared none]).queue = [waiter 0 6 .shared none] ++ [] ∧
    (∀ w ∈ [waiter 0 6 .shared none], decide (w.agent = 6) = true) ∧
    ∀ w ∈ ([] : List WaitEntry).head?, decide (w.agent = 6) = false := by decide

theorem witness_grant_evaluation_exclusive_head :
    (∀ l ∈ [held 1 .exclusive [record 1 .exclusive 1 none] [waiter 0 6 .shared none, waiter 1 2 .exclusive none],
        { free 1 with queue := [waiter 0 6 .shared none, waiter 1 2 .exclusive none] }],
      l.queue = [waiter 0 6 .shared none] ++ waiter 1 2 .exclusive none :: []) ∧
    (∀ w ∈ [waiter 1 2 .exclusive none].head?, decide (w.agent = 6) = false) ∧
    (waiter 1 2 .exclusive none).mode = .exclusive ∧
    (held 1 .exclusive [record 1 .exclusive 1 none] [waiter 0 6 .shared none, waiter 1 2 .exclusive none]).holders ≠ [] ∧
    ({ free 1 with queue := [waiter 0 6 .shared none, waiter 1 2 .exclusive none] } : LockEntry).holders = [] := by
  decide

theorem witness_grant_evaluation_shared_head :
    ((held 1 .exclusive [record 1 .exclusive 1 none] [waiter 0 6 .shared none, waiter 1 2 .shared none]).queue =
        [waiter 0 6 .shared none] ++ waiter 1 2 .shared none :: [] ∧ (waiter 1 2 .shared none).mode = .shared ∧
      (held 1 .exclusive [record 1 .exclusive 1 none] []).state ≠ .free ∧
      (held 1 .exclusive [record 1 .exclusive 1 none] []).state ≠ .shared) ∧
    (free 1).state = .free ∧ (held 1 .shared [record 1 .shared 1 none] []).state = .shared ∧
    ([waiter 0 6 .shared none] ++ [waiter 1 2 .shared none, waiter 2 6 .shared none, waiter 3 3 .exclusive none] =
      [waiter 0 6 .shared none] ++ ([waiter 1 2 .shared none, waiter 2 6 .shared none] ++ [waiter 3 3 .exclusive none])) ∧
    (∀ w ∈ [waiter 1 2 .shared none].head?, decide (w.agent = 6) = false) ∧
    (∀ x ∈ [waiter 1 2 .shared none, waiter 2 6 .shared none], decide (x.agent = 6) = true ∨ x.mode = .shared) ∧
    (∀ x ∈ [waiter 3 3 .exclusive none].head?, decide (x.agent = 6) = false ∧ x.mode = .exclusive) := by decide

theorem witness_write_accesses :
    (sargs 0 5 15 bench).revokeArg 0 = 15 ∧ (sargs 0 5 14 bench).revokeArg 0 ≠ 15 ∧
    ((255 : BitVec 8).toNat = 0 ∨ 8 ≤ (255 : BitVec 8).toNat) ∧
    ∀ o : BitVec 7, o ∈ [1, 2, 65, 66, 4, 85, 88, 3, 127] →
      o.toNat ∉ [0, 11, 64, 72, 73, 74, 75, 76, 77, 80, 84] := by decide +kernel

theorem witness_reads :
    State.reset.resetLow = false ∧ State.reset.Controls 0 ∧ (State.reset.agent 1).supervisor = false ∧
    (State.reset.agent 0).staging = none ∧ State.reset.inFlight = none ∧
    ((notified.agent 1).notices = .cancelled 5 .shared 7 1000 :: [.expired 5 .shared 9 1000] ∧
      (bench.agent 1).notices = []) ∧
    ((sweeping (.detach 7) 64 4 bench).Controls 0 ∧
      (sweeping (.detach 7) 64 4 bench).inFlight =
        some { request := { job := .detach 7, requester := some (0, 0) }, position := 64 }) ∧
    ((sweeping .clear 0 0 bench).Controls 0 ∧
      (sweeping .clear 0 0 bench).inFlight =
        some { request := { job := .clear, requester := some (0, 0) }, position := 0 }) ∧
    (∃ r, registerAt 0 = some r ∧ r.readable = false) ∧ registerAt 127 = none ∧
    ({ bench with resetLow := true } : State).resetLow = true :=
  ⟨rfl, ⟨rfl, by decide +kernel⟩, by decide +kernel, by decide +kernel, rfl, by decide +kernel,
    ⟨⟨rfl, by decide +kernel⟩, rfl⟩, ⟨⟨rfl, by decide +kernel⟩, rfl⟩, ⟨.cmd, rfl, rfl⟩, rfl, rfl⟩

/-- Agent 0 with `g` staged. -/
def staging (g : Option Staging) : State := bench.modAgent 0 fun e => { e with staging := g }

/-- A snapshot of a lock DRAINING in SHARED mode, as full as a queue and a holder list can be. -/
def fullLock : LockSnapshot :=
  { state := .draining, cls := 7, drain := some .shared, marker := true, holderCount := 8, ticket := 9
    queue := [31, 1, 2, 3, 4, 5, 30], holders := [7, 1, 2, 3, 4, 5, 6, 0] }

/-- Every staging is one that agent 0 can have while its control reads are taken. -/
theorem staging_ready (g : Option Staging) : (staging g).Controls 0 ∧ ((staging g).agent 0).staging = g := by
  refine ⟨⟨rfl, ?_⟩, ?_⟩ <;> rw [staging, modAgent_eq, agent_setAgent_self]
  exact (by decide +kernel : (bench.agent 0).supervisor = true)

theorem witness_staging_words :
    ((staging none).Controls 0 ∧ ((staging none).agent 0).staging = none) ∧
    (((staging (some (.lock 63 fullLock))).agent 0).staging = some (.lock 63 fullLock) ∧
      fullLock.queue[0]? = some 31 ∧ fullLock.queue[6]? = some 30 ∧ fullLock.holders[7]? = some 0 ∧
      ({ fullLock with queue := [], holders := [] } : LockSnapshot).queue[6]? = none ∧
      ({ fullLock with queue := [], holders := [] } : LockSnapshot).holders[7]? = none) ∧
    ((staging (some (.holder 511 none))).agent 0).staging = some (.holder 511 none) ∧
    (∃ h, ((staging (some (.holder 41 (some h)))).agent 0).staging = some (.holder 41 (some h)) ∧ h.place = 8) ∧
    ((staging (some (.wait 31 none))).agent 0).staging = some (.wait 31 none) ∧
    (∃ w, ((staging (some (.wait 31 (some w)))).agent 0).staging = some (.wait 31 (some w)) ∧ w.position = 7) ∧
    (∃ c, ((staging (some (.cls 7 c))).agent 0).staging = some (.cls 7 c) ∧ c.useCount = 64) ∧
    ∃ e, ((staging (some (.agent 7 e))).agent 0).staging = some (.agent 7 e) ∧ e.credits = 16 :=
  ⟨staging_ready _, ⟨(staging_ready _).2, rfl, rfl, rfl, rfl, rfl⟩, (staging_ready _).2,
    ⟨{ mode := .shared, depth := 15, place := 8, ticket := 9, deadline := some 1500 }, (staging_ready _).2, rfl⟩,
    (staging_ready _).2,
    ⟨{ mode := .shared, position := 7, agent := 7, lock := 63, tag := 255, deadline := none }, (staging_ready _).2, rfl⟩,
    ⟨{ mask := 255, sharedAllowed := true, recursionAllowed := true, ordered := true, rank := 255, lease := 65535,
       cap := 65535, useCount := 64 }, (staging_ready _).2, rfl⟩,
    { status := .attached, supervisor := true, notifyEnable := true, notifyMode := .arrival, latch := true, epoch := 255,
      credits := 16, queueLength := 0 }, (staging_ready _).2, rfl⟩

theorem witness_owners :
    exec (.notifyWrite 1 3) State.reset = .next ((State.reset.modAgent 1 fun e => e.configureNotify 3).ready) ∧
    (Instr.notifyWrite 1 3).accessor ≠ some 2 := ⟨rfl, by decide⟩

theorem sane_lock (k : LockId) (h : k ≠ 5) : sane.lock k = .reset := by
  show ((State.reset.setClass 1 _).setLock 5 _).lock k = _
  rw [lock_setLock_ne _ _ _ _ h]
  simp [State.lock, State.setClass, State.reset]

theorem sane_lock_five :
    sane.lock 5 = { free 1 with state := .exclusive, holders := [record 1 .exclusive 1 (some 12)] } := by
  decide +kernel

/-- The laws that quantify over locks, from lock 5 and a lock never opened. -/
theorem sane_locks {P : LockEntry → Prop} (h5 : P (sane.lock 5)) (h : P .reset) (k : LockId) : P (sane.lock k) := by
  by_cases hk : k = 5
  · rw [hk]; exact h5
  · rw [sane_lock k hk]; exact h

theorem witness_sane : sane.Sane where
  locks := sane_locks (P := LockEntry.Sound)
    (by
      rw [sane_lock_five]
      exact ⟨⟨rfl, by decide, rfl⟩, by unfold LockEntry.OnePlaceEach LockEntry.parties; decide, by
        unfold LockEntry.DepthsInRange; decide⟩)
    ⟨⟨rfl, rfl, rfl⟩, List.nodup_nil, fun r h => nomatch h⟩
  tickets := by unfold State.TicketLaw; decide +kernel
  uses := by unfold State.UseLaw; decide +kernel
  classes := by unfold State.ClassLaw HolderRecord.Fits WaitEntry.Fits; decide +kernel
  pool := by unfold State.PoolLaw; decide +kernel
  deadlines := by
    intro k
    by_cases hk : k = 5
    · rw [hk, sane_lock_five]
      refine ⟨fun r hr => ?_, fun w hw => nomatch hw⟩
      rw [List.mem_singleton.1 hr]
      show (12 - sane.units).toNat ≤ 4095
      decide +kernel
    · rw [sane_lock k hk]
      exact ⟨fun r hr => (nomatch hr), fun w hw => (nomatch hw)⟩
  division := by unfold State.DivisionLaw; decide +kernel
  lines := by unfold State.LineLaw; decide +kernel
  quiet := by unfold State.QuietLaw; decide +kernel
  supervisor := ⟨0, by decide +kernel⟩
  sweeps := ⟨by decide +kernel, by decide +kernel, by decide +kernel, by decide +kernel⟩
  visits := fun f hf => nomatch (show f ∈ (none : Option SweepFlight) from hf)
  absent := by unfold State.AbsentLaw State.NoTrace; decide +kernel
  requesters := trivial
  credit := by unfold State.CreditLaw; decide +kernel
  bounds := by unfold State.CreditBounds; decide +kernel

/-- The premises of the credit rule, by themselves. -/
theorem witness_credit_sum :
    (∀ k, (sane.lock k).OnePlaceEach) ∧ sane.PoolLaw ∧ sane.SweepLaw ∧ sane.AbsentLaw ∧ sane.RequesterLaw ∧
    sane.CreditLaw ∧ ∃ t, step sane = .next t :=
  ⟨fun k => (witness_sane.locks k).onePlace, witness_sane.pool, witness_sane.sweeps, witness_sane.absent,
    witness_sane.requesters, witness_sane.credit, _, rfl⟩

theorem witness_step :
    (∃ t, step sane = .next t) ∧ ({ sane with pending := [.unitAdvance] } : State).Sane ∧
    ∃ t, step { sane with pending := [.unitAdvance] } = .next t :=
  ⟨⟨_, rfl⟩,
    { locks := witness_sane.locks, tickets := witness_sane.tickets, uses := witness_sane.uses
      classes := witness_sane.classes, pool := witness_sane.pool, deadlines := witness_sane.deadlines
      division := witness_sane.division, lines := witness_sane.lines, quiet := witness_sane.quiet
      supervisor := witness_sane.supervisor, sweeps := ⟨witness_sane.sweeps.1, witness_sane.sweeps.2,
        witness_sane.sweeps.3, witness_sane.sweeps.4⟩, visits := witness_sane.visits, absent := witness_sane.absent
      requesters := witness_sane.requesters, credit := witness_sane.credit, bounds := witness_sane.bounds },
    ({ sane with pending := [] } : State).advance, by
      show execUnitAdvance { sane with pending := [] } = .next ({ sane with pending := [] } : State).advance
      unfold execUnitAdvance
      rw [if_pos (by decide +kernel)]⟩

end Sys2Proof.Tests
end

section
/-! What stands in every table right after reset, and the two statements about it (R1, R53, R93, R106, R126, R138,
R147). -/
namespace Sys2Proof.Machine

/-! ## The tables after reset -/

@[simp] theorem reset_lock (k : LockId) : State.reset.lock k = LockEntry.reset := by
  simp [State.lock, State.reset]

@[simp] theorem reset_cls (c : ClassId) : State.reset.cls c = ClassEntry.reset := by
  simp [State.cls, State.reset]

/-- After reset agent 0 alone holds the supervisor right (R106, R115). -/
theorem reset_agent (a : AgentId) : State.reset.agent a = AgentEntry.reset (decide (a = 0)) := by
  by_cases h : a = 0
  · subst h; rfl
  · have hv : ¬ 0 = a.val := fun hv => h (Fin.ext hv.symm)
    simp [State.agent, State.reset, h, hv]

@[simp] theorem reset_poolEntry (e : EntryId) : State.reset.poolEntry e = none :=
  (poolEntry_eq_none _ e).2 fun k w hw => by simp [LockEntry.reset] at hw

@[simp] theorem reset_outstanding : State.reset.outstanding = [] := rfl

/-- Settles O5: pin reset answers the reset state, with the level and the waiting commands it was given. -/
theorem pinResetSetsEveryTable : Obligations.PinResetSetsEveryTable := by
  intro low s
  refine ⟨{ State.reset with resetLow := low, pending := s.pending }, rfl, reset_lock, reset_poolEntry, reset_cls,
    reset_agent, rfl, rfl, rfl, rfl, rfl, rfl, rfl, rfl⟩

/-! ## The laws after reset -/

theorem LockEntry.reset_sound : LockEntry.reset.Sound :=
  ⟨⟨rfl, rfl, rfl⟩, List.nodup_nil, fun _ hr => nomatch hr⟩

theorem reset_noTrace (a : AgentId) (k : LockId) : State.reset.NoTrace a k := by
  rw [noTrace_iff, reset_lock]
  exact List.not_mem_nil

theorem reset_usesClass (c : ClassId) (k : LockId) : State.reset.usesClass c k = false := by
  simp [State.usesClass, LockEntry.reset]

theorem reset_status (a : AgentId) : (State.reset.agent a).status = .absent := by
  rw [reset_agent]; rfl

/-- Every lock is CLOSED and empty, every agent ABSENT, and no sweep outstanding, so no law has a case to meet but those
of an ABSENT agent, the unused classes and the one supervisor. -/
theorem reset_sane : State.reset.Sane where
  locks k := by rw [reset_lock]; exact LockEntry.reset_sound
  tickets k _ r hr := by simp [LockEntry.reset] at hr
  uses c := by rw [reset_cls, List.filter_eq_nil_iff.2 fun k _ => by simp [reset_usesClass]]; rfl
  classes k := by simp [LockEntry.reset]
  pool := (poolLaw_iff _).2 (by simp [LockEntry.reset])
  deadlines k := by simp [LockEntry.reset]
  division := ⟨fun _ => rfl, fun h => absurd rfl h⟩
  lines a := by rw [reset_agent]; rfl
  quiet a := by rw [reset_agent]; exact ⟨fun _ => rfl, fun _ => rfl⟩
  supervisor := ⟨0, rfl⟩
  sweeps := ⟨Nat.zero_le 4, fun _ => rfl, List.nodup_nil, fun a => by simp [reset_status]⟩
  visits _ hf := nomatch hf
  absent a _ := ⟨reset_noTrace a, by rw [reset_agent]; rfl, by rw [reset_agent]; rfl⟩
  requesters := trivial
  credit a ha := by rw [reset_status] at ha; cases ha
  bounds a := by rw [reset_agent]; exact ⟨le_refl 16, Nat.zero_le 16⟩

/-- Settles O54. -/
theorem resetMeetsEveryLaw : Obligations.ResetMeetsEveryLaw := reset_sane

end Sys2Proof.Machine
end

section
/-! What a step can do to the lock, class and pool tables: nothing but one event at one lock, or the reset of them all;
and the laws of those tables, which every effect keeps (R3, R5, R6, R53, R97, R98, R141, R172). -/
namespace Sys2Proof.Machine

variable {s t u : State} {k : LockId}

/-! ## Events at one lock -/

/-- An event at lock `k`: what a command or a due event does there, or the visit of the sweep in flight. -/
inductive LockEvent (s : State) (k : LockId) : State → Prop where
  | effect {u : State} (h : LockEffect s k u) : LockEvent s k u
  | detachVisit (f : SweepFlight) (a : AgentId) (hf : s.inFlight = some f) (hj : f.request.job = .detach a) :
      LockEvent s k (s.detachVisit a k)
  | clearVisit : LockEvent s k (s.clearVisit k)

namespace LockEvent

theorem touches (h : LockEvent s k u) : Touches k s u := by
  cases h with
  | effect h => exact h.touches
  | detachVisit f a => exact touches_detachVisit s k a
  | clearVisit => exact touches_clearVisit s k

theorem sound (h : LockEvent s k u) (hs : (s.lock k).Sound) : (u.lock k).Sound := by
  cases h with
  | effect h => exact h.sound hs
  | detachVisit f a => exact detachVisit_sound s k a hs
  | clearVisit => exact clearVisit_sound s k hs

theorem ticketOk (h : LockEvent s k u) (hs : (s.lock k).Sound) (hl : (s.lock k).TicketOk) : (u.lock k).TicketOk := by
  cases h with
  | effect h => exact h.ticketOk hs hl
  | detachVisit f a => exact detachVisit_ticketOk hs a hl
  | clearVisit => exact clearVisit_ticketOk hl

theorem accounts (h : LockEvent s k u) (hs : (s.lock k).Sound) : Accounts k s u := by
  cases h with
  | effect h => exact h.accounts hs
  | detachVisit f a => exact detachVisit_accounts a hs
  | clearVisit => exact clearVisit_accounts s k

/-- But for a command's or a due event's effect, an event at a lock brings nothing new there. -/
theorem effect_or_derives (h : LockEvent s k u) :
    LockEffect s k u ∨ (s.lock k).Derives (s.lockClass k).lease s.units (u.lock k) := by
  cases h with
  | effect h => exact Or.inl h
  | detachVisit f a => exact Or.inr (detachVisit_derives s k a)
  | clearVisit => exact Or.inr (clearVisit_derives s k)

theorem pool (h : LockEvent s k u) (hp : s.PoolLaw) : u.PoolLaw := by
  rcases h.effect_or_derives with h' | hd
  · exact h'.pool hp
  · exact PoolLaw.of_sublist hp h.touches hd.queue

theorem near (h : LockEvent s k u) (hs : s.NearAt k) : u.NearAt k := by
  rcases h.effect_or_derives with h' | hd
  · exact h'.near hs
  · unfold State.NearAt
    rw [h.touches.units]
    exact Derives.near hd hs.1 hs.2

theorem fits (h : LockEvent s k u) (hs : (s.lock k).Sound) (hf : s.FitsAt k) : u.FitsAt k := by
  rcases h.effect_or_derives with h' | hd
  · exact h'.fits hs hf
  · have hc : u.lockClass k = s.lockClass k := by rw [lockClass_eq, hd.cls, h.touches.desc, lockClass_eq]
    unfold State.FitsAt
    rw [hc]
    exact Derives.fits hd hf.1 hf.2

/-- Only an ATTACHED agent comes to a lock (R31). -/
theorem noTrace (h : LockEvent s k u) {b : AgentId} (hb : (s.agent b).status ≠ .attached) (hn : s.NoTrace b k) :
    u.NoTrace b k := by
  rcases h.effect_or_derives with h' | hd
  · exact h'.noTrace hb hn
  · rw [noTrace_iff] at hn ⊢
    exact mt (Derives.parties hd b) hn

/-- An event at a lock serves an agent, or charges it while it is ATTACHED. -/
theorem agents (h : LockEvent s k u) (b : AgentId) :
    Served (s.agent b) (u.agent b) ∨ ∃ c, u.agent b = (s.agent b).pay c ∧ (s.agent b).status = .attached := by
  cases h with
  | effect h => exact h.agents b
  | detachVisit f a => exact Or.inl (served_detachVisit s k b a)
  | clearVisit => exact Or.inl (served_clearVisit s k b)

end LockEvent

/-! ## The tables under an effect -/

/-- The lock table stays as it is; a class gets a new descriptor only while no lock uses it (R100), and the counter
advances only while no deadline is due (R142). -/
structure TablesStay (s t : State) : Prop where
  lock : ∀ k, t.lock k = s.lock k
  useCount : ∀ c, (t.cls c).useCount = (s.cls c).useCount
  desc : ∀ c, (t.cls c).desc = (s.cls c).desc ∨ (s.cls c).useCount = 0
  units : t.units = s.units ∨ (t.units = s.units + 1 ∧ s.anyDue = false)

theorem TablesStay.of_eq (hl : ∀ k, t.lock k = s.lock k) (hc : ∀ c, t.cls c = s.cls c) (hu : t.units = s.units) :
    TablesStay s t :=
  ⟨hl, fun c => by rw [hc], fun c => Or.inl (by rw [hc]), Or.inl hu⟩

/-- What an effect makes of the tables: they stay, or one event happens at one lock, after which a sweep may be at its
next position, or they are reset. -/
inductive TableChange (s : State) : State → Prop where
  | stay {t : State} (h : TablesStay s t) : TableChange s t
  | event (k : LockId) (u : State) (f : Option SweepFlight) (h : LockEvent s k u) :
      TableChange s { u with inFlight := f }
  | reset : TableChange s State.reset

theorem tablesStay_commit (s : State) (i : ClassId) (d : ClassDesc) (h : (s.cls i).useCount = 0) :
    TablesStay s (s.setClass i { s.cls i with desc := d }) := by
  refine ⟨fun _ => rfl, fun c => ?_, fun c => ?_, Or.inl rfl⟩
  · rw [cls_setClass]
    split
    · rename_i hc; rw [hc]
    · rfl
  · by_cases hc : c = i
    · exact Or.inr (hc ▸ h)
    · exact Or.inl (by rw [cls_setClass_ne _ _ _ _ hc])

theorem tablesStay_retired (s : State) (a x : AgentId) : TablesStay s (s.retired a x) := by
  refine .of_eq (fun k => ?_) (fun c => ?_) ?_
  all_goals
    unfold State.retired
    split <;> simp

theorem Effect.tables (h : Effect s t) : TableChange s t := by
  cases h with
  | lock k h => exact .event k _ _ (.effect h)
  | detachVisit f a hf hj h => exact .event _ _ _ (.detachVisit f a hf hj)
  | clearVisit f hf hj h => exact .event _ _ _ .clearVisit
  | reset => exact .reset
  | commit i d h => exact .stay (tablesStay_commit s i d h)
  | advance hp hd => exact .stay ⟨fun _ => rfl, fun _ => rfl, fun _ => Or.inl rfl, Or.inr ⟨rfl, hd⟩⟩
  | retire a x => exact .stay (tablesStay_retired s a x)
  | clear a => exact .stay (.of_eq (by simp) (by simp) (by simp))
  | complete f => exact .stay (.of_eq (by simp) (by simp) (by simp))
  | same | attach | give | take | pop | configure | prescale | tick =>
    exact .stay (.of_eq (fun _ => rfl) (fun _ => rfl) rfl)

/-! ## Laws of each lock -/

/-- A law about each lock by itself is kept if it holds of a lock just reset and every event at a lock keeps it
there. -/
theorem TableChange.each_lock {P : LockEntry → Prop} (h : TableChange s t) (hr : P .reset)
    (he : ∀ k u, LockEvent s k u → P (s.lock k) → P (u.lock k)) (hs : ∀ k, P (s.lock k)) (k : LockId) :
    P (t.lock k) := by
  cases h with
  | stay h => rw [h.lock]; exact hs k
  | event j u f h =>
    rw [lock_with_inFlight]
    by_cases hk : k = j
    · rw [hk]; exact he j u h (hs j)
    · rw [h.touches.lock k hk]; exact hs k
  | reset => rw [reset_lock]; exact hr

theorem Effect.lockLaw (h : Effect s t) (hs : s.LockLaw) : t.LockLaw :=
  h.tables.each_lock LockEntry.reset_sound (fun _ _ he => he.sound) hs

theorem Effect.ticketLaw (h : Effect s t) (hl : s.LockLaw) (hs : s.TicketLaw) : t.TicketLaw :=
  h.tables.each_lock (P := LockEntry.TicketOk) (fun _ _ hr => nomatch hr)
    (fun k _ he => he.ticketOk (hl k)) hs

/-! ## Laws across the tables -/

theorem Effect.poolLaw (h : Effect s t) (hs : s.PoolLaw) : t.PoolLaw := by
  cases h.tables with
  | stay hst =>
    simpa only [State.PoolLaw, State.linkedNumbers, hst.lock] using hs
  | event k u f he => exact he.pool hs
  | reset => exact reset_sane.pool

/-- A lock counts no more towards a class than all locks together. -/
theorem counts_le_total (s : State) (k : LockId) (c : ClassId) :
    (s.lock k).counts c ≤ s.total (LockEntry.counts c) :=
  List.le_sum_of_mem (List.mem_map_of_mem (f := fun j => (s.lock j).counts c) (mem_allLocks k))

theorem useLaw_iff (s : State) : s.UseLaw ↔ ∀ c, (s.cls c).useCount = s.total (LockEntry.counts c) := by
  simp only [State.UseLaw, useCount_total]

theorem LockEvent.useLaw (h : LockEvent s k u) (hl : s.LockLaw) (hs : s.UseLaw) : u.UseLaw := by
  rw [useLaw_iff] at hs ⊢
  intro c
  have hacc := (h.accounts (hl k)).account c (hs c ▸ counts_le_total s k c)
  have htot := h.touches.total (LockEntry.counts c)
  have := hs c
  omega

theorem Effect.useLaw (h : Effect s t) (hl : s.LockLaw) (hs : s.UseLaw) : t.UseLaw := by
  cases h.tables with
  | stay hst =>
    rw [useLaw_iff] at hs ⊢
    simpa only [State.total, hst.lock, hst.useCount] using hs
  | event k u f he => exact he.useLaw hl hs
  | reset => exact reset_sane.uses

/-- A lock whose class is unused is CLOSED, and so is empty (R6, R98). -/
theorem empty_of_unused (hl : s.LockLaw) (hs : s.UseLaw) (h : (s.cls (s.lock k).cls).useCount = 0) :
    (s.lock k).holders = [] ∧ (s.lock k).queue = [] := by
  have hk := counts_le_total s k (s.lock k).cls
  rw [← (useLaw_iff s).1 hs, h] at hk
  have hc : (s.lock k).state = .closed := by
    by_contra hn
    simp [LockEntry.counts, hn] at hk
  obtain ⟨hh, hq, _⟩ := (hl k).closed hc
  exact ⟨hh, hq⟩

theorem Effect.classLaw (h : Effect s t) (hl : s.LockLaw) (hu : s.UseLaw) (hs : s.ClassLaw) : t.ClassLaw := by
  intro k
  show t.FitsAt k
  cases h.tables with
  | stay hst =>
    unfold State.FitsAt
    rw [hst.lock, lockClass_eq, hst.lock]
    rcases hst.desc (s.lock k).cls with hd | h0
    · rw [hd]; exact hs k
    · obtain ⟨hh, hq⟩ := empty_of_unused hl hu h0
      simp [hh, hq]
  | event j u f he =>
    show u.FitsAt k
    by_cases hk : k = j
    · subst hk; exact he.fits (hl k) (hs k)
    · unfold State.FitsAt
      rw [he.touches.lock k hk, lockClass_eq, he.touches.lock k hk, he.touches.desc]
      exact hs k
  | reset => exact reset_sane.classes k

/-- While no deadline is due an advance leaves every deadline near (R142). -/
theorem nearAt_advance (hd : s.anyDue = false) (hs : s.NearAt k) :
    (∀ r ∈ (s.lock k).holders, deadlineNear (s.units + 1) r.deadline) ∧
      ∀ w ∈ (s.lock k).queue, deadlineNear (s.units + 1) w.deadline := by
  have hk : (s.lock k).anyDue s.units = false := by
    have := List.any_eq_false.1 hd (s.lock k) (by simp [State.lock])
    simpa using this
  obtain ⟨hh, hq⟩ := Bool.or_eq_false_iff.1 hk
  exact ⟨fun r hr => deadlineNear_advance (hs.1 r hr) (by simpa using List.any_eq_false.1 hh r hr),
    fun w hw => deadlineNear_advance (hs.2 w hw) (by simpa using List.any_eq_false.1 hq w hw)⟩

theorem Effect.deadlineLaw (h : Effect s t) (hs : s.DeadlineLaw) : t.DeadlineLaw := by
  intro k
  cases h.tables with
  | stay hst =>
    rw [hst.lock]
    rcases hst.units with hu | ⟨hu, hd⟩
    · rw [hu]; exact hs k
    · rw [hu]; exact nearAt_advance hd (hs k)
  | event j u f he =>
    show u.NearAt k
    by_cases hk : k = j
    · subst hk; exact he.near (hs k)
    · unfold State.NearAt
      rw [he.touches.lock k hk, he.touches.units]
      exact hs k
  | reset => exact reset_sane.deadlines k

/-! ## States alike -/

namespace Alike

theorem lockLaw (h : Alike s t) : s.LockLaw → t.LockLaw := by
  simp only [State.LockLaw, h.lock, imp_self]

theorem ticketLaw (h : Alike s t) : s.TicketLaw → t.TicketLaw := by
  simp only [State.TicketLaw, h.lock, imp_self]

theorem useLaw (h : Alike s t) : s.UseLaw → t.UseLaw := by
  simp only [useLaw_iff, State.total, h.cls, h.lock, imp_self]

theorem classLaw (h : Alike s t) : s.ClassLaw → t.ClassLaw := by
  simp only [State.ClassLaw, h.lock, h.lockClass, imp_self]

theorem poolLaw (h : Alike s t) : s.PoolLaw → t.PoolLaw := by
  simp only [State.PoolLaw, State.linkedNumbers, h.lock, imp_self]

theorem deadlineLaw (h : Alike s t) : s.DeadlineLaw → t.DeadlineLaw := by
  simp only [State.DeadlineLaw, h.lock, h.units, imp_self]

theorem noTrace (h : Alike s t) (a : AgentId) (k : LockId) : t.NoTrace a k ↔ s.NoTrace a k := by
  simp only [State.NoTrace, h.lock]

end Alike

/-- Settles O55: what a step does at a lock leaves it sound, and the other locks it leaves alone. -/
theorem stepKeepsLocksSound : Obligations.StepKeepsLocksSound :=
  fun _ _ hs h => step_keeps (fun _ _ => Alike.lockLaw) (fun _ _ => Effect.lockLaw) h hs

end Sys2Proof.Machine
end

section
/-! What a step can do to one agent's entry, and the laws of the notice unit, the supervisor right and the timebase,
which every effect keeps (R115, R126, R132, R134, R138). -/
namespace Sys2Proof.Machine

variable {s t : State} {b : AgentId} {e : AgentEntry}

/-! ## Agents under the compound effects -/

theorem modAgent_agent (s : State) (a b : AgentId) (f : AgentEntry → AgentEntry) :
    (s.modAgent a f).agent b = if b = a then f (s.agent b) else s.agent b := by
  rw [modAgent_eq, agent_setAgent]
  split
  · rename_i h; rw [h]
  · rfl

theorem retired_agent (s : State) (a x b : AgentId) : (s.retired a x).agent b =
    if b = x then (s.agent b).enterDetaching else if b = a then (s.agent b).payRequest else s.agent b := by
  unfold State.retired
  rw [modAgent_agent]
  by_cases hx : b = x
  · by_cases ha : x = a
    · simp [hx, ha]
    · simp only [if_neg ha, modAgent_agent, hx, request_agent]
  · by_cases ha : x = a
    · simp only [if_neg hx, if_pos ha, if_neg (ha ▸ hx : b ≠ a), request_agent]
    · simp only [if_neg hx, if_neg ha, modAgent_agent, request_agent]

/-- SWEEP_DONE goes to the attachment that asked for the sweep, and to no other (R157, step 2). -/
theorem addressSweepDone_agent (s : State) (r : SweepRequest) (b : AgentId) : (s.addressSweepDone r).agent b =
    if (s.agent b).status = .attached ∧ r.requester = some (b, (s.agent b).epoch) then
      (s.agent b).receive (.sweepDone r.job (stamp s.units))
    else s.agent b := by
  unfold State.addressSweepDone
  cases hr : r.requester with
  | none => simp
  | some q =>
    obtain ⟨c, ep⟩ := q
    by_cases hb : b = c
    · subst hb
      simp only [State.requesterPresent, Bool.and_eq_true, beq_iff_eq, Option.some.injEq, Prod.mk.injEq, true_and,
        eq_comm (a := ep)]
      split
      · rw [notify_eq, agent_setAgent_self]
      · rfl
    · have hc : ¬ c = b := fun h => hb h.symm
      simp only [Option.some.injEq, Prod.mk.injEq, hc, false_and, and_false, if_false]
      split
      · rw [notify_eq, agent_setAgent_ne _ _ _ _ hb]
      · rfl

theorem completeSweep_agent_target (s : State) {r : SweepRequest} (h : r.job = .detach b) :
    (s.completeSweep r).agent b = (s.agent b).becomeAbsent := by
  have hj : (s.completeJob r.job).agent b = (s.agent b).becomeAbsent := by
    rw [h, State.completeJob, modAgent_agent, if_pos rfl]
  have habs : (s.agent b).becomeAbsent.status ≠ .attached := by simp [AgentEntry.becomeAbsent, AgentEntry.drive]
  rw [completeSweep_agent, addressSweepDone_agent, hj, if_neg fun hn => habs hn.1]

theorem completeSweep_agent_other (s : State) {r : SweepRequest} (h : r.job ≠ .detach b) :
    (s.completeSweep r).agent b =
      if (s.agent b).status = .attached ∧ r.requester = some (b, (s.agent b).epoch) then
        (s.agent b).receive (.sweepDone r.job (stamp s.units))
      else s.agent b := by
  have hj : (s.completeJob r.job).agent b = s.agent b ∧ (s.completeJob r.job).units = s.units := by
    unfold State.completeJob
    split
    · rename_i x hx
      exact ⟨by rw [modAgent_agent, if_neg]; exact fun hb => h (hb ▸ hx), rfl⟩
    · exact ⟨rfl, rfl⟩
  rw [completeSweep_agent, addressSweepDone_agent, hj.1, hj.2]

/-! ## What an effect makes of an agent's entry -/

/-- What an effect that leads from `s` to `t` makes of agent `b`'s entry: notices and credits, a charge while it is
ATTACHED, or one of the changes that a command or a completion names. -/
inductive AgentChange (s t : State) (b : AgentId) : AgentEntry → Prop where
  | served {e : AgentEntry} (h : Served (s.agent b) e) : AgentChange s t b e
  | charged (c : Nat) (h : (s.agent b).status = .attached) : AgentChange s t b ((s.agent b).pay c)
  | attached (h : (s.agent b).status = .absent) : AgentChange s t b (s.agent b).attach
  | retired (h : (s.agent b).status = .attached) : AgentChange s t b (s.agent b).enterDetaching
  | given : AgentChange s t b { s.agent b with supervisor := true }
  | taken (h : s.lastSupervisor b = false) (ht : t = s.modAgent b fun e => { e with supervisor := false }) :
      AgentChange s t b { s.agent b with supervisor := false }
  | popped (n : Notice) (rest : List Notice) (h : (s.agent b).notices = n :: rest) :
      AgentChange s t b ((s.agent b).pop n rest)
  | configured (w : Word) : AgentChange s t b ((s.agent b).configureNotify w)
  | completed (f : SweepFlight) (hf : s.inFlight = some f) (hj : f.request.job = .detach b)
      (hp : f.position.val = Config.locks) : AgentChange s t b (s.agent b).becomeAbsent
  | reset (ht : t = State.reset) : AgentChange s t b (AgentEntry.reset (decide (b = 0)))

namespace AgentChange

theorem refl : AgentChange s t b (s.agent b) := .served .refl

theorem of_modAgent {a : AgentId} {f : AgentEntry → AgentEntry} (h : b = a → AgentChange s t b (f (s.agent b))) :
    AgentChange s t b ((s.modAgent a f).agent b) := by
  rw [modAgent_agent]
  split
  · exact h ‹_›
  · exact refl

theorem of_payRequest : AgentChange s t b (s.agent b).payRequest := by
  unfold AgentEntry.payRequest
  split
  · exact .charged 1 ‹_›
  · exact refl

theorem of_event {u : State} {k : LockId} (h : LockEvent s k u) : AgentChange s t b (u.agent b) := by
  rcases h.agents b with hs | ⟨c, hc, ha⟩
  · exact .served hs
  · rw [hc]; exact .charged c ha

theorem of_complete {f : SweepFlight} (hf : s.inFlight = some f) (hp : f.position.val = Config.locks) :
    AgentChange s t b ((s.completeSweep f.request).agent b) := by
  by_cases hj : f.request.job = .detach b
  · rw [completeSweep_agent_target s hj]; exact .completed f hf hj hp
  · rw [completeSweep_agent_other s hj]
    split
    · exact .served (Served.refl.receive _)
    · exact refl

end AgentChange

theorem Effect.agent (h : Effect s t) (b : AgentId) : AgentChange s t b (t.agent b) := by
  cases h with
  | same | commit | prescale | advance | tick => exact .refl
  | attach a h => exact .of_modAgent fun hb => .attached (hb ▸ h)
  | retire a x hx =>
    rw [retired_agent]
    split
    · rename_i hb; exact .retired (hb ▸ hx)
    split
    · exact .of_payRequest
    · exact .refl
  | clear a =>
    rw [modAgent_agent, request_agent]
    split
    · exact .of_payRequest
    · exact .refl
  | give a => exact .of_modAgent fun _ => .given
  | take a h => exact .of_modAgent fun hb => .taken (hb ▸ h) (hb ▸ rfl)
  | pop a n rest h => exact .of_modAgent fun hb => .popped n rest (hb ▸ h)
  | configure a w => exact .of_modAgent fun _ => .configured w
  | lock k h => exact .of_event (.effect h)
  | detachVisit f a hf hj h => exact .of_event (u := s.detachVisit a _) (.detachVisit f a hf hj)
  | clearVisit f hf hj h => exact .of_event (u := s.clearVisit _) .clearVisit
  | complete f hf h => exact .of_complete hf h
  | reset => rw [reset_agent]; exact .reset rfl

namespace AgentChange

/-- Whatever changes what the notify line follows drives it again (R134). -/
theorem line (h : AgentChange s t b e) (hl : (s.agent b).lineLow = (s.agent b).lineCondition) :
    e.lineLow = e.lineCondition := by
  cases h with
  | served h => exact h.line hl
  | charged | given | taken => exact hl
  | attached | retired | popped | configured | completed | reset => rfl

/-- An empty queue has its latch clear (R132). -/
theorem latch (h : AgentChange s t b e) (hq : (s.agent b).notices = [] → (s.agent b).latch = false) :
    e.notices = [] → e.latch = false := by
  cases h with
  | served h => exact h.quiet hq
  | charged | given | taken | completed => exact hq
  | attached | retired | popped | configured | reset => exact fun _ => rfl

theorem pop_status (e : AgentEntry) (n : Notice) (rest : List Notice) : (e.pop n rest).status = e.status :=
  e.regain_status 1

/-- Only an ATTACHED agent has notices, if a completion finds its target DETACHING (R126). -/
theorem quiet (h : AgentChange s t b e) (hs : s.SweepLaw)
    (hq : (s.agent b).status ≠ .attached → (s.agent b).notices = []) :
    e.status ≠ .attached → e.notices = [] := by
  cases h with
  | served h =>
    intro he
    rw [h.keeps.status] at he
    rw [h.not_attached he]
    exact hq he
  | charged c ha => exact fun he => absurd ha he
  | attached => exact fun he => absurd rfl he
  | retired | reset => exact fun _ => rfl
  | given | taken | configured => exact hq
  | popped n rest h =>
    rw [pop_status]
    intro he
    rw [hq he] at h
    cases h
  | completed f hf hj =>
    intro _
    have hd : (s.agent b).status = .detaching := (hs.detaching b).2 (by simp [State.outstanding, hf, hj])
    exact hq (by rw [hd]; decide)

/-- A DETACHING agent's credits are frozen, and its last credits were those of the ATTACHED agent (R111, R123). -/
theorem detaching_credits (h : AgentChange s t b e) (he : e.status = .detaching) : e.credits ≤ (s.agent b).credits := by
  cases h with
  | served h =>
    rw [h.keeps.status] at he
    rw [h.not_attached (by rw [he]; decide)]
  | charged c => exact Nat.sub_le _ _
  | attached => cases he
  | retired | given | taken | configured => exact le_refl _
  | popped n rest =>
    rw [pop_status] at he
    have hn : (s.agent b).status ≠ .attached := by rw [he]; decide
    show ((s.agent b).regain 1).credits ≤ _
    rw [AgentEntry.regain_not_attached _ _ hn]
  | completed => cases he
  | reset => cases he

/-- An ABSENT agent was ABSENT before and is left alone, unless its detach sweep completed or the part was reset. -/
theorem absent (h : AgentChange s t b e) (he : e.status = .absent) (hs : (s.agent b).status = .absent →
    (s.agent b).notices = []) :
    ((s.agent b).status = .absent ∧ e.credits = (s.agent b).credits ∧ e.notices = (s.agent b).notices) ∨
      (∃ f, s.inFlight = some f ∧ f.request.job = .detach b ∧ f.position.val = Config.locks ∧
        e = (s.agent b).becomeAbsent) ∨ t = State.reset := by
  cases h with
  | served h =>
    rw [h.keeps.status] at he
    rw [h.not_attached (by rw [he]; decide)]
    exact Or.inl ⟨he, rfl, rfl⟩
  | charged c ha => rw [show ((s.agent b).pay c).status = (s.agent b).status from rfl, ha] at he; cases he
  | attached => cases he
  | retired => cases he
  | given | taken | configured => exact Or.inl ⟨he, rfl, rfl⟩
  | popped n rest h =>
    rw [pop_status] at he
    rw [hs he] at h
    cases h
  | completed f hf hj hp => exact Or.inr (Or.inl ⟨f, hf, hj, hp, rfl⟩)
  | reset ht => exact Or.inr (Or.inr ht)

end AgentChange

/-! ## The laws of notices and of the supervisor right -/

theorem Effect.lineLaw (h : Effect s t) (hs : s.LineLaw) : t.LineLaw := fun b => (h.agent b).line (hs b)

theorem Effect.quietLaw (h : Effect s t) (hw : s.SweepLaw) (hs : s.QuietLaw) : t.QuietLaw :=
  fun b => ⟨(h.agent b).quiet hw (hs b).1, (h.agent b).latch (hs b).2⟩

/-- The right is taken from an agent only while another holds it (R117). -/
theorem supervisorLaw_take {x : AgentId} (h : s.lastSupervisor x = false) (hx : (s.agent x).supervisor = true) :
    (s.modAgent x fun e => { e with supervisor := false }).SupervisorLaw := by
  simp only [State.lastSupervisor, hx, Bool.true_and, List.all_eq_false, Bool.or_eq_true, beq_iff_eq,
    Bool.not_eq_true', not_or, Bool.not_eq_false] at h
  obtain ⟨b, _, hb, hsup⟩ := h
  exact ⟨b, by rw [modAgent_agent, if_neg hb]; exact hsup⟩

theorem Effect.supervisorLaw (h : Effect s t) (hs : s.SupervisorLaw) : t.SupervisorLaw := by
  obtain ⟨a, ha⟩ := hs
  have hc := h.agent a
  generalize he : t.agent a = e at hc
  cases hc with
  | served hv => exact ⟨a, by rw [he, hv.keeps.supervisor]; exact ha⟩
  | popped n rest => exact ⟨a, by rw [he]; exact ((s.agent a).regain_supervisor 1).trans ha⟩
  | charged | attached | retired | configured | completed => exact ⟨a, by rw [he]; exact ha⟩
  | given => exact ⟨a, by rw [he]⟩
  | taken hl ht => rw [ht]; exact supervisorLaw_take hl ha
  | reset ht => rw [ht]; exact reset_sane.supervisor

/-! ## The division of REFCLK -/

/-- What an effect makes of the prescaler's count: nothing, a new start, or one period more (R138, R139). -/
theorem Effect.division (h : Effect s t) :
    (t.prescaler = s.prescaler ∧ t.refCount = s.refCount) ∨ t.refCount = 0 ∨
      (t.prescaler = s.prescaler ∧ t.refCount = s.refCount + 1 ∧ s.refCount.toNat + 1 < s.prescaler.toNat) := by
  cases h with
  | same | attach | give | take | pop | configure | commit => exact Or.inl ⟨rfl, rfl⟩
  | retire a x => left; unfold State.retired; split <;> simp
  | clear a => left; simp
  | complete f => left; simp
  | lock k h => exact Or.inl ⟨h.touches.prescaler, h.touches.refCount⟩
  | detachVisit f a => exact Or.inl ⟨(touches_detachVisit s _ a).prescaler, (touches_detachVisit s _ a).refCount⟩
  | clearVisit f => exact Or.inl ⟨(touches_clearVisit s _).prescaler, (touches_clearVisit s _).refCount⟩
  | prescale | advance | reset => exact Or.inr (Or.inl rfl)
  | tick h => exact Or.inr (Or.inr ⟨rfl, rfl, h⟩)

theorem Effect.divisionLaw (h : Effect s t) (hs : s.DivisionLaw) : t.DivisionLaw := by
  rcases h.division with ⟨hp, hc⟩ | hc | ⟨hp, hc, hlt⟩
  · unfold State.DivisionLaw
    rw [hp, hc]
    exact hs
  · exact ⟨fun _ => hc, fun hp => by rw [hc]; bv_omega⟩
  · exact ⟨fun h0 => absurd (hp.symm.trans h0) (by bv_omega), fun _ => by rw [hp, hc]; bv_omega⟩

/-! ## States alike -/

theorem SameStanding.lineCondition {e e' : AgentEntry} (h : SameStanding e e') :
    e'.lineCondition = e.lineCondition := by
  simp only [AgentEntry.lineCondition, h.status, h.notifyEnable, h.notifyMode, h.notices, h.latch]

namespace Alike

theorem lineLaw (h : Alike s t) (hs : s.LineLaw) : t.LineLaw := fun b => by
  rw [(h.agents b).lineLow, (h.agents b).lineCondition]
  exact hs b

theorem quietLaw (h : Alike s t) (hs : s.QuietLaw) : t.QuietLaw := fun b => by
  rw [(h.agents b).status, (h.agents b).notices, (h.agents b).latch]
  exact hs b

theorem supervisorLaw (h : Alike s t) (hs : s.SupervisorLaw) : t.SupervisorLaw := by
  obtain ⟨a, ha⟩ := hs
  exact ⟨a, (h.agents a).supervisor.trans ha⟩

theorem divisionLaw (h : Alike s t) (hs : s.DivisionLaw) : t.DivisionLaw := by
  unfold State.DivisionLaw
  rw [h.prescaler, h.refCount]
  exact hs

end Alike

end Sys2Proof.Machine
end

section
/-! What a step can do to the sweep engine, and the laws of the sweep queue, the sweep in flight, the ABSENT agents and
the requesters, which every effect keeps (R108, R147, R148, R152, R157). -/
namespace Sys2Proof.Machine

variable {s t u : State} {b : AgentId} {k : LockId}

/-! ## The engine under an effect -/

/-- The sweep engine and every agent's state and epoch stay as they are. -/
structure SweepsStay (s t : State) : Prop where
  sweepQueue : t.sweepQueue = s.sweepQueue
  inFlight : t.inFlight = s.inFlight
  status : ∀ b, (t.agent b).status = (s.agent b).status
  epoch : ∀ b, (t.agent b).epoch = (s.agent b).epoch

namespace SweepsStay

theorem refl (s : State) : SweepsStay s s := ⟨rfl, rfl, fun _ => rfl, fun _ => rfl⟩

theorem modAgent {a : AgentId} {f : AgentEntry → AgentEntry} (hs : (f (s.agent a)).status = (s.agent a).status)
    (he : (f (s.agent a)).epoch = (s.agent a).epoch) : SweepsStay s (s.modAgent a f) := by
  refine ⟨rfl, rfl, fun b => ?_, fun b => ?_⟩
  all_goals
    rw [modAgent_agent]
    split
    · rename_i hb; subst hb; assumption
    · rfl

theorem outstanding (h : SweepsStay s t) : t.outstanding = s.outstanding := by
  simp only [State.outstanding, h.sweepQueue, h.inFlight]

theorem requesterPresent (h : SweepsStay s t) (q : AgentId × BitVec 8) :
    t.requesterPresent q = s.requesterPresent q := by
  simp only [State.requesterPresent, h.status, h.epoch]

end SweepsStay

theorem Alike.sweepsStay (h : Alike s t) : SweepsStay s t :=
  ⟨h.sweepQueue, h.inFlight, fun b => (h.agents b).status, fun b => (h.agents b).epoch⟩

theorem LockEvent.status (h : LockEvent s k u) (b : AgentId) :
    (u.agent b).status = (s.agent b).status ∧ (u.agent b).epoch = (s.agent b).epoch := by
  rcases h.agents b with h | ⟨c, h, _⟩
  · exact ⟨h.keeps.status, h.keeps.epoch⟩
  · rw [h]; exact ⟨rfl, rfl⟩

theorem LockEvent.sweepsStay (h : LockEvent s k u) : SweepsStay s u :=
  ⟨h.touches.sweepQueue, h.touches.inFlight, fun b => (h.status b).1, fun b => (h.status b).2⟩

/-- What an effect makes of the sweep engine and of the states of agents: they stay, an agent attaches, a request is
accepted, the sweep in flight goes to its next position, or it completes. -/
inductive SweepChange (s : State) : State → Prop where
  | stay {t : State} (h : SweepsStay s t) : SweepChange s t
  | attach (a : AgentId) (h : (s.agent a).status = .absent) : SweepChange s (s.modAgent a AgentEntry.attach)
  | retire (a x : AgentId) (hx : (s.agent x).status = .attached) (hf : s.sweepFull = false) :
      SweepChange s (s.retired a x)
  | clear (a : AgentId) (ho : s.clearOutstanding = false) (hf : s.sweepFull = false) :
      SweepChange s ((s.request { job := .clear, requester := s.requesterOf a }).modAgent a AgentEntry.payRequest)
  | visit (f : SweepFlight) (hp : f.position.val < Config.locks) (u : State) (hf : s.inFlight = some f)
      (h : SweepsStay s u) : SweepChange s (u.advancePosition f hp)
  | complete (f : SweepFlight) (hf : s.inFlight = some f) : SweepChange s (s.completeSweep f.request)
  | reset : SweepChange s State.reset

theorem Effect.sweeps (h : Effect s t) : SweepChange s t := by
  cases h with
  | same | commit | prescale | advance | tick => exact .stay ⟨rfl, rfl, fun _ => rfl, fun _ => rfl⟩
  | attach a h => exact .attach a h
  | retire a x hx hc hf => exact .retire a x hx hf
  | clear a ho hc hf => exact .clear a ho hf
  | give | take | configure => exact .stay (.modAgent rfl rfl)
  | pop a n rest => exact .stay (.modAgent (AgentEntry.regain_status _ 1) (AgentEntry.regain_epoch _ 1))
  | lock k h => exact .stay (LockEvent.effect h).sweepsStay
  | detachVisit f a hf hj h => exact .visit f h _ hf (LockEvent.detachVisit f a hf hj).sweepsStay
  | clearVisit f hf hj h => exact .visit f h _ hf LockEvent.clearVisit.sweepsStay
  | complete f hf h => exact .complete f hf
  | reset => exact .reset

/-! ## Accepted requests -/

theorem payRequest_status (e : AgentEntry) : e.payRequest.status = e.status := by
  unfold AgentEntry.payRequest
  split <;> rfl

theorem payRequest_epoch (e : AgentEntry) : e.payRequest.epoch = e.epoch := by
  unfold AgentEntry.payRequest
  split <;> rfl

/-- The request that a retirement of `x` by `a` queues (R110, R150). -/
def State.retireRequest (s : State) (a x : AgentId) : SweepRequest :=
  { job := .detach x, requester := if x = a then none else s.requesterOf a }

/-- A retirement changes the sweep engine as its request does. -/
theorem retired_engine (s : State) (a x : AgentId) :
    (s.retired a x).sweepQueue = (s.request (s.retireRequest a x)).sweepQueue ∧
      (s.retired a x).inFlight = (s.request (s.retireRequest a x)).inFlight := by
  unfold State.retired State.retireRequest
  split <;> exact ⟨rfl, rfl⟩

theorem retired_status (s : State) (a x b : AgentId) :
    ((s.retired a x).agent b).status = if b = x then .detaching else (s.agent b).status := by
  rw [retired_agent]
  split
  · rfl
  split
  · exact payRequest_status _
  · rfl

theorem retired_epoch (s : State) (a x b : AgentId) : ((s.retired a x).agent b).epoch = (s.agent b).epoch := by
  rw [retired_agent]
  split
  · rfl
  split
  · exact payRequest_epoch _
  · rfl

theorem sweepsStay_payRequest (s : State) (a : AgentId) : SweepsStay s (s.modAgent a AgentEntry.payRequest) :=
  .modAgent (payRequest_status _) (payRequest_epoch _)

theorem outstanding_of_request (hw : s.SweepLaw) {r : SweepRequest} (hq : t.sweepQueue = (s.request r).sweepQueue)
    (hf : t.inFlight = (s.request r).inFlight) : t.outstanding = s.outstanding ++ [r] := by
  rw [← request_outstanding s r hw.idle]
  simp only [State.outstanding, hq, hf]

theorem retired_outstanding (hw : s.SweepLaw) (a x : AgentId) :
    (s.retired a x).outstanding = s.outstanding ++ [s.retireRequest a x] :=
  outstanding_of_request hw (retired_engine s a x).1 (retired_engine s a x).2

theorem clear_outstanding (hw : s.SweepLaw) (a : AgentId) (r : SweepRequest) :
    ((s.request r).modAgent a AgentEntry.payRequest).outstanding = s.outstanding ++ [r] :=
  outstanding_of_request hw rfl rfl

/-- After a request the engine is busy, and at most one request more waits (R148). -/
theorem request_engine (s : State) (r : SweepRequest) :
    (s.request r).inFlight ≠ none ∧ (s.request r).sweepQueue.length ≤ s.sweepQueue.length + 1 := by
  unfold State.request State.engineTake
  cases hf : s.inFlight with
  | some f => simp
  | none => cases hq : s.sweepQueue <;> simp

theorem clearOutstanding_eq_false :
    s.clearOutstanding = false ↔ SweepJob.clear ∉ s.outstanding.map SweepRequest.job := by
  simp [State.clearOutstanding, SweepRequest.isClear]

/-! ## The sweep queue -/

theorem State.SweepLaw.of_outstanding (hw : s.SweepLaw) (hq : t.sweepQueue = s.sweepQueue)
    (hi : t.inFlight = none → s.inFlight = none)
    (ho : t.outstanding = s.outstanding)
    (hd : ∀ b, (t.agent b).status = .detaching ↔ (s.agent b).status = .detaching) : t.SweepLaw where
  slots := hq ▸ hw.slots
  idle h := hq ▸ hw.idle (hi h)
  once := ho ▸ hw.once
  detaching b := by rw [hd, ho]; exact hw.detaching b

/-- A request for a new job, whose target becomes DETACHING if it names one, keeps the queue in order (R147, R150). -/
theorem State.SweepLaw.of_request (hw : s.SweepLaw) {r : SweepRequest} (hfull : s.sweepFull = false)
    (hq : t.sweepQueue = (s.request r).sweepQueue) (hf : t.inFlight = (s.request r).inFlight)
    (hnew : r.job ∉ s.outstanding.map SweepRequest.job)
    (hd : ∀ b, (t.agent b).status = .detaching ↔ (s.agent b).status = .detaching ∨ r.job = .detach b) :
    t.SweepLaw := by
  obtain ⟨hbusy, hlen⟩ := request_engine s r
  have ho := outstanding_of_request hw hq hf
  have hslots : s.sweepQueue.length < 4 := by simpa [State.sweepFull] using hfull
  refine ⟨by rw [hq]; omega, fun h => absurd (hf ▸ h) hbusy, ?_, fun b => ?_⟩
  · rw [ho, List.map_append, List.nodup_append_comm]
    exact List.nodup_cons.2 ⟨hnew, hw.once⟩
  · rw [hd, hw.detaching, ho, List.map_append, List.mem_append, List.map_singleton, List.mem_singleton,
      eq_comm (a := r.job)]

theorem outstanding_cons {f : SweepFlight} (hf : s.inFlight = some f) : s.outstanding = f.request :: s.sweepQueue := by
  simp [State.outstanding, hf]

/-- The target of the detach sweep in flight is DETACHING (R147). -/
theorem State.SweepLaw.target (hw : s.SweepLaw) {f : SweepFlight} (hf : s.inFlight = some f) {a : AgentId}
    (hj : f.request.job = .detach a) : (s.agent a).status = .detaching :=
  (hw.detaching a).2 (by simp [outstanding_cons hf, hj])

theorem completeSweep_status (s : State) (r : SweepRequest) (b : AgentId) :
    ((s.completeSweep r).agent b).status = if r.job = .detach b then .absent else (s.agent b).status := by
  by_cases hj : r.job = .detach b
  · rw [completeSweep_agent_target s hj, if_pos hj]; rfl
  · rw [completeSweep_agent_other s hj, if_neg hj]
    split <;> simp

theorem completeSweep_epoch (s : State) (r : SweepRequest) (b : AgentId) :
    ((s.completeSweep r).agent b).epoch = (s.agent b).epoch := by
  by_cases hj : r.job = .detach b
  · rw [completeSweep_agent_target s hj]; rfl
  · rw [completeSweep_agent_other s hj]
    split <;> simp

/-- A completion takes the oldest request off, and its target is DETACHING no more (R157). -/
theorem State.SweepLaw.complete (hw : s.SweepLaw) {f : SweepFlight} (hf : s.inFlight = some f) :
    (s.completeSweep f.request).SweepLaw := by
  obtain ⟨hfl, hq⟩ := completeSweep_engine s f.request
  have honce := hw.once
  rw [outstanding_cons hf, List.map_cons, List.nodup_cons] at honce
  refine ⟨?_, fun h => ?_, ?_, fun b => ?_⟩
  · rw [hq, List.length_tail]
    have := hw.slots
    omega
  · rw [hfl, Option.map_eq_none_iff, List.head?_eq_none_iff] at h
    rw [hq, h]
    rfl
  · rw [completeSweep_outstanding]; exact honce.2
  · rw [completeSweep_status, completeSweep_outstanding]
    split
    · rename_i hj
      rw [← hj]
      simp [honce.1]
    · rename_i hj
      rw [hw.detaching, outstanding_cons hf, List.map_cons, List.mem_cons, or_iff_right (Ne.symm hj)]

theorem State.SweepLaw.retire (hw : s.SweepLaw) {a x : AgentId} (hx : (s.agent x).status = .attached)
    (hf : s.sweepFull = false) : (s.retired a x).SweepLaw := by
  have hnew : SweepJob.detach x ∉ s.outstanding.map SweepRequest.job := by
    rw [← hw.detaching, hx]
    decide
  refine hw.of_request hf (retired_engine s a x).1 (retired_engine s a x).2 hnew fun b => ?_
  rw [retired_status]
  show _ ↔ _ ∨ SweepJob.detach x = .detach b
  by_cases hb : b = x
  · simp [hb]
  · simp [hb, Ne.symm hb]

theorem State.SweepLaw.clear (hw : s.SweepLaw) (a : AgentId) (ho : s.clearOutstanding = false)
    (hf : s.sweepFull = false) :
    ((s.request { job := .clear, requester := s.requesterOf a }).modAgent a AgentEntry.payRequest).SweepLaw := by
  refine hw.of_request hf rfl rfl (clearOutstanding_eq_false.1 ho) fun b => ?_
  rw [(sweepsStay_payRequest _ a).status, request_agent]
  simp

theorem attach_detaching {a : AgentId} (h : (s.agent a).status = .absent) (b : AgentId) :
    ((s.modAgent a AgentEntry.attach).agent b).status = .detaching ↔ (s.agent b).status = .detaching := by
  rw [modAgent_agent]
  split
  · rename_i hb
    rw [hb, h]
    exact iff_of_false (fun h => nomatch h) (fun h => nomatch h)
  · rfl

theorem advancePosition_engine {f : SweepFlight} (hp : f.position.val < Config.locks) (hf : s.inFlight = some f)
    (h : SweepsStay s u) : (u.advancePosition f hp).outstanding = s.outstanding := by
  rw [advancePosition_outstanding u f hp (h.inFlight.trans hf), h.outstanding]

theorem Effect.sweepLaw (h : Effect s t) (hw : s.SweepLaw) : t.SweepLaw := by
  cases h.sweeps with
  | stay hst => exact hw.of_outstanding hst.sweepQueue (hst.inFlight ▸ id) hst.outstanding fun b => by rw [hst.status]
  | attach a ha => exact hw.of_outstanding rfl id rfl (attach_detaching ha)
  | retire a x hx hf => exact hw.retire hx hf
  | clear a ho hf => exact hw.clear a ho hf
  | visit f hp u hf hst =>
    refine hw.of_outstanding hst.sweepQueue (fun h0 => nomatch h0) (advancePosition_engine hp hf hst) fun b => ?_
    rw [advancePosition_agent, hst.status]
  | complete f hf => exact hw.complete hf
  | reset => exact reset_sane.sweeps

/-! ## What the sweep in flight leaves behind -/

/-- What a sweep with this job has done at a lock it has visited (R152). -/
def State.SweptAt (s : State) (job : SweepJob) (k : LockId) : Prop :=
  match job with
  | .detach a => s.NoTrace a k
  | .clear => (s.lock k).state = .closed

theorem visitLaw_iff (s : State) :
    s.VisitLaw ↔ ∀ f ∈ s.inFlight, ∀ k : LockId, k.val < f.position.val → s.SweptAt f.request.job k := Iff.rfl

theorem sweptAt_congr (h : t.lock k = s.lock k) (job : SweepJob) : t.SweptAt job k ↔ s.SweptAt job k := by
  cases job <;> simp only [State.SweptAt, State.NoTrace, h]

/-- Behind the sweep in flight nobody it removed comes back, and nothing it closed opens (R13, R152). -/
theorem LockEffect.sweptAt (h : LockEffect s k u) (hw : s.SweepLaw) (hl : (s.lock k).Sound) {f : SweepFlight}
    (hf : s.inFlight = some f) (hs : s.SweptAt f.request.job k) : u.SweptAt f.request.job k := by
  cases hj : f.request.job with
  | detach a =>
    rw [hj] at hs
    exact h.noTrace (by rw [hw.target hf hj]; decide) hs
  | clear =>
    rw [hj] at hs
    refine h.closed hl ?_ hs
    simp [State.clearOutstanding, outstanding_cons hf, SweepRequest.isClear, hj]

/-- While the locks stay, a sweep that goes on, or starts at lock 0, has nothing more behind it (R148). -/
theorem State.VisitLaw.of_locks (hs : s.VisitLaw) (hl : ∀ k, t.lock k = s.lock k)
    (hf : ∀ f ∈ t.inFlight, f ∈ s.inFlight ∨ f.position.val = 0) : t.VisitLaw := by
  rw [visitLaw_iff] at hs ⊢
  intro f hft k hk
  rcases hf f hft with hfs | h0
  · exact (sweptAt_congr (hl k) _).2 (hs f hfs k hk)
  · omega

theorem request_flight (s : State) (r : SweepRequest) :
    ∀ f ∈ (s.request r).inFlight, f ∈ s.inFlight ∨ f.position.val = 0 := by
  unfold State.request State.engineTake
  split
  · rintro f ⟨rfl⟩; exact Or.inr rfl
  · exact fun f hf => Or.inl hf

theorem completeSweep_flight (s : State) (r : SweepRequest) :
    ∀ f ∈ (s.completeSweep r).inFlight, f.position.val = 0 := by
  rw [(completeSweep_engine s r).1]
  intro f hf
  obtain ⟨q, _, rfl⟩ := Option.map_eq_some_iff.1 hf
  rfl

/-- The visit itself puts the lock visited behind the sweep (R152). -/
theorem State.VisitLaw.visit (hs : s.VisitLaw) {f : SweepFlight} (hf : s.inFlight = some f)
    (hp : f.position.val < Config.locks) (ht : Touches ⟨f.position.val, hp⟩ s u)
    (hv : u.SweptAt f.request.job ⟨f.position.val, hp⟩) : (u.advancePosition f hp).VisitLaw := by
  rw [visitLaw_iff] at hs ⊢
  rintro g ⟨rfl⟩ k (hk : k.val < f.position.val + 1)
  refine (sweptAt_congr (s := u) rfl f.request.job).2 ?_
  by_cases hkp : k.val = f.position.val
  · rw [show k = ⟨f.position.val, hp⟩ from Fin.ext hkp]; exact hv
  · have hne : k ≠ ⟨f.position.val, hp⟩ := fun h => hkp (congrArg Fin.val h)
    exact (sweptAt_congr (ht.lock k hne) _).2 (hs f hf k (by omega))

theorem State.VisitLaw.lock (hs : s.VisitLaw) (hw : s.SweepLaw) (hl : s.LockLaw) (h : LockEffect s k u) :
    u.VisitLaw := by
  rw [visitLaw_iff] at hs ⊢
  intro f hf j hj
  rw [h.touches.inFlight] at hf
  by_cases hk : j = k
  · rw [hk] at hj ⊢; exact h.sweptAt hw (hl k) hf (hs f hf k hj)
  · exact (sweptAt_congr (h.touches.lock j hk) _).2 (hs f hf j hj)

theorem retired_lock (s : State) (a x : AgentId) (k : LockId) : (s.retired a x).lock k = s.lock k :=
  (tablesStay_retired s a x).lock k

theorem Effect.visitLaw (h : Effect s t) (hw : s.SweepLaw) (hl : s.LockLaw) (hs : s.VisitLaw) : t.VisitLaw := by
  cases h with
  | same | attach | give | take | pop | configure | commit | prescale | advance | tick =>
    exact hs.of_locks (fun _ => rfl) fun _ => Or.inl
  | retire a x => exact hs.of_locks (retired_lock s a x) ((retired_engine s a x).2 ▸ request_flight s _)
  | clear a => exact hs.of_locks (by simp) (request_flight s _)
  | complete f => exact hs.of_locks (by simp) fun g hg => Or.inr (completeSweep_flight s _ g hg)
  | lock k h => exact hs.lock hw hl h
  | detachVisit f a hf hj hp =>
    exact hs.visit hf hp (touches_detachVisit s _ a) (by rw [hj]; exact detachVisit_noTrace s _ a (hl _))
  | clearVisit f hf hj hp =>
    exact hs.visit hf hp (touches_clearVisit s _) (by rw [hj]; exact clearVisit_closed s _)
  | reset => exact reset_sane.visits

/-! ## ABSENT agents -/

/-- An agent that is not ATTACHED comes to no lock (R31). -/
theorem TableChange.noTrace (h : TableChange s t) (hb : (s.agent b).status ≠ .attached) (hn : s.NoTrace b k) :
    t.NoTrace b k := by
  cases h with
  | stay h => simpa only [State.NoTrace, h.lock] using hn
  | event j u f h =>
    show u.NoTrace b k
    by_cases hk : k = j
    · subst hk; exact h.noTrace hb hn
    · simpa only [State.NoTrace, h.touches.lock k hk] using hn
  | reset => exact reset_noTrace b k

theorem Effect.absentLaw (h : Effect s t) (hw : s.SweepLaw) (hv : s.VisitLaw) (hq : s.QuietLaw) (hs : s.AbsentLaw) :
    t.AbsentLaw := by
  intro b hb
  rcases (h.agent b).absent hb (fun ha => (hs b ha).2.2) with ⟨ha, hc, hn⟩ | ⟨f, hf, hj, hp, he⟩ | rfl
  · obtain ⟨htr, hcr, hno⟩ := hs b ha
    refine ⟨fun k => h.tables.noTrace (by rw [ha]; decide) (htr k), hc.trans hcr, hn.trans hno⟩
  · have hd : (s.agent b).status ≠ .attached := by rw [hw.target hf hj]; decide
    refine ⟨fun k => h.tables.noTrace hd ?_, by rw [he]; rfl, by rw [he]; exact (hq b).1 hd⟩
    have := (visitLaw_iff s).1 hv f hf k (lt_of_lt_of_eq k.isLt hp.symm)
    rwa [hj] at this
  · exact reset_sane.absent b hb

/-! ## Requesters -/

/-- Requesters stay covered behind which more requests `ns` join, if each still passes the epoch test or is named by a
DETACH request among `ns` (R157). -/
theorem State.RequestersCovered.append {rs ns : List SweepRequest} (h : s.RequestersCovered rs)
    (hn : t.RequestersCovered ns)
    (hp : ∀ q, s.requesterPresent q = true →
      t.requesterPresent q = true ∨ SweepJob.detach q.1 ∈ ns.map SweepRequest.job) :
    t.RequestersCovered (rs ++ ns) := by
  induction rs with
  | nil => exact hn
  | cons r rs ih =>
    refine ⟨fun q hq => ?_, ih h.2⟩
    show _ ∨ SweepJob.detach q.1 ∈ (rs ++ ns).map SweepRequest.job
    rw [List.map_append, List.mem_append]
    rcases h.1 q hq with hs | hd
    · exact (hp q hs).imp_right Or.inr
    · exact Or.inr (Or.inl hd)

theorem State.RequestersCovered.mono {rs : List SweepRequest} (h : s.RequestersCovered rs)
    (hp : ∀ q, s.requesterPresent q = true → t.requesterPresent q = true) : t.RequestersCovered rs := by
  have := State.RequestersCovered.append (t := t) (ns := []) h trivial fun q hq => Or.inl (hp q hq)
  rwa [List.append_nil] at this

theorem requesterPresent_iff (s : State) (q : AgentId × BitVec 8) :
    s.requesterPresent q = true ↔ (s.agent q.1).status = .attached ∧ (s.agent q.1).epoch = q.2 := by
  simp [State.requesterPresent]

/-- The requester that a request records passes the epoch test (R150). -/
theorem requesterOf_present {a : AgentId} : ∀ q ∈ s.requesterOf a, s.requesterPresent q = true := by
  unfold State.requesterOf
  split
  · rintro q ⟨rfl⟩
    exact (requesterPresent_iff s _).2 ⟨‹_›, rfl⟩
  · exact fun _ hq => nomatch hq

theorem State.RequesterLaw.retire (hs : s.RequesterLaw) (hw : s.SweepLaw) (a x : AgentId) :
    (s.retired a x).RequesterLaw := by
  have hstill : ∀ q, s.requesterPresent q = true → q.1 ≠ x → (s.retired a x).requesterPresent q = true := by
    intro q hq hx
    rw [requesterPresent_iff] at hq ⊢
    rw [retired_status, retired_epoch, if_neg hx]
    exact hq
  unfold State.RequesterLaw
  rw [retired_outstanding hw]
  refine State.RequestersCovered.append hs ⟨fun q hq => Or.inl ?_, trivial⟩ fun q hq => ?_
  · by_cases hxa : x = a
    · simp [State.retireRequest, hxa] at hq
    · have hq : q ∈ s.requesterOf a := by simpa [State.retireRequest, hxa] using hq
      refine hstill q (requesterOf_present q hq) ?_
      unfold State.requesterOf at hq
      split at hq
      · cases hq; exact Ne.symm hxa
      · cases hq
  · by_cases hx : q.1 = x
    · exact Or.inr (by simp [State.retireRequest, hx])
    · exact Or.inl (hstill q hq hx)

theorem State.RequesterLaw.clear (hs : s.RequesterLaw) (hw : s.SweepLaw) (a : AgentId) :
    ((s.request { job := .clear, requester := s.requesterOf a }).modAgent a AgentEntry.payRequest).RequesterLaw := by
  have hp : ∀ q, s.requesterPresent q = true → ((s.request { job := .clear, requester := s.requesterOf a }).modAgent a
      AgentEntry.payRequest).requesterPresent q = true := by
    intro q hq
    rw [(sweepsStay_payRequest _ a).requesterPresent]
    simpa only [State.requesterPresent, request_agent] using hq
  unfold State.RequesterLaw
  rw [clear_outstanding hw]
  exact State.RequestersCovered.append hs ⟨fun q hq => Or.inl (hp q (requesterOf_present q hq)), trivial⟩
    fun q hq => Or.inl (hp q hq)

theorem Effect.requesterLaw (h : Effect s t) (hw : s.SweepLaw) (hs : s.RequesterLaw) : t.RequesterLaw := by
  cases h.sweeps with
  | stay hst =>
    unfold State.RequesterLaw
    rw [hst.outstanding]
    exact State.RequestersCovered.mono hs fun q hq => by rw [hst.requesterPresent]; exact hq
  | attach a ha =>
    refine State.RequestersCovered.mono hs fun q hq => ?_
    rw [requesterPresent_iff] at hq ⊢
    have hqa : q.1 ≠ a := fun hqa => by rw [hqa, ha] at hq; cases hq.1
    rw [modAgent_agent, if_neg hqa]
    exact hq
  | retire a x => exact hs.retire hw a x
  | clear a => exact hs.clear hw a
  | visit f hp u hf hst =>
    unfold State.RequesterLaw
    rw [advancePosition_engine hp hf hst]
    exact State.RequestersCovered.mono hs fun q hq => by rw [← hst.requesterPresent] at hq; exact hq
  | complete f hf =>
    unfold State.RequesterLaw at hs ⊢
    rw [outstanding_cons hf] at hs
    rw [completeSweep_outstanding]
    refine State.RequestersCovered.mono hs.2 fun q hq => ?_
    rw [requesterPresent_iff] at hq ⊢
    have hj : f.request.job ≠ .detach q.1 := fun hj => by rw [hw.target hf hj] at hq; cases hq.1
    rw [completeSweep_status, completeSweep_epoch, if_neg hj]
    exact hq
  | reset => exact reset_sane.requesters

/-! ## States alike -/

namespace Alike

theorem sweepLaw (h : Alike s t) (hs : s.SweepLaw) : t.SweepLaw :=
  hs.of_outstanding h.sweepQueue (h.inFlight ▸ id) h.outstanding fun b => by rw [(h.agents b).status]

theorem visitLaw (h : Alike s t) (hs : s.VisitLaw) : t.VisitLaw :=
  hs.of_locks h.lock fun _ hf => Or.inl (h.inFlight ▸ hf)

theorem absentLaw (h : Alike s t) (hs : s.AbsentLaw) : t.AbsentLaw := fun b => by
  simp only [(h.agents b).status, (h.agents b).credits, (h.agents b).notices, h.noTrace]
  exact hs b

theorem requesterLaw (h : Alike s t) (hs : s.RequesterLaw) : t.RequesterLaw := by
  unfold State.RequesterLaw
  rw [h.outstanding]
  exact State.RequestersCovered.mono hs fun q hq => by rw [h.sweepsStay.requesterPresent]; exact hq

end Alike

end Sys2Proof.Machine
end

section
/-! Notice credit: every effect keeps the sum of every ATTACHED agent at 16 (R121) and credits and queues within 16
(R122, R126); and all laws together, which every step keeps. -/
namespace Sys2Proof.Machine

variable {s t u : State} {b : AgentId} {k : LockId}

/-! ## The sum of R121 under events at locks and changes of agents -/

theorem requests_congr (ho : t.outstanding = s.outstanding) (he : (t.agent b).epoch = (s.agent b).epoch) :
    t.requests b = s.requests b := by
  simp only [State.requests, ho, he]

/-- With the locks and the requests as they were, the sum follows what the agent has. -/
theorem creditSum_congr (hl : ∀ k, t.lock k = s.lock k) (ho : t.outstanding = s.outstanding)
    (he : (t.agent b).epoch = (s.agent b).epoch) (ha : (t.agent b).assets = (s.agent b).assets) :
    t.creditSum b = s.creditSum b := by
  simp only [creditSum_eq, requests_congr ho he, ha, State.total, hl]

/-- An event at a lock balances for every ATTACHED agent: the target of a detach sweep is none (R121, R147). -/
theorem LockEvent.balance (h : LockEvent s k u) (hone : (s.lock k).OnePlaceEach) (hp : s.PoolLaw) (hw : s.SweepLaw)
    (hb : (s.agent b).status = .attached) :
    (u.agent b).assets + (u.lock k).stake b = (s.agent b).assets + (s.lock k).stake b := by
  cases h with
  | effect h => exact h.balance hone (((poolLaw_iff s).1 hp).1 k) b hb
  | detachVisit f a hf hj =>
    have hba : b ≠ a := fun hba => by rw [hba, hw.target hf hj] at hb; cases hb
    exact detachVisit_balance s k hba hb
  | clearVisit => exact clearVisit_balance s k b hb

theorem LockEvent.creditSum (h : LockEvent s k u) (hone : ∀ k, (s.lock k).OnePlaceEach) (hp : s.PoolLaw)
    (hw : s.SweepLaw) (hb : (s.agent b).status = .attached) : u.creditSum b = s.creditSum b := by
  have hbal := h.balance (hone k) hp hw hb
  have htot := h.touches.total fun l => l.stake b
  have hreq := requests_congr (b := b) h.sweepsStay.outstanding (h.status b).2
  rw [creditSum_eq, creditSum_eq]
  omega

theorem advancePosition_creditSum {f : SweepFlight} (hp : f.position.val < Config.locks) (hf : u.inFlight = some f) :
    (u.advancePosition f hp).creditSum b = u.creditSum b :=
  creditSum_congr (fun _ => rfl) (advancePosition_outstanding u f hp hf) rfl rfl

theorem creditSum_modAgent_ne {a : AgentId} {f : AgentEntry → AgentEntry} (h : b ≠ a) :
    (s.modAgent a f).creditSum b = s.creditSum b := by
  have he : (s.modAgent a f).agent b = s.agent b := by rw [modAgent_agent, if_neg h]
  exact creditSum_congr (t := s.modAgent a f) (fun _ => rfl) rfl (by rw [he]) (by rw [he])

/-- A change of one agent that leaves its state and epoch, and while it is ATTACHED what it has, leaves the sums. -/
theorem creditLaw_modAgent {a : AgentId} {f : AgentEntry → AgentEntry} (h : SweepsStay s (s.modAgent a f))
    (hf : (s.agent a).status = .attached → (f (s.agent a)).assets = (s.agent a).assets) (hs : s.CreditLaw) :
    (s.modAgent a f).CreditLaw := by
  intro b hb
  rw [h.status] at hb
  rw [creditSum_congr (s := s) (t := s.modAgent a f) (fun _ => rfl) h.outstanding (h.epoch b)]
  · exact hs b hb
  · rw [modAgent_agent]
    split
    · rename_i hba; subst hba; exact hf hb
    · rfl

theorem pop_assets {e : AgentEntry} {n : Notice} {rest : List Notice} (hn : e.notices = n :: rest)
    (ha : e.status = .attached) : (e.pop n rest).assets = e.assets := by
  show (e.regain 1).credits + rest.length = e.credits + e.notices.length
  rw [e.regain_credits_attached 1 ha, hn, List.length_cons]
  omega

/-! ## Requests -/

/-- A request more in the engine adds 1 to its requester's sum, which the requester has paid (R121). -/
theorem creditSum_request {r : SweepRequest} (hl : ∀ k, t.lock k = s.lock k) (ho : t.outstanding = s.outstanding ++ [r])
    (he : (t.agent b).epoch = (s.agent b).epoch)
    (ha : (t.agent b).assets + (if r.requester = some (b, (s.agent b).epoch) then 1 else 0) = (s.agent b).assets) :
    t.creditSum b = s.creditSum b := by
  have hreq : t.requests b = s.requests b + if r.requester = some (b, (s.agent b).epoch) then 1 else 0 := by
    simp only [State.requests, ho, he, List.countP_append, List.countP_singleton, beq_iff_eq]
  have htot : t.total (fun l => l.stake b) = s.total fun l => l.stake b := by simp only [State.total, hl]
  rw [creditSum_eq, creditSum_eq]
  omega

theorem requesterOf_eq_some (s : State) (a b : AgentId) (hb : (s.agent b).status = .attached) :
    s.requesterOf a = some (b, (s.agent b).epoch) ↔ b = a := by
  unfold State.requesterOf
  constructor
  · intro h
    split at h
    · simp only [Option.some.injEq, Prod.mk.injEq] at h; exact h.1.symm
    · cases h
  · rintro rfl
    rw [if_pos hb]

/-- An ATTACHED agent that asks pays 1 credit (R121). -/
theorem payRequest_assets {e : AgentEntry} (ha : e.status = .attached) (hc : e.credits ≠ 0) :
    e.payRequest.assets + 1 = e.assets := by
  unfold AgentEntry.payRequest
  rw [if_pos ha]
  exact pay_assets e 1 (Nat.one_le_iff_ne_zero.2 hc)

theorem clear_creditSum (hw : s.SweepLaw) {a : AgentId}
    (hc : (s.agent a).status = .attached → (s.agent a).credits ≠ 0) (hb : (s.agent b).status = .attached) :
    ((s.request { job := .clear, requester := s.requesterOf a }).modAgent a AgentEntry.payRequest).creditSum b =
      s.creditSum b := by
  refine creditSum_request (by simp) (clear_outstanding hw a _) ?_ ?_
  · rw [(sweepsStay_payRequest _ a).epoch, request_agent]
  · rw [modAgent_agent, request_agent]
    simp only [requesterOf_eq_some s a b hb]
    split
    · rename_i hba; subst hba; exact payRequest_assets hb (hc hb)
    · rfl

theorem retired_creditSum (hw : s.SweepLaw) {a x : AgentId}
    (hc : x ≠ a → (s.agent a).status = .attached → (s.agent a).credits ≠ 0) (hb : (s.agent b).status = .attached)
    (hbx : b ≠ x) : (s.retired a x).creditSum b = s.creditSum b := by
  refine creditSum_request (retired_lock s a x) (retired_outstanding hw a x) (retired_epoch s a x b) ?_
  have hreq : (s.retireRequest a x).requester = some (b, (s.agent b).epoch) ↔ b = a := by
    unfold State.retireRequest
    by_cases hxa : x = a
    · simp [hxa, hxa ▸ hbx]
    · simp only [if_neg hxa, requesterOf_eq_some s a b hb]
  rw [retired_agent, if_neg hbx]
  simp only [hreq]
  split
  · rename_i hba; subst hba; exact payRequest_assets hb (hc (Ne.symm hbx) hb)
  · rfl

/-! ## Attachment and completion -/

/-- Nothing outstanding was asked for by an agent that is ABSENT: such a requester fails the epoch test, and no DETACH
request names it (R147, R157). -/
theorem no_requests_of_absent {a : AgentId} (ha : (s.agent a).status = .absent) {rs : List SweepRequest}
    (hc : s.RequestersCovered rs) (hd : SweepJob.detach a ∉ rs.map SweepRequest.job) :
    ∀ r ∈ rs, ∀ ep, r.requester ≠ some (a, ep) := by
  induction rs with
  | nil => exact fun r hr => nomatch hr
  | cons r rs ih =>
    rw [List.map_cons, List.mem_cons, not_or] at hd
    intro r' hr' ep hq
    rcases List.mem_cons.1 hr' with rfl | hr'
    · rcases hc.1 _ hq with hp | hp
      · rw [requesterPresent_iff, ha] at hp; cases hp.1
      · exact hd.2 hp
    · exact ih hc.2 hd.2 r' hr' ep hq

/-- An agent without trace at any lock has no stake in any. -/
theorem total_stake_of_noTrace (h : ∀ k, s.NoTrace b k) : s.total (fun l => l.stake b) = 0 := by
  refine List.sum_eq_zero fun n hn => ?_
  obtain ⟨k, _, rfl⟩ := List.mem_map.1 hn
  obtain ⟨hh, hq⟩ := h k
  have h1 : (s.lock k).holders.countP (fun r => r.agent == b) = 0 := by simpa [List.countP_eq_zero] using hh
  have h2 : (s.lock k).queue.countP (fun w => w.agent == b) = 0 := by simpa [List.countP_eq_zero] using hq
  simp [LockEntry.stake, h1, h2]

/-- An agent that attaches begins with 16 credits and nothing else (R108, R109). -/
theorem attach_creditSum (hw : s.SweepLaw) (ha : s.AbsentLaw) (hr : s.RequesterLaw)
    (hb : (s.agent b).status = .absent) :
    (s.modAgent b AgentEntry.attach).creditSum b = 16 := by
  obtain ⟨htr, _, hno⟩ := ha b hb
  have hd : SweepJob.detach b ∉ s.outstanding.map SweepRequest.job := by rw [← hw.detaching, hb]; decide
  have hreq : (s.modAgent b AgentEntry.attach).requests b = 0 := by
    refine List.countP_eq_zero.2 fun r hr' => ?_
    simpa using no_requests_of_absent hb hr hd r hr' _
  have hass : ((s.modAgent b AgentEntry.attach).agent b).assets = 16 := by
    rw [modAgent_agent, if_pos rfl]
    show 16 + (s.agent b).notices.length = 16
    rw [hno]
    rfl
  have htot : (s.modAgent b AgentEntry.attach).total (fun l => l.stake b) = 0 := total_stake_of_noTrace (s := s) htr
  rw [creditSum_eq, hass, hreq, htot]

/-- A completion turns the requester's request into a notice (R121, R157). -/
theorem complete_creditSum {f : SweepFlight} (hf : s.inFlight = some f) (hj : f.request.job ≠ .detach b)
    (hb : (s.agent b).status = .attached) : (s.completeSweep f.request).creditSum b = s.creditSum b := by
  have hs : s.requests b = (s.completeSweep f.request).requests b +
      if f.request.requester = some (b, (s.agent b).epoch) then 1 else 0 := by
    simp only [State.requests, completeSweep_outstanding, completeSweep_epoch, outstanding_cons hf, List.countP_cons,
      beq_iff_eq]
  have ha : ((s.completeSweep f.request).agent b).assets = (s.agent b).assets +
      if f.request.requester = some (b, (s.agent b).epoch) then 1 else 0 := by
    rw [completeSweep_agent_other s hj]
    simp only [hb, true_and]
    split
    · exact receive_assets _ _ hb
    · rfl
  have htot : (s.completeSweep f.request).total (fun l => l.stake b) = s.total fun l => l.stake b := by
    simp only [State.total, completeSweep_lock]
  rw [creditSum_eq, creditSum_eq]
  omega

/-! ## The credit laws -/

/-- The premises are what R121 counts on: one place for an agent at a lock (R5), no wait entry linked twice (R53), the
sweep queue in order (R147), nothing left of an ABSENT agent (R108), and requesters that are still the attachment that
asked (R157). -/
theorem Effect.creditLaw (h : Effect s t) (hone : ∀ k, (s.lock k).OnePlaceEach) (hp : s.PoolLaw) (hw : s.SweepLaw)
    (ha : s.AbsentLaw) (hr : s.RequesterLaw) (hs : s.CreditLaw) : t.CreditLaw := by
  cases h with
  | same | commit | prescale | advance | tick => exact hs
  | attach a h =>
    intro b hb
    by_cases hba : b = a
    · subst hba; exact attach_creditSum hw ha hr h
    · rw [modAgent_agent, if_neg hba] at hb
      exact (creditSum_modAgent_ne hba).trans (hs b hb)
  | retire a x hx hc =>
    intro b hb
    have hbx : b ≠ x := fun hbx => by rw [retired_status, if_pos hbx] at hb; cases hb
    rw [retired_status, if_neg hbx] at hb
    exact (retired_creditSum hw hc hb hbx).trans (hs b hb)
  | clear a ho hc =>
    intro b hb
    rw [(sweepsStay_payRequest _ a).status, request_agent] at hb
    exact (clear_creditSum hw hc hb).trans (hs b hb)
  | give | take | configure => exact creditLaw_modAgent (.modAgent rfl rfl) (fun _ => rfl) hs
  | pop a n rest hn =>
    exact creditLaw_modAgent (.modAgent (AgentEntry.regain_status _ 1) (AgentEntry.regain_epoch _ 1)) (pop_assets hn) hs
  | lock k h =>
    intro b hb
    have he := LockEvent.effect h
    rw [he.sweepsStay.status] at hb
    exact (he.creditSum hone hp hw hb).trans (hs b hb)
  | detachVisit f a hf hj h =>
    intro b hb
    have he : LockEvent s ⟨f.position.val, h⟩ _ := .detachVisit f a hf hj
    rw [advancePosition_agent, he.sweepsStay.status] at hb
    rw [advancePosition_creditSum h (he.sweepsStay.inFlight.trans hf), he.creditSum hone hp hw hb]
    exact hs b hb
  | clearVisit f hf hj h =>
    intro b hb
    have he : LockEvent s ⟨f.position.val, h⟩ _ := .clearVisit
    rw [advancePosition_agent, he.sweepsStay.status] at hb
    rw [advancePosition_creditSum h (he.sweepsStay.inFlight.trans hf), he.creditSum hone hp hw hb]
    exact hs b hb
  | complete f hf =>
    intro b hb
    have hj : f.request.job ≠ .detach b := fun hj => by rw [completeSweep_status, if_pos hj] at hb; cases hb
    rw [completeSweep_status, if_neg hj] at hb
    exact (complete_creditSum hf hj hb).trans (hs b hb)
  | reset => exact reset_sane.credit

/-- The bounds follow from the sum while an agent is ATTACHED, from R108 while it is ABSENT, and while it is DETACHING
from credits that are frozen and a queue that is empty (R111). -/
theorem Effect.creditBounds (h : Effect s t) (hc : t.CreditLaw) (ha : t.AbsentLaw) (hq : t.QuietLaw)
    (hs : s.CreditBounds) : t.CreditBounds := by
  intro b
  cases hst : (t.agent b).status with
  | absent =>
    obtain ⟨_, hcr, hno⟩ := ha b hst
    rw [hcr, hno]
    exact ⟨le_refl 16, Nat.zero_le 16⟩
  | attached =>
    have hsum := hc b hst
    unfold State.creditSum at hsum
    omega
  | detaching =>
    rw [(hq b).1 (by rw [hst]; decide)]
    exact ⟨le_trans ((h.agent b).detaching_credits hst) (hs b).1, Nat.zero_le 16⟩

namespace Alike

theorem creditLaw (h : Alike s t) (hs : s.CreditLaw) : t.CreditLaw := fun b hb => by
  rw [(h.agents b).status] at hb
  rw [creditSum_congr h.lock h.outstanding (h.agents b).epoch]
  · exact hs b hb
  · unfold AgentEntry.assets
    rw [(h.agents b).credits, (h.agents b).notices]

theorem creditBounds (h : Alike s t) (hs : s.CreditBounds) : t.CreditBounds := fun b => by
  rw [(h.agents b).credits, (h.agents b).notices]
  exact hs b

end Alike

/-! ## All laws together -/

/-- Every effect keeps every law: each law rests on itself and on laws named in its lemma. -/
theorem Effect.sane (h : Effect s t) (hs : s.Sane) : t.Sane :=
  have hq := h.quietLaw hs.sweeps hs.quiet
  have ha := h.absentLaw hs.sweeps hs.visits hs.quiet hs.absent
  have hc := h.creditLaw (fun k => (hs.locks k).onePlace) hs.pool hs.sweeps hs.absent hs.requesters hs.credit
  { locks := h.lockLaw hs.locks
    tickets := h.ticketLaw hs.locks hs.tickets
    uses := h.useLaw hs.locks hs.uses
    classes := h.classLaw hs.locks hs.uses hs.classes
    pool := h.poolLaw hs.pool
    deadlines := h.deadlineLaw hs.deadlines
    division := h.divisionLaw hs.division
    lines := h.lineLaw hs.lines
    quiet := hq
    supervisor := h.supervisorLaw hs.supervisor
    sweeps := h.sweepLaw hs.sweeps
    visits := h.visitLaw hs.sweeps hs.locks hs.visits
    absent := ha
    requesters := h.requesterLaw hs.sweeps hs.requesters
    credit := hc
    bounds := h.creditBounds hc ha hq hs.bounds }

theorem Alike.sane (h : Alike s t) (hs : s.Sane) : t.Sane where
  locks := h.lockLaw hs.locks
  tickets := h.ticketLaw hs.tickets
  uses := h.useLaw hs.uses
  classes := h.classLaw hs.classes
  pool := h.poolLaw hs.pool
  deadlines := h.deadlineLaw hs.deadlines
  division := h.divisionLaw hs.division
  lines := h.lineLaw hs.lines
  quiet := h.quietLaw hs.quiet
  supervisor := h.supervisorLaw hs.supervisor
  sweeps := h.sweepLaw hs.sweeps
  visits := h.visitLaw hs.visits
  absent := h.absentLaw hs.absent
  requesters := h.requesterLaw hs.requesters
  credit := h.creditLaw hs.credit
  bounds := h.creditBounds hs.bounds

/-- Settles O60: every effect of a step keeps the laws, and what else a step changes no law reads. -/
theorem stepKeepsEveryLaw : Obligations.StepKeepsEveryLaw :=
  fun _ _ hs h => step_keeps (fun _ _ => Alike.sane) (fun _ _ => Effect.sane) h hs

end Sys2Proof.Machine
end

section
/-! What a command that is taken answers; PROBE, OPEN, CLOSE and REVOKE with their refusals, and holder departure (R4,
R13 to R23, R65). -/
namespace Sys2Proof.Machine

variable {s : State} {a b : AgentId} {k : LockId}

/-! ## Accesses that are taken, and refusals -/

theorem agentWrite_taken (h : s.resetLow = false) (f : State → State) :
    s.agentWrite f = .next ((f s).answered (.rdy none)) := by
  simp [State.agentWrite, h]

theorem controlWrite_taken (h : s.Controls a) (f : State → State) :
    s.controlWrite a f = .next ((f s).answered (.rdy none)) := by
  obtain ⟨hlow, hsup⟩ := h
  simp [State.controlWrite, hlow, hsup]

theorem controlRefuse_answered (s : State) (a : AgentId) (st : Status) :
    (s.controlRefuse a st).answered (.rdy none) = s.controlRefusedTo a st := rfl

theorem lockArg_argLock (h : s.argLock a = k.val) : lockArg (s.agent a).arg0 = some k := (lockArg_eq_some _ k).2 h

theorem lockArg_sargLock (h : s.sargLock a = k.val) : lockArg (s.agent a).sarg0 = some k := (lockArg_eq_some _ k).2 h

theorem clearOutstanding_of_none (h : ∀ r ∈ s.outstanding, r.job ≠ .clear) : s.clearOutstanding = false := by
  rw [clearOutstanding_eq_false, List.mem_map]
  rintro ⟨r, hr, hj⟩
  exact h r hr hj

theorem clearOutstanding_of_some (h : ∃ r ∈ s.outstanding, r.job = .clear) : s.clearOutstanding = true := by
  obtain ⟨r, hr, hj⟩ := h
  exact List.any_eq_true.2 ⟨r, hr, by rw [SweepRequest.isClear, hj]; rfl⟩

/-! ## Holder departure -/

/-- Settles O45: row by row of `departure_eq`, where grant evaluation on an empty queue changes nothing. -/
theorem holderDepartureFollowsTheTable : Obligations.HolderDepartureFollowsTheTable := by
  intro s k
  refine ⟨fun hst hh => ?_, fun hst hh => ?_, fun hst => ⟨fun hh => ?_, fun hh => ?_⟩⟩
  · have hd : s.departure k = (s.setLock k { s.lock k with state := .free }).grantEval k := by
      rw [departure_eq]
      rcases hst with hst | hst <;> simp only [hst, hh, if_true]
    refine ⟨fun hq => ?_, fun _ => hd⟩
    rw [hd, grantEval_of_queue_nil]
    rw [lock_setLock_self]
    exact hq
  · have hd : s.departure k = s.grantEval k := by
      rw [departure_eq]
      simp only [hst, hh, if_false]
    exact ⟨fun hq => hd.trans (grantEval_of_queue_nil s k hq), fun _ => hd⟩
  · rw [departure_eq]
    simp only [hst, hh, if_true]
  · rw [departure_eq]
    simp only [hst, hh, if_false]

/-! ## PROBE -/

/-- Settles O21: the record is the lock's report, which the lookups at one lock describe. -/
theorem probeReportsTheLock : Obligations.ProbeReportsTheLock := by
  intro a s hlow
  have hx : exec (.probe a) s = .next ((s.probe a).answered (.rdy none)) := agentWrite_taken hlow _
  rw [hx]
  refine ⟨fun hk => ?_, fun k hk => ?_⟩
  · rw [State.probe, (lockArg_eq_none _).2 hk]
    rfl
  · refine ⟨s.probeReport a k, by rw [State.probe, lockArg_argLock hk]; rfl, rfl, rfl, rfl, rfl, rfl, rfl, rfl, rfl,
      fun hn => ?_, fun r ⟨hr, ha, hone⟩ => ?_, fun hn => ?_, fun ahead behind w hq hw hah => ?_⟩
    · simp only [State.probeReport, ((s.lock k).holderOf_eq_none a).2 hn, Option.map_none]
    · simp only [State.probeReport, ((s.lock k).holderOf_eq_some a hone r).2 ⟨hr, ha⟩, Option.map_some]
    · exact (s.lock k).queuePosition_absent a hn
    · exact (s.lock k).queuePosition_split a hq hw hah

/-! ## OPEN -/

/-- OPEN with a lock and a class named: checks 3 and 4 of R13, and the opening. -/
theorem openLock_eq {c : ClassId} (hk : s.sargLock a = k.val)
    (hc : ((s.agent a).sarg0.extractLsb' 8 4).toNat = c.val) : s.openLock a =
      if s.clearOutstanding then s.controlRefuse a .sweepActive
      else if (s.lock k).state ≠ .closed then s.controlRefuse a .notClosed
      else s.bringIntoService a k c := by
  simp only [State.openLock, lockArg_sargLock hk, (classArg_eq_some _ c).2 hc]

/-- Settles O22. -/
theorem openBringsALockIntoService : Obligations.OpenBringsALockIntoService := by
  intro a k c s hctl hk hc hclear hst marker hm
  have hmark : marker = ((s.lock k).marker && !clearMarkerArg (s.agent a).sarg1) := by
    rw [hm, clearMarkerArg]
    cases (s.agent a).sarg1.getLsbD 0 <;> simp
  have ho : s.openLock a = s.bringIntoService a k c := by
    rw [openLock_eq hk hc, clearOutstanding_of_none hclear, if_neg Bool.false_ne_true, if_neg (not_not.2 hst)]
  have hx : exec (.openLock a) s = .next ((s.openLock a).answered (.rdy none)) := controlWrite_taken hctl _
  rw [hx, ho, hmark]
  rfl

/-! ## CLOSE -/

/-- CLOSE of a lock that is CLOSED or DRAINING (R15, check 2). -/
theorem closeLock_refused (hk : s.sargLock a = k.val)
    (hst : (s.lock k).state = .closed ∨ (s.lock k).state = .draining) :
    s.closeLock a = s.controlRefuse a .closed := by
  rcases hst with hst | hst <;> simp only [State.closeLock, lockArg_sargLock hk, hst]

theorem closeLock_free (hk : s.sargLock a = k.val) (hst : (s.lock k).state = .free) :
    s.closeLock a = ((s.setLock k { s.lock k with state := .closed }).lowerUse (s.lock k).cls).controlResult a
      { status := .done, lock := k } := by
  simp only [State.closeLock, lockArg_sargLock hk, hst]

theorem closeLock_held (hk : s.sargLock a = k.val) (m : Mode)
    (hst : (s.lock k).state = match m with | .exclusive => LockState.exclusive | .shared => LockState.shared) :
    s.closeLock a = (s.drainLock k m).controlResult a { status := .done, lock := k } := by
  cases m <;> simp only [State.closeLock, lockArg_sargLock hk, hst]

theorem receive_eq_told (e : AgentEntry) (n : Notice) : e.receive n = e.told n := by
  rw [AgentEntry.receive_eq, AgentEntry.told]
  simp only [beq_eq_decide, Bool.or_assoc]

/-- Draining changes the lock and agents alone (R16). -/
theorem touches_drainLock (s : State) (k : LockId) (m : Mode) : Touches k s (s.drainLock k m) :=
  (Touches.setLock s _).trans (touches_cancelQueue _ k)

theorem drainLock_classes (s : State) (k : LockId) (m : Mode) : (s.drainLock k m).classes = s.classes :=
  cancelQueue_classes _ k

theorem drainLock_lock_self (s : State) (k : LockId) (m : Mode) :
    (s.drainLock k m).lock k = { s.lock k with state := .draining, drain := some m, queue := [] } := by
  rw [State.drainLock, cancelQueue_lock_self, lock_setLock_self]

/-- Draining tells each waiter CANCELLED and repays it 1 credit, and leaves the other agents alone (R65). -/
theorem drainLock_agent (hone : (s.lock k).OnePlaceEach) (m : Mode) (b : AgentId) :
    (∀ w ∈ (s.lock k).queue, w.agent = b → (s.drainLock k m).agent b =
      ((s.agent b).told (.cancelled k w.mode w.tag (s.units.setWidth 16))).repaid 1) ∧
    ((∀ w ∈ (s.lock k).queue, w.agent ≠ b) → (s.drainLock k m).agent b = s.agent b) := by
  have hf := filter_agent_eq WaitEntry.agent (s.lock k).queue (List.nodup_append.1 hone).2.1 b
  rw [State.drainLock, cancelQueue_agent, lock_setLock_self]
  refine ⟨fun w hw hb => ?_, fun hn => ?_⟩
  · rw [hf.1 w hw hb, ← receive_eq_told]
    rfl
  · rw [hf.2 hn]
    rfl

/-- Settles O23. -/
theorem closeClosesOrDrainsTheLock : Obligations.CloseClosesOrDrainsTheLock := by
  intro a k s hctl hk
  have hx : exec (.closeLock a) s = .next ((s.closeLock a).answered (.rdy none)) := controlWrite_taken hctl _
  rw [hx]
  refine ⟨fun hst => ?_, fun m hst hone => ?_⟩
  · rw [closeLock_free hk hst]
    rfl
  · rw [closeLock_held hk m hst]
    have ht := touches_drainLock s k m
    refine ⟨_, rfl, drainLock_lock_self s k m, ht.lock, drainLock_classes s k m, ht.units, ht.prescaler, ht.refCount,
      ht.sweepQueue, ht.inFlight, ht.resetLow.trans hctl.1, rfl, ht.pending, fun b => ?_⟩
    obtain ⟨htold, hother⟩ := drainLock_agent hone m b
    refine ⟨(s.drainLock k m).agent b, htold, hother, ?_⟩
    rw [answered_agent, State.controlResult, modAgent_agent]

/-! ## REVOKE -/

/-- Both rows of REVOKE's code run the same command (R168, log 9). -/
theorem exec_revoke (hctl : s.Controls a) {c : Instr} (hc : c = .revoke a ∨ c = .revokeAll a) :
    exec c s = .next ((s.revokeTarget a).answered (.rdy none)) := by
  rcases hc with rfl | rfl
  · exact controlWrite_taken hctl _
  · exact controlWrite_taken hctl _

/-- REVOKE with a lock named, while its target is ALL (R20). -/
theorem revokeTarget_all (hk : s.sargLock a = k.val) (ht : s.revokeArg a = 15) : s.revokeTarget a =
    if (s.lock k).holders = [] then s.controlRefuse a .notHolder else s.revokeEvery a k := by
  simp only [State.revokeTarget, lockArg_sargLock hk, (targetIsAll_iff _).2 ht, if_true, List.isEmpty_iff]

theorem targetIsAll_of_ne (ht : s.revokeArg a ≠ 15) : targetIsAll (s.agent a).sarg1 = false := by
  rw [← Bool.not_eq_true, targetIsAll_iff]
  exact ht

theorem targetIsAll_of_agent {x : AgentId} (ht : s.revokeArg a = x.val) : targetIsAll (s.agent a).sarg1 = false :=
  targetIsAll_of_ne (by have : x.val < 8 := x.isLt; omega)

/-- REVOKE with a lock and one of its holders named (R19). -/
theorem revokeTarget_holder {x : AgentId} {r : HolderRecord} (hk : s.sargLock a = k.val) (ht : s.revokeArg a = x.val)
    (hr : (s.lock k).holderOf x = some r) : s.revokeTarget a = s.revokeOne a k x r := by
  simp only [State.revokeTarget, lockArg_sargLock hk, targetIsAll_of_agent ht, Bool.false_eq_true, if_false,
    (agentArg_eq_some _ x).2 ht, hr]

/-- REVOKE with a lock named and an agent that does not hold it (R18). -/
theorem revokeTarget_notHolder {x : AgentId} (hk : s.sargLock a = k.val) (ht : s.revokeArg a = x.val)
    (hr : (s.lock k).holderOf x = none) : s.revokeTarget a = s.controlRefuse a .notHolder := by
  simp only [State.revokeTarget, lockArg_sargLock hk, targetIsAll_of_agent ht, Bool.false_eq_true, if_false,
    (agentArg_eq_some _ x).2 ht, hr]

/-- REVOKE with a lock named and a target that is neither an agent nor ALL (R18). -/
theorem revokeTarget_badArgument (hk : s.sargLock a = k.val) (h8 : 8 ≤ s.revokeArg a) (h14 : s.revokeArg a ≤ 14) :
    s.revokeTarget a = s.controlRefuse a .badArgument := by
  have hall := targetIsAll_of_ne (s := s) (a := a) (by omega)
  simp only [State.revokeTarget, lockArg_sargLock hk, hall, Bool.false_eq_true, if_false, (agentArg_eq_none _).2 h8]

theorem loseHolder_told (s : State) (k : LockId) (x : AgentId) (n : Notice) : s.loseHolder k x (some n) =
    ((s.setLock k { s.lock k with holders := (s.lock k).holders.filter fun r => r.agent != x, marker := true }).setAgent
      x ((s.agent x).told n)).departure k := by
  rw [loseHolder_eq, ← receive_eq_told]
  rfl

/-- Settles O24. -/
theorem revokeTakesOneHolding : Obligations.RevokeTakesOneHolding := by
  rintro c a x k s s1 r hc hctl hk ht ⟨hr, hrx, hone⟩ hs1
  have hfind : (s.lock k).holderOf x = some r := ((s.lock k).holderOf_eq_some x hone r).2 ⟨hr, hrx⟩
  have hlose : s.loseHolder k x (some (.revoked k r.mode r.ticket (stamp s.units))) = s1 :=
    (loseHolder_told s k x _).trans hs1.symm
  have hcr : (s1.agent a).credits = (s.agent a).credits := by
    rw [← hlose]
    exact (keeps_loseHolder s k x a _).2
  rw [exec_revoke hctl hc, revokeTarget_holder hk ht hfind, ← hcr]
  simp only [State.revokeOne, hlose]
  rfl

/-- Removing every holder tells each REVOKED and leaves the other agents alone (R20). -/
theorem revokeHolders_told (hone : (s.lock k).OnePlaceEach) (b : AgentId) :
    (∀ r ∈ (s.lock k).holders, r.agent = b → (s.revokeHolders k).agent b =
      (s.agent b).told (.revoked k r.mode r.ticket (s.units.setWidth 16))) ∧
    ((∀ r ∈ (s.lock k).holders, r.agent ≠ b) → (s.revokeHolders k).agent b = s.agent b) := by
  have hf := filter_agent_eq HolderRecord.agent (s.lock k).holders (List.nodup_append.1 hone).1 b
  rw [revokeHolders_agent]
  refine ⟨fun r hr hb => ?_, fun hn => ?_⟩
  · rw [hf.1 r hr hb, ← receive_eq_told]
    rfl
  · rw [hf.2 hn]
    rfl

/-- Notices alone change no credits (R20, R121). -/
theorem revokeHolders_credits (s : State) (k : LockId) (b : AgentId) :
    ((s.revokeHolders k).agent b).credits = (s.agent b).credits := by
  rw [revokeHolders_agent]
  generalize (s.lock k).holders.filter (fun r => decide (r.agent = b)) = rs
  generalize s.agent b = e
  induction rs generalizing e with
  | nil => rfl
  | cons r rs ih => rw [List.foldl_cons, ih, AgentEntry.receive_credits]

/-- Settles O25. -/
theorem revokeAllTakesEveryHolding : Obligations.RevokeAllTakesEveryHolding := by
  intro c a k s hc hctl hk ht hh hone
  have htouch := touches_revokeHolders s k
  refine ⟨s.revokeHolders k, _, ?_, htouch.lock, revokeHolders_told hone, revokeHolders_classes s k, htouch.units,
    htouch.prescaler, htouch.refCount, htouch.sweepQueue, htouch.inFlight, htouch.resetLow, htouch.pending, rfl, ?_⟩
  · rw [revokeHolders_lock_self]
    simp [hh]
  · have hcr : (((s.revokeHolders k).departure k).agent a).credits = (s.agent a).credits :=
      (keeps_departure _ k a).2.trans (revokeHolders_credits s k a)
    rw [exec_revoke hctl hc, revokeTarget_all hk ht, if_neg hh, ← hcr]
    rfl

/-! ## Refusals -/

/-- OPEN, CLOSE and REVOKE of a lock number out of range (R13, R15, R18, check 1). -/
theorem exec_badLock (hctl : s.Controls a) (hk : 64 ≤ s.sargLock a) {c : Instr}
    (hc : c = .openLock a ∨ c = .closeLock a ∨ c = .revoke a ∨ c = .revokeAll a) :
    exec c s = .next (s.controlRefusedTo a .badLock) := by
  have hnone : lockArg (s.agent a).sarg0 = none := (lockArg_eq_none _).2 hk
  rcases hc with rfl | rfl | hc
  · refine (controlWrite_taken hctl (State.openLock a)).trans ?_
    simp only [State.openLock, hnone, controlRefuse_answered]
  · refine (controlWrite_taken hctl (State.closeLock a)).trans ?_
    simp only [State.closeLock, hnone, controlRefuse_answered]
  · rw [exec_revoke hctl hc]
    simp only [State.revokeTarget, hnone, controlRefuse_answered]

/-- Settles O26. -/
theorem lockControlRefusesInOrder : Obligations.LockControlRefusesInOrder := by
  intro a s hctl
  have hopen : exec (.openLock a) s = .next ((s.openLock a).answered (.rdy none)) := controlWrite_taken hctl _
  have hclose : exec (.closeLock a) s = .next ((s.closeLock a).answered (.rdy none)) := controlWrite_taken hctl _
  refine ⟨fun hk c hc => exec_badLock hctl hk hc, fun k hk => ⟨fun hc => ?_, fun hc hclear => ?_,
    fun hc hclear hst => ?_, fun hst => ?_, fun c hc => ⟨fun h8 h14 => ?_, fun x hx hn => ?_, fun hall hn => ?_⟩⟩⟩
  · rw [hopen]
    simp only [State.openLock, lockArg_sargLock hk, (classArg_eq_none _).2 hc, controlRefuse_answered]
  · rw [hopen, openLock_eq (c := ⟨_, hc⟩) hk rfl, clearOutstanding_of_some hclear, if_pos rfl, controlRefuse_answered]
  · rw [hopen, openLock_eq (c := ⟨_, hc⟩) hk rfl, clearOutstanding_of_none hclear, if_neg Bool.false_ne_true,
      if_pos hst, controlRefuse_answered]
  · rw [hclose, closeLock_refused hk hst, controlRefuse_answered]
  · rw [exec_revoke hctl hc, revokeTarget_badArgument hk h8 h14, controlRefuse_answered]
  · rw [exec_revoke hctl hc, revokeTarget_notHolder hk hx (((s.lock k).holderOf_eq_none x).2 hn),
      controlRefuse_answered]
  · rw [exec_revoke hctl hc, revokeTarget_all hk hall, if_pos hn, controlRefuse_answered]

end Sys2Proof.Machine
end

section
/-! Which commands change a lock's class field, a class descriptor or the unit counter: OPEN, TCOMMIT, an advance and
pin reset alone (R2, R93, R140). -/
namespace Sys2Proof.Machine

variable {s t u : State} {a x : AgentId} {k : LockId}

/-- Every lock names the class it named, every class has its descriptor, and the unit counter stands. -/
structure FieldsStay (s t : State) : Prop where
  cls : ∀ k, (t.lock k).cls = (s.lock k).cls
  desc : ∀ d, (t.cls d).desc = (s.cls d).desc
  units : t.units = s.units

/-! ## The operations that leave these fields alone -/

namespace FieldsStay

theorem refl (s : State) : FieldsStay s s := ⟨fun _ => rfl, fun _ => rfl, rfl⟩

theorem trans (h : FieldsStay s t) (h' : FieldsStay t u) : FieldsStay s u :=
  ⟨fun k => (h'.cls k).trans (h.cls k), fun d => (h'.desc d).trans (h.desc d), h'.units.trans h.units⟩

theorem of_touches (h : Touches k s t) (hc : (t.lock k).cls = (s.lock k).cls) : FieldsStay s t := by
  refine ⟨fun j => ?_, h.desc, h.units⟩
  by_cases hj : j = k
  · rw [hj, hc]
  · rw [h.lock j hj]

theorem answered (h : FieldsStay s t) (ans : BusAnswer) : FieldsStay s (t.answered ans) := ⟨h.cls, h.desc, h.units⟩

theorem modAgent (h : FieldsStay s t) {f : AgentEntry → AgentEntry} : FieldsStay s (t.modAgent a f) :=
  ⟨h.cls, h.desc, h.units⟩

theorem agentResult (h : FieldsStay s t) {r : CommandResult} : FieldsStay s (t.agentResult a r) := h.modAgent

theorem controlResult (h : FieldsStay s t) {r : CommandResult} : FieldsStay s (t.controlResult a r) := h.modAgent

theorem refuse (s : State) (a : AgentId) (st : Status) : FieldsStay s (s.refuse a st) := (refl s).agentResult

theorem controlRefuse (s : State) (a : AgentId) (st : Status) : FieldsStay s (s.controlRefuse a st) :=
  (refl s).controlResult

theorem setLock (h : FieldsStay s t) {l : LockEntry} (hc : l.cls = (t.lock k).cls := by rfl) :
    FieldsStay s (t.setLock k l) :=
  h.trans (of_touches (.setLock t l) (by rw [lock_setLock_self, hc]))

theorem lowerUse (h : FieldsStay s t) (c : ClassId) : FieldsStay s (t.lowerUse c) :=
  h.trans (of_touches (k := 0) (.setUse t c _) rfl)

theorem departure (h : FieldsStay s t) : FieldsStay s (t.departure k) :=
  h.trans (of_touches (touches_departure t k) (departure_derives t k).cls)

theorem removeWaiters (h : FieldsStay s t) {p : WaitEntry → Bool} : FieldsStay s (t.removeWaiters k p) :=
  h.trans (of_touches (touches_removeWaiters t k p) (removeWaiters_derives t k p).cls)

theorem loseHolder (s : State) (k : LockId) (a : AgentId) (n : Option Notice) : FieldsStay s (s.loseHolder k a n) :=
  of_touches (touches_loseHolder s k a n) (loseHolder_derives s k a n).cls

theorem revokeHolders (s : State) (k : LockId) : FieldsStay s (s.revokeHolders k) :=
  of_touches (touches_revokeHolders s k) (by rw [revokeHolders_lock_self])

theorem drainLock (s : State) (k : LockId) (m : Mode) : FieldsStay s (s.drainLock k m) :=
  of_touches (touches_drainLock s k m) (by rw [drainLock_lock_self])

theorem request (s : State) (r : SweepRequest) : FieldsStay s (s.request r) := by
  constructor <;> simp

theorem completeSweep (s : State) (r : SweepRequest) : FieldsStay s (s.completeSweep r) := by
  constructor <;> simp

theorem advancePosition (h : FieldsStay s t) {f : SweepFlight} (hp : f.position.val < Config.locks) :
    FieldsStay s (t.advancePosition f hp) := ⟨h.cls, h.desc, h.units⟩

theorem detachVisit (s : State) (k : LockId) (a : AgentId) : FieldsStay s (s.detachVisit a k) :=
  of_touches (touches_detachVisit s k a) (detachVisit_derives s k a).cls

theorem clearVisit (s : State) (k : LockId) : FieldsStay s (s.clearVisit k) :=
  of_touches (touches_clearVisit s k) (clearVisit_derives s k).cls

/-! ## The commands that leave these fields alone -/

theorem attach (s : State) (a : AgentId) : FieldsStay s (s.attach a) := by
  unfold State.attach
  split
  · exact refuse ..
  · exact refuse ..
  · exact (refl s).modAgent.agentResult

theorem detach (s : State) (a : AgentId) : FieldsStay s (s.detach a) := by
  unfold State.detach
  split
  · exact refuse ..
  split
  · exact refuse ..
  · exact (request s _).modAgent.agentResult

theorem acquire (s : State) (a : AgentId) : FieldsStay s (s.acquire a) := by
  unfold State.acquire
  split
  · exact refuse ..
  · exact agentResult (setLock (refl s))
  · exact agentResult (modAgent (setLock (refl s)))
  · exact agentResult (modAgent (setLock (refl s)))

theorem release (s : State) (a : AgentId) : FieldsStay s (s.release a) := by
  unfold State.release
  split
  · exact refuse ..
  split
  · exact agentResult (setLock (refl s))
  · exact agentResult (departure (modAgent (setLock (refl s))))

theorem renew (s : State) (a : AgentId) : FieldsStay s (s.renew a) := by
  unfold State.renew
  split
  · exact refuse ..
  split
  · exact refuse ..
  · exact agentResult (setLock (refl s))

theorem cancel (s : State) (a : AgentId) : FieldsStay s (s.cancel a) := by
  unfold State.cancel
  split
  · exact refuse ..
  split
  · exact refuse ..
  split
  · exact agentResult (removeWaiters (modAgent (refl s)))
  · exact refuse ..

theorem probe (s : State) (a : AgentId) : FieldsStay s (s.probe a) := by
  unfold State.probe
  split
  · exact refuse ..
  · exact (refl s).modAgent

theorem closeLock (s : State) (a : AgentId) : FieldsStay s (s.closeLock a) := by
  unfold State.closeLock
  split
  · exact controlRefuse ..
  split
  · exact controlRefuse ..
  · exact controlRefuse ..
  · exact controlResult (lowerUse (setLock (refl s)) _)
  · exact controlResult (drainLock ..)
  · exact controlResult (drainLock ..)

theorem revokeTarget (s : State) (a : AgentId) : FieldsStay s (s.revokeTarget a) := by
  unfold State.revokeTarget
  split
  · exact controlRefuse ..
  split
  · split
    · exact controlRefuse ..
    · exact controlResult (departure (revokeHolders ..))
  split
  · exact controlRefuse ..
  split
  · exact controlRefuse ..
  · exact controlResult (loseHolder ..)

theorem detachAgent (s : State) (a : AgentId) : FieldsStay s (s.detachAgent a) := by
  unfold State.detachAgent
  split
  · exact controlRefuse ..
  · unfold State.retire
    refine controlResult (modAgent ?_)
    split
    · exact request s _
    · exact (request s _).modAgent

theorem clearAll (s : State) (a : AgentId) : FieldsStay s (s.clearAll a) := by
  unfold State.clearAll
  split
  · exact controlRefuse ..
  split
  · exact controlRefuse ..
  split
  · exact controlRefuse ..
  · exact (request s _).modAgent.controlResult

theorem giveSupervisor (s : State) (a : AgentId) : FieldsStay s (s.giveSupervisor a) := by
  unfold State.giveSupervisor
  split
  · exact controlRefuse ..
  · exact (refl s).modAgent.controlResult

theorem takeSupervisor (s : State) (a : AgentId) : FieldsStay s (s.takeSupervisor a) := by
  unfold State.takeSupervisor
  split
  · exact controlRefuse ..
  split
  · exact controlRefuse ..
  · exact (refl s).modAgent.controlResult

theorem of_agentWrite {f : State → State} (h : s.agentWrite f = .next t) (hf : FieldsStay s (f s)) :
    FieldsStay s t := by
  rcases next_agentWrite h with rfl | rfl
  · exact (refl s).answered _
  · exact hf.answered _

theorem of_controlWrite {f : State → State} (h : s.controlWrite a f = .next t) (hf : FieldsStay s (f s)) :
    FieldsStay s t := by
  rcases next_controlWrite h with rfl | ⟨rfl, _⟩
  · exact (refl s).answered _
  · exact hf.answered _

theorem badCommand {v : View} {code : BitVec 8} (h : execBadCommand a v code s = .next t) : FieldsStay s t := by
  unfold execBadCommand at h
  split at h
  · cases h
  cases v
  · exact of_agentWrite h (refuse ..)
  · exact of_controlWrite h (controlRefuse ..)

theorem ntake (h : execNtake a s = .next t) : FieldsStay s t := by
  unfold execNtake State.takeNotice at h
  split at h
  · cases h; exact (refl s).answered _
  split at h
  · cases h; exact (refl s).answered _
  · cases h; exact (refl s).modAgent.answered _

theorem tdataWrite {n : Fin 5} {w : Word} (h : execTdataWrite a n w s = .next t) : FieldsStay s t := by
  unfold execTdataWrite at h
  split at h
  · exact of_controlWrite h (refl s).modAgent
  · cases h; exact (refl s).answered _

theorem prescaleWrite {w : Word} (h : execPrescaleWrite a w s = .next t) : FieldsStay s t :=
  of_controlWrite h ⟨fun _ => rfl, fun _ => rfl, rfl⟩

theorem argumentRegisterWrite {o : BitVec 7} {w : Word} (h : execArgumentRegisterWrite a o w s = .next t) :
    FieldsStay s t := by
  unfold execArgumentRegisterWrite at h
  split at h
  · cases h; exact (refl s).answered _
  split at h
  · split at h
    · cases h; exact (refl s).modAgent.answered _
    · cases h
  · cases h; exact (refl s).answered _

theorem leaseExpiry (h : execLeaseExpiry k a s = .next t) : FieldsStay s t := by
  unfold execLeaseExpiry at h
  split at h
  · cases h; exact refl s
  split at h
  · cases h; exact loseHolder ..
  · cases h; exact refl s

theorem timeout {e : EntryId} (h : execTimeout e s = .next t) : FieldsStay s t := by
  unfold execTimeout at h
  split at h
  · cases h; exact refl s
  split at h
  · cases h; exact removeWaiters (modAgent (modAgent (refl s)))
  · cases h; exact refl s

theorem detachSweepVisit (h : execDetachSweepVisit s = .next t) : FieldsStay s t := by
  unfold execDetachSweepVisit at h
  split at h
  · split at h
    · split at h
      · cases h; exact (detachVisit s _ _).advancePosition _
      · cases h; exact refl s
    · cases h; exact refl s
  · cases h; exact refl s

theorem clearSweepVisit (h : execClearSweepVisit s = .next t) : FieldsStay s t := by
  unfold execClearSweepVisit at h
  split at h
  · split at h
    · split at h
      · cases h; exact (clearVisit s _).advancePosition _
      · cases h; exact refl s
    · cases h; exact refl s
  · cases h; exact refl s

theorem sweepCompletion (h : execSweepCompletion s = .next t) : FieldsStay s t := by
  unfold execSweepCompletion at h
  split at h
  · split at h
    · cases h; exact completeSweep s _
    · cases h; exact refl s
  · cases h; exact refl s

end FieldsStay

/-- Every command but OPEN, TCOMMIT, UNIT_ADVANCE and PIN_RESET leaves the three fields alone. -/
theorem exec_fieldsStay {c : Instr} (h : exec c s = .next t) (hr : ∀ low, c ≠ .pinReset low)
    (ho : ∀ a, c ≠ .openLock a) (hc : ∀ a, c ≠ .tcommit a) (hu : c ≠ .unitAdvance) : FieldsStay s t := by
  cases c with
  | openLock a => exact absurd rfl (ho a)
  | tcommit a => exact absurd rfl (hc a)
  | unitAdvance => exact absurd rfl hu
  | pinReset low => exact absurd rfl (hr low)
  | attach a => exact .of_agentWrite h (.attach s a)
  | detach a => exact .of_agentWrite h (.detach s a)
  | acquire a => exact .of_agentWrite h (.acquire s a)
  | release a => exact .of_agentWrite h (.release s a)
  | renew a => exact .of_agentWrite h (.renew s a)
  | cancel a => exact .of_agentWrite h (.cancel s a)
  | probe a => exact .of_agentWrite h (.probe s a)
  | closeLock a => exact .of_controlWrite h (.closeLock s a)
  | revoke a => exact .of_controlWrite h (.revokeTarget s a)
  | revokeAll a => exact .of_controlWrite h (.revokeTarget s a)
  | detachAgent a => exact .of_controlWrite h (.detachAgent s a)
  | clearAll a => exact .of_controlWrite h (.clearAll s a)
  | giveSupervisor a => exact .of_controlWrite h (.giveSupervisor s a)
  | takeSupervisor a => exact .of_controlWrite h (.takeSupervisor s a)
  | badCommand a v code => exact .badCommand h
  | ntake a => exact .ntake h
  | notifyWrite a w =>
    unfold exec execNotifyWrite at h
    exact .of_agentWrite h (FieldsStay.refl s).modAgent
  | tsel a w =>
    unfold exec execTsel at h
    exact .of_controlWrite h (FieldsStay.refl s).modAgent
  | tdataWrite a n w => exact .tdataWrite h
  | prescaleWrite a w => exact .prescaleWrite h
  | argumentRegisterWrite a o w => exact .argumentRegisterWrite h
  | leaseExpiry k a => exact .leaseExpiry h
  | timeout e => exact .timeout h
  | detachSweepVisit => exact .detachSweepVisit h
  | clearSweepVisit => exact .clearSweepVisit h
  | sweepCompletion => exact .sweepCompletion h

/-! ## The commands that change one of them -/

theorem bringIntoService_desc_units (s : State) (a : AgentId) (k : LockId) (c : ClassId) :
    (∀ d, ((s.bringIntoService a k c).cls d).desc = (s.cls d).desc) ∧ (s.bringIntoService a k c).units = s.units :=
  ⟨(Touches.setUse (k := k) s c _).desc, rfl⟩

/-- OPEN writes a lock, and of the classes a use count alone (R14). -/
theorem openLock_desc_units (s : State) (a : AgentId) :
    (∀ d, ((s.openLock a).cls d).desc = (s.cls d).desc) ∧ (s.openLock a).units = s.units := by
  have hsame : ∀ st, (∀ d, ((s.controlRefuse a st).cls d).desc = (s.cls d).desc) ∧
      (s.controlRefuse a st).units = s.units := fun st => ⟨fun _ => rfl, rfl⟩
  unfold State.openLock
  split
  · exact hsame _
  split
  · exact hsame _
  split
  · exact hsame _
  split
  · exact hsame _
  · exact bringIntoService_desc_units s a _ _

theorem exec_openLock (h : exec (.openLock a) s = .next t) :
    (∀ d, (t.cls d).desc = (s.cls d).desc) ∧ t.units = s.units := by
  rcases next_controlWrite h with rfl | ⟨rfl, _⟩
  · exact ⟨fun _ => rfl, rfl⟩
  · exact openLock_desc_units s a

/-- TCOMMIT writes a class descriptor alone (R102). -/
theorem commit_locks_units (s : State) (a : AgentId) : (s.commit a).locks = s.locks ∧ (s.commit a).units = s.units := by
  unfold State.commit
  split
  · split
    · exact ⟨rfl, rfl⟩
    split <;> exact ⟨rfl, rfl⟩
  · exact ⟨rfl, rfl⟩

theorem exec_tcommit (h : exec (.tcommit a) s = .next t) : t.locks = s.locks ∧ t.units = s.units := by
  rcases next_controlWrite h with rfl | ⟨rfl, _⟩
  · exact ⟨rfl, rfl⟩
  · exact commit_locks_units s a

/-- An advance changes neither locks nor classes (R138). -/
theorem exec_unitAdvance (h : exec .unitAdvance s = .next t) : t.locks = s.locks ∧ t.classes = s.classes := by
  have h : execUnitAdvance s = .next t := h
  unfold execUnitAdvance at h
  split at h <;> cases h <;> exact ⟨rfl, rfl⟩

/-- Settles O53: each of the three commands named leaves the other two fields alone, and the rest leave all three. -/
theorem classFieldsDescriptorsAndUnitsChangeByTheirOwnCommands :
    Obligations.ClassFieldsDescriptorsAndUnitsChangeByTheirOwnCommands := by
  intro c s t h hr
  by_cases ho : ∃ a, c = .openLock a
  · obtain ⟨a, rfl⟩ := ho
    obtain ⟨hd, hu⟩ := exec_openLock h
    exact ⟨fun hn => absurd rfl (hn a), fun _ => hd, fun _ => hu⟩
  by_cases hc : ∃ a, c = .tcommit a
  · obtain ⟨a, rfl⟩ := hc
    obtain ⟨hl, hu⟩ := exec_tcommit h
    exact ⟨fun _ k => by rw [State.lock, hl, State.lock], fun hn => absurd rfl (hn a), fun _ => hu⟩
  by_cases hu : c = .unitAdvance
  · subst hu
    obtain ⟨hl, hcl⟩ := exec_unitAdvance h
    exact ⟨fun _ k => by rw [State.lock, hl, State.lock], fun _ d => by rw [State.cls, hcl, State.cls],
      fun hn => absurd rfl hn⟩
  have hs := exec_fieldsStay h hr (fun a ha => ho ⟨a, ha⟩) (fun a ha => hc ⟨a, ha⟩) hu
  exact ⟨fun _ => hs.cls, fun _ => hs.desc, fun _ => hs.units⟩

end Sys2Proof.Machine
end

section
/-! ACQUIRE, check by check: what the ordered checks decide, what each decision does, and the held rank (R27 to R45,
R54, R56, R57). -/
namespace Sys2Proof.Machine

variable {s : State} {a : AgentId} {k : LockId}

/-! ## The held rank -/

theorem holdsOrdered_iff : s.holdsOrdered a k = true ↔
    (∃ r ∈ (s.lock k).holders, r.agent = a) ∧ (s.lockClass k).ordered = true := by
  rw [State.holdsOrdered, Bool.and_eq_true, LockEntry.holderOf_isSome]

theorem heldRank_eq_none : s.heldRank a = none ↔ ∀ k, s.holdsOrdered a k = false := by
  simp [State.heldRank, List.max?_eq_none_iff, mem_allLocks]

theorem heldRank_eq_some {n : Nat} : s.heldRank a = some n ↔
    (∃ k, s.holdsOrdered a k = true ∧ (s.lockClass k).rank.toNat = n) ∧
      ∀ k, s.holdsOrdered a k = true → (s.lockClass k).rank.toNat ≤ n := by
  simp [State.heldRank, List.max?_eq_some_iff, mem_allLocks]

/-- Settles O15: the held rank is the maximum over the locks that `holdsOrdered` picks. -/
theorem heldRankIsTheLargestOrderedRank : Obligations.HeldRankIsTheLargestOrderedRank := by
  intro s a
  refine ⟨?_, fun n => ?_⟩
  · simp only [heldRank_eq_none, ← Bool.not_eq_true, holdsOrdered_iff, not_and]
  · simp only [heldRank_eq_some, holdsOrdered_iff, and_assoc, and_imp]

theorem outOfOrder_iff : s.outOfOrder a k = true ↔
    (s.lockClass k).ordered = true ∧ ∃ r, s.heldRank a = some r ∧ (s.lockClass k).rank.toNat ≤ r := by
  unfold State.outOfOrder
  cases s.heldRank a <;> simp

/-! ## What the checks decide (R31) -/

theorem argMode_eq (s : State) (a : AgentId) : s.argMode a = acquireMode (s.agent a).arg0 := rfl

theorem grantableAtOnce_argMode : (s.lock k).grantableAtOnce (acquireMode (s.agent a).arg0) = true ↔
    s.GrantableNow a k := (s.lock k).grantableAtOnce_iff _

/-- Check 1 (R33). -/
theorem acquireOutcome_not_attached {st : Status} (h : (s.agent a).status.refusal = some st) :
    s.acquireOutcome a = .refuse st := by
  simp only [State.acquireOutcome, h]

/-- Check 2. -/
theorem acquireOutcome_bad_lock (hat : (s.agent a).status = .attached) (hk : 64 ≤ s.argLock a) :
    s.acquireOutcome a = .refuse .badLock := by
  simp only [State.acquireOutcome, hat, refusal_attached, (lockArg_eq_none _).2 hk]

theorem acquireOutcome_at (hat : (s.agent a).status = .attached) (hk : s.argLock a = k.val) :
    s.acquireOutcome a = s.acquireAt a k := by
  simp only [State.acquireOutcome, hat, refusal_attached, lockArg_argLock hk]

/-- Check 3 (R34). -/
theorem acquireAt_closed (h : (s.lock k).state = .closed ∨ (s.lock k).state = .draining) :
    s.acquireAt a k = .refuse .closed := if_pos h

/-- Check 4 (R35). -/
theorem acquireAt_denied (h1 : (s.lock k).state ≠ .closed) (h2 : (s.lock k).state ≠ .draining)
    (hm : (s.lockClass k).mask.getLsbD a.val = false) : s.acquireAt a k = .refuse .denied := by
  have hadm : (s.lockClass k).admits a = false := hm
  simp [State.acquireAt, h1, h2, hadm]

/-- Check 5. -/
theorem acquireAt_bad_mode (h1 : (s.lock k).state ≠ .closed) (h2 : (s.lock k).state ≠ .draining)
    (hm : (s.lockClass k).mask.getLsbD a.val = true) (hs : s.argMode a = .shared)
    (hc : (s.lockClass k).sharedAllowed = false) : s.acquireAt a k = .refuse .badMode := by
  have hadm : (s.lockClass k).admits a = true := hm
  rw [argMode_eq] at hs
  simp [State.acquireAt, h1, h2, hadm, hs, hc]

theorem State.MayAsk.admits (h : s.MayAsk a k) : (s.lockClass k).admits a = true := h.member

theorem State.MayAsk.mode_allowed (h : s.MayAsk a k) :
    ¬ (acquireMode (s.agent a).arg0 = .shared ∧ (s.lockClass k).sharedAllowed = false) := by
  rintro ⟨hs, hc⟩
  rw [h.mode hs] at hc
  cases hc

/-- Past checks 1 to 5, a holder meets check 6 (R36). -/
theorem acquireOutcome_of_holder (h : s.MayAsk a k) {r : HolderRecord} (hr : (s.lock k).holderOf a = some r) :
    s.acquireOutcome a = ownHoldingOutcome k (s.argMode a) (s.lockClass k).recursionAllowed r := by
  rw [acquireOutcome_at h.attached h.lock]
  simp [State.acquireAt, h.inService, h.admits, h.mode_allowed, hr, argMode_eq]

/-- Past checks 1 to 5, a caller that does not hold the lock meets checks 7 to 11. -/
theorem acquireOutcome_of_not_holder (h : s.MayAsk a k) (hr : ∀ r ∈ (s.lock k).holders, r.agent ≠ a) :
    s.acquireOutcome a =
      if ((s.lock k).waiterOf a).isSome then .refuse .alreadyWaiting
      else if s.outOfOrder a k then .refuse .order
      else s.contendOutcome a k := by
  rw [acquireOutcome_at h.attached h.lock]
  simp [State.acquireAt, h.inService, h.admits, h.mode_allowed, ((s.lock k).holderOf_eq_none a).2 hr]

/-- Past checks 1 to 8, checks 9 to 11 decide. -/
theorem acquireOutcome_of_mayContend (h : s.MayContend a k) : s.acquireOutcome a = s.contendOutcome a k := by
  have hord : ¬ s.outOfOrder a k = true := by
    rw [outOfOrder_iff]
    rintro ⟨ho, r, hr, hle⟩
    exact absurd (h.inOrder ho r hr) (Nat.not_lt.2 hle)
  rw [acquireOutcome_of_not_holder h.toMayAsk h.notHolding, ((s.lock k).waiterOf_eq_none a).2 h.notWaiting,
    if_neg hord]
  rfl

/-! ## Checks 9 to 11 (R42 to R44) -/

theorem contendOutcome_grantable (h : s.GrantableNow a k) :
    s.contendOutcome a k = if 1 ≤ (s.agent a).credits then .grantNow k else .refuse .noCredit := by
  simp only [State.contendOutcome, grantableAtOnce_argMode.2 h, if_true]

theorem contendOutcome_try (h : ¬ s.GrantableNow a k) (ht : acquireTry (s.agent a).arg0 = true) :
    s.contendOutcome a k = .refuse .wouldWait := by
  simp only [State.contendOutcome, grantableAtOnce_argMode, h, ht, if_true, if_false]

section Waiting

variable (h : ¬ s.GrantableNow a k) (ht : acquireTry (s.agent a).arg0 = false)
include h ht

theorem contendOutcome_no_credit (hc : (s.agent a).credits < 2) : s.contendOutcome a k = .refuse .noCredit := by
  simp [State.contendOutcome, grantableAtOnce_argMode, h, ht, hc]

theorem contendOutcome_pool_empty (hc : 2 ≤ (s.agent a).credits) (hf : s.freeEntry = none) :
    s.contendOutcome a k = .refuse .poolEmpty := by
  simp [State.contendOutcome, grantableAtOnce_argMode, h, ht, Nat.not_lt.2 hc, hf]

theorem contendOutcome_enqueue (hc : 2 ≤ (s.agent a).credits) {e : EntryId} (hf : s.freeEntry = some e) :
    s.contendOutcome a k = .enqueue k e := by
  simp [State.contendOutcome, grantableAtOnce_argMode, h, ht, Nat.not_lt.2 hc, hf]

end Waiting

/-! ## What each decision does -/

theorem exec_acquire_taken (hlow : s.resetLow = false) :
    exec (.acquire a) s = .next ((s.acquire a).answered (.rdy none)) := agentWrite_taken hlow _

theorem exec_acquire_refused (hlow : s.resetLow = false) {st : Status} (h : s.acquireOutcome a = .refuse st) :
    exec (.acquire a) s = .next (s.refusedTo a st) := by
  rw [exec_acquire_taken hlow, State.acquire, h]
  rfl

/-- A grant in the mode an ACQUIRE asks for: the state is the one its mode bit names (R8, R27, R168). -/
theorem LockEntry.grant_acquireMode (l : LockEntry) (a : AgentId) (arg0 : Word) (lease : BitVec 12) (now : Word) :
    l.grant a (acquireMode arg0) lease now =
      { l with
        ticket := l.ticket + 1
        state := if arg0.getLsbD 8 then .shared else .exclusive
        holders := l.holders ++
          [{ agent := a, mode := acquireMode arg0, depth := 1, ticket := l.ticket + 1,
             deadline := formDeadline now lease }] } := by
  rw [acquireMode_eq]
  cases arg0.getLsbD 8 <;> rfl

/-- Settles O11: `GrantableNow` is check 9, and the grant is `LockEntry.grant` in the mode asked for. -/
theorem acquireGrantsAtOnce : Obligations.AcquireGrantsAtOnce := by
  intro a k s hc hg hcr
  have ho : s.acquireOutcome a = .grantNow k := by
    rw [acquireOutcome_of_mayContend hc, contendOutcome_grantable hg, if_pos hcr]
  rw [exec_acquire_taken hc.reset, State.acquire, ho]
  simp only [State.immediateGrant, State.agentResult, modAgent_eq, setAgent_setAgent, agent_setAgent_self,
    LockEntry.grant_acquireMode]
  rfl

/-- A change of a holder's record that keeps its agent is what the lookup finds there. -/
theorem LockEntry.holderOf_modHolder (l : LockEntry) (a : AgentId) {f : HolderRecord → HolderRecord}
    (hf : ∀ r, (f r).agent = r.agent) : (l.modHolder a f).holderOf a = (l.holderOf a).map f := by
  have hp : ∀ r : HolderRecord, ((if r.agent = a then f r else r).agent == a) = (r.agent == a) := by
    intro r
    split
    · rw [hf]
    · rfl
  unfold LockEntry.holderOf LockEntry.modHolder
  rw [List.find?_map]
  simp only [Function.comp_def, hp]
  cases hr : l.holders.find? (fun r => r.agent == a) with
  | none => rfl
  | some r =>
    have ha : r.agent = a := by simpa using List.find?_some hr
    simp [ha]

/-- Settles O12: check 6 by its three tests; the recursive take reads the record it has deepened. -/
theorem acquireByAHolderDeepensOrIsRefused : Obligations.AcquireByAHolderDeepensOrIsRefused := by
  intro a k s r hask ⟨hr, ha, hone⟩
  have hfind : (s.lock k).holderOf a = some r := ((s.lock k).holderOf_eq_some a hone r).2 ⟨hr, ha⟩
  have ho := acquireOutcome_of_holder hask hfind
  refine ⟨fun hm => ?_, fun hm hrec => ?_, fun hm hrec hd => ?_, fun hm hrec hd => ?_⟩
  · exact exec_acquire_refused hask.reset (by simp [ho, ownHoldingOutcome, hm])
  · exact exec_acquire_refused hask.reset (by simp [ho, ownHoldingOutcome, hm, hrec])
  · exact exec_acquire_refused hask.reset (by simp [ho, ownHoldingOutcome, hm, hrec, Nat.not_lt.2 hd])
  · have hrecur : s.acquireOutcome a = .recursion k := by simp [ho, ownHoldingOutcome, hm, hrec, hd]
    have hdeep := LockEntry.holderOf_modHolder (s.lock k) a (f := fun r => { r with depth := r.depth + 1 }) fun _ => rfl
    rw [exec_acquire_taken hask.reset, State.acquire, hrecur]
    simp only [State.recursiveTake, lock_setLock_self, hdeep, hfind, Option.map_some, Option.getD_some]
    rfl

/-- Settles O13: the lowest free entry is the one the pool view finds, and the limit is the effective one. -/
theorem acquireQueuesTheRequest : Obligations.AcquireQueuesTheRequest := by
  intro a k e s hc hg ht hcr he hlow limit hlim
  have ho : s.acquireOutcome a = .enqueue k e := by
    rw [acquireOutcome_of_mayContend hc,
      contendOutcome_enqueue hg ht hcr ((freeEntry_eq_some s e).2 ⟨he, hlow⟩)]
  have heff : limit = effectiveLimit (acquireLimit (s.agent a).arg1) (s.lockClass k).cap := hlim
  rw [exec_acquire_taken hc.reset, State.acquire, ho, heff]
  simp only [State.enqueue, State.agentResult, modAgent_eq, setAgent_setAgent, agent_setAgent_self]
  rfl

/-- Settles O14: the decision of each check, in order. -/
theorem acquireRefusesInOrder : Obligations.AcquireRefusesInOrder := by
  intro a s hlow
  have refused : ∀ {st}, s.acquireOutcome a = .refuse st → exec (.acquire a) s = .next (s.refusedTo a st) :=
    exec_acquire_refused hlow
  refine ⟨fun hst => refused ?_, fun hst => refused ?_, fun hat hk => refused ?_, fun k hat hk => ?_⟩
  · exact acquireOutcome_not_attached (by rw [hst, refusal_absent])
  · exact acquireOutcome_not_attached (by rw [hst, refusal_detaching])
  · exact acquireOutcome_bad_lock hat hk
  have hat := acquireOutcome_at hat hk
  refine ⟨fun hcl => refused ?_, fun h1 h2 => ⟨fun hm => refused ?_, fun hm hs hc => refused ?_,
    fun hask hnot => ⟨fun hwait => refused ?_, fun hwait ho hr => refused ?_⟩, fun hcon => ?_⟩⟩
  · rw [hat, acquireAt_closed hcl]
  · rw [hat, acquireAt_denied h1 h2 hm]
  · rw [hat, acquireAt_bad_mode h1 h2 hm hs hc]
  · rw [acquireOutcome_of_not_holder hask hnot, if_pos (((s.lock k).waiterOf_isSome a).2 hwait)]
  · rw [acquireOutcome_of_not_holder hask hnot, ((s.lock k).waiterOf_eq_none a).2 hwait,
      if_pos (outOfOrder_iff.2 ⟨ho, hr⟩)]
    rfl
  rw [acquireOutcome_of_mayContend hcon] at refused
  refine ⟨fun hg hcr => refused ?_, fun hg ht => refused (contendOutcome_try hg ht),
    fun hg ht hcr => refused (contendOutcome_no_credit hg ht hcr),
    fun hg ht hcr hp => refused (contendOutcome_pool_empty hg ht hcr ((freeEntry_eq_none s).2 hp))⟩
  rw [contendOutcome_grantable hg, if_neg (by omega)]

end Sys2Proof.Machine
end

section
/-! Grant evaluation: the queue it serves, shape by shape, and the one lock and the notices it writes (R8, R27, R29, R47
to R50). -/
namespace Sys2Proof.Machine

/-! ## Grant evaluation of one lock, by the shape of its queue -/

namespace LockEntry

variable {l : LockEntry} {k : LockId} {d : AgentId → Bool} {lease : BitVec 12} {now : Word} {w : WaitEntry}
  {pruned rest behind : List WaitEntry}

/-- Entries of DETACHING agents at the head of the queue make no difference to grant evaluation (R47, step 1). -/
theorem evaluate_pruned (hq : l.queue = pruned ++ rest) (hd : ∀ w ∈ pruned, d w.agent = true)
    (hh : ∀ w ∈ rest.head?, d w.agent = false) :
    l.evaluate k d lease now = LockEntry.evaluate { l with queue := rest } k d lease now := by
  have hrest : rest.dropWhile (fun w => d w.agent) = rest := dropWhile_of_split (pruned := []) _ (by simp) hh
  simp only [evaluate, hq, dropWhile_of_split _ hd hh, hrest]

/-- An EXCLUSIVE request at a lock with holders waits (R47, step 2). -/
theorem evaluate_exclusive_held (hw : d w.agent = false) (hm : w.mode = .exclusive) (hh : l.holders ≠ []) :
    LockEntry.evaluate { l with queue := w :: behind } k d lease now = ({ l with queue := w :: behind }, []) := by
  simp [evaluate, hw, hm, hh]

/-- An EXCLUSIVE request at a lock without holders is granted, alone (R47, step 2). -/
theorem evaluate_exclusive_granted (hw : d w.agent = false) (hm : w.mode = .exclusive) (hh : l.holders = []) :
    LockEntry.evaluate { l with queue := w :: behind } k d lease now =
      grantEntries k lease now [w] { l with queue := behind } := by
  simp [evaluate, hw, hm, hh]

/-- A SHARED request at a lock that is neither FREE nor SHARED waits (R47, step 3). -/
theorem evaluate_shared_blocked (hw : d w.agent = false) (hm : w.mode = .shared) (hf : l.state ≠ .free)
    (hs : l.state ≠ .shared) :
    LockEntry.evaluate { l with queue := w :: behind } k d lease now = ({ l with queue := w :: behind }, []) := by
  simp [evaluate, hw, hm, hf, hs]

/-- A SHARED request at a FREE or SHARED lock is granted with its batch (R47, step 3). -/
theorem evaluate_shared_granted (hw : d w.agent = false) (hm : w.mode = .shared)
    (hst : l.state = .free ∨ l.state = .shared) :
    LockEntry.evaluate { l with queue := w :: behind } k d lease now =
      grantEntries k lease now (sharedBatch d (w :: behind)).1 { l with queue := (sharedBatch d (w :: behind)).2 } := by
  simp [evaluate, sharedBatch, hw, hm, hst]

end LockEntry

/-- The records of a batch of SHARED requests, with the mode written out. -/
theorem mapIdx_grantRecord_shared (ticket : Half) (lease : BitVec 12) (now : Word) {ws : List WaitEntry}
    (hs : ∀ w ∈ ws, w.mode = .shared) :
    ws.mapIdx (grantRecord ticket lease now) = ws.mapIdx fun i w =>
      { agent := w.agent, mode := .shared, depth := 1, ticket := ticket + BitVec.ofNat 16 (i + 1),
        deadline := formDeadline now lease } := by
  refine List.mapIdx_eq_mapIdx_iff.2 fun i hi => ?_
  rw [grantRecord, hs _ (List.getElem_mem hi)]

/-- Settles O46: the DETACHING head is pruned first; then the head entry's mode and the lock decide, and the batch of a
SHARED head is the run given. -/
theorem grantEvaluationServesTheQueue : Obligations.GrantEvaluationServesTheQueue := by
  intro l k d lease now pruned rest hq hd hh
  rw [LockEntry.evaluate_pruned hq hd hh]
  refine ⟨fun hrest => ?_, fun w behind hrest => ?_⟩
  · subst hrest
    exact LockEntry.evaluate_nil _ k d lease now rfl
  subst hrest
  have hw : d w.agent = false := hh w rfl
  refine ⟨fun hm hne => ?_, fun hm hf hs => ?_, fun hm hnil => ?_, fun hm hst run left granted hrun hg hr hl => ?_⟩
  · exact LockEntry.evaluate_exclusive_held hw hm hne
  · exact LockEntry.evaluate_shared_blocked hw hm hf hs
  · rw [LockEntry.evaluate_exclusive_granted hw hm hnil, grantEntries_single]
    simp only [LockEntry.grant, grantedNotice, hm, hnil, List.nil_append]
    rfl
  · have hbatch : sharedBatch d (w :: behind) = (granted, left) := by
      rw [hrun, sharedBatch_run d run left hr hl, hg]
    have hgranted : ∀ x ∈ granted, x.mode = .shared := fun x hx =>
      (sharedBatch_granted d (w :: behind) x (by rwa [hbatch])).2.1
    have hne : granted ≠ [] := by
      intro hnil
      simp [sharedBatch, hw, hm, hnil] at hbatch
    rw [LockEntry.evaluate_shared_granted hw hm hst, hbatch, grantEntries_shared k lease now _ _ hgranted hne,
      mapIdx_grantRecord_shared _ _ _ hgranted]
    rfl

/-! ## Grant evaluation of the state -/

theorem isDetaching_eq (s : State) : s.isDetaching = fun a => decide ((s.agent a).status = .detaching) := by
  funext a
  rw [State.isDetaching, beq_eq_decide]

/-- Settles O47: what grant evaluation touches, the lock it leaves, and the notices each agent receives. -/
theorem grantEvaluationTouchesOneLock : Obligations.GrantEvaluationTouchesOneLock := by
  intro s k out hout
  rw [← isDetaching_eq] at hout
  have ht := touches_grantEval s k
  refine ⟨?_, ht.lock, fun b => ?_, grantEval_classes s k, ht.units, ht.prescaler, ht.refCount, ht.sweepQueue,
    ht.inFlight, ht.resetLow, ht.answer, ht.pending⟩
  · rw [grantEval_lock_self, hout]
  · rw [grantEval_agent, ← hout]
    simp only [receive_eq_told]

end Sys2Proof.Machine
end

section
/-! How one entry leaves its wait queue: withdrawn by its agent with CANCEL (R63, R64), or removed at its deadline (R60,
R61). -/
namespace Sys2Proof.Machine

variable {s : State} {a : AgentId} {k : LockId} {w : WaitEntry} {ahead behind : List WaitEntry}

/-! ## One entry of a queue -/

/-- Under keys that are all different, no other element has the key of the one in the middle. -/
theorem key_ne_of_nodup_split {α β : Type} (key : α → β) {before after : List α} {y : α}
    (hn : ((before ++ y :: after).map key).Nodup) : ∀ x ∈ before ++ after, key x ≠ key y := by
  rw [List.map_append, List.map_cons, List.nodup_middle, List.nodup_cons, ← List.map_append] at hn
  exact fun x hx he => hn.1 (List.mem_map.2 ⟨x, hx, he⟩)

theorem mem_queue_of_split (hq : (s.lock k).queue = ahead ++ w :: behind) : w ∈ (s.lock k).queue :=
  hq ▸ List.mem_append_right ahead List.mem_cons_self

/-- The lock table and the agent table are written in either order. -/
theorem setAgent_setLock (s : State) (a : AgentId) (k : LockId) (e : AgentEntry) (l : LockEntry) :
    (s.setAgent a e).setLock k l = (s.setLock k l).setAgent a e := rfl

theorem headIs_of_cons {l : LockEntry} {x : WaitEntry} {rest : List WaitEntry} (hq : l.queue = x :: rest)
    (p : WaitEntry → Bool) : l.headIs p = p x := by
  rw [LockEntry.headIs, hq]

/-- Taking out the one entry that `p` picks leaves what stood ahead of and behind it, with grant evaluation if it was
the head (R46, R59). -/
theorem removeWaiters_of_only (s : State) (k : LockId) {p : WaitEntry → Bool}
    (hq : (s.lock k).queue = ahead ++ w :: behind) (hw : p w = true)
    (hother : ∀ x ∈ ahead ++ behind, p x = false) : s.removeWaiters k p =
      if ahead = [] then (s.setLock k { s.lock k with queue := ahead ++ behind }).grantEval k
      else s.setLock k { s.lock k with queue := ahead ++ behind } := by
  have hfilter : (s.lock k).queue.filter (fun x => !p x) = ahead ++ behind := by
    have hkeep : (ahead ++ behind).filter (fun x => !p x) = ahead ++ behind :=
      List.filter_eq_self.2 fun x hx => by rw [hother x hx]; rfl
    rw [List.filter_append] at hkeep
    rw [hq, List.filter_append, List.filter_cons_of_neg (by simp [hw]), hkeep]
  rw [removeWaiters_eq, hfilter]
  cases ahead with
  | nil => rw [headIs_of_cons hq, hw, if_pos rfl, if_pos rfl]
  | cons x ahead =>
    rw [headIs_of_cons hq, hother x (by simp), if_neg Bool.false_ne_true, if_neg (List.cons_ne_nil x ahead)]

/-! ## CANCEL -/

theorem exec_cancel_taken (hlow : s.resetLow = false) :
    exec (.cancel a) s = .next ((s.cancel a).answered (.rdy none)) := agentWrite_taken hlow _

theorem exec_cancel_refused (hlow : s.resetLow = false) {st : Status} (h : s.cancel a = s.refuse a st) :
    exec (.cancel a) s = .next (s.refusedTo a st) := by
  rw [exec_cancel_taken hlow, h]
  rfl

theorem cancel_not_attached {st : Status} (h : (s.agent a).status.refusal = some st) :
    s.cancel a = s.refuse a st := by
  rw [State.cancel, h]

theorem cancel_badLock (hat : (s.agent a).status = .attached) (hk : 64 ≤ s.argLock a) :
    s.cancel a = s.refuse a .badLock := by
  rw [State.cancel, hat, refusal_attached, (lockArg_eq_none _).2 hk]

/-- CANCEL of an ATTACHED agent with a lock named: check 3 of R63, and the withdrawal. -/
theorem cancel_at (hat : (s.agent a).status = .attached) (hk : s.argLock a = k.val) : s.cancel a =
    if ((s.lock k).waiterOf a).isSome then s.withdraw a k else s.refuse a .notWaiting := by
  rw [State.cancel, hat, refusal_attached, lockArg_argLock hk]

theorem cancel_notWaiting (hat : (s.agent a).status = .attached) (hk : s.argLock a = k.val)
    (hn : ∀ w ∈ (s.lock k).queue, w.agent ≠ a) : s.cancel a = s.refuse a .notWaiting := by
  rw [cancel_at hat hk, ((s.lock k).waiterOf_eq_none a).2 hn]
  rfl

theorem cancel_waiting (hat : (s.agent a).status = .attached) (hk : s.argLock a = k.val)
    (hw : w ∈ (s.lock k).queue) (ha : w.agent = a) : s.cancel a = s.withdraw a k := by
  rw [cancel_at hat hk, if_pos (((s.lock k).waiterOf_isSome a).2 ⟨w, hw, ha⟩)]

/-- The repaid agent's entry leaves its queue, with grant evaluation if it was the head (R64). -/
theorem regain_removeWaiters_split (hat : (s.agent w.agent).status = .attached)
    (hq : (s.lock k).queue = ahead ++ w :: behind) (hone : (s.lock k).OnePlaceEach) (s1 : State)
    (hs1 : s1 = (s.setLock k { s.lock k with queue := ahead ++ behind }).setAgent w.agent
      { s.agent w.agent with credits := (s.agent w.agent).credits + 2 }) :
    (s.modAgent w.agent (AgentEntry.regain 2)).removeWaiters k (fun x => x.agent == w.agent) =
      if ahead = [] then s1.grantEval k else s1 := by
  rw [removeWaiters_split (s.modAgent w.agent (AgentEntry.regain 2)) k hone hq, modAgent_eq, AgentEntry.regain_eq,
    if_pos hat, setAgent_lock, setAgent_setLock, hs1]

/-- Settles O20: the refusals check by check; the withdrawal repays the caller first, which the queue does not see, and
grant evaluation moves no credits. -/
theorem cancelWithdrawsTheCallersWait : Obligations.CancelWithdrawsTheCallersWait := by
  intro a s hlow
  refine ⟨fun hst => ?_, fun hst => ?_, fun hat hk => ?_, fun k hat hk => ⟨fun hn => ?_, ?_⟩⟩
  · exact exec_cancel_refused hlow (cancel_not_attached (by rw [hst, refusal_absent]))
  · exact exec_cancel_refused hlow (cancel_not_attached (by rw [hst, refusal_detaching]))
  · exact exec_cancel_refused hlow (cancel_badLock hat hk)
  · exact exec_cancel_refused hlow (cancel_notWaiting hat hk hn)
  · rintro ahead behind w s1 s2 hq rfl hone hs1 hs2
    have hleave : (s.modAgent w.agent (AgentEntry.regain 2)).removeWaiters k (fun x => x.agent == w.agent) = s2 :=
      (regain_removeWaiters_split hat hq hone s1 hs1).trans hs2.symm
    have hcredits : (s2.agent w.agent).credits = (s.agent w.agent).credits + 2 := by
      rw [← hleave, (keeps_removeWaiters _ k _ _).2, modAgent_eq, agent_setAgent_self,
        AgentEntry.regain_credits_attached _ _ hat]
    have hposition : (s.lock k).queuePosition w.agent = ahead.length + 1 := by
      have hagents : ((ahead ++ w :: behind).map WaitEntry.agent).Nodup := hq ▸ (List.nodup_append.1 hone).2.1
      exact (s.lock k).queuePosition_split _ hq rfl fun x hx =>
        key_ne_of_nodup_split WaitEntry.agent hagents x (List.mem_append_left _ hx)
    rw [exec_cancel_taken hlow, cancel_waiting hat hk (mem_queue_of_split hq) rfl, State.withdraw, hleave, hposition,
      ← hcredits]
    rfl

/-! ## Wait timeouts -/

/-- TIMEOUT of a linked entry: taken exactly if its deadline is the one reached (R142, log 4). -/
theorem exec_timeout_linked (hp : s.PoolLaw) (hw : w ∈ (s.lock k).queue) : exec (.timeout w.num) s =
    if w.deadline = some s.units then .next (s.timeOut k w) else .next s := by
  show execTimeout w.num s = _
  simp only [execTimeout, (poolEntry_eq_some hp w.num k w).2 ⟨hw, rfl⟩, deadlineDue, beq_iff_eq]

theorem exec_timeout_free {e : EntryId} (h : ∀ k, ∀ w ∈ (s.lock k).queue, w.num ≠ e) :
    exec (.timeout e) s = .next s := by
  show execTimeout e s = _
  simp only [execTimeout, (poolEntry_eq_none s e).2 h]

/-- The entry that times out is the only one with its number, so it alone leaves the queue; its agent is told and repaid
(R60, R61). -/
theorem timeOut_split (hp : s.PoolLaw) (hq : (s.lock k).queue = ahead ++ w :: behind) (s1 : State)
    (hs1 : s1 = (s.setLock k { s.lock k with queue := ahead ++ behind }).setAgent w.agent
      (((s.agent w.agent).told (.timedOut k w.mode w.tag (s.units.setWidth 16))).repaid 1)) :
    s.timeOut k w = if ahead = [] then s1.grantEval k else s1 := by
  have hnumbers : ((ahead ++ w :: behind).map WaitEntry.num).Nodup := hq ▸ ((poolLaw_iff s).1 hp).1 k
  have hother : ∀ x ∈ ahead ++ behind, (x.num == w.num) = false := fun x hx =>
    beq_false_of_ne (key_ne_of_nodup_split WaitEntry.num hnumbers x hx)
  have htold : (s.notify w.agent (.timedOut k w.mode w.tag (stamp s.units))).modAgent w.agent (AgentEntry.regain 1) =
      s.setAgent w.agent (((s.agent w.agent).told (.timedOut k w.mode w.tag (s.units.setWidth 16))).repaid 1) := by
    rw [modAgent_eq, notify_eq, setAgent_setAgent, agent_setAgent_self, receive_eq_told]
    rfl
  rw [State.timeOut, htold, removeWaiters_of_only (s.setAgent w.agent _) k (p := fun x => x.num == w.num) hq
    (beq_self_eq_true w.num) hother, setAgent_lock, setAgent_setLock, hs1]

/-- Settles O41: the pool view finds the entry in its queue or nowhere, and its deadline decides. -/
theorem timeoutRemovesADueEntry : Obligations.TimeoutRemovesADueEntry := by
  intro e s hp
  refine ⟨?_, exec_timeout_free⟩
  rintro k ahead behind w s1 hq rfl
  rw [exec_timeout_linked hp (mem_queue_of_split hq)]
  refine ⟨fun hnot => if_neg hnot, fun hdue hs1 => ?_⟩
  rw [if_pos hdue, timeOut_split hp hq s1 hs1]

end Sys2Proof.Machine
end

section
/-! How a holding ends or is prolonged: RELEASE and RENEW under the checks they share (R74 to R79, R84, R85), and lease
expiry (R81, R82, R142). -/
namespace Sys2Proof.Machine

variable {s : State} {a : AgentId} {k : LockId} {r : HolderRecord}

/-! ## The record a lookup finds -/

theorem State.Holds.holderOf (h : s.Holds a k r) : (s.lock k).holderOf a = some r := by
  obtain ⟨hmem, hagent, hone⟩ := h
  exact ((s.lock k).holderOf_eq_some a hone r).2 ⟨hmem, hagent⟩

/-! ## Checks 1 to 4 of RELEASE and RENEW (R74, R84) -/

/-- Check 1. -/
theorem presentedHolding_not_attached {st : Status} (h : (s.agent a).status.refusal = some st) :
    s.presentedHolding a = .error st := by
  simp only [State.presentedHolding, h]

/-- Check 2. -/
theorem presentedHolding_badLock (hat : (s.agent a).status = .attached) (hk : 64 ≤ s.argLock a) :
    s.presentedHolding a = .error .badLock := by
  simp only [State.presentedHolding, hat, refusal_attached, (lockArg_eq_none _).2 hk]

/-- Check 3. -/
theorem presentedHolding_notHolder (hat : (s.agent a).status = .attached) (hk : s.argLock a = k.val)
    (hn : ∀ r ∈ (s.lock k).holders, r.agent ≠ a) : s.presentedHolding a = .error .notHolder := by
  simp only [State.presentedHolding, hat, refusal_attached, lockArg_argLock hk, ((s.lock k).holderOf_eq_none a).2 hn]

/-- Check 4: the ticket presented decides for the holder. -/
theorem presentedHolding_of_holds (hat : (s.agent a).status = .attached) (hk : s.argLock a = k.val)
    (hr : s.Holds a k r) : s.presentedHolding a =
      if r.ticket = ticketArg (s.agent a).arg1 then .ok (k, r) else .error .staleTicket := by
  simp only [State.presentedHolding, hat, refusal_attached, lockArg_argLock hk, hr.holderOf]

theorem presentedHolding_ok (hat : (s.agent a).status = .attached) (hk : s.argLock a = k.val) (hr : s.Holds a k r)
    (ht : (s.agent a).arg1.extractLsb' 0 16 = r.ticket) : s.presentedHolding a = .ok (k, r) := by
  rw [presentedHolding_of_holds hat hk hr]
  exact if_pos ht.symm

theorem presentedHolding_staleTicket (hat : (s.agent a).status = .attached) (hk : s.argLock a = k.val)
    (hr : s.Holds a k r) (ht : (s.agent a).arg1.extractLsb' 0 16 ≠ r.ticket) :
    s.presentedHolding a = .error .staleTicket := by
  rw [presentedHolding_of_holds hat hk hr]
  exact if_neg (Ne.symm ht)

/-! ## What RELEASE and RENEW do after their checks -/

theorem exec_release_taken (hlow : s.resetLow = false) :
    exec (.release a) s = .next ((s.release a).answered (.rdy none)) := agentWrite_taken hlow _

theorem exec_renew_taken (hlow : s.resetLow = false) :
    exec (.renew a) s = .next ((s.renew a).answered (.rdy none)) := agentWrite_taken hlow _

theorem release_presented (h : s.presentedHolding a = .ok (k, r)) : s.release a =
    if 1 < r.depth then s.lowerDepth a k r else s.releaseRecord a k r := by
  simp only [State.release, h]

theorem renew_presented (h : s.presentedHolding a = .ok (k, r)) : s.renew a =
    if (s.lockClass k).lease = 0 then s.refuse a .noLease else s.renewRecord a k r := by
  simp only [State.renew, h]

/-- A refusal by checks 1 to 4 is the answer of either command (R120). -/
theorem exec_release_or_renew_refused {c : Instr} (hlow : s.resetLow = false) (hc : c = .release a ∨ c = .renew a)
    {st : Status} (h : s.presentedHolding a = .error st) : exec c s = .next (s.refusedTo a st) := by
  rcases hc with rfl | rfl
  · rw [exec_release_taken hlow, State.release, h]
    rfl
  · rw [exec_renew_taken hlow, State.renew, h]
    rfl

/-- Settles O19: checks 1 to 4 are one lookup, and what it refuses both commands refuse. -/
theorem releaseAndRenewRefuseInOrder : Obligations.ReleaseAndRenewRefuseInOrder := by
  intro a s c hlow hc
  have refused : ∀ {st}, s.presentedHolding a = .error st → exec c s = .next (s.refusedTo a st) :=
    exec_release_or_renew_refused hlow hc
  refine ⟨fun hst => refused ?_, fun hst => refused ?_, fun hat hk => refused ?_, fun k hat hk =>
    ⟨fun hn => refused ?_, fun r hr ht => refused ?_⟩⟩
  · exact presentedHolding_not_attached (by rw [hst, refusal_absent])
  · exact presentedHolding_not_attached (by rw [hst, refusal_detaching])
  · exact presentedHolding_badLock hat hk
  · exact presentedHolding_notHolder hat hk hn
  · exact presentedHolding_staleTicket hat hk hr ht

/-! ## RELEASE -/

/-- Settles O16: the depth test sends a depth of 2 or more to `lowerDepth`. -/
theorem releaseAboveDepthOneLowersTheDepth : Obligations.ReleaseAboveDepthOneLowersTheDepth := by
  intro a k s r hlow hat hk hr ht hd
  have hpresented : s.presentedHolding a = .ok (k, r) := presentedHolding_ok hat hk hr ht
  rw [exec_release_taken hlow, release_presented hpresented, if_pos (Nat.lt_of_succ_le hd)]
  rfl

/-- Step 2 of a release at depth 1: CLEAN clears the marker for an EXCLUSIVE record alone (R78). -/
theorem markerAfterRelease_eq (marker clean : Bool) (r : HolderRecord) :
    markerAfterRelease marker clean r = if clean = true ∧ r.mode = .exclusive then false else marker := by
  unfold markerAfterRelease
  cases clean <;> cases r.mode <;> cases marker <;> rfl

/-- The lock, the credit and the departure of a release at depth 1 by an ATTACHED agent (R77, R78). -/
theorem giveBack_eq (hat : (s.agent a).status = .attached) : s.giveBack a k r =
    ((s.setLock k
      { s.lock k with
        holders := (s.lock k).holders.filter fun x => x.agent != a
        marker := if (s.agent a).arg0.getLsbD 10 = true ∧ r.mode = .exclusive then false
                  else (s.lock k).marker }).setAgent a
      { s.agent a with credits := (s.agent a).credits + 1 }).departure k := by
  rw [State.giveBack, modAgent_eq, setLock_agent, AgentEntry.regain_eq, if_pos hat, markerAfterRelease_eq]
  rfl

/-- Holder departure moves no credits, so the releasing agent ends with the 1 credit it regained (R77). -/
theorem giveBack_credits (hat : (s.agent a).status = .attached) :
    ((s.giveBack a k r).agent a).credits = (s.agent a).credits + 1 := by
  rw [giveBack_eq hat, (keeps_departure _ k a).2, agent_setAgent_self]

/-- Settles O17: the depth test sends depth 1 to `releaseRecord`, whose result reads the state after departure. -/
theorem releaseAtDepthOneRemovesTheRecord : Obligations.ReleaseAtDepthOneRemovesTheRecord := by
  intro a k s s1 r hlow hat hk hr ht hd hs1
  have hpresented : s.presentedHolding a = .ok (k, r) := presentedHolding_ok hat hk hr ht
  have hback : s.giveBack a k r = s1 := (giveBack_eq hat).trans hs1.symm
  have hcredits : (s1.agent a).credits = (s.agent a).credits + 1 := hback ▸ giveBack_credits hat
  rw [exec_release_taken hlow, release_presented hpresented, if_neg (by omega), State.releaseRecord, hback, ← hcredits,
    ← beq_eq_decide]
  rfl

/-! ## RENEW -/

/-- A RENEW in a class with a lease writes the deadline into the caller's record (R85). -/
theorem renewRecord_eq (hl : (s.lockClass k).lease ≠ 0) : s.renewRecord a k r = (s.setLock k
    { s.lock k with
      holders := (s.lock k).holders.map fun x =>
        if x.agent = a then { x with deadline := some (s.units + (s.lockClass k).lease.setWidth 32) } else x
      }).setAgent a
    { s.agent a with
      result := .command { status := .done, lock := k, ticket := r.ticket, depth := r.depth,
                           marker := (s.lock k).marker, credits := (s.agent a).credits } } := by
  rw [State.renewRecord, formDeadline_of_ne _ hl]
  rfl

/-- Settles O18: past checks 1 to 4, the lease length of the class decides. -/
theorem renewReplacesTheDeadline : Obligations.RenewReplacesTheDeadline := by
  intro a k s r hlow hat hk hr ht
  rw [exec_renew_taken hlow, renew_presented (presentedHolding_ok hat hk hr ht)]
  refine ⟨fun hnone => ?_, fun hl => ?_⟩
  · rw [if_pos hnone]
    rfl
  · rw [if_neg hl, renewRecord_eq hl]

/-! ## Lease expiry -/

/-- LEASE_EXPIRY of a holder's record: taken exactly if its deadline is the one reached (R142, log 4). -/
theorem exec_leaseExpiry_of_holds (h : s.Holds a k r) : exec (.leaseExpiry k a) s =
    if r.deadline = some s.units then
      .next (s.loseHolder k a (some (.expired k r.mode r.ticket (s.units.setWidth 16))))
    else .next s := by
  show execLeaseExpiry k a s = _
  simp only [execLeaseExpiry, h.holderOf, deadlineDue, beq_iff_eq]
  rfl

theorem exec_leaseExpiry_absent (h : ∀ r ∈ (s.lock k).holders, r.agent ≠ a) : exec (.leaseExpiry k a) s = .next s := by
  show execLeaseExpiry k a s = _
  simp only [execLeaseExpiry, ((s.lock k).holderOf_eq_none a).2 h]

/-- Settles O40: the record is found or there is none, and its deadline decides. -/
theorem leaseExpiryRemovesADueRecord : Obligations.LeaseExpiryRemovesADueRecord := by
  intro k a s
  refine ⟨fun r hr hdue => ?_, fun r hr hnot => ?_, exec_leaseExpiry_absent⟩
  · rw [exec_leaseExpiry_of_holds hr, if_pos hdue, loseHolder_told]
  · rw [exec_leaseExpiry_of_holds hr, if_neg hnot]

end Sys2Proof.Machine
end

section
/-! Lock classes: the laws of use counts and of what a class allows, over every step (R35, R97, R98), and the commit of a
staged descriptor (R100 to R102). -/
namespace Sys2Proof.Machine

variable {s t : State} {a : AgentId} {i : ClassId} {c : StagedClass}

/-! ## The class laws over a step -/

/-- Use counts stay exact while locks are sound: a lock that departs or drains is then one its class counted (R98). -/
theorem step_useLaw (h : step s = .next t) (hl : s.LockLaw) (hu : s.UseLaw) : t.UseLaw :=
  (step_keeps (P := fun s => s.LockLaw ∧ s.UseLaw)
    (fun _ _ ha ⟨hl, hu⟩ => ⟨ha.lockLaw hl, ha.useLaw hu⟩)
    (fun _ _ he ⟨hl, hu⟩ => ⟨he.lockLaw hl, he.useLaw hl hu⟩) h ⟨hl, hu⟩).2

/-- Holders and waiters stay within their class: a descriptor is replaced only while its use count is 0 (R100), and an
exact count of 0 leaves no lock of the class with a holder or a waiter. -/
theorem step_classLaw (h : step s = .next t) (hl : s.LockLaw) (hu : s.UseLaw) (hc : s.ClassLaw) : t.ClassLaw :=
  (step_keeps (P := fun s => s.LockLaw ∧ s.UseLaw ∧ s.ClassLaw)
    (fun _ _ ha ⟨hl, hu, hc⟩ => ⟨ha.lockLaw hl, ha.useLaw hu, ha.classLaw hc⟩)
    (fun _ _ he ⟨hl, hu, hc⟩ => ⟨he.lockLaw hl, he.useLaw hl hu, he.classLaw hl hu hc⟩) h ⟨hl, hu, hc⟩).2.2

/-- Settles O58: the use law rests on the lock law, and the class law on both. -/
theorem stepKeepsClassLaws : Obligations.StepKeepsClassLaws :=
  fun _ _ hl hu h => ⟨step_useLaw h hl hu, step_classLaw h hl hu⟩

/-! ## TCOMMIT -/

theorem StagedClass.inRange_iff (c : StagedClass) :
    c.inRange = true ↔ c.rank.toNat ≤ 15 ∧ c.lease.toNat ≤ 4095 ∧ c.cap.toNat ≤ 4095 := by
  simp only [inRange, Bool.and_eq_true, decide_eq_true_eq, and_assoc]

/-- The staged fields at the widths of a descriptor (R102). -/
theorem StagedClass.toDesc_eq (c : StagedClass) : c.toDesc =
    { mask := c.mask, sharedAllowed := c.sharedAllowed, recursionAllowed := c.recursionAllowed, ordered := c.ordered,
      rank := BitVec.ofNat 4 c.rank.toNat, lease := BitVec.ofNat 12 c.lease.toNat,
      cap := BitVec.ofNat 12 c.cap.toNat } := by
  simp only [toDesc, BitVec.ofNat_toNat]

/-- Check 1 of R101: a staging that is no CLASS snapshot is refused. -/
theorem commit_not_class (h : ∀ i c, (s.agent a).staging ≠ some (.cls i c)) :
    s.commit a = s.controlRefuse a .badArgument := by
  unfold State.commit
  split
  · rename_i i c hg
    exact absurd hg (h i c)
  · rfl

/-- Checks 2 and 3 of R101 on a staged CLASS snapshot, and the commit of R102. -/
theorem commit_class (h : (s.agent a).staging = some (.cls i c)) : s.commit a =
    if c.rank.toNat ≤ 15 ∧ c.lease.toNat ≤ 4095 ∧ c.cap.toNat ≤ 4095 then
      if 0 < (s.cls i).useCount then s.controlRefuse a .inUse
      else (s.setClass i { s.cls i with desc := c.toDesc }).controlResult a { status := .done }
    else s.controlRefuse a .badArgument := by
  simp only [State.commit, h, ← c.inRange_iff]
  cases c.inRange <;> rfl

theorem exec_tcommit_taken (hctl : s.Controls a) :
    exec (.tcommit a) s = .next ((s.commit a).answered (.rdy none)) := controlWrite_taken hctl _

theorem exec_tcommit_refused (hctl : s.Controls a) {st : Status} (h : s.commit a = s.controlRefuse a st) :
    exec (.tcommit a) s = .next (s.controlRefusedTo a st) := by
  rw [exec_tcommit_taken hctl, h, controlRefuse_answered]

/-- Settles O37: the three checks in order, then the commit, whose result record leaves the caller's staging alone. -/
theorem tcommitReplacesAnUnusedClass : Obligations.TcommitReplacesAnUnusedClass := by
  intro a s hctl
  refine ⟨fun hnone => exec_tcommit_refused hctl (commit_not_class hnone), fun i c hg => ⟨fun hout => ?_,
    fun hrank hlease hcap => ⟨fun hused => ?_, fun hunused => ?_⟩⟩⟩
  · exact exec_tcommit_refused hctl (by rw [commit_class hg, if_neg (by omega)])
  · exact exec_tcommit_refused hctl (by rw [commit_class hg, if_pos ⟨hrank, hlease, hcap⟩, if_pos hused])
  · rw [exec_tcommit_taken hctl, commit_class hg, if_pos ⟨hrank, hlease, hcap⟩, if_neg (by omega), c.toDesc_eq]
    rfl

end Sys2Proof.Machine
end

section
/-! Attachment and notice credit: the sum of R121 over a step, and ATTACH and DETACH in each agent state (R109 to R111,
R121). -/
namespace Sys2Proof.Machine

variable {s t : State} {a : AgentId}

/-! ## The credit sum over a step -/

/-- Settles O59: the effect of a step keeps the sum, and states alike share it and what it counts on. -/
theorem stepKeepsTheCreditSum : Obligations.StepKeepsTheCreditSum := by
  intro s t hone hpool hsweep habsent hreq hcredit h
  obtain ⟨u, hu, v, hv, hvt⟩ := step_effect h
  have hone' : ∀ k, (u.lock k).OnePlaceEach := fun k => by rw [hu.lock]; exact hone k
  exact hvt.creditLaw (hv.creditLaw hone' (hu.poolLaw hpool) (hu.sweepLaw hsweep) (hu.absentLaw habsent)
    (hu.requesterLaw hreq) (hu.creditLaw hcredit))

/-! ## Refusals of the agent view -/

theorem refuse_answered (s : State) (a : AgentId) (st : Status) :
    (s.refuse a st).answered (.rdy none) = s.refusedTo a st := rfl

/-- A taken agent-view command that its checks refuse. -/
theorem agentWrite_refused (hlow : s.resetLow = false) {f : State → State} {st : Status} (h : f s = s.refuse a st) :
    s.agentWrite f = .next (s.refusedTo a st) := by
  rw [agentWrite_taken hlow, h, refuse_answered]

/-! ## ATTACH -/

/-- ATTACH of an agent without notices leaves its line released, whatever ARG0 configures (R109, R134). -/
theorem AgentEntry.attach_eq {e : AgentEntry} (h : e.notices = []) : e.attach =
    { e with
      status := .attached
      epoch := e.epoch + 1
      credits := 16
      notifyEnable := e.arg0.getLsbD 0
      notifyMode := if e.arg0.getLsbD 1 then .arrival else .level
      latch := false
      lineLow := false } := by
  have hline : e.attach.lineLow = false := by
    simp only [attach, drive, lineCondition, h]
    cases notifyModeArg e.arg0 <;> simp
  calc e.attach = { e.attach with lineLow := false } := by rw [← hline]
    _ = _ := rfl

/-- Settles O8: one case for each agent state; the result record shows the credits the attachment begins with. -/
theorem attachMakesAnAbsentAgentAttached : Obligations.AttachMakesAnAbsentAgentAttached := by
  intro a s hlow
  refine ⟨fun hst hno => ?_, fun hst => ?_, fun hst => ?_⟩
  · have htaken : exec (.attach a) s = .next ((s.attach a).answered (.rdy none)) := agentWrite_taken hlow _
    rw [htaken, State.attach, hst]
    simp only [State.agentResult, modAgent_eq, agent_setAgent_self, setAgent_setAgent, AgentEntry.attach_eq hno]
  · exact agentWrite_refused hlow (by rw [State.attach, hst])
  · exact agentWrite_refused hlow (by rw [State.attach, hst])

/-! ## DETACH -/

theorem sweepFull_iff (s : State) : s.sweepFull = true ↔ 4 ≤ s.sweepQueue.length := decide_eq_true_iff

/-- Entry to DETACHING releases the line, since no agent but an ATTACHED one drives it (R111, R134). -/
theorem AgentEntry.enterDetaching_eq (e : AgentEntry) :
    e.enterDetaching = { e with status := .detaching, notices := [], latch := false, lineLow := false } := rfl

/-- Check 1 of R110. -/
theorem detach_not_attached {st : Status} (h : (s.agent a).status.refusal = some st) :
    s.detach a = s.refuse a st := by
  rw [State.detach, h]

/-- Check 2 of R110, and the entry to DETACHING of R111. -/
theorem detach_attached (h : (s.agent a).status = .attached) : s.detach a =
    if 4 ≤ s.sweepQueue.length then s.refuse a .sweepFull
    else ((s.request { job := .detach a, requester := none }).modAgent a AgentEntry.enterDetaching).agentResult a
      { status := .done } := by
  simp only [State.detach, h, refusal_attached, sweepFull_iff]

/-- Settles O9: the two checks in order, then the request, which leaves the agent table as it stands. -/
theorem detachQueuesARequestAndFreezesTheCaller : Obligations.DetachQueuesARequestAndFreezesTheCaller := by
  intro a s hlow
  refine ⟨fun hst => ?_, fun hst => ?_, fun hst hfull => ?_, fun hst hroom => ?_⟩
  · exact agentWrite_refused hlow (detach_not_attached (by rw [hst, refusal_absent]))
  · exact agentWrite_refused hlow (detach_not_attached (by rw [hst, refusal_detaching]))
  · exact agentWrite_refused hlow (by rw [detach_attached hst, if_pos hfull])
  · have htaken : exec (.detach a) s = .next ((s.detach a).answered (.rdy none)) := agentWrite_taken hlow _
    rw [htaken, detach_attached hst, if_neg (Nat.not_le.2 hroom), State.agentResult, modAgent_eq, modAgent_eq,
      agent_setAgent_self, setAgent_setAgent, request_agent, AgentEntry.enterDetaching_eq]

end Sys2Proof.Machine
end

section
/-! The supervisor right, codes no view lists, the accesses that need the right, and that every command of its own row
completes (R115 to R117, R120, R161, R167). -/
namespace Sys2Proof.Machine

variable {s t : State} {a b x : AgentId}

/-! ## GIVE_SUPERVISOR and TAKE_SUPERVISOR -/

/-- A taken control-view command that its checks refuse. -/
theorem controlWrite_refused (hctl : s.Controls a) {f : State → State} {st : Status}
    (h : f s = s.controlRefuse a st) : s.controlWrite a f = .next (s.controlRefusedTo a st) := by
  rw [controlWrite_taken hctl, h, controlRefuse_answered]

theorem agentArg_sargTarget (h : s.sargTarget a = x.val) : agentArg (s.agent a).sarg0 = some x :=
  (agentArg_eq_some _ x).2 h

theorem agentArg_sargTarget_none (h : 8 ≤ s.sargTarget a) : agentArg (s.agent a).sarg0 = none :=
  (agentArg_eq_none _).2 h

theorem lastSupervisor_iff (s : State) (x : AgentId) : s.lastSupervisor x = true ↔
    (s.agent x).supervisor = true ∧ ∀ b, b ≠ x → (s.agent b).supervisor = false := by
  simp only [State.lastSupervisor, Bool.and_eq_true, List.all_eq_true, mem_allAgents, forall_const, Bool.or_eq_true,
    beq_iff_eq, Bool.not_eq_true', or_iff_not_imp_left, ne_eq]

/-- Another agent's right, or none of the target's own, lets TAKE_SUPERVISOR pass check 2 (R117). -/
theorem lastSupervisor_eq_false
    (h : (s.agent x).supervisor = false ∨ ∃ b, b ≠ x ∧ (s.agent b).supervisor = true) :
    s.lastSupervisor x = false := by
  rw [← Bool.not_eq_true, lastSupervisor_iff]
  rintro ⟨hx, hothers⟩
  rcases h with h | ⟨b, hb, hsup⟩
  · rw [h] at hx; cases hx
  · rw [hothers b hb] at hsup; cases hsup

theorem giveSupervisor_target (h : s.sargTarget a = x.val) : s.giveSupervisor a =
    (s.setAgent x { s.agent x with supervisor := true }).controlResult a { status := .done } := by
  rw [State.giveSupervisor, agentArg_sargTarget h]
  rfl

theorem takeSupervisor_target (h : s.sargTarget a = x.val) : s.takeSupervisor a =
    if s.lastSupervisor x then s.controlRefuse a .lastSupervisor
    else (s.setAgent x { s.agent x with supervisor := false }).controlResult a { status := .done } := by
  rw [State.takeSupervisor, agentArg_sargTarget h]
  rfl

/-- The target's right is no part of the credits that the caller's record shows, also where the caller is the target. -/
theorem controlResult_setSupervisor (s : State) (a x : AgentId) (right : Bool) {s1 : State}
    (h1 : s1 = s.setAgent x { s.agent x with supervisor := right }) :
    s1.controlResult a { status := .done } = s1.setAgent a
      { s1.agent a with controlResult := .command { status := .done, credits := (s.agent a).credits } } := by
  have hcredits : (s1.agent a).credits = (s.agent a).credits := by
    rw [h1, agent_setAgent]
    split
    · rename_i ha; rw [ha]
    · rfl
  rw [← hcredits]
  rfl

/-- Settles O30: check 1 is shared; the right is written before the caller's record, also where the caller is the
target. -/
theorem supervisorRightIsGivenAndTaken : Obligations.SupervisorRightIsGivenAndTaken := by
  intro a s hctl
  refine ⟨fun h8 c hc => ?_, fun x s1 hx => ⟨fun h1 => ?_, fun hx1 hothers => ?_, fun hother h1 => ?_⟩⟩
  · have hnone := agentArg_sargTarget_none h8
    rcases hc with rfl | rfl
    · exact controlWrite_refused hctl (by rw [State.giveSupervisor, hnone])
    · exact controlWrite_refused hctl (by rw [State.takeSupervisor, hnone])
  · have htaken : exec (.giveSupervisor a) s = .next ((s.giveSupervisor a).answered (.rdy none)) :=
      controlWrite_taken hctl _
    rw [htaken, giveSupervisor_target hx, ← h1, controlResult_setSupervisor s a x true h1]
  · have hlast := (lastSupervisor_iff s x).2 ⟨hx1, hothers⟩
    exact controlWrite_refused hctl (by rw [takeSupervisor_target hx, if_pos hlast])
  · have htaken : exec (.takeSupervisor a) s = .next ((s.takeSupervisor a).answered (.rdy none)) :=
      controlWrite_taken hctl _
    rw [htaken, takeSupervisor_target hx, lastSupervisor_eq_false hother, if_neg Bool.false_ne_true, ← h1,
      controlResult_setSupervisor s a x false h1]

/-! ## Codes no view lists -/

/-- Neither view lists a code below 1 or above 7 (R167). -/
theorem isCommandCode_eq_false {code : BitVec 8} (h : code.toNat = 0 ∨ 8 ≤ code.toNat) (v : View) :
    isCommandCode v code = false := by
  unfold isCommandCode commandOfCode
  split
  case h_15 => rfl
  all_goals omega

theorem isCommandCode_of_wellFormed {v : View} {code : BitVec 8}
    (h : (Instr.badCommand a v code).wellFormed = true) : isCommandCode v code = false := by
  simpa only [Instr.wellFormed, Bool.not_eq_true'] using h

theorem exec_badCommand_agent {code : BitVec 8} (h : isCommandCode .agent code = false) (s : State) :
    exec (.badCommand a .agent code) s = s.agentWrite fun s => s.refuse a .badCommand := by
  simp only [exec, execBadCommand, h, Bool.false_eq_true, if_false]

theorem exec_badCommand_control {code : BitVec 8} (h : isCommandCode .control code = false) (s : State) :
    exec (.badCommand a .control code) s = s.controlWrite a fun s => s.controlRefuse a .badCommand := by
  simp only [exec, execBadCommand, h, Bool.false_eq_true, if_false]

/-- Settles O31: a code that is not 1 to 7 is no command, and an access that is taken is refused in its own view. -/
theorem unlistedCodesAreBadCommands : Obligations.UnlistedCodesAreBadCommands := by
  intro a code s hcode
  refine ⟨fun hlow => ?_, fun hctl => ?_⟩
  · rw [exec_badCommand_agent (isCommandCode_eq_false hcode .agent)]
    exact agentWrite_refused hlow rfl
  · rw [exec_badCommand_control (isCommandCode_eq_false hcode .control)]
    exact controlWrite_refused hctl rfl

/-! ## Accesses that need the supervisor right -/

theorem controlWrite_unsupervised (h : (s.agent a).supervisor = false) (f : State → State) :
    s.controlWrite a f = .next (s.answered (.berr none)) := by
  rw [State.controlWrite, h, Bool.not_false, Bool.or_true, if_pos rfl, busError_eq]

theorem viewOf_control {o : BitVec 7} (h : 64 ≤ o.toNat) : viewOf o = .control := by
  have hbit : o.getLsbD 6 = true := by
    have := o.isLt
    simp only [BitVec.getLsbD, Nat.testBit_eq_decide_div_mod_eq, decide_eq_true_eq]
    omega
  rw [viewOf, if_pos hbit]

/-- Settles O7: a control-view command is a `controlWrite`, whatever it does when it is taken; an offset from 64 up lies
in the control view, where the decoder asks for the right. -/
theorem controlViewNeedsTheSupervisorRight : Obligations.ControlViewNeedsTheSupervisorRight := by
  intro c s a hsup hwf hacc hview
  rcases hview with hv | ⟨o, w, rfl, ho⟩
  · cases c with
    | attach | detach | acquire | release | renew | cancel | probe | ntake | notifyWrite => cases hv
    | argumentRegisterWrite | pinReset | unitAdvance | leaseExpiry | timeout => cases hv
    | detachSweepVisit | clearSweepVisit | sweepCompletion => cases hv
    | openLock | closeLock | revoke | revokeAll | detachAgent | clearAll | giveSupervisor | takeSupervisor | tcommit =>
      cases hacc
      exact controlWrite_unsupervised hsup _
    | tsel | prescaleWrite =>
      cases hacc
      simp only [exec, execTsel, execPrescaleWrite, controlWrite_unsupervised hsup]
    | tdataWrite x n w =>
      cases hacc
      simp only [exec, execTdataWrite]
      split
      · exact controlWrite_unsupervised hsup _
      · rfl
    | badCommand x v code =>
      cases hacc
      cases hv
      rw [exec_badCommand_control (isCommandCode_of_wellFormed hwf)]
      exact controlWrite_unsupervised hsup _
  · have hoffset : s.admitsOffset a o = false := by
      rw [State.admitsOffset, viewOf_control ho, hsup]
      rfl
    have hfails : s.writeFails a o = true := by
      rw [State.writeFails, hoffset, Bool.not_false, Bool.or_true, Bool.true_or]
    simp only [exec, execArgumentRegisterWrite, hfails, if_true, busError_eq]

/-! ## Every command of its own row completes -/

theorem agentWrite_completes (s : State) (f : State → State) : ∃ t, s.agentWrite f = .next t := by
  unfold State.agentWrite
  split <;> exact ⟨_, rfl⟩

theorem controlWrite_completes (s : State) (a : AgentId) (f : State → State) : ∃ t, s.controlWrite a f = .next t := by
  unfold State.controlWrite
  split <;> exact ⟨_, rfl⟩

/-- A write that the decoder takes and that starts no command is one of an argument register (R163, R164). -/
theorem isArgument_of_writable {r : Register} {o : BitVec 7} (hf : s.writeFails a o = false)
    (hr : registerAt o = some r) (hs : r.startsCommand = false) : r.isArgument = true := by
  have hw : r.writable = true := by
    simp only [State.writeFails, hr, Bool.or_eq_false_iff] at hf
    cases r with
    | tdata n => rfl
    | _ => simpa using hf.2
  simpa [Register.startsCommand, hw] using hs

theorem argumentRegisterWrite_completes {o : BitVec 7} {w : Word}
    (hwf : (Instr.argumentRegisterWrite a o w).wellFormed = true) (s : State) :
    ∃ t, execArgumentRegisterWrite a o w s = .next t := by
  unfold execArgumentRegisterWrite
  split
  · exact ⟨_, rfl⟩
  rename_i hf
  split
  · rename_i r hr
    have hs : r.startsCommand = false := by simpa only [Instr.wellFormed, hr, Bool.not_eq_true'] using hwf
    rw [if_pos (isArgument_of_writable (eq_false_of_ne_true hf) hr hs)]
    exact ⟨_, rfl⟩
  · exact ⟨_, rfl⟩

theorem badCommand_completes {v : View} {code : BitVec 8} (hwf : (Instr.badCommand a v code).wellFormed = true)
    (s : State) : ∃ t, exec (.badCommand a v code) s = .next t := by
  cases v with
  | agent =>
    rw [exec_badCommand_agent (isCommandCode_of_wellFormed hwf)]
    exact agentWrite_completes s _
  | control =>
    rw [exec_badCommand_control (isCommandCode_of_wellFormed hwf)]
    exact controlWrite_completes s a _

/-- Settles O4: an access is a write of its view, and an event completes in each branch of its checks; of the two rows
that can refuse, the term's form rules the refusal out. -/
theorem wellFormedCommandsComplete : Obligations.WellFormedCommandsComplete := by
  intro c s hwf
  cases c with
  | attach | detach | acquire | release | renew | cancel | probe => exact agentWrite_completes s _
  | openLock | closeLock | revoke | revokeAll | detachAgent | clearAll | giveSupervisor | takeSupervisor | tcommit =>
    exact controlWrite_completes s _ _
  | badCommand => exact badCommand_completes hwf s
  | argumentRegisterWrite => exact argumentRegisterWrite_completes hwf s
  | notifyWrite =>
    simp only [exec, execNotifyWrite]
    exact agentWrite_completes s _
  | tsel =>
    simp only [exec, execTsel]
    exact controlWrite_completes s _ _
  | prescaleWrite =>
    simp only [exec, execPrescaleWrite]
    exact controlWrite_completes s _ _
  | tdataWrite =>
    simp only [exec, execTdataWrite]
    split
    · exact controlWrite_completes s _ _
    · exact ⟨_, rfl⟩
  | ntake =>
    simp only [exec, execNtake]
    split <;> exact ⟨_, rfl⟩
  | pinReset => exact ⟨_, rfl⟩
  | unitAdvance =>
    simp only [exec, execUnitAdvance]
    split <;> exact ⟨_, rfl⟩
  | leaseExpiry =>
    simp only [exec, execLeaseExpiry]
    split
    · exact ⟨_, rfl⟩
    · split <;> exact ⟨_, rfl⟩
  | timeout =>
    simp only [exec, execTimeout]
    split
    · exact ⟨_, rfl⟩
    · split <;> exact ⟨_, rfl⟩
  | detachSweepVisit =>
    simp only [exec, execDetachSweepVisit]
    split
    · split
      · split <;> exact ⟨_, rfl⟩
      · exact ⟨_, rfl⟩
    · exact ⟨_, rfl⟩
  | clearSweepVisit =>
    simp only [exec, execClearSweepVisit]
    split
    · split
      · split <;> exact ⟨_, rfl⟩
      · exact ⟨_, rfl⟩
    · exact ⟨_, rfl⟩
  | sweepCompletion =>
    simp only [exec, execSweepCompletion]
    split
    · split <;> exact ⟨_, rfl⟩
    · exact ⟨_, rfl⟩

end Sys2Proof.Machine
end

section
/-! What a command does to the agents that do not make the access: notices and returned credits, the entry to DETACHING,
the completion of a detach sweep, and the supervisor right under its two commands (R106, R113, R115, R119, R162). -/
namespace Sys2Proof.Machine

variable {s t : State} {a b : AgentId} {k : LockId}

/-! ## Changes of another agent's entry -/

/-- What a command other than GIVE_SUPERVISOR, TAKE_SUPERVISOR and pin reset makes of the entry `e` of an agent that
does not make the access. -/
inductive Bystander (e : AgentEntry) : AgentEntry → Prop where
  | served {e' : AgentEntry} (h : Served e e') : Bystander e e'
  | retired : Bystander e e.enterDetaching
  | absent : Bystander e e.becomeAbsent

namespace Bystander

theorem refl {e : AgentEntry} : Bystander e e := .served .refl

theorem of_eq {e e' : AgentEntry} (h : e' = e) : Bystander e e' := by
  rw [h]
  exact refl

end Bystander

/-! ## Results and writes of one agent's registers -/

theorem modAgent_agent_ne (s : State) (f : AgentEntry → AgentEntry) (hb : b ≠ a) :
    (s.modAgent a f).agent b = s.agent b := agent_setAgent_ne s a b _ hb

@[simp] theorem agentResult_agent_ne (s : State) (r : CommandResult) (hb : b ≠ a) :
    (s.agentResult a r).agent b = s.agent b := modAgent_agent_ne s _ hb

@[simp] theorem controlResult_agent_ne (s : State) (r : CommandResult) (hb : b ≠ a) :
    (s.controlResult a r).agent b = s.agent b := modAgent_agent_ne s _ hb

@[simp] theorem refuse_agent_ne (s : State) (st : Status) (hb : b ≠ a) : (s.refuse a st).agent b = s.agent b :=
  agentResult_agent_ne s _ hb

@[simp] theorem controlRefuse_agent_ne (s : State) (st : Status) (hb : b ≠ a) :
    (s.controlRefuse a st).agent b = s.agent b := controlResult_agent_ne s _ hb

/-! ## Commands that leave every other agent as it is -/

theorem attach_agent_ne (s : State) (hb : b ≠ a) : (s.attach a).agent b = s.agent b := by
  unfold State.attach
  split <;> simp [hb]

theorem detach_agent_ne (s : State) (hb : b ≠ a) : (s.detach a).agent b = s.agent b := by
  unfold State.detach
  split
  · simp [hb]
  · split <;> simp [hb]

theorem acquire_agent_ne (s : State) (hb : b ≠ a) : (s.acquire a).agent b = s.agent b := by
  unfold State.acquire
  split <;> simp [State.recursiveTake, State.immediateGrant, State.enqueue, hb]

theorem renew_agent_ne (s : State) (hb : b ≠ a) : (s.renew a).agent b = s.agent b := by
  unfold State.renew
  split
  · simp [hb]
  · split <;> simp [State.renewRecord, hb]

theorem probe_agent_ne (s : State) (hb : b ≠ a) : (s.probe a).agent b = s.agent b := by
  unfold State.probe
  split <;> simp [hb]

theorem openLock_agent_ne (s : State) (hb : b ≠ a) : (s.openLock a).agent b = s.agent b := by
  unfold State.openLock
  split
  · simp [hb]
  split
  · simp [hb]
  split
  · simp [hb]
  · split <;> simp [State.bringIntoService, hb]

theorem clearAll_agent_ne (s : State) (hb : b ≠ a) : (s.clearAll a).agent b = s.agent b := by
  unfold State.clearAll
  split
  · simp [hb]
  split
  · simp [hb]
  · split <;> simp [hb]

theorem commit_agent_ne (s : State) (hb : b ≠ a) : (s.commit a).agent b = s.agent b := by
  unfold State.commit
  split
  · split
    · simp [hb]
    · split <;> simp [hb]
  · simp [hb]

theorem takeNotice_agent_ne (s : State) (hb : b ≠ a) : (s.takeNotice a).agent b = s.agent b := by
  unfold State.takeNotice
  split <;> simp [hb]

/-! ## Commands that serve other agents -/

theorem Served.agentResult {e : AgentEntry} {r : CommandResult} (h : Served e (s.agent b)) (hb : b ≠ a) :
    Served e ((s.agentResult a r).agent b) := by
  rwa [agentResult_agent_ne _ _ hb]

theorem Served.controlResult {e : AgentEntry} {r : CommandResult} (h : Served e (s.agent b)) (hb : b ≠ a) :
    Served e ((s.controlResult a r).agent b) := by
  rwa [controlResult_agent_ne _ _ hb]

theorem served_refuse (s : State) {st : Status} (hb : b ≠ a) : Served (s.agent b) ((s.refuse a st).agent b) :=
  Served.refl.agentResult hb

theorem served_controlRefuse (s : State) {st : Status} (hb : b ≠ a) :
    Served (s.agent b) ((s.controlRefuse a st).agent b) := Served.refl.controlResult hb

theorem release_served (s : State) (hb : b ≠ a) : Served (s.agent b) ((s.release a).agent b) := by
  unfold State.release
  split
  · exact served_refuse s hb
  split
  · exact Served.refl.agentResult hb
  · exact (served_giveBack ..).agentResult hb

theorem cancel_served (s : State) (hb : b ≠ a) : Served (s.agent b) ((s.cancel a).agent b) := by
  unfold State.cancel
  split
  · exact served_refuse s hb
  split
  · exact served_refuse s hb
  split
  · exact ((served_regain s b a 2).trans (served_removeWaiters ..)).agentResult hb
  · exact served_refuse s hb

theorem closeLock_served (s : State) (hb : b ≠ a) : Served (s.agent b) ((s.closeLock a).agent b) := by
  unfold State.closeLock
  split
  · exact served_controlRefuse s hb
  split
  · exact served_controlRefuse s hb
  · exact served_controlRefuse s hb
  · exact Served.refl.controlResult hb
  · exact (served_cancelQueue (s.setLock _ _) _ b).controlResult hb
  · exact (served_cancelQueue (s.setLock _ _) _ b).controlResult hb

theorem revokeTarget_served (s : State) (hb : b ≠ a) : Served (s.agent b) ((s.revokeTarget a).agent b) := by
  unfold State.revokeTarget
  split
  · exact served_controlRefuse s hb
  split
  · split
    · exact served_controlRefuse s hb
    · exact ((served_revokeHolders ..).trans (served_departure ..)).controlResult hb
  split
  · exact served_controlRefuse s hb
  split
  · exact served_controlRefuse s hb
  · exact (served_loseHolder ..).controlResult hb

/-! ## Commands and events that change another agent's state -/

/-- DETACH_AGENT makes its target DETACHING and leaves the other agents alone (R150). -/
theorem detachAgent_bystander (s : State) (hb : b ≠ a) : Bystander (s.agent b) ((s.detachAgent a).agent b) := by
  unfold State.detachAgent
  split
  · exact .of_eq (controlRefuse_agent_ne s _ hb)
  · rename_i x _
    have hretire : (s.retire a x).agent b = (s.retired a x).agent b := controlResult_agent_ne (s.retired a x) _ hb
    rw [hretire, retired_agent, if_neg hb]
    split
    · exact .retired
    · exact .refl

/-- A completion makes its detach target ABSENT and serves the requester SWEEP_DONE (R112, R157). -/
theorem completeSweep_bystander (s : State) (r : SweepRequest) (b : AgentId) :
    Bystander (s.agent b) ((s.completeSweep r).agent b) := by
  by_cases hj : r.job = .detach b
  · rw [completeSweep_agent_target s hj]; exact .absent
  · rw [completeSweep_agent_other s hj]
    split
    · exact .served (Served.refl.receive _)
    · exact .refl

/-- The two commands of the supervisor right change nothing else of an agent that does not make the access. -/
theorem setSupervisor_agent (s : State) (x : AgentId) (right : Bool) (b : AgentId) :
    ∃ r, (s.setAgent x { s.agent x with supervisor := right }).agent b = { s.agent b with supervisor := r } := by
  rw [agent_setAgent]
  split
  · rename_i hb; exact ⟨right, by rw [hb]⟩
  · exact ⟨(s.agent b).supervisor, rfl⟩

theorem giveSupervisor_agent (s : State) (hb : b ≠ a) :
    ∃ r, (s.giveSupervisor a).agent b = { s.agent b with supervisor := r } := by
  unfold State.giveSupervisor
  split
  · rw [controlRefuse_agent_ne _ _ hb]; exact ⟨_, rfl⟩
  · rw [controlResult_agent_ne _ _ hb]; exact setSupervisor_agent ..

theorem takeSupervisor_agent (s : State) (hb : b ≠ a) :
    ∃ r, (s.takeSupervisor a).agent b = { s.agent b with supervisor := r } := by
  unfold State.takeSupervisor
  split
  · rw [controlRefuse_agent_ne _ _ hb]; exact ⟨_, rfl⟩
  split
  · rw [controlRefuse_agent_ne _ _ hb]; exact ⟨_, rfl⟩
  · rw [controlResult_agent_ne _ _ hb]; exact setSupervisor_agent ..

/-! ## Every command -/

namespace Bystander

theorem of_agentWrite {f : State → State} (h : s.agentWrite f = .next t)
    (hf : Bystander (s.agent b) ((f s).agent b)) : Bystander (s.agent b) (t.agent b) := by
  rcases next_agentWrite h with rfl | rfl
  · exact refl
  · exact hf

theorem of_controlWrite {f : State → State} (h : s.controlWrite a f = .next t)
    (hf : Bystander (s.agent b) ((f s).agent b)) : Bystander (s.agent b) (t.agent b) := by
  rcases next_controlWrite h with rfl | ⟨rfl, _⟩
  · exact refl
  · exact hf

theorem badCommand {v : View} {code : BitVec 8} (h : execBadCommand a v code s = .next t) (hb : b ≠ a) :
    Bystander (s.agent b) (t.agent b) := by
  unfold execBadCommand at h
  split at h
  · cases h
  cases v with
  | agent => exact of_agentWrite h (.of_eq (refuse_agent_ne s _ hb))
  | control => exact of_controlWrite h (.of_eq (controlRefuse_agent_ne s _ hb))

theorem ntake (h : execNtake a s = .next t) (hb : b ≠ a) : Bystander (s.agent b) (t.agent b) := by
  unfold execNtake at h
  split at h
  · cases h; exact refl
  · cases h; exact .of_eq (takeNotice_agent_ne s hb)

theorem tdataWrite {n : Fin 5} {w : Word} (h : execTdataWrite a n w s = .next t) (hb : b ≠ a) :
    Bystander (s.agent b) (t.agent b) := by
  unfold execTdataWrite at h
  split at h
  · exact of_controlWrite h (.of_eq (modAgent_agent_ne s _ hb))
  · cases h; exact refl

theorem argumentRegisterWrite {o : BitVec 7} {w : Word} (h : execArgumentRegisterWrite a o w s = .next t)
    (hb : b ≠ a) : Bystander (s.agent b) (t.agent b) := by
  unfold execArgumentRegisterWrite at h
  split at h
  · cases h; exact refl
  split at h
  · split at h
    · cases h; exact .of_eq (by rw [ready_eq, answered_agent, modAgent_agent_ne s _ hb])
    · cases h
  · cases h; exact refl

theorem unitAdvance (h : execUnitAdvance s = .next t) : Bystander (s.agent b) (t.agent b) := by
  unfold execUnitAdvance at h
  split at h <;> (cases h; exact refl)

theorem leaseExpiry (h : execLeaseExpiry k a s = .next t) : Bystander (s.agent b) (t.agent b) := by
  unfold execLeaseExpiry at h
  split at h
  · cases h; exact refl
  split at h
  · cases h; exact .served (served_loseHolder ..)
  · cases h; exact refl

theorem timeout {e : EntryId} (h : execTimeout e s = .next t) : Bystander (s.agent b) (t.agent b) := by
  unfold execTimeout at h
  split at h
  · cases h; exact refl
  split at h
  · cases h; exact .served (served_timeOut ..)
  · cases h; exact refl

theorem detachSweepVisit (h : execDetachSweepVisit s = .next t) : Bystander (s.agent b) (t.agent b) := by
  unfold execDetachSweepVisit at h
  split at h
  · split at h
    · split at h
      · cases h; exact .served (served_detachVisit ..)
      · cases h; exact refl
    · cases h; exact refl
  · cases h; exact refl

theorem clearSweepVisit (h : execClearSweepVisit s = .next t) : Bystander (s.agent b) (t.agent b) := by
  unfold execClearSweepVisit at h
  split at h
  · split at h
    · split at h
      · cases h; exact .served (served_clearVisit ..)
      · cases h; exact refl
    · cases h; exact refl
  · cases h; exact refl

theorem sweepCompletion (h : execSweepCompletion s = .next t) : Bystander (s.agent b) (t.agent b) := by
  unfold execSweepCompletion at h
  split at h
  · split at h
    · cases h; exact completeSweep_bystander ..
    · cases h; exact refl
  · cases h; exact refl

end Bystander

theorem ne_of_accessor {c : Instr} (h : c.accessor ≠ some b) (hc : c.accessor = some a) : b ≠ a :=
  fun hba => h (hba ▸ hc)

/-- An agent is a bystander to every access it does not make and to every event, but for the supervisor right and pin
reset. -/
theorem exec_bystander {c : Instr} (h : exec c s = .next t) (hacc : c.accessor ≠ some b)
    (hreset : ∀ low, c ≠ .pinReset low) (hright : ∀ a, c ≠ .giveSupervisor a ∧ c ≠ .takeSupervisor a) :
    Bystander (s.agent b) (t.agent b) := by
  cases c with
  | giveSupervisor a => exact absurd rfl (hright a).1
  | takeSupervisor a => exact absurd rfl (hright a).2
  | pinReset low => exact absurd rfl (hreset low)
  | attach a => exact .of_agentWrite h (.of_eq (attach_agent_ne s (ne_of_accessor hacc rfl)))
  | detach a => exact .of_agentWrite h (.of_eq (detach_agent_ne s (ne_of_accessor hacc rfl)))
  | acquire a => exact .of_agentWrite h (.of_eq (acquire_agent_ne s (ne_of_accessor hacc rfl)))
  | release a => exact .of_agentWrite h (.served (release_served s (ne_of_accessor hacc rfl)))
  | renew a => exact .of_agentWrite h (.of_eq (renew_agent_ne s (ne_of_accessor hacc rfl)))
  | cancel a => exact .of_agentWrite h (.served (cancel_served s (ne_of_accessor hacc rfl)))
  | probe a => exact .of_agentWrite h (.of_eq (probe_agent_ne s (ne_of_accessor hacc rfl)))
  | openLock a => exact .of_controlWrite h (.of_eq (openLock_agent_ne s (ne_of_accessor hacc rfl)))
  | closeLock a => exact .of_controlWrite h (.served (closeLock_served s (ne_of_accessor hacc rfl)))
  | revoke a => exact .of_controlWrite h (.served (revokeTarget_served s (ne_of_accessor hacc rfl)))
  | revokeAll a => exact .of_controlWrite h (.served (revokeTarget_served s (ne_of_accessor hacc rfl)))
  | detachAgent a => exact .of_controlWrite h (detachAgent_bystander s (ne_of_accessor hacc rfl))
  | clearAll a => exact .of_controlWrite h (.of_eq (clearAll_agent_ne s (ne_of_accessor hacc rfl)))
  | badCommand a v code => exact .badCommand h (ne_of_accessor hacc rfl)
  | ntake a => exact .ntake h (ne_of_accessor hacc rfl)
  | notifyWrite a w =>
    simp only [exec, execNotifyWrite] at h
    exact .of_agentWrite h (.of_eq (modAgent_agent_ne s _ (ne_of_accessor hacc rfl)))
  | tsel a w =>
    simp only [exec, execTsel] at h
    exact .of_controlWrite h (.of_eq (modAgent_agent_ne s _ (ne_of_accessor hacc rfl)))
  | tdataWrite a n w => exact .tdataWrite h (ne_of_accessor hacc rfl)
  | tcommit a => exact .of_controlWrite h (.of_eq (commit_agent_ne s (ne_of_accessor hacc rfl)))
  | prescaleWrite a w =>
    simp only [exec, execPrescaleWrite] at h
    exact .of_controlWrite h .refl
  | argumentRegisterWrite a o w => exact .argumentRegisterWrite h (ne_of_accessor hacc rfl)
  | unitAdvance => exact .unitAdvance h
  | leaseExpiry k a => exact .leaseExpiry h
  | timeout e => exact .timeout h
  | detachSweepVisit => exact .detachSweepVisit h
  | clearSweepVisit => exact .clearSweepVisit h
  | sweepCompletion => exact .sweepCompletion h

/-- GIVE_SUPERVISOR and TAKE_SUPERVISOR change the right alone, of an agent that does not make the access. -/
theorem exec_supervisor_agent {c : Instr} (hc : c = .giveSupervisor a ∨ c = .takeSupervisor a)
    (h : exec c s = .next t) (hb : b ≠ a) : ∃ r, t.agent b = { s.agent b with supervisor := r } := by
  rcases hc with rfl | rfl
  all_goals
    rcases next_controlWrite h with rfl | ⟨rfl, _⟩
    · exact ⟨(s.agent b).supervisor, rfl⟩
  · exact giveSupervisor_agent s hb
  · exact takeSupervisor_agent s hb

/-- Settles O52: no change of a bystander reaches its registers or its right, and the commands of the right reach
nothing else. -/
theorem agentRegistersAreTheirOwnersAlone : Obligations.AgentRegistersAreTheirOwnersAlone := by
  intro c s t b h hacc hreset
  by_cases hright : ∀ a, c ≠ .giveSupervisor a ∧ c ≠ .takeSupervisor a
  · have hby := exec_bystander h hacc hreset hright
    generalize t.agent b = e at hby
    cases hby with
    | served hs =>
      have hk := hs.keeps
      exact ⟨hk.arg0, hk.arg1, hk.sarg0, hk.sarg1, hk.result, hk.controlResult, hk.staging, hk.nword1, hk.notifyEnable,
        hk.notifyMode, hk.epoch, fun _ => hk.supervisor⟩
    | retired => exact ⟨rfl, rfl, rfl, rfl, rfl, rfl, rfl, rfl, rfl, rfl, rfl, fun _ => rfl⟩
    | absent => exact ⟨rfl, rfl, rfl, rfl, rfl, rfl, rfl, rfl, rfl, rfl, rfl, fun _ => rfl⟩
  · obtain ⟨a, ha⟩ := not_forall.1 hright
    have hc : c = .giveSupervisor a ∨ c = .takeSupervisor a := (not_and_or.1 ha).imp not_not.1 not_not.1
    have hb : b ≠ a := ne_of_accessor hacc (by rcases hc with rfl | rfl <;> rfl)
    obtain ⟨r, hr⟩ := exec_supervisor_agent hc h hb
    rw [hr]
    exact ⟨rfl, rfl, rfl, rfl, rfl, rfl, rfl, rfl, rfl, rfl, rfl, fun hn => absurd hn hright⟩

end Sys2Proof.Machine
end

section
/-! The notice unit: the arrival of a notice, the pop of a read of NTAKE and the write of NOTIFY, each with the notify
line driven again (R127, R128, R131 to R136); and the laws of notify lines and deadlines at every step. -/
namespace Sys2Proof.Machine

variable {s : State} {a : AgentId}

/-! ## The notify line -/

/-- With its latch clear an agent's line is low only in LEVEL mode, for a notice that waits (R134). -/
theorem AgentEntry.lineCondition_of_latch_clear {e : AgentEntry} (h : e.latch = false) : e.lineCondition =
    (decide (e.status = .attached) && e.notifyEnable && decide (e.notifyMode = .level) && decide (e.notices ≠ [])) := by
  unfold lineCondition
  cases hm : e.notifyMode with
  | level => cases e.notices <;> simp [beq_eq_decide]
  | arrival => simp [h]

/-! ## Lines and deadlines at every step -/

/-- Settles O56: an effect serves, charges or redrives an agent's entry and keeps its line; it forms deadlines within a
lease or a cap of the counter, which advances only while none is due; and neither law reads what else a step changes. -/
theorem stepKeepsLinesAndDeadlines : Obligations.StepKeepsLinesAndDeadlines :=
  fun _ _ h => ⟨step_keeps (fun _ _ => Alike.lineLaw) (fun _ _ => Effect.lineLaw) h,
    step_keeps (fun _ _ => Alike.deadlineLaw) (fun _ _ => Effect.deadlineLaw) h⟩

/-! ## Arrival of a notice -/

/-- Settles O34: an ATTACHED agent is told the notice, and the entry of any other is written as it was. -/
theorem noticeArrivesOrIsDiscarded : Obligations.NoticeArrivesOrIsDiscarded := by
  intro s a n
  refine ⟨fun hst => ?_, fun hst => ?_⟩
  · rw [notify_eq, receive_eq_told, AgentEntry.told, if_pos hst]
  · rw [notify_eq, AgentEntry.receive_not_attached _ n hst, setAgent_agent]

/-! ## NTAKE -/

/-- A pop of an ATTACHED agent returns 1 credit and clears the latch, so its line stays low only in LEVEL mode, while
notices are left (R131, R134). -/
theorem AgentEntry.pop_attached {e : AgentEntry} (h : e.status = .attached) (n : Notice) (rest : List Notice) :
    e.pop n rest =
      { e with
        notices := rest
        nword1 := n.word1
        credits := e.credits + 1
        latch := false
        lineLow := e.notifyEnable && decide (e.notifyMode = .level) && decide (rest ≠ []) } := by
  rw [pop, drive, lineCondition_of_latch_clear rfl, regain_eq, if_pos h]
  simp [h]

theorem exec_ntake_taken (h : s.resetLow = false) : exec (.ntake a) s = .next (s.takeNotice a) := by
  simp [exec, execNtake, h]

theorem takeNotice_nil (h : (s.agent a).notices = []) : s.takeNotice a = s.answered (.rdy (some 0)) := by
  rw [State.takeNotice, h]
  rfl

theorem takeNotice_cons {n : Notice} {rest : List Notice} (h : (s.agent a).notices = n :: rest) :
    s.takeNotice a = (s.setAgent a ((s.agent a).pop n rest)).answered (.rdy (some n.word0)) := by
  rw [State.takeNotice, h]
  rfl

/-- Settles O32: the read finds the queue empty, or pops its head. -/
theorem ntakePopsTheHeadNotice : Obligations.NtakePopsTheHeadNotice := by
  intro a s hlow
  rw [exec_ntake_taken hlow]
  refine ⟨fun hnil => ?_, fun n rest hcons hst => ?_⟩
  · rw [takeNotice_nil hnil]
  · rw [takeNotice_cons hcons, AgentEntry.pop_attached hst]

/-! ## NOTIFY -/

/-- Bit 1 of a word written to NOTIFY is 0 for LEVEL mode (R170). -/
theorem notifyModeArg_eq_level (w : Word) : decide (notifyModeArg w = .level) = !w.getLsbD 1 := by
  unfold notifyModeArg notifyModeOfBit
  cases w.getLsbD 1 <;> rfl

/-- A write of NOTIFY leaves the line low only where it enables LEVEL mode at an ATTACHED agent with notices
(R134, R136). -/
theorem AgentEntry.configureNotify_eq (e : AgentEntry) (w : Word) : e.configureNotify w =
    { e with
      notifyEnable := w.getLsbD 0
      notifyMode := if w.getLsbD 1 then .arrival else .level
      latch := false
      lineLow := decide (e.status = .attached) && w.getLsbD 0 && !w.getLsbD 1 && decide (e.notices ≠ []) } := by
  rw [configureNotify, drive, lineCondition_of_latch_clear rfl, notifyModeArg_eq_level]
  rfl

theorem exec_notifyWrite_taken (h : s.resetLow = false) (w : Word) : exec (.notifyWrite a w) s =
    .next ((s.setAgent a ((s.agent a).configureNotify w)).answered (.rdy none)) := by
  simp only [exec, execNotifyWrite, agentWrite_taken h, modAgent_eq]

/-- Settles O33: the write is taken whatever the agent's state, and the entry it leaves is driven again. -/
theorem notifyWriteReconfiguresTheLine : Obligations.NotifyWriteReconfiguresTheLine := by
  intro a w s hlow
  rw [exec_notifyWrite_taken hlow, AgentEntry.configureNotify_eq]

end Sys2Proof.Machine
end

section
/-! The timebase: what a write of PRESCALE sets, when the unit counter can advance, and the four things a REFCLK period
can do (R138 to R142). -/
namespace Sys2Proof.Machine

variable {s : State} {a : AgentId}

/-! ## Advances of the unit counter -/

/-- The counter can advance while the timebase runs and no event of the last advance is left to take (R138, R142). -/
theorem canAdvance_iff : s.canAdvance = true ↔ s.prescaler ≠ 0 ∧ s.anyDue = false := by
  simp [State.canAdvance]

theorem not_canAdvance_iff : ¬ s.canAdvance = true ↔ s.prescaler = 0 ∨ s.anyDue = true := by
  rw [canAdvance_iff, not_and_or, not_not, Bool.not_eq_false]

theorem exec_unitAdvance_advances (h : s.canAdvance = true) : exec .unitAdvance s = .next s.advance :=
  if_pos h

theorem exec_unitAdvance_stays (h : ¬ s.canAdvance = true) : exec .unitAdvance s = .next s :=
  if_neg h

/-! ## PRESCALE -/

theorem exec_prescaleWrite_taken (hctl : s.Controls a) (w : Word) : exec (.prescaleWrite a w) s =
    .next (({ s with prescaler := prescaleArg w, refCount := 0 } : State).answered (.rdy none)) := by
  simp only [exec, execPrescaleWrite, controlWrite_taken hctl]

/-- Settles O38: a taken write of PRESCALE, and UNIT_ADVANCE where the counter can advance and where it cannot. -/
theorem timebaseCountsUnits : Obligations.TimebaseCountsUnits := by
  refine ⟨fun a w s hctl => exec_prescaleWrite_taken hctl w, fun s => ⟨fun hrun hdue => ?_, fun hstop => ?_⟩⟩
  · exact exec_unitAdvance_advances (canAdvance_iff.2 ⟨hrun, hdue⟩)
  · exact exec_unitAdvance_stays (not_canAdvance_iff.2 hstop)

/-! ## REFCLK periods -/

theorem step_idle (h : s.pending = []) : step s = .next s.refPeriod := by
  rw [step, h]

theorem refPeriod_halted (h : s.prescaler = 0) : s.refPeriod = s :=
  if_pos h

/-- A period before the last one of the prescaler's count is counted; a halted timebase has no such period. -/
theorem refPeriod_counts (h : s.refCount.toNat + 1 < s.prescaler.toNat) :
    s.refPeriod = { s with refCount := s.refCount + 1 } := by
  have hrun : s.prescaler ≠ 0 := fun h0 => by simp [h0] at h
  rw [State.refPeriod, if_neg hrun, if_pos h]

/-- The last period of the prescaler's count does what UNIT_ADVANCE does: it advances the counter, or waits (R142). -/
theorem refPeriod_last (hrun : s.prescaler ≠ 0) (h : s.prescaler.toNat ≤ s.refCount.toNat + 1) :
    s.refPeriod = if s.canAdvance then s.advance else s := by
  rw [State.refPeriod, if_neg hrun, if_neg (Nat.not_lt.2 h)]

/-- Settles O2: the period finds the timebase halted, is one to count, or is the last one, which advances the counter or
waits. -/
theorem idleStepIsOneReferencePeriod : Obligations.IdleStepIsOneReferencePeriod := by
  intro s hidle
  rw [step_idle hidle]
  refine ⟨fun hhalt => ?_, fun hcount => ?_, fun hrun hlast hdue => ?_, fun hrun hlast hdue => ?_⟩
  · rw [refPeriod_halted hhalt]
  · rw [refPeriod_counts hcount]
  · rw [refPeriod_last hrun hlast, if_pos (canAdvance_iff.2 ⟨hrun, hdue⟩), State.advance]
  · rw [refPeriod_last hrun hlast, if_neg (not_canAdvance_iff.2 (.inr hdue))]

end Sys2Proof.Machine
end

section
/-! Requests for a sweep: the tail of the sweep queue and the engine that takes from its head (R147, R148), and
DETACH_AGENT and CLEAR_ALL, what they check and what they do (R149 to R151). -/
namespace Sys2Proof.Machine

variable {s : State} {a x : AgentId}

/-! ## The engine and the queue (R148) -/

theorem engineTake_busy {f : SweepFlight} (hf : s.inFlight = some f) : s.engineTake = s := by
  rw [State.engineTake, hf]

theorem engineTake_idle_empty (hf : s.inFlight = none) (hq : s.sweepQueue = []) : s.engineTake = s := by
  rw [State.engineTake, hf, hq]

theorem engineTake_idle {q : SweepRequest} {rest : List SweepRequest} (hf : s.inFlight = none)
    (hq : s.sweepQueue = q :: rest) :
    s.engineTake = { s with inFlight := some { request := q, position := 0 }, sweepQueue := rest } := by
  rw [State.engineTake, hf, hq]

/-- A busy engine leaves the request at the tail. -/
theorem request_busy {f : SweepFlight} (hf : s.inFlight = some f) (r : SweepRequest) :
    s.request r = { s with sweepQueue := s.sweepQueue ++ [r] } :=
  engineTake_busy (s := { s with sweepQueue := s.sweepQueue ++ [r] }) hf

/-- An idle engine with nothing waiting takes the request itself. -/
theorem request_idle (hf : s.inFlight = none) (hq : s.sweepQueue = []) (r : SweepRequest) :
    s.request r = { s with inFlight := some { request := r, position := 0 } } := by
  have htail : s.sweepQueue ++ [r] = r :: s.sweepQueue := by rw [hq]; rfl
  exact engineTake_idle (s := { s with sweepQueue := s.sweepQueue ++ [r] }) hf htail

/-- Settles O10: the request joins the tail, and the engine's state decides whether the head is taken. -/
theorem acceptedRequestJoinsTheTailOrTheEngine : Obligations.AcceptedRequestJoinsTheTailOrTheEngine :=
  fun _ r => ⟨fun hf hq => request_idle hf hq r, fun _ hf => request_busy hf r, fun _ _ => engineTake_idle⟩

/-! ## Who asks, and what it costs (R150, R151) -/

theorem requesterOf_attached (h : (s.agent a).status = .attached) :
    s.requesterOf a = some (a, (s.agent a).epoch) := if_pos h

theorem requesterOf_not_attached (h : (s.agent a).status ≠ .attached) : s.requesterOf a = none := if_neg h

theorem AgentEntry.payRequest_attached {e : AgentEntry} (h : e.status = .attached) :
    e.payRequest = { e with credits := e.credits - 1 } := if_pos h

theorem AgentEntry.payRequest_not_attached {e : AgentEntry} (h : e.status ≠ .attached) : e.payRequest = e := if_neg h

/-! ## The checks of DETACH_AGENT (R149) -/

/-- Check 1. -/
theorem detachTarget_badArgument (h : 8 ≤ s.sargTarget a) : s.detachTarget a = .error .badArgument := by
  rw [State.detachTarget, agentArg_sargTarget_none h]

/-- Check 2, for an ABSENT target. -/
theorem detachTarget_absent (h : s.sargTarget a = x.val) (hx : (s.agent x).status = .absent) :
    s.detachTarget a = .error .notAttached := by
  simp only [State.detachTarget, agentArg_sargTarget h, hx]

/-- Check 2, for a DETACHING target. -/
theorem detachTarget_detaching (h : s.sargTarget a = x.val) (hx : (s.agent x).status = .detaching) :
    s.detachTarget a = .error .alreadyQueued := by
  simp only [State.detachTarget, agentArg_sargTarget h, hx]

/-- Checks 3 and 4, for an ATTACHED target. -/
theorem detachTarget_attached (h : s.sargTarget a = x.val) (hx : (s.agent x).status = .attached) :
    s.detachTarget a =
      if x ≠ a ∧ (s.agent a).status = .attached ∧ (s.agent a).credits = 0 then .error .noCredit
      else if 4 ≤ s.sweepQueue.length then .error .sweepFull
      else .ok x := by
  simp only [State.detachTarget, agentArg_sargTarget h, hx, sweepFull_iff]

/-- A requester that is the target, is not ATTACHED or has a credit passes check 3. -/
theorem not_short_of_credit (h : x = a ∨ (s.agent a).status ≠ .attached ∨ 1 ≤ (s.agent a).credits) :
    ¬(x ≠ a ∧ (s.agent a).status = .attached ∧ (s.agent a).credits = 0) := by
  rintro ⟨hne, hat, hzero⟩
  rcases h with heq | hnot | hcredit
  · exact hne heq
  · exact hnot hat
  · omega

theorem detachTarget_passes (h : s.sargTarget a = x.val) (hx : (s.agent x).status = .attached)
    (hcredit : x = a ∨ (s.agent a).status ≠ .attached ∨ 1 ≤ (s.agent a).credits)
    (hroom : s.sweepQueue.length < 4) : s.detachTarget a = .ok x := by
  rw [detachTarget_attached h hx, if_neg (not_short_of_credit hcredit), if_neg (Nat.not_le.2 hroom)]

theorem exec_detachAgent_refused (hctl : s.Controls a) {st : Status} (h : s.detachTarget a = .error st) :
    exec (.detachAgent a) s = .next (s.controlRefusedTo a st) :=
  controlWrite_refused hctl (by rw [State.detachAgent, h])

theorem exec_detachAgent_passed (hctl : s.Controls a) (h : s.detachTarget a = .ok x) :
    exec (.detachAgent a) s = .next ((s.retire a x).answered (.rdy none)) := by
  refine (controlWrite_taken hctl (State.detachAgent a)).trans ?_
  rw [State.detachAgent, h]

/-! ## What DETACH_AGENT does (R150) -/

/-- A self-detach records no requester and costs nothing. -/
theorem retire_self (s : State) (a : AgentId) : s.retire a a =
    (s.request { job := .detach a, requester := none }).setAgent a
      { (s.agent a).enterDetaching with
        controlResult := .command { status := .done, credits := (s.agent a).credits } } := by
  rw [State.retire, if_pos rfl, State.controlResult, modAgent_eq, modAgent_eq, agent_setAgent_self,
    setAgent_setAgent, request_agent]
  rfl

/-- The requester of another agent's detachment pays before the target becomes DETACHING, and is told after: as two
agents, they are written in either order. -/
theorem retire_other (hne : x ≠ a) : s.retire a x =
    ((s.request { job := .detach x, requester := s.requesterOf a }).setAgent x (s.agent x).enterDetaching).setAgent a
      { (s.agent a).payRequest with
        controlResult := .command { status := .done, credits := (s.agent a).payRequest.credits } } := by
  rw [State.retire, if_neg hne, State.controlResult, modAgent_eq, modAgent_eq, modAgent_eq,
    agent_setAgent_ne _ _ _ _ hne, setAgent_comm _ _ _ _ _ (Ne.symm hne), agent_setAgent_self, setAgent_setAgent,
    request_agent, request_agent]

/-- Settles O27: the checks pass, and the requester is the target, an ATTACHED agent that pays, or one that is not
ATTACHED. -/
theorem detachAgentRetiresTheTarget : Obligations.DetachAgentRetiresTheTarget := by
  intro a x s hctl hx hat hroom gone hgone
  rw [← AgentEntry.enterDetaching_eq] at hgone
  refine ⟨fun heq => ?_, fun hne hcaller hcredit => ?_, fun hne hcaller => ?_⟩
  · subst heq
    rw [exec_detachAgent_passed hctl (detachTarget_passes hx hat (.inl rfl) hroom), retire_self, hgone]
  · rw [exec_detachAgent_passed hctl (detachTarget_passes hx hat (.inr (.inr hcredit)) hroom), retire_other hne,
      requesterOf_attached hcaller, AgentEntry.payRequest_attached hcaller, hgone]
  · rw [exec_detachAgent_passed hctl (detachTarget_passes hx hat (.inr (.inl hcaller)) hroom), retire_other hne,
      requesterOf_not_attached hcaller, AgentEntry.payRequest_not_attached hcaller, hgone]

/-! ## CLEAR_ALL (R151) -/

theorem clearAll_eq (s : State) (a : AgentId) : s.clearAll a =
    if s.clearOutstanding then s.controlRefuse a .alreadyQueued
    else if (s.agent a).status = .attached ∧ (s.agent a).credits = 0 then s.controlRefuse a .noCredit
    else if 4 ≤ s.sweepQueue.length then s.controlRefuse a .sweepFull
    else (s.request { job := .clear, requester := s.requesterOf a }).setAgent a
      { (s.agent a).payRequest with
        controlResult := .command { status := .done, credits := (s.agent a).payRequest.credits } } := by
  simp only [State.clearAll, sweepFull_iff, State.controlResult, modAgent_eq, agent_setAgent_self, setAgent_setAgent,
    request_agent]

/-- Without a CLEAR request outstanding, a caller that is not ATTACHED or has a credit comes to the last check. -/
theorem clearAll_fresh (hclear : ∀ r ∈ s.outstanding, r.job ≠ .clear)
    (hcredit : (s.agent a).status ≠ .attached ∨ 1 ≤ (s.agent a).credits) : s.clearAll a =
    if 4 ≤ s.sweepQueue.length then s.controlRefuse a .sweepFull
    else (s.request { job := .clear, requester := s.requesterOf a }).setAgent a
      { (s.agent a).payRequest with
        controlResult := .command { status := .done, credits := (s.agent a).payRequest.credits } } := by
  have hpays : ¬((s.agent a).status = .attached ∧ (s.agent a).credits = 0) := by
    rintro ⟨hat, hzero⟩
    rcases hcredit with hnot | hone
    · exact hnot hat
    · omega
  rw [clearAll_eq, clearOutstanding_of_none hclear, if_neg Bool.false_ne_true, if_neg hpays]

theorem exec_clearAll_taken (hctl : s.Controls a) :
    exec (.clearAll a) s = .next ((s.clearAll a).answered (.rdy none)) := controlWrite_taken hctl _

/-- Settles O28: the three checks pass, and the caller is an ATTACHED requester that pays, or none. -/
theorem clearAllQueuesAClearSweep : Obligations.ClearAllQueuesAClearSweep := by
  intro a s hctl hclear hroom
  refine ⟨fun hcaller hcredit => ?_, fun hcaller => ?_⟩
  · rw [exec_clearAll_taken hctl, clearAll_fresh hclear (.inr hcredit), if_neg (Nat.not_le.2 hroom),
      requesterOf_attached hcaller, AgentEntry.payRequest_attached hcaller]
  · rw [exec_clearAll_taken hctl, clearAll_fresh hclear (.inl hcaller), if_neg (Nat.not_le.2 hroom),
      requesterOf_not_attached hcaller, AgentEntry.payRequest_not_attached hcaller]

/-! ## Refusals -/

/-- Settles O29: the four checks of DETACH_AGENT, then the three of CLEAR_ALL. -/
theorem sweepRequestsRefuseInOrder : Obligations.SweepRequestsRefuseInOrder := by
  intro a s hctl
  refine ⟨fun h8 => ?_, fun x hx => ⟨fun hst => ?_, fun hst => ?_, fun hst hne hat hzero => ?_,
    fun hst hcredit hfull => ?_⟩, fun hclear => ?_, fun hclear hat hzero => ?_, fun hclear hcredit hfull => ?_⟩
  · exact exec_detachAgent_refused hctl (detachTarget_badArgument h8)
  · exact exec_detachAgent_refused hctl (detachTarget_absent hx hst)
  · exact exec_detachAgent_refused hctl (detachTarget_detaching hx hst)
  · exact exec_detachAgent_refused hctl (by rw [detachTarget_attached hx hst, if_pos ⟨hne, hat, hzero⟩])
  · exact exec_detachAgent_refused hctl
      (by rw [detachTarget_attached hx hst, if_neg (not_short_of_credit hcredit), if_pos hfull])
  · exact controlWrite_refused hctl (by rw [clearAll_eq, clearOutstanding_of_some hclear, if_pos rfl])
  · exact controlWrite_refused hctl
      (by rw [clearAll_eq, clearOutstanding_of_none hclear, if_neg Bool.false_ne_true, if_pos ⟨hat, hzero⟩])
  · exact controlWrite_refused hctl (by rw [clearAll_fresh hclear hcredit, if_pos hfull])

end Sys2Proof.Machine
end

section
/-! The sweep engine's events: the visits of a detach sweep and of a clear sweep, the completion of a sweep (R152 to
R154, R157), and the laws of the sweep queue and of what a sweep leaves behind it, at every step (R147, R152). -/
namespace Sys2Proof.Machine

variable {s t : State} {b x : AgentId} {k : LockId} {f : SweepFlight}

/-! ## The sweep laws at every step -/

theorem step_sweepLaw (h : step s = .next t) (hw : s.SweepLaw) : t.SweepLaw :=
  step_keeps (fun _ _ => Alike.sweepLaw) (fun _ _ => Effect.sweepLaw) h hw

/-- Nobody comes back behind a detach sweep while its target is DETACHING, and nothing opens behind a clear sweep that
is outstanding; a visit to a sound lock does the rest (R152). -/
theorem step_visitLaw (h : step s = .next t) (hw : s.SweepLaw) (hl : s.LockLaw) (hv : s.VisitLaw) : t.VisitLaw :=
  (step_keeps (P := fun s => s.SweepLaw ∧ s.LockLaw ∧ s.VisitLaw)
    (fun _ _ ha ⟨hw, hl, hv⟩ => ⟨ha.sweepLaw hw, ha.lockLaw hl, ha.visitLaw hv⟩)
    (fun _ _ he ⟨hw, hl, hv⟩ => ⟨he.sweepLaw hw, he.lockLaw hl, he.visitLaw hw hl hv⟩) h ⟨hw, hl, hv⟩).2.2

/-- Settles O57: the sweep law rests on itself, and the visit law on it and on the lock law. -/
theorem stepKeepsSweepLaws : Obligations.StepKeepsSweepLaws :=
  fun _ _ hw h => ⟨step_sweepLaw h hw, step_visitLaw h hw⟩

/-! ## One place for an agent at a lock -/

/-- A waiter of a lock holds no record of it (R5). -/
theorem LockEntry.OnePlaceEach.holder_ne_waiter {l : LockEntry} (h : l.OnePlaceEach) {r : HolderRecord}
    (hr : r ∈ l.holders) {w : WaitEntry} (hw : w ∈ l.queue) : r.agent ≠ w.agent :=
  (List.nodup_append.1 h).2.2 _ (List.mem_map_of_mem hr) _ (List.mem_map_of_mem hw)

/-- Without its queue a lock still has one place for each agent. -/
theorem LockEntry.OnePlaceEach.emptyQueue {l : LockEntry} (h : l.OnePlaceEach) :
    ({ l with queue := [] } : LockEntry).OnePlaceEach :=
  LockEntry.onePlace_of_sublist h ((List.Sublist.refl _).append (List.nil_sublist _))

/-! ## Visits of the detach sweep (R153) -/

/-- The position after a visit, as the number one above the lock visited. -/
theorem advancePosition_eq (s : State) (hk : f.position.val = k.val) {p : Fin 65} (hp : p.val = k.val + 1)
    (h : f.position.val < Config.locks) :
    s.advancePosition f h = { s with inFlight := some { f with position := p } } := by
  have hpos : (⟨f.position.val + 1, Nat.succ_lt_succ h⟩ : Fin (Config.locks + 1)) = p :=
    Fin.ext (by rw [hp, ← hk])
  rw [State.advancePosition, hpos]

theorem exec_detachSweepVisit_at (hf : s.inFlight = some f) (hj : f.request.job = .detach x)
    (hk : f.position.val = k.val) {p : Fin 65} (hp : p.val = k.val + 1) :
    exec .detachSweepVisit s = .next { s.detachVisit x k with inFlight := some { f with position := p } } := by
  have hlt : f.position.val < Config.locks := hk ▸ k.isLt
  have hpos : (⟨f.position.val, hlt⟩ : LockId) = k := Fin.ext hk
  show execDetachSweepVisit s = _
  simp only [execDetachSweepVisit, hf, hj, dif_pos hlt, hpos, advancePosition_eq _ hk hp]

/-- The target's record leaves with the marker set and holder departure, without a notice. -/
theorem detachVisit_holder (hst : (s.lock k).state ≠ .closed) {r : HolderRecord} (hr : s.Holds x k r) :
    s.detachVisit x k = (s.setLock k
      { s.lock k with holders := (s.lock k).holders.filter fun y => y.agent != x, marker := true }).departure k := by
  rw [State.detachVisit, if_neg hst, hr.holderOf, Option.isSome_some, if_pos rfl, loseHolder_eq]
  rfl

/-- The target's wait entry leaves, with grant evaluation if it was the head (R66). -/
theorem detachVisit_waiter (hst : (s.lock k).state ≠ .closed) {ahead behind : List WaitEntry} {w : WaitEntry}
    (hq : (s.lock k).queue = ahead ++ w :: behind) (hone : (s.lock k).OnePlaceEach) :
    s.detachVisit w.agent k =
      if ahead = [] then (s.setLock k { s.lock k with queue := ahead ++ behind }).grantEval k
      else s.setLock k { s.lock k with queue := ahead ++ behind } := by
  have hw : w ∈ (s.lock k).queue := mem_queue_of_split hq
  have hnone : (s.lock k).holderOf w.agent = none :=
    ((s.lock k).holderOf_eq_none _).2 fun r hr => hone.holder_ne_waiter hr hw
  have hsome : ((s.lock k).waiterOf w.agent).isSome = true := ((s.lock k).waiterOf_isSome _).2 ⟨w, hw, rfl⟩
  rw [State.detachVisit, if_neg hst, hnone, if_neg (by decide), if_pos hsome, removeWaiters_split s k hone hq]

theorem detachVisit_alone (h : (s.lock k).state = .closed ∨ s.NoTrace x k) : s.detachVisit x k = s := by
  rw [State.detachVisit]
  rcases h with hst | ⟨hholders, hqueue⟩
  · rw [if_pos hst]
  · rw [((s.lock k).holderOf_eq_none x).2 hholders, ((s.lock k).waiterOf_eq_none x).2 hqueue]
    simp

/-- Without a detach sweep that has a lock left to visit, there is no such visit (log 5). -/
theorem exec_detachSweepVisit_none (h : ∀ f ∈ s.inFlight, f.request.job = .clear ∨ f.position.val = 64) :
    exec .detachSweepVisit s = .next s := by
  show execDetachSweepVisit s = _
  cases hf : s.inFlight with
  | none => simp only [execDetachSweepVisit, hf]
  | some f =>
    cases hj : f.request.job with
    | clear => simp only [execDetachSweepVisit, hf, hj]
    | detach x =>
      have hend : f.position.val = 64 := (h f hf).resolve_left (by rw [hj]; exact nofun)
      have hnot : ¬f.position.val < Config.locks := by rw [hend]; decide
      simp only [execDetachSweepVisit, hf, hj, dif_neg hnot]

/-- Settles O42: what the target has at the lock decides, and the position advances in each case. -/
theorem detachVisitRemovesTheTarget : Obligations.DetachVisitRemovesTheTarget := by
  intro s
  refine ⟨fun f x k p hf hj hk hp => ?_, exec_detachSweepVisit_none⟩
  rw [exec_detachSweepVisit_at hf hj hk hp]
  refine ⟨fun r hr hst => ?_, ?_, fun halone => ?_⟩
  · rw [detachVisit_holder hst hr]
  · rintro ahead behind w hq rfl hone hst s1 rfl
    rw [detachVisit_waiter hst hq hone]
  · rw [detachVisit_alone halone]

/-! ## Visits of the clear sweep (R154) -/

theorem exec_clearSweepVisit_at (hf : s.inFlight = some f) (hj : f.request.job = .clear)
    (hk : f.position.val = k.val) {p : Fin 65} (hp : p.val = k.val + 1) :
    exec .clearSweepVisit s = .next { s.clearVisit k with inFlight := some { f with position := p } } := by
  have hlt : f.position.val < Config.locks := hk ▸ k.isLt
  have hpos : (⟨f.position.val, hlt⟩ : LockId) = k := Fin.ext hk
  show execClearSweepVisit s = _
  simp only [execClearSweepVisit, hf, hj, dif_pos hlt, hpos, advancePosition_eq _ hk hp]

theorem clearVisit_eq (hst : (s.lock k).state ≠ .closed) : s.clearVisit k =
    (((s.cancelQueue k).revokeHolders k).setLock k
      { ((s.cancelQueue k).revokeHolders k).lock k with state := .closed, drain := none }).lowerUse (s.lock k).cls := by
  rw [State.clearVisit, if_neg hst]

theorem clearVisit_of_closed (hst : (s.lock k).state = .closed) : s.clearVisit k = s := by
  rw [State.clearVisit, if_pos hst]

/-- The visit lowers the use count of the lock's class by 1 (R98). -/
theorem clearVisit_classes (hst : (s.lock k).state ≠ .closed) : (s.clearVisit k).classes = (s.setClass (s.lock k).cls
    { s.cls (s.lock k).cls with useCount := (s.cls (s.lock k).cls).useCount - 1 }).classes := by
  have hkeep : ((s.cancelQueue k).revokeHolders k).classes = s.classes :=
    (revokeHolders_classes _ k).trans (cancelQueue_classes s k)
  rw [clearVisit_eq hst, lowerUse_eq]
  simp only [State.setClass, State.setLock, State.cls, hkeep]

theorem clearVisit_agent (hst : (s.lock k).state ≠ .closed) (b : AgentId) :
    (s.clearVisit k).agent b = ((s.cancelQueue k).revokeHolders k).agent b := by
  rw [clearVisit_eq hst, lowerUse_eq, setClass_agent, setLock_agent]

/-- The cancellation of a queue tells each waiter CANCELLED and repays it 1 credit, and leaves the other agents alone
(R65). -/
theorem cancelQueue_told (hone : (s.lock k).OnePlaceEach) (b : AgentId) :
    (∀ w ∈ (s.lock k).queue, w.agent = b → (s.cancelQueue k).agent b =
      ((s.agent b).told (.cancelled k w.mode w.tag (s.units.setWidth 16))).repaid 1) ∧
    ((∀ w ∈ (s.lock k).queue, w.agent ≠ b) → (s.cancelQueue k).agent b = s.agent b) := by
  obtain ⟨hentry, hnone⟩ := filter_agent_eq WaitEntry.agent (s.lock k).queue (List.nodup_append.1 hone).2.1 b
  rw [cancelQueue_agent]
  refine ⟨fun w hw hb => ?_, fun hn => ?_⟩
  · rw [hentry w hw hb, ← receive_eq_told]
    rfl
  · rw [hnone hn]
    rfl

/-- The visit tells each waiter CANCELLED and repays it, and tells each holder REVOKED; nobody is both, so the agent
table is that of the one or of the other. -/
theorem clearVisit_told (hst : (s.lock k).state ≠ .closed) (hone : (s.lock k).OnePlaceEach) (b : AgentId) :
    (∀ w ∈ (s.lock k).queue, w.agent = b → (s.clearVisit k).agent b =
      ((s.agent b).told (.cancelled k w.mode w.tag (s.units.setWidth 16))).repaid 1) ∧
    (∀ r ∈ (s.lock k).holders, r.agent = b → (s.clearVisit k).agent b =
      (s.agent b).told (.revoked k r.mode r.ticket (s.units.setWidth 16))) ∧
    (s.NoTrace b k → (s.clearVisit k).agent b = s.agent b) := by
  have hlock := cancelQueue_lock_self s k
  have hunits : (s.cancelQueue k).units = s.units := (touches_cancelQueue s k).units
  obtain ⟨hcancelled, hnotWaiting⟩ := cancelQueue_told hone b
  obtain ⟨hrevoked, hnotHolding⟩ := revokeHolders_told (s := s.cancelQueue k) (hlock ▸ hone.emptyQueue) b
  rw [hlock] at hrevoked hnotHolding
  rw [hunits] at hrevoked
  rw [clearVisit_agent hst]
  refine ⟨?_, ?_, fun ⟨hholders, hqueue⟩ => ?_⟩
  · rintro w hw rfl
    rw [hnotHolding fun r hr => hone.holder_ne_waiter hr hw, hcancelled w hw rfl]
  · rintro r hr rfl
    rw [hrevoked r hr rfl, hnotWaiting fun w hw => (hone.holder_ne_waiter hr hw).symm]
  · rw [hnotHolding hholders, hnotWaiting hqueue]

/-- Without a clear sweep that has a lock left to visit, there is no such visit (log 5). -/
theorem exec_clearSweepVisit_none (h : ∀ f ∈ s.inFlight, f.request.job ≠ .clear ∨ f.position.val = 64) :
    exec .clearSweepVisit s = .next s := by
  show execClearSweepVisit s = _
  cases hf : s.inFlight with
  | none => simp only [execClearSweepVisit, hf]
  | some f =>
    cases hj : f.request.job with
    | detach x => simp only [execClearSweepVisit, hf, hj]
    | clear =>
      have hend : f.position.val = 64 := (h f hf).resolve_left (not_not_intro hj)
      have hnot : ¬f.position.val < Config.locks := by rw [hend]; decide
      simp only [execClearSweepVisit, hf, hj, dif_neg hnot]

/-- Settles O43: a visit touches its lock, its class's use count and the agents it serves, and the position advances. -/
theorem clearVisitClosesTheLock : Obligations.ClearVisitClosesTheLock := by
  intro s
  refine ⟨fun f k p hf hj hk hp => ?_, exec_clearSweepVisit_none⟩
  rw [exec_clearSweepVisit_at hf hj hk hp]
  refine ⟨fun hst => ?_, fun hst hone => ?_⟩
  · rw [clearVisit_of_closed hst]
  · have htouch := touches_clearVisit s k
    refine ⟨_, rfl, ?_, htouch.lock, clearVisit_classes hst, rfl, htouch.sweepQueue, htouch.units, htouch.prescaler,
      htouch.refCount, htouch.resetLow, htouch.answer, htouch.pending, clearVisit_told hst hone⟩
    rw [lock_with_inFlight, clearVisit_lock_self s k hst]
    cases (s.lock k).holders <;> rfl

/-! ## Completion (R157) -/

/-- An agent that becomes ABSENT has 16 credits, and its line is released (R112, R134). -/
theorem AgentEntry.becomeAbsent_eq (e : AgentEntry) :
    e.becomeAbsent = { e with status := .absent, credits := 16, lineLow := false } := rfl

theorem completeJob_detach (s : State) (x : AgentId) : s.completeJob (.detach x) =
    s.setAgent x { s.agent x with status := .absent, credits := 16, lineLow := false } := by
  rw [State.completeJob, modAgent_eq, AgentEntry.becomeAbsent_eq]

theorem completeJob_clear (s : State) : s.completeJob .clear = s := rfl

/-- The epoch test decides whether the requester is told SWEEP_DONE (R157, step 2). -/
theorem addressSweepDone_some (s : State) {r : SweepRequest} {q : AgentId} {epoch : BitVec 8}
    (h : r.requester = some (q, epoch)) : s.addressSweepDone r =
      if (s.agent q).status = .attached ∧ (s.agent q).epoch = epoch then
        s.setAgent q ((s.agent q).told (.sweepDone r.job (s.units.setWidth 16)))
      else s := by
  simp only [State.addressSweepDone, h, requesterPresent_iff, notify_eq, receive_eq_told]
  rfl

theorem addressSweepDone_none (s : State) {r : SweepRequest} (h : r.requester = none) : s.addressSweepDone r = s := by
  rw [State.addressSweepDone, h]

theorem completeJob_units (s : State) (job : SweepJob) : (s.completeJob job).units = s.units := by
  cases job <;> rfl

/-- Steps 1 and 2 leave the sweep queue to step 3. -/
theorem addressSweepDone_sweepQueue (s : State) (r : SweepRequest) :
    ((s.completeJob r.job).addressSweepDone r).sweepQueue = s.sweepQueue := by
  obtain ⟨agents, h⟩ := completeSweep_eq s r
  rw [h]

theorem exec_sweepCompletion_at (hf : s.inFlight = some f) : exec .sweepCompletion s =
    if f.position.val = 64 then .next (s.completeSweep f.request) else .next s := by
  show execSweepCompletion s = _
  rw [execSweepCompletion, hf]

theorem exec_sweepCompletion_none (h : ∀ f ∈ s.inFlight, f.position.val ≠ 64) :
    exec .sweepCompletion s = .next s := by
  cases hf : s.inFlight with
  | none =>
    show execSweepCompletion s = _
    rw [execSweepCompletion, hf]
  | some f => rw [exec_sweepCompletion_at hf, if_neg (h f hf)]

/-- Settles O44: the three steps in order, each by the case its job, its requester or the queue is in. -/
theorem completionEndsTheSweep : Obligations.CompletionEndsTheSweep := by
  intro s
  refine ⟨fun f s1 s2 s3 hf hend h1 h2 h3 => ?_, exec_sweepCompletion_none⟩
  have hjob : s.completeJob f.request.job = s1 := by
    rw [h1]
    cases f.request.job with
    | detach x => exact completeJob_detach s x
    | clear => exact completeJob_clear s
  have hunits : s1.units = s.units := hjob ▸ completeJob_units s _
  have hdone : s1.addressSweepDone f.request = s2 := by
    rw [h2]
    cases hr : f.request.requester with
    | none => exact addressSweepDone_none s1 hr
    | some q => rw [addressSweepDone_some s1 hr, hunits]
  have hqueue : s2.sweepQueue = s.sweepQueue := by
    rw [← hdone, ← hjob]
    exact addressSweepDone_sweepQueue s _
  have htake : ({ s2 with inFlight := none } : State).engineTake = s3 := by
    rw [h3]
    cases hq : s.sweepQueue with
    | nil => exact engineTake_idle_empty rfl (hqueue.trans hq)
    | cons r rest => exact engineTake_idle rfl (hqueue.trans hq)
  rw [exec_sweepCompletion_at hf, if_pos hend, State.completeSweep, hjob, hdone, htake]

end Sys2Proof.Machine
end

section
/-! The decoder of the window (R163, R167): where each register stands, which command a code of CMD or SCMD is, and the
command a write access spells; the writes of the argument registers (R164); and accesses while RESET_N is low (R161). -/
namespace Sys2Proof.Machine

variable {s : State} {a : AgentId} {o : BitVec 7}

/-! ## Register map and command codes -/

/-- The word offset of each register: the map of R163, read from the register. -/
def Register.wordOffset : Register → Nat
  | .cmd => 0
  | .arg0 => 1
  | .arg1 => 2
  | .res0 => 4
  | .res1 => 5
  | .ntake => 8
  | .nword1 => 9
  | .ncount => 10
  | .notify => 11
  | .agent => 12
  | .scmd => 64
  | .sarg0 => 65
  | .sarg1 => 66
  | .sres0 => 68
  | .sres1 => 69
  | .tsel => 72
  | .tdata n => 73 + n.val
  | .tcommit => 80
  | .prescale => 84
  | .units => 85
  | .sweep => 88

/-- The decoder finds a register at its offset alone. -/
theorem toNat_of_registerAt {r : Register} (h : registerAt o = some r) : o.toNat = Register.wordOffset r := by
  revert h
  unfold registerAt
  split <;> intro h <;> cases h <;> simp only [Register.wordOffset, Fin.isValue, Fin.coe_ofNat_eq_mod] <;> omega

/-- TDATA0 to TDATA4 stand side by side from offset 73 (R163). -/
theorem registerAt_tdata (n : Fin 5) : registerAt (BitVec.ofNat 7 (73 + n.val)) = some (.tdata n) := by
  revert n; decide

/-- The offsets of the registers whose write is a command of another row than ARGUMENT_REGISTER_WRITE (R163, R164). -/
theorem wordOffset_of_startsCommand {r : Register} (h : r.startsCommand = true) :
    Register.wordOffset r ∈ [0, 11, 64, 72, 73, 74, 75, 76, 77, 80, 84] := by
  cases r with
  | cmd | notify | scmd | tsel | tcommit | prescale => decide
  | tdata n => revert n; decide
  | arg0 | arg1 | res0 | res1 | ntake | nword1 | ncount | agent => cases h
  | sarg0 | sarg1 | sres0 | sres1 | units | sweep => cases h

/-- Whether a view lists a code depends on neither the caller nor the target (R167). -/
theorem commandOfCode_isSome (v : View) (code : BitVec 8) (a : AgentId) (targetAll : Bool) :
    (commandOfCode v code a targetAll).isSome = isCommandCode v code := by
  unfold isCommandCode commandOfCode
  split <;> rfl

theorem commandOfCode_eq_none {v : View} {code : BitVec 8} (h : isCommandCode v code = false) (a : AgentId)
    (targetAll : Bool) : commandOfCode v code a targetAll = none := by
  rw [← Option.not_isSome_iff_eq_none, commandOfCode_isSome, h]
  exact Bool.false_ne_true

/-! ## Write accesses -/

/-- The command is one of its own row, sent by agent `a`. -/
def Instr.SentBy (a : AgentId) (c : Instr) : Prop :=
  c.wellFormed = true ∧ c.accessor = some a

theorem commandOfCode_sentBy {v : View} {code : BitVec 8} {targetAll : Bool} {c : Instr}
    (h : commandOfCode v code a targetAll = some c) : Instr.SentBy a c := by
  revert h
  unfold commandOfCode
  split <;> intro h <;> cases h
  case h_10 => cases targetAll <;> exact ⟨rfl, rfl⟩
  all_goals exact ⟨rfl, rfl⟩

/-- A code that its view does not list makes a BAD_COMMAND, which is of its own row for that reason (R120). -/
theorem decodeCommandWrite_sentBy (v : View) (w : Word) (a : AgentId) (targetAll : Bool) :
    Instr.SentBy a (decodeCommandWrite v w a targetAll) := by
  unfold decodeCommandWrite
  cases h : commandOfCode v (w.setWidth 8) a targetAll with
  | some c => exact commandOfCode_sentBy h
  | none =>
    have hcode : isCommandCode v (w.setWidth 8) = false := by rw [← commandOfCode_isSome v _ a targetAll, h]; rfl
    exact ⟨by simp only [Option.getD_none, Instr.wellFormed, hcode, Bool.not_false], rfl⟩

/-- At an offset whose write starts no command of its own, an access is ARGUMENT_REGISTER_WRITE (R164). -/
theorem windowWrite_other (h : ∀ r, registerAt o = some r → r.startsCommand = false) (s : State) (a : AgentId)
    (w : Word) : s.windowWrite a o w = .argumentRegisterWrite a o w := by
  unfold State.windowWrite decodeWrite
  cases hr : registerAt o with
  | none => rfl
  | some r =>
    have hs := h r hr
    cases r with
    | cmd | scmd | notify | tsel | tdata | tcommit | prescale => cases hs
    | arg0 | arg1 | res0 | res1 | ntake | nword1 | ncount | agent => rfl
    | sarg0 | sarg1 | sres0 | sres1 | units | sweep => rfl

theorem argumentRegisterWrite_sentBy (h : ∀ r, registerAt o = some r → r.startsCommand = false) (a : AgentId)
    (w : Word) : Instr.SentBy a (.argumentRegisterWrite a o w) := by
  refine ⟨?_, rfl⟩
  cases hr : registerAt o with
  | none => simp only [Instr.wellFormed, hr]
  | some r => simp only [Instr.wellFormed, hr, h r hr, Bool.not_false]

/-- A write of CMD or SCMD is the command of its low 8 bits, or BAD_COMMAND (R164, R167). -/
theorem decodeCommandWrite_append (v : View) (high : BitVec 24) (code : BitVec 8) (a : AgentId) (targetAll : Bool) :
    decodeCommandWrite v (high ++ code) a targetAll =
      (commandOfCode v code a targetAll).getD (.badCommand a v code) := by
  have hcode : (high ++ code : Word).setWidth 8 = code := BitVec.setWidth_append_eq_right
  rw [decodeCommandWrite, hcode]

theorem windowWrite_cmd (s : State) (a : AgentId) (high : BitVec 24) (code : BitVec 8) :
    s.windowWrite a 0 (high ++ code) =
      (commandOfCode .agent code a (targetIsAll (s.agent a).sarg1)).getD (.badCommand a .agent code) :=
  decodeCommandWrite_append .agent high code a _

theorem windowWrite_scmd (s : State) (a : AgentId) (high : BitVec 24) (code : BitVec 8) :
    s.windowWrite a 64 (high ++ code) =
      (commandOfCode .control code a (targetIsAll (s.agent a).sarg1)).getD (.badCommand a .control code) :=
  decodeCommandWrite_append .control high code a _

/-- Code 3 of SCMD is named after the target in SARG1 (R168). -/
theorem windowWrite_revoke (s : State) (a : AgentId) (high : BitVec 24) :
    s.windowWrite a 64 (high ++ (3 : BitVec 8)) = if s.revokeArg a = 15 then .revokeAll a else .revoke a := by
  rw [windowWrite_scmd]
  show (if targetIsAll (s.agent a).sarg1 = true then _ else _) = _
  simp only [targetIsAll_iff]
  rfl

theorem windowWrite_tdata (s : State) (a : AgentId) (n : Fin 5) (w : Word) :
    s.windowWrite a (BitVec.ofNat 7 (73 + n.val)) w = .tdataWrite a n w := by
  rw [State.windowWrite, decodeWrite, registerAt_tdata]

theorem windowWrite_sentBy (s : State) (a : AgentId) (o : BitVec 7) (w : Word) :
    Instr.SentBy a (s.windowWrite a o w) := by
  by_cases hother : ∀ r, registerAt o = some r → r.startsCommand = false
  · rw [windowWrite_other hother]
    exact argumentRegisterWrite_sentBy hother a w
  · simp only [not_forall, Bool.not_eq_false] at hother
    obtain ⟨r, hr, hs⟩ := hother
    rw [State.windowWrite, decodeWrite, hr]
    cases r with
    | cmd => exact decodeCommandWrite_sentBy .agent w a _
    | scmd => exact decodeCommandWrite_sentBy .control w a _
    | notify | tsel | tdata | tcommit | prescale => exact ⟨rfl, rfl⟩
    | arg0 | arg1 | res0 | res1 | ntake | nword1 | ncount | agent => cases hs
    | sarg0 | sarg1 | sres0 | sres1 | units | sweep => cases hs

/-- Settles O48: a listed code is looked up, an unlisted one is not found, and an offset outside the list has no
register whose write starts a command. -/
theorem writeAccessesSpellTheirCommands : Obligations.WriteAccessesSpellTheirCommands := by
  intro a s high w
  have hcmd := windowWrite_cmd s a high
  have hscmd := windowWrite_scmd s a high
  have hrevoke := windowWrite_revoke s a high
  refine ⟨hcmd 1, hcmd 2, hcmd 3, hcmd 4, hcmd 5, hcmd 6, hcmd 7, hscmd 1, hscmd 2, fun hall => ?_, fun hone => ?_,
    hscmd 4, hscmd 5, hscmd 6, hscmd 7, fun code hcode => ⟨?_, ?_⟩, rfl, rfl, fun n => windowWrite_tdata s a n w, rfl,
    rfl, fun o ho => ?_, fun o => windowWrite_sentBy s a o w⟩
  · rw [hrevoke, if_pos hall]
  · rw [hrevoke, if_neg hone]
  · rw [hcmd, commandOfCode_eq_none (isCommandCode_eq_false hcode .agent), Option.getD_none]
  · rw [hscmd, commandOfCode_eq_none (isCommandCode_eq_false hcode .control), Option.getD_none]
  · refine windowWrite_other (fun r hr => ?_) s a w
    rw [← Bool.not_eq_true]
    intro hs
    exact ho (toNat_of_registerAt hr ▸ wordOffset_of_startsCommand hs)

/-! ## Argument registers -/

/-- The register can be written and keeps the word, in a view that the agent reaches: the write is taken (R164). -/
theorem exec_argumentRegisterWrite_taken {r : Register} (hlow : s.resetLow = false) (hview : s.admitsOffset a o = true)
    (hr : registerAt o = some r) (harg : r.isArgument = true) (w : Word) :
    exec (.argumentRegisterWrite a o w) s =
      .next ((s.setAgent a ((s.agent a).writeArgument r w)).answered (.rdy none)) := by
  have hfails : s.writeFails a o = false := by
    rw [State.writeFails, hlow, hview, hr]
    cases r with
    | arg0 | arg1 | sarg0 | sarg1 => rfl
    | _ => cases harg
  simp only [exec, execArgumentRegisterWrite, hfails, Bool.false_eq_true, if_false, hr, harg, if_true, modAgent_eq,
    ready_eq]

/-- A write answered with BERR_N changes nothing (R161, R163). -/
theorem exec_argumentRegisterWrite_fails (h : s.writeFails a o = true) (w : Word) :
    exec (.argumentRegisterWrite a o w) s = .next (s.answered (.berr none)) := by
  simp only [exec, execArgumentRegisterWrite, h, if_true, busError_eq]

theorem admitsOffset_agent (h : viewOf o = .agent) (s : State) (a : AgentId) : s.admitsOffset a o = true := by
  rw [State.admitsOffset, h]
  rfl

theorem admitsOffset_supervisor (h : (s.agent a).supervisor = true) (o : BitVec 7) : s.admitsOffset a o = true := by
  rw [State.admitsOffset, h, Bool.or_true]

theorem writeFails_of_not_writable (h : registerAt o = none ∨ ∃ r, registerAt o = some r ∧ r.writable = false)
    (s : State) (a : AgentId) : s.writeFails a o = true := by
  unfold State.writeFails
  rcases h with hnone | ⟨r, hr, hw⟩
  · rw [hnone, Bool.or_true]
  · rw [hr]
    cases r with
    | tdata => cases hw
    | _ => simp [hw]

/-- Settles O39: the two argument registers of each view, and an offset where the decoder finds nothing to write. -/
theorem argumentWritesChangeOneRegister : Obligations.ArgumentWritesChangeOneRegister := by
  intro a w s
  refine ⟨fun hlow => ⟨?_, ?_⟩, fun ⟨hlow, hsup⟩ => ⟨?_, ?_⟩, fun o ho => ?_⟩
  · exact exec_argumentRegisterWrite_taken hlow (admitsOffset_agent rfl s a) (r := .arg0) rfl rfl w
  · exact exec_argumentRegisterWrite_taken hlow (admitsOffset_agent rfl s a) (r := .arg1) rfl rfl w
  · exact exec_argumentRegisterWrite_taken hlow (admitsOffset_supervisor hsup 65) (r := .sarg0) rfl rfl w
  · exact exec_argumentRegisterWrite_taken hlow (admitsOffset_supervisor hsup 66) (r := .sarg1) rfl rfl w
  · exact exec_argumentRegisterWrite_fails (writeFails_of_not_writable ho s a) w

/-! ## Accesses while RESET_N is low -/

theorem agentWrite_in_reset (h : s.resetLow = true) (f : State → State) :
    s.agentWrite f = .next (s.answered (.berr none)) := by
  rw [State.agentWrite, h, if_pos rfl, busError_eq]

theorem controlWrite_in_reset (h : s.resetLow = true) (a : AgentId) (f : State → State) :
    s.controlWrite a f = .next (s.answered (.berr none)) := by
  rw [State.controlWrite, h, Bool.true_or, if_pos rfl, busError_eq]

theorem exec_ntake_in_reset (h : s.resetLow = true) : exec (.ntake a) s = .next (s.answered (.berr (some 0))) := by
  simp only [exec, execNtake, h, if_true]

/-- Settles O6: a write of either view checks RESET_N first, whatever it would do when it is taken; so do the decoder of
argument register writes and NTAKE. -/
theorem accessDuringResetIsABusError : Obligations.AccessDuringResetIsABusError := by
  intro c s a hlow hwf hacc
  refine ⟨fun hc => by rw [hc, exec_ntake_in_reset hlow], fun hc => ?_⟩
  cases c with
  | attach | detach | acquire | release | renew | cancel | probe => exact agentWrite_in_reset hlow _
  | openLock | closeLock | revoke | revokeAll | detachAgent | clearAll | giveSupervisor | takeSupervisor | tcommit =>
    exact controlWrite_in_reset hlow _ _
  | notifyWrite => simp only [exec, execNotifyWrite, agentWrite_in_reset hlow]
  | tsel | prescaleWrite => simp only [exec, execTsel, execPrescaleWrite, controlWrite_in_reset hlow]
  | tdataWrite x n w =>
    simp only [exec, execTdataWrite]
    split
    · exact controlWrite_in_reset hlow _ _
    · rfl
  | badCommand x v code =>
    cases v with
    | agent =>
      rw [exec_badCommand_agent (isCommandCode_of_wellFormed hwf)]
      exact agentWrite_in_reset hlow _
    | control =>
      rw [exec_badCommand_control (isCommandCode_of_wellFormed hwf)]
      exact controlWrite_in_reset hlow _ _
  | argumentRegisterWrite x o w =>
    have hfails : s.writeFails x o = true := by rw [State.writeFails, hlow, Bool.true_or, Bool.true_or]
    exact exec_argumentRegisterWrite_fails hfails w
  | ntake x => cases hacc; exact absurd rfl hc
  | pinReset | unitAdvance | leaseExpiry | timeout => cases hacc
  | detachSweepVisit | clearSweepVisit | sweepCompletion => cases hacc

end Sys2Proof.Machine
end

section
/-! The words software reads (R167, R169 to R171): a word laid out from bit 31 down is the union of its fields, each at
its own bit; the words of result records and notices, and what a bus read answers. -/
namespace Sys2Proof.Machine

variable {s : State} {a : AgentId} {o : BitVec 7}

/-! ## Fields of a word -/

/-- Of two fields side by side, the lower one stands at the bit of both, and the upper one past its end. -/
theorem field_append {m n : Nat} (lo : Nat) (x : BitVec m) (y : BitVec n) :
    field lo (x ++ y) = field lo y ||| field (lo + n) x := by
  apply BitVec.eq_of_getLsbD_eq
  intro i hi
  simp only [field, BitVec.getLsbD_or, BitVec.getLsbD_shiftLeft, BitVec.getLsbD_setWidth, BitVec.getLsbD_append]
  by_cases hbelow : i < lo + n
  · by_cases hlo : i < lo
    · simp [hlo, hbelow]
    · have hy : i - lo < n := by omega
      simp [hlo, hbelow, hy, hi]
  · have hlo : ¬ i < lo := by omega
    have hx : ¬ i - lo < n := by omega
    have hbit : i - lo - n = i - (lo + n) := by omega
    have hwidth : i - lo < 32 ∧ i - (lo + n) < 32 := by omega
    rw [BitVec.getLsbD_of_ge y (i - lo) (by omega)]
    simp [hlo, hbelow, hx, hi, hbit, hwidth]

@[simp] theorem field_zero {n : Nat} (lo : Nat) : field lo (0#n) = 0#32 := by
  simp [field]

@[simp] theorem flag_eq_field (lo : Nat) (b : Bool) : flag lo b = field lo (BitVec.ofBool b) := rfl

@[simp] theorem count_eq_field (n lo x : Nat) : count n lo x = field lo (BitVec.ofNat n x) := rfl

/-- A word laid out in fields is the field at bit 0 that fills it. -/
theorem eq_of_eq_field {w v : Word} (h : w = field 0 v) : w = v := by
  simpa [field] using h

/-! ## Codes -/

@[simp] theorem Mode.bit_eq (m : Mode) : m.bit = decide (m = .shared) := by
  cases m <;> rfl

@[simp] theorem NotifyMode.bit_eq (m : NotifyMode) : m.bit = decide (m = .arrival) := by
  cases m <;> rfl

@[simp] theorem optionalModeBit_eq (m : Option Mode) : optionalModeBit m = decide (m = some .shared) := by
  cases m with
  | none => rfl
  | some m => cases m <;> rfl

/-! ## Result records -/

theorem CommandResult.word0_layout (r : CommandResult) : r.word0 =
    (0 : BitVec 4) ++ BitVec.ofNat 3 r.position ++ BitVec.ofNat 5 r.credits ++ (0 : BitVec 1) ++
      BitVec.ofBool r.cleanNotApplied ++ BitVec.ofBool r.recursion ++ BitVec.ofBool r.marker ++ (0 : BitVec 2) ++
      BitVec.ofNat 6 r.lock.val ++ r.status.code := by
  apply eq_of_eq_field
  simp only [field_append]
  simp [word0, BitVec.or_assoc]

theorem CommandResult.word1_layout (r : CommandResult) :
    r.word1 = (0 : BitVec 12) ++ BitVec.ofNat 4 r.depth ++ r.ticket := by
  apply eq_of_eq_field
  simp only [field_append]
  simp [word1]

theorem ProbeResult.word0_layout (r : ProbeResult) : r.word0 =
    (0 : BitVec 1) ++ BitVec.ofNat 3 r.queueLength ++ BitVec.ofNat 3 r.position ++ BitVec.ofNat 5 r.credits ++
      BitVec.ofBool r.marker ++ BitVec.ofBool (decide (r.drain = some .shared)) ++ BitVec.ofNat 4 r.holderCount ++
      BitVec.ofNat 3 r.cls.val ++ r.state.code ++ (1 : BitVec 8) := by
  apply eq_of_eq_field
  simp only [field_append]
  simp [word0, Status.code, BitVec.or_assoc]

theorem ProbeResult.word1_no_holding {r : ProbeResult} (h : r.own = none) :
    r.word1 = (0 : BitVec 16) ++ r.ticket := by
  apply eq_of_eq_field
  simp only [field_append]
  simp [word1, h]

theorem ProbeResult.word1_holding {r : ProbeResult} {m : Mode} {d : Nat} (h : r.own = some (m, d)) :
    r.word1 = (0 : BitVec 11) ++ BitVec.ofBool (decide (m = .shared)) ++ BitVec.ofNat 4 d ++ r.ticket := by
  apply eq_of_eq_field
  simp only [field_append]
  simp [word1, h]

/-! ## Notices -/

/-- The words of a notice about a lock, with a tag of 0, no marker and a ticket of 0 where its kind carries none: the
layout all five kinds share. -/
theorem Notice.word_layouts {n : Notice} {k : LockId} {m : Mode} {ticket time hasTicket : Half} {tag hasTag : BitVec 8}
    {marker : Bool} {kind : BitVec 4}
    (h : (n = .granted k m ticket tag marker time ∧ kind = 1 ∧ hasTag = tag ∧ hasTicket = ticket) ∨
      (marker = false ∧
        ((n = .timedOut k m tag time ∧ kind = 2 ∧ hasTag = tag ∧ hasTicket = 0) ∨
          (n = .cancelled k m tag time ∧ kind = 3 ∧ hasTag = tag ∧ hasTicket = 0) ∨
          (n = .expired k m ticket time ∧ kind = 4 ∧ hasTag = 0 ∧ hasTicket = ticket) ∨
          (n = .revoked k m ticket time ∧ kind = 5 ∧ hasTag = 0 ∧ hasTicket = ticket)))) :
    n.word0 = (0 : BitVec 8) ++ hasTag ++ BitVec.ofBool marker ++ BitVec.ofBool (decide (m = .shared)) ++
      BitVec.ofNat 6 k.val ++ (0 : BitVec 4) ++ kind ∧ n.word1 = time ++ hasTicket := by
  rcases h with ⟨rfl, rfl, rfl, rfl⟩ |
    ⟨rfl, ⟨rfl, rfl, rfl, rfl⟩ | ⟨rfl, rfl, rfl, rfl⟩ | ⟨rfl, rfl, rfl, rfl⟩ | ⟨rfl, rfl, rfl, rfl⟩⟩
  all_goals
    constructor <;> apply eq_of_eq_field <;> simp only [field_append]
    · simp [word0, BitVec.or_assoc]
    · simp [word1]

/-- A sweep's notice names its kind in bits 3:0 and, for a DETACH sweep, the target from bit 25. -/
theorem Notice.sweepDone_detach_word0 (x : AgentId) (time : Half) :
    (Notice.sweepDone (.detach x) time).word0 = (0 : BitVec 4) ++ BitVec.ofNat 3 x.val ++ (6 : BitVec 25) := by
  have hkind : field 0 (6#25) = field 0 (6#4) := rfl
  apply eq_of_eq_field
  simp only [field_append]
  simp [word0, SweepJob.noticeFields, hkind]

theorem Notice.sweepDone_word1 (job : SweepJob) (time : Half) :
    (Notice.sweepDone job time).word1 = time ++ (0 : Half) := by
  apply eq_of_eq_field
  simp only [field_append]
  simp [word1]

/-- Settles O49: the codes row by row, then each word by its layout. -/
theorem resultAndNoticeWordsFollowTheLayouts : Obligations.ResultAndNoticeWordsFollowTheLayouts := by
  refine ⟨rfl, rfl, rfl, fun r => ⟨r.word0_layout, r.word1_layout⟩,
    fun r => ⟨r.word0_layout, r.word1_no_holding, fun m d => r.word1_holding⟩,
    fun k m ticket tag marker time n kind hasTag hasTicket h => ?_⟩
  obtain ⟨hword0, hword1⟩ := Notice.word_layouts h
  exact ⟨hword0, hword1, fun x => ⟨Notice.sweepDone_detach_word0 x time, Notice.sweepDone_word1 _ time⟩, rfl,
    Notice.sweepDone_word1 _ time⟩

/-! ## Status and configuration registers -/

theorem AgentEntry.ncountWord_layout (e : AgentEntry) : e.ncountWord =
    (0 : BitVec 19) ++ BitVec.ofNat 5 e.credits ++ (0 : BitVec 3) ++ BitVec.ofNat 5 e.notices.length := by
  apply eq_of_eq_field
  simp only [field_append]
  simp [ncountWord]

theorem AgentEntry.notifyWord_layout (e : AgentEntry) : e.notifyWord =
    (0 : BitVec 28) ++ BitVec.ofBool e.lineLow ++ BitVec.ofBool e.latch ++
      BitVec.ofBool (decide (e.notifyMode = .arrival)) ++ BitVec.ofBool e.notifyEnable := by
  apply eq_of_eq_field
  simp only [field_append]
  simp [notifyWord, BitVec.or_assoc]

theorem AgentEntry.agentWord_layout (e : AgentEntry) (a : AgentId) : e.agentWord a =
    (0 : BitVec 8) ++ e.epoch ++ (0 : BitVec 7) ++ BitVec.ofBool e.supervisor ++ (0 : BitVec 2) ++ e.status.code ++
      (0 : BitVec 1) ++ BitVec.ofNat 3 a.val := by
  apply eq_of_eq_field
  simp only [field_append]
  simp [agentWord, BitVec.or_assoc]

theorem sweepWord_idle (h : s.inFlight = none) :
    s.sweepWord = (0 : BitVec 13) ++ BitVec.ofNat 3 s.sweepQueue.length ++ (0 : Half) := by
  apply eq_of_eq_field
  simp only [field_append]
  simp [State.sweepWord, h]

theorem sweepWord_detach {f : SweepFlight} {x : AgentId} (h : s.inFlight = some f) (hj : f.request.job = .detach x) :
    s.sweepWord = (0 : BitVec 13) ++ BitVec.ofNat 3 s.sweepQueue.length ++ (0 : BitVec 1) ++
      BitVec.ofNat 7 f.position.val ++ (0 : BitVec 1) ++ BitVec.ofNat 3 x.val ++ (0 : BitVec 2) ++ (1 : BitVec 2) := by
  apply eq_of_eq_field
  simp only [field_append, State.sweepWord, h, hj]
  rw [BitVec.or_comm (count 7 8 _)]
  simp [BitVec.or_assoc]

theorem sweepWord_clear {f : SweepFlight} (h : s.inFlight = some f) (hj : f.request.job = .clear) :
    s.sweepWord = (0 : BitVec 13) ++ BitVec.ofNat 3 s.sweepQueue.length ++ (0 : BitVec 1) ++
      BitVec.ofNat 7 f.position.val ++ (0 : BitVec 1) ++ (0 : BitVec 3) ++ (0 : BitVec 2) ++ (2 : BitVec 2) := by
  apply eq_of_eq_field
  simp only [field_append, State.sweepWord, h, hj]
  rw [BitVec.or_comm (count 7 8 _)]
  simp [BitVec.or_assoc]

theorem field_prescaler (p : Half) : field 0 p = (0 : BitVec 16) ++ p := by
  apply eq_of_eq_field
  simp only [field_append]
  simp

/-! ## Reads -/

/-- A read that the decoder takes returns the register's value (R161, R163). -/
theorem busRead_register {r : Register} (hlow : s.resetLow = false) (hview : s.admitsOffset a o = true)
    (hr : registerAt o = some r) (hreadable : r.readable = true) :
    s.busRead a o = .rdy (some (s.registerValue a r)) := by
  simp only [State.busRead, hlow, hview, Bool.not_true, Bool.or_self, Bool.false_eq_true, if_false, hr, hreadable,
    if_true]

theorem busRead_agent (r : Register) (hlow : s.resetLow = false) (hview : viewOf o = .agent)
    (hr : registerAt o = some r) (hreadable : r.readable = true) :
    s.busRead a o = .rdy (some (s.registerValue a r)) :=
  busRead_register hlow (admitsOffset_agent hview s a) hr hreadable

theorem busRead_control (r : Register) (hctl : s.Controls a) (hr : registerAt o = some r)
    (hreadable : r.readable = true) : s.busRead a o = .rdy (some (s.registerValue a r)) :=
  busRead_register hctl.1 (admitsOffset_supervisor hctl.2 o) hr hreadable

/-- A read of TDATA is taken whatever the staging holds (R163). -/
theorem busRead_tdata (hctl : s.Controls a) (n : Fin 5) :
    s.busRead a (BitVec.ofNat 7 (73 + n.val)) = .rdy (some (tdataWord (s.agent a).staging n)) :=
  busRead_control (.tdata n) hctl (registerAt_tdata n) rfl

theorem busRead_in_reset (h : s.resetLow = true) (a : AgentId) (o : BitVec 7) : s.busRead a o = .berr (some 0) := by
  rw [State.busRead, h, Bool.true_or, if_pos rfl]

theorem busRead_unsupervised (hsup : (s.agent a).supervisor = false) (ho : 64 ≤ o.toNat) :
    s.busRead a o = .berr (some 0) := by
  have hview : s.admitsOffset a o = false := by
    rw [State.admitsOffset, viewOf_control ho, hsup]
    rfl
  rw [State.busRead, hview, Bool.not_false, Bool.or_true, if_pos rfl]

theorem busRead_not_readable (h : registerAt o = none ∨ ∃ r, registerAt o = some r ∧ r.readable = false) (s : State)
    (a : AgentId) : s.busRead a o = .berr (some 0) := by
  unfold State.busRead
  split
  · rfl
  · rcases h with hnone | ⟨r, hr, hreadable⟩
    · rw [hnone]
    · simp only [hr, hreadable, Bool.false_eq_true, if_false]

/-- The value of NTAKE is word 0 of the head notice, or EMPTY (R131, R132). -/
theorem registerValue_ntake_nil (h : (s.agent a).notices = []) : s.registerValue a .ntake = 0 := by
  simp only [State.registerValue, h]
  rfl

theorem registerValue_ntake_cons {n : Notice} {rest : List Notice} (h : (s.agent a).notices = n :: rest) :
    s.registerValue a .ntake = n.word0 := by
  simp only [State.registerValue, h]

/-- A read of NTAKE is the command NTAKE, which answers the word the read returns. -/
theorem exec_ntake_answers_busRead (s : State) (a : AgentId) :
    ∃ t, exec (.ntake a) s = .next t ∧ t.answer = s.busRead a 8 := by
  cases hlow : s.resetLow with
  | true => exact ⟨_, exec_ntake_in_reset hlow, (busRead_in_reset hlow a 8).symm⟩
  | false =>
    refine ⟨_, exec_ntake_taken hlow, ?_⟩
    rw [busRead_agent .ntake hlow rfl rfl rfl]
    cases hn : (s.agent a).notices with
    | nil => rw [takeNotice_nil hn, registerValue_ntake_nil hn, answered_answer]
    | cons n rest => rw [takeNotice_cons hn, registerValue_ntake_cons hn, answered_answer]

/-- Settles O50: each readable register of the two views by its offset, its value in its layout, and the reads that the
decoder does not take. -/
theorem readsReturnTheRegisters : Obligations.ReadsReturnTheRegisters := by
  intro a s e he
  subst he
  refine ⟨fun hlow => ?_, fun hctl => ?_, fun hsup o ho => busRead_unsupervised hsup ho,
    fun o ho => busRead_not_readable ho s a, fun hlow o => busRead_in_reset hlow a o, exec_ntake_answers_busRead s a⟩
  · have hread := fun o r hview hr hreadable => busRead_agent (s := s) (a := a) (o := o) r hlow hview hr hreadable
    refine ⟨hread 1 .arg0 rfl rfl rfl, hread 2 .arg1 rfl rfl rfl, hread 4 .res0 rfl rfl rfl, hread 5 .res1 rfl rfl rfl,
      fun hnil => ?_, fun n rest hcons => ?_, hread 9 .nword1 rfl rfl rfl, ?_, ?_, ?_⟩
    · rw [hread 8 .ntake rfl rfl rfl, registerValue_ntake_nil hnil]
    · rw [hread 8 .ntake rfl rfl rfl, registerValue_ntake_cons hcons]
    · rw [← AgentEntry.ncountWord_layout]
      exact hread 10 .ncount rfl rfl rfl
    · rw [← AgentEntry.notifyWord_layout]
      exact hread 11 .notify rfl rfl rfl
    · rw [hread 12 .agent rfl rfl rfl]
      exact congrArg (fun w => BusAnswer.rdy (some w)) (AgentEntry.agentWord_layout _ a)
  · have hread := fun o r hr hreadable => busRead_control (s := s) (a := a) (o := o) r hctl hr hreadable
    refine ⟨hread 65 .sarg0 rfl rfl, hread 66 .sarg1 rfl rfl, hread 68 .sres0 rfl rfl, hread 69 .sres1 rfl rfl,
      fun hnone n => ?_, ?_, hread 85 .units rfl rfl, fun hidle => ?_, fun f hf => ?_⟩
    · rw [busRead_tdata hctl, hnone]
      rfl
    · rw [← field_prescaler]
      exact hread 84 .prescale rfl rfl
    · rw [← sweepWord_idle hidle]
      exact hread 88 .sweep rfl rfl
    · rw [hread 88 .sweep rfl rfl]
      refine congrArg (fun w => BusAnswer.rdy (some w)) ?_
      cases hj : f.request.job with
      | detach x => exact sweepWord_detach hf hj
      | clear => exact sweepWord_clear hf hj

end Sys2Proof.Machine
end

section
/-! The table port (R163, R165, R166, R171): the snapshot a selection puts in staging, the words in which it is read,
and the fields a write of TDATA changes. -/
namespace Sys2Proof.Machine

variable {s : State} {a : AgentId}

/-! ## Parts of a word -/

theorem extract_upper_half {w : Word} {x y : Half} (h : w = x ++ y) : w.extractLsb' 16 16 = x := by
  rw [h]
  exact BitVec.extractLsb'_append_eq_left

theorem extract_lower_half {w : Word} {x y : Half} (h : w = x ++ y) : w.extractLsb' 0 16 = y := by
  rw [h]
  exact BitVec.extractLsb'_append_eq_right

/-- The bottom of a word shifted right is the lane that stood there. -/
theorem extract_shifted (w : Word) (i n : Nat) : (w >>> i).extractLsb' 0 n = w.extractLsb' i n := by
  apply BitVec.eq_of_getLsbD_eq
  intro j _
  simp

/-- A field is read back at its own place. -/
theorem extract_field {n lo : Nat} (h : lo + n ≤ 32) (x : BitVec n) : (field lo x).extractLsb' lo n = x := by
  apply BitVec.eq_of_getLsbD_eq
  intro j hj
  have hbit : lo + j < 32 ∧ j < 32 := by omega
  simp [field, hj, hbit]

/-- A field is 0 at every other place. -/
theorem extract_field_elsewhere {m n lo i : Nat} (h : lo + m ≤ i ∨ i + n ≤ lo) (x : BitVec m) :
    (field lo x).extractLsb' i n = 0 := by
  apply BitVec.eq_of_getLsbD_eq
  intro j hj
  rcases h with habove | hbelow
  · have hx : x.getLsbD (i + j - lo) = false := BitVec.getLsbD_of_ge x _ (by omega)
    simp [field, hx]
  · have hlo : i + j < lo := by omega
    simp [field, hlo]

/-! ## The selection header -/

/-- The header of a valid staging is bit 31, the table code and the index (R171): `code` is the code with bit 31 above
it. -/
theorem selectionHeader_eq {table : BitVec 3} {code : BitVec 4} (h : code = (1 : BitVec 1) ++ table)
    (index : BitVec 9) : selectionHeader table index = field 16 (code ++ (0 : BitVec 3) ++ index) := by
  subst h
  simp only [field_append, selectionHeader]
  rw [BitVec.or_comm, BitVec.or_comm (flag 31 true)]
  simp

theorem Staging.header_lock (i : LockId) (l : LockSnapshot) :
    (Staging.lock i l).header = field 16 ((9 : BitVec 4) ++ (0 : BitVec 3) ++ BitVec.ofNat 9 i.val) :=
  selectionHeader_eq rfl _

theorem Staging.header_holder (i : BitVec 9) (x : Option HolderSnapshot) :
    (Staging.holder i x).header = field 16 ((10 : BitVec 4) ++ (0 : BitVec 3) ++ i) :=
  selectionHeader_eq rfl _

theorem Staging.header_wait (i : EntryId) (x : Option WaitSnapshot) :
    (Staging.wait i x).header = field 16 ((11 : BitVec 4) ++ (0 : BitVec 3) ++ BitVec.ofNat 9 i.val) :=
  selectionHeader_eq rfl _

theorem Staging.header_cls (i : ClassId) (c : StagedClass) :
    (Staging.cls i c).header = field 16 ((12 : BitVec 4) ++ (0 : BitVec 3) ++ BitVec.ofNat 9 i.val) :=
  selectionHeader_eq rfl _

theorem Staging.header_agent (i : AgentId) (e : AgentSnapshot) :
    (Staging.agent i e).header = field 16 ((13 : BitVec 4) ++ (0 : BitVec 3) ++ BitVec.ofNat 9 i.val) :=
  selectionHeader_eq rfl _

/-- The header stands above the fields of TDATA0. -/
theorem Staging.word_zero (g : Staging) : g.word 0 = g.fields 0 ||| g.header :=
  BitVec.or_comm _ _

/-- Where a snapshot's fields fill the lower half of TDATA0, the header is the upper half. -/
theorem Staging.word_zero_halves {g : Staging} {x y : Half} (hheader : g.header = field 16 x)
    (hfields : g.fields 0 = field 0 y) : g.word 0 = x ++ y := by
  apply eq_of_eq_field
  simp only [field_append, word_zero, hheader, hfields, Nat.zero_add]

/-! ## LOCK snapshots -/

theorem lockStaging_word0 (i : LockId) (l : LockSnapshot) : (Staging.lock i l).word 0 =
    (9 : BitVec 4) ++ (0 : BitVec 3) ++ BitVec.ofNat 9 i.val ++ (0 : BitVec 4) ++ BitVec.ofNat 4 l.holderCount ++
      BitVec.ofBool l.marker ++ BitVec.ofBool (decide (l.drain = some .shared)) ++ BitVec.ofNat 3 l.cls.val ++
      l.state.code := by
  apply eq_of_eq_field
  simp only [field_append, Staging.word_zero, Staging.header_lock]
  simp [Staging.fields, LockSnapshot.word, BitVec.or_assoc]

theorem lockSnapshot_word1 (l : LockSnapshot) : l.word 1 = (0 : Half) ++ l.ticket := by
  apply eq_of_eq_field
  simp only [field_append]
  simp [LockSnapshot.word]

theorem queueSlot_some {q : List EntryId} {p : Nat} {x : EntryId} (h : q[p]? = some x) :
    queueSlot q p = (1 : BitVec 1) ++ BitVec.ofNat 5 x.val := by
  have hslot : ∀ x : EntryId, BitVec.ofNat 6 (x.val + 32) = (1 : BitVec 1) ++ BitVec.ofNat 5 x.val := by decide
  rw [queueSlot, h]
  exact hslot x

theorem queueSlot_none {q : List EntryId} {p : Nat} (h : q[p]? = none) : queueSlot q p = 0 := by
  rw [queueSlot, h]

theorem holderSlot_some {hs : List AgentId} {p : Nat} {x : AgentId} (h : hs[p]? = some x) :
    holderSlot hs p = (1 : BitVec 1) ++ BitVec.ofNat 3 x.val := by
  have hslot : ∀ x : AgentId, BitVec.ofNat 4 (x.val + 8) = (1 : BitVec 1) ++ BitVec.ofNat 3 x.val := by decide
  rw [holderSlot, h]
  exact hslot x

theorem holderSlot_none {hs : List AgentId} {p : Nat} (h : hs[p]? = none) : holderSlot hs p = 0 := by
  rw [holderSlot, h]

/-- The seven queue positions stand in TDATA2 and TDATA3, 6 bits each. -/
theorem lockSnapshot_queueLane (l : LockSnapshot) {p : Nat} (hp : p < 7) :
    (if p < 4 then l.word 2 >>> (6 * p) else l.word 3 >>> (6 * (p - 4))).extractLsb' 0 6 = queueSlot l.queue p := by
  interval_cases p <;>
    simp (disch := omega) [extract_shifted, LockSnapshot.word, BitVec.extractLsb'_or, extract_field,
      extract_field_elsewhere]

theorem lockSnapshot_holderLane (l : LockSnapshot) {p : Nat} (hp : p < 8) :
    (l.word 4).extractLsb' (4 * p) 4 = holderSlot l.holders p := by
  interval_cases p <;>
    simp (disch := omega) [LockSnapshot.word, BitVec.extractLsb'_or, extract_field, extract_field_elsewhere]

theorem lockSnapshot_word2_high (l : LockSnapshot) : (l.word 2).extractLsb' 24 8 = 0 := by
  simp (disch := omega) [LockSnapshot.word, BitVec.extractLsb'_or, extract_field_elsewhere]

theorem lockSnapshot_word3_high (l : LockSnapshot) : (l.word 3).extractLsb' 18 14 = 0 := by
  simp (disch := omega) [LockSnapshot.word, BitVec.extractLsb'_or, extract_field_elsewhere]

/-! ## HOLDER and WAIT snapshots -/

theorem holderSnapshot_word0 (h : HolderSnapshot) : h.word 0 = field 0
    ((0 : BitVec 4) ++ BitVec.ofNat 4 h.place ++ BitVec.ofNat 4 h.depth ++ (0 : BitVec 1) ++
      BitVec.ofBool h.deadline.isSome ++ BitVec.ofBool (decide (h.mode = .shared)) ++ (1 : BitVec 1)) := by
  simp only [field_append]
  simp [HolderSnapshot.word, BitVec.or_assoc]

theorem holderSnapshot_word1 (h : HolderSnapshot) : h.word 1 = (0 : Half) ++ h.ticket := by
  apply eq_of_eq_field
  simp only [field_append]
  simp [HolderSnapshot.word]

theorem waitSnapshot_word0 (w : WaitSnapshot) : w.word 0 = field 0
    ((0 : BitVec 5) ++ BitVec.ofNat 3 w.agent.val ++ (0 : BitVec 1) ++ BitVec.ofNat 3 w.position ++ (0 : BitVec 1) ++
      BitVec.ofBool w.deadline.isSome ++ BitVec.ofBool (decide (w.mode = .shared)) ++ (1 : BitVec 1)) := by
  simp only [field_append]
  simp [WaitSnapshot.word, BitVec.or_assoc]

theorem waitSnapshot_word1 (w : WaitSnapshot) :
    w.word 1 = (0 : Half) ++ w.tag ++ (0 : BitVec 2) ++ BitVec.ofNat 6 w.lock.val := by
  apply eq_of_eq_field
  simp only [field_append]
  simp [WaitSnapshot.word]

/-! ## CLASS and AGENT snapshots -/

theorem clsStaging_word0 (i : ClassId) (c : StagedClass) : (Staging.cls i c).word 0 =
    (12 : BitVec 4) ++ (0 : BitVec 3) ++ BitVec.ofNat 9 i.val ++ (0 : BitVec 5) ++ BitVec.ofBool c.ordered ++
      BitVec.ofBool c.recursionAllowed ++ BitVec.ofBool c.sharedAllowed ++ c.mask := by
  apply eq_of_eq_field
  simp only [field_append, Staging.word_zero, Staging.header_cls]
  simp [Staging.fields, StagedClass.word, BitVec.or_assoc]

theorem stagedClass_words (c : StagedClass) :
    c.word 1 = (0 : BitVec 24) ++ c.rank ∧ c.word 2 = (0 : Half) ++ c.lease ∧ c.word 3 = (0 : Half) ++ c.cap ∧
      c.word 4 = (0 : BitVec 25) ++ c.useCount := by
  refine ⟨?_, ?_, ?_, ?_⟩
  all_goals
    apply eq_of_eq_field
    simp only [field_append]
    simp [StagedClass.word]

theorem agentStaging_word0 (i : AgentId) (e : AgentSnapshot) : (Staging.agent i e).word 0 =
    (13 : BitVec 4) ++ (0 : BitVec 3) ++ BitVec.ofNat 9 i.val ++ e.epoch ++ (0 : BitVec 2) ++ BitVec.ofBool e.latch ++
      BitVec.ofBool (decide (e.notifyMode = .arrival)) ++ BitVec.ofBool e.notifyEnable ++
      BitVec.ofBool e.supervisor ++ e.status.code := by
  apply eq_of_eq_field
  simp only [field_append, Staging.word_zero, Staging.header_agent]
  simp [Staging.fields, AgentSnapshot.word, BitVec.or_assoc]

theorem agentSnapshot_word1 (e : AgentSnapshot) :
    e.word 1 = (0 : BitVec 19) ++ BitVec.ofNat 5 e.queueLength ++ (0 : BitVec 3) ++ BitVec.ofNat 5 e.credits := by
  apply eq_of_eq_field
  simp only [field_append]
  simp [AgentSnapshot.word]

/-- Settles O51: the word of a TDATA read is that of the staging, read by the kind of its snapshot. -/
theorem stagingWordsFollowTheLayouts : Obligations.StagingWordsFollowTheLayouts := by
  intro a s hctl
  refine ⟨tdataWord (s.agent a).staging, busRead_tdata hctl, fun hnone n => ?_, fun i l hg => ?_, fun i x hg => ?_,
    fun i x hg => ?_, fun i c hg => ?_, fun i e hg => ?_⟩
  · rw [hnone]
    rfl
  · rw [hg]
    refine ⟨lockStaging_word0 i l, lockSnapshot_word1 l, fun p hp lane hlane => ?_, lockSnapshot_word2_high l,
      lockSnapshot_word3_high l, fun p hp => ?_⟩
    · have hslot : lane.extractLsb' 0 6 = queueSlot l.queue p := hlane ▸ lockSnapshot_queueLane l hp
      exact ⟨fun x hx => hslot.trans (queueSlot_some hx), fun hx => hslot.trans (queueSlot_none hx)⟩
    · have hslot : (l.word 4).extractLsb' (4 * p) 4 = holderSlot l.holders p := lockSnapshot_holderLane l hp
      exact ⟨fun x hx => hslot.trans (holderSlot_some hx), fun hx => hslot.trans (holderSlot_none hx)⟩
  · rw [hg]
    cases x with
    | none =>
      have hword := Staging.word_zero_halves (Staging.header_holder i none) (field_zero 0).symm
      exact ⟨extract_upper_half hword, fun _ => ⟨extract_lower_half hword, rfl, rfl⟩, nofun, rfl, rfl⟩
    | some h =>
      have hword := Staging.word_zero_halves (Staging.header_holder i (some h)) (holderSnapshot_word0 h)
      refine ⟨extract_upper_half hword, nofun, fun _ heq => ?_, rfl, rfl⟩
      cases heq
      exact ⟨extract_lower_half hword, holderSnapshot_word1 h, rfl⟩
  · rw [hg]
    cases x with
    | none =>
      have hword := Staging.word_zero_halves (Staging.header_wait i none) (field_zero 0).symm
      exact ⟨extract_upper_half hword, fun _ => ⟨extract_lower_half hword, rfl, rfl⟩, nofun, rfl, rfl⟩
    | some w =>
      have hword := Staging.word_zero_halves (Staging.header_wait i (some w)) (waitSnapshot_word0 w)
      refine ⟨extract_upper_half hword, nofun, fun _ heq => ?_, rfl, rfl⟩
      cases heq
      exact ⟨extract_lower_half hword, waitSnapshot_word1 w, rfl⟩
  · rw [hg]
    exact ⟨clsStaging_word0 i c, stagedClass_words c⟩
  · rw [hg]
    exact ⟨agentStaging_word0 i e, agentSnapshot_word1 e, rfl, rfl, rfl⟩

/-! ## Selections -/

section Select

variable {table : BitVec 3} {index : BitVec 9}

/-- A table code of 0, 6 or 7, and an index outside the range of its table, make the staging invalid (R165). -/
theorem select_invalid (h : table.toNat = 0 ∨ 6 ≤ table.toNat ∨ (table.toNat = 1 ∧ 64 ≤ index.toNat) ∨
    (table.toNat = 3 ∧ 32 ≤ index.toNat) ∨ ((table.toNat = 4 ∨ table.toNat = 5) ∧ 8 ≤ index.toNat)) :
    s.select table index = none := by
  unfold State.select
  split
  case h_1 ht => exact dif_neg (by omega)
  case h_2 ht => omega
  case h_3 ht => exact dif_neg (by omega)
  case h_4 ht => exact dif_neg (by omega)
  case h_5 ht => exact dif_neg (by omega)
  case h_6 => rfl

theorem select_lock {k : LockId} (ht : table.toNat = 1) (hk : k.val = index.toNat) :
    s.select table index = some (.lock k (s.lockSnapshot k)) := by
  have hindex : index.toNat < 64 := hk ▸ k.isLt
  obtain rfl : k = ⟨index.toNat, hindex⟩ := Fin.ext hk
  simp only [State.select, ht, hindex, dif_pos]

/-- A HOLDER index is the lock's number times 8 and the agent's (R165). -/
theorem select_holder {k : LockId} {b : AgentId} (ht : table.toNat = 2) (hk : k.val = index.toNat / 8)
    (hb : b.val = index.toNat % 8) : s.select table index = some (.holder index (s.holderSnapshot k b)) := by
  obtain rfl : k = holderIndexLock index := Fin.ext hk
  obtain rfl : b = holderIndexAgent index := Fin.ext hb
  simp only [State.select, ht]

theorem select_wait {e : EntryId} (ht : table.toNat = 3) (he : e.val = index.toNat) :
    s.select table index = some (.wait e (s.waitSnapshot e)) := by
  have hindex : index.toNat < 32 := he ▸ e.isLt
  obtain rfl : e = ⟨index.toNat, hindex⟩ := Fin.ext he
  simp only [State.select, ht, hindex, dif_pos]

theorem select_cls {c : ClassId} (ht : table.toNat = 4) (hc : c.val = index.toNat) :
    s.select table index = some (.cls c (s.classSnapshot c)) := by
  have hindex : index.toNat < 8 := hc ▸ c.isLt
  obtain rfl : c = ⟨index.toNat, hindex⟩ := Fin.ext hc
  simp only [State.select, ht, hindex, dif_pos]

theorem select_agent {b : AgentId} (ht : table.toNat = 5) (hb : b.val = index.toNat) :
    s.select table index = some (.agent b (s.agentSnapshot b)) := by
  have hindex : index.toNat < 8 := hb ▸ b.isLt
  obtain rfl : b = ⟨index.toNat, hindex⟩ := Fin.ext hb
  simp only [State.select, ht, hindex, dif_pos]

end Select

theorem holderSnapshot_absent {k : LockId} {b : AgentId} (h : ∀ r ∈ (s.lock k).holders, r.agent ≠ b) :
    s.holderSnapshot k b = none := by
  rw [State.holderSnapshot, ((s.lock k).holderOf_eq_none b).2 h, Option.map_none]

/-- The record found is the agent's first, at the place behind those before it (R171). -/
theorem holderSnapshot_split {k : LockId} {b : AgentId} {before after : List HolderRecord} {r : HolderRecord}
    (hq : (s.lock k).holders = before ++ r :: after) (hr : r.agent = b) (hbefore : ∀ x ∈ before, x.agent ≠ b) :
    s.holderSnapshot k b = some
      { mode := r.mode, depth := r.depth, place := before.length + 1, ticket := r.ticket, deadline := r.deadline } := by
  obtain ⟨hplace, hrecord⟩ := (s.lock k).holderPlace_split b hq hr hbefore
  rw [State.holderSnapshot, hplace, hrecord, Option.map_some]

theorem waitSnapshot_free {e : EntryId} (h : s.poolEntry e = none) : s.waitSnapshot e = none := by
  rw [State.waitSnapshot, h, Option.map_none]

/-- A linked entry's position is behind those ahead of it in the queue (R71, R171). -/
theorem waitSnapshot_split {e : EntryId} {k : LockId} {ahead behind : List WaitEntry} {x : WaitEntry}
    (h : s.poolEntry e = some (k, x)) (hq : (s.lock k).queue = ahead ++ x :: behind)
    (hahead : ∀ y ∈ ahead, y.agent ≠ x.agent) : s.waitSnapshot e = some
      { mode := x.mode, position := ahead.length + 1, agent := x.agent, lock := k, tag := x.tag,
        deadline := x.deadline } := by
  rw [State.waitSnapshot, h, Option.map_some, (s.lock k).queuePosition_split x.agent hq rfl hahead]

theorem exec_tsel_taken (hctl : s.Controls a) (w : Word) : exec (.tsel a w) s = .next ((s.setAgent a
    { s.agent a with staging := s.select (w.extractLsb' 16 3) (w.extractLsb' 0 9) }).answered (.rdy none)) := by
  simp only [exec, execTsel, controlWrite_taken hctl, modAgent_eq, tselTable, tselIndex]

/-- Settles O35: the staging takes what `select` answers, table by table. -/
theorem tselSnapshotsTheSelectedEntry : Obligations.TselSnapshotsTheSelectedEntry := by
  intro a w s hctl
  refine ⟨_, exec_tsel_taken hctl w, fun table index htable hindex => ?_⟩
  subst htable hindex
  refine ⟨select_invalid, fun ht k hk => select_lock ht hk, fun ht k b hk hb => ⟨fun habsent => ?_, ?_⟩,
    fun ht e he => ⟨fun hfree => ?_, ?_⟩, fun ht c hc => select_cls ht hc, fun ht b hb => select_agent ht hb⟩
  · rw [select_holder ht hk hb, holderSnapshot_absent habsent]
  · intro before after r hq hr hbefore
    rw [select_holder ht hk hb, holderSnapshot_split hq hr hbefore]
  · rw [select_wait ht he, waitSnapshot_free hfree]
  · intro k ahead behind x hx hq hahead
    rw [select_wait ht he, waitSnapshot_split hx hq hahead]

/-! ## Writes of TDATA -/

theorem exec_tdataWrite_class {i : ClassId} {c : StagedClass} (hg : (s.agent a).staging = some (.cls i c))
    (hctl : s.Controls a) (n : Fin 5) (w : Word) : exec (.tdataWrite a n w) s = .next ((s.setAgent a
      { s.agent a with staging := some (.cls i (c.writeWord n w)) }).answered (.rdy none)) := by
  simp only [exec, execTdataWrite, hg, controlWrite_taken hctl, modAgent_eq]

/-- A staging that is no CLASS snapshot cannot be written, and the write fails whoever makes it (R163). -/
theorem exec_tdataWrite_not_class (h : ∀ i c, (s.agent a).staging ≠ some (.cls i c)) (n : Fin 5) (w : Word) :
    exec (.tdataWrite a n w) s = .next (s.answered (.berr none)) := by
  show execTdataWrite a n w s = _
  unfold execTdataWrite
  split
  · rename_i i c hg
    exact absurd hg (h i c)
  · rfl

/-- Settles O36: a staged CLASS snapshot takes the fields of its word, and any other staging none. -/
theorem tdataWriteChangesTheStagedClass : Obligations.TdataWriteChangesTheStagedClass := by
  intro a n w s
  exact ⟨fun i c hg hctl => exec_tdataWrite_class hg hctl n w, fun hother => exec_tdataWrite_not_class hother n w⟩

end Sys2Proof.Machine
end

section
/-! The queue of waiting commands: a step takes its front (log 1), and no command, event or pin reset changes it (log 13,
log 14). -/
namespace Sys2Proof.Machine

variable {s : State}

/-! ## The step -/

/-- While a command waits, a step is that command on the state with the queue's rest (log 1). -/
theorem step_waiting {c : Instr} {rest : List Instr} (h : s.pending = c :: rest) :
    step s = exec c { s with pending := rest } := by
  simp only [step, h]

/-- Settles O1: taking the front command off again leaves the state the command is run in. -/
theorem stepRunsTheFrontCommand : Obligations.StepRunsTheFrontCommand := by
  intro c s
  rw [step_waiting (c := c) (rest := s.pending) rfl]

/-! ## The shared operations leave the queue alone -/

@[simp] theorem agentResult_pending (s : State) (a : AgentId) (r : CommandResult) :
    (s.agentResult a r).pending = s.pending := rfl

@[simp] theorem controlResult_pending (s : State) (a : AgentId) (r : CommandResult) :
    (s.controlResult a r).pending = s.pending := rfl

@[simp] theorem refuse_pending (s : State) (a : AgentId) (st : Status) : (s.refuse a st).pending = s.pending := rfl

@[simp] theorem controlRefuse_pending (s : State) (a : AgentId) (st : Status) :
    (s.controlRefuse a st).pending = s.pending := rfl

@[simp] theorem notify_pending (s : State) (a : AgentId) (n : Notice) : (s.notify a n).pending = s.pending := rfl

@[simp] theorem departure_pending (s : State) (k : LockId) : (s.departure k).pending = s.pending :=
  (touches_departure s k).pending

@[simp] theorem removeWaiters_pending (s : State) (k : LockId) (p : WaitEntry → Bool) :
    (s.removeWaiters k p).pending = s.pending := (touches_removeWaiters s k p).pending

@[simp] theorem loseHolder_pending (s : State) (k : LockId) (a : AgentId) (n : Option Notice) :
    (s.loseHolder k a n).pending = s.pending := (touches_loseHolder s k a n).pending

@[simp] theorem revokeHolders_pending (s : State) (k : LockId) : (s.revokeHolders k).pending = s.pending :=
  (touches_revokeHolders s k).pending

@[simp] theorem drainLock_pending (s : State) (k : LockId) (m : Mode) : (s.drainLock k m).pending = s.pending :=
  (touches_drainLock s k m).pending

@[simp] theorem detachVisit_pending (s : State) (b : AgentId) (k : LockId) :
    (s.detachVisit b k).pending = s.pending := (touches_detachVisit s k b).pending

@[simp] theorem clearVisit_pending (s : State) (k : LockId) : (s.clearVisit k).pending = s.pending :=
  (touches_clearVisit s k).pending

@[simp] theorem advancePosition_pending (s : State) (f : SweepFlight) (h : f.position.val < Config.locks) :
    (s.advancePosition f h).pending = s.pending := rfl

@[simp] theorem completeJob_pending (s : State) (j : SweepJob) : (s.completeJob j).pending = s.pending := by
  cases j <;> rfl

@[simp] theorem addressSweepDone_pending (s : State) (r : SweepRequest) :
    (s.addressSweepDone r).pending = s.pending := by
  unfold State.addressSweepDone
  split
  · split <;> rfl
  · rfl

@[simp] theorem completeSweep_pending (s : State) (r : SweepRequest) : (s.completeSweep r).pending = s.pending := by
  simp [State.completeSweep]

@[simp] theorem timeOut_pending (s : State) (k : LockId) (w : WaitEntry) : (s.timeOut k w).pending = s.pending := by
  simp [State.timeOut]

/-! ## What each command does leaves the queue alone -/

theorem attach_pending (s : State) (a : AgentId) : (s.attach a).pending = s.pending := by
  unfold State.attach
  split <;> rfl

theorem detach_pending (s : State) (a : AgentId) : (s.detach a).pending = s.pending := by
  unfold State.detach
  split
  · rfl
  · split <;> simp

theorem acquire_pending (s : State) (a : AgentId) : (s.acquire a).pending = s.pending := by
  unfold State.acquire
  split <;> rfl

theorem release_pending (s : State) (a : AgentId) : (s.release a).pending = s.pending := by
  unfold State.release
  split
  · rfl
  · split
    · rfl
    · simp [State.releaseRecord, State.giveBack]

theorem renew_pending (s : State) (a : AgentId) : (s.renew a).pending = s.pending := by
  unfold State.renew
  split
  · rfl
  · split <;> rfl

theorem cancel_pending (s : State) (a : AgentId) : (s.cancel a).pending = s.pending := by
  unfold State.cancel
  split
  · rfl
  split
  · rfl
  split
  · simp [State.withdraw]
  · rfl

theorem probe_pending (s : State) (a : AgentId) : (s.probe a).pending = s.pending := by
  unfold State.probe
  split <;> rfl

theorem openLock_pending (s : State) (a : AgentId) : (s.openLock a).pending = s.pending := by
  unfold State.openLock
  split
  · rfl
  split
  · rfl
  split
  · rfl
  · split <;> rfl

theorem closeLock_pending (s : State) (a : AgentId) : (s.closeLock a).pending = s.pending := by
  unfold State.closeLock
  split
  · rfl
  · split <;> simp

theorem revokeTarget_pending (s : State) (a : AgentId) : (s.revokeTarget a).pending = s.pending := by
  unfold State.revokeTarget
  split
  · rfl
  split
  · split
    · rfl
    · simp [State.revokeEvery]
  split
  · rfl
  split
  · rfl
  · simp [State.revokeOne]

theorem detachAgent_pending (s : State) (a : AgentId) : (s.detachAgent a).pending = s.pending := by
  unfold State.detachAgent
  split
  · rfl
  · unfold State.retire
    split <;> simp

theorem clearAll_pending (s : State) (a : AgentId) : (s.clearAll a).pending = s.pending := by
  unfold State.clearAll
  split
  · rfl
  split
  · rfl
  · split <;> simp

theorem giveSupervisor_pending (s : State) (a : AgentId) : (s.giveSupervisor a).pending = s.pending := by
  unfold State.giveSupervisor
  split <;> rfl

theorem takeSupervisor_pending (s : State) (a : AgentId) : (s.takeSupervisor a).pending = s.pending := by
  unfold State.takeSupervisor
  split
  · rfl
  · split <;> rfl

theorem takeNotice_pending (s : State) (a : AgentId) : (s.takeNotice a).pending = s.pending := by
  unfold State.takeNotice
  split <;> rfl

theorem commit_pending (s : State) (a : AgentId) : (s.commit a).pending = s.pending := by
  unfold State.commit
  split
  · split
    · rfl
    · split <;> rfl
  · rfl

/-! ## Outcomes that leave the queue alone -/

/-- A next state of this outcome has the queue of `s`. -/
def QueueStays (s : State) (o : Outcome) : Prop := ∀ t, o = .next t → t.pending = s.pending

namespace QueueStays

theorem next {t : State} (h : t.pending = s.pending) : QueueStays s (.next t) := by
  rintro _ ⟨rfl⟩
  exact h

theorem refused (s : State) (r : Refusal) : QueueStays s (.refused r) := nofun

theorem agentWrite {f : State → State} (h : (f s).pending = s.pending) : QueueStays s (s.agentWrite f) := by
  intro t ht
  rcases next_agentWrite ht with rfl | rfl
  · rfl
  · exact h

theorem controlWrite {f : State → State} (h : (f s).pending = s.pending) : QueueStays s (s.controlWrite a f) := by
  intro t ht
  rcases next_controlWrite ht with rfl | ⟨rfl, _⟩
  · rfl
  · exact h

theorem badCommand (s : State) (a : AgentId) (v : View) (code : BitVec 8) :
    QueueStays s (execBadCommand a v code s) := by
  unfold execBadCommand
  split
  · exact refused s _
  · split
    · exact agentWrite rfl
    · exact controlWrite rfl

theorem ntake (s : State) (a : AgentId) : QueueStays s (execNtake a s) := by
  unfold execNtake
  split
  · exact next rfl
  · exact next (takeNotice_pending s a)

theorem tdataWrite (s : State) (a : AgentId) (n : Fin 5) (w : Word) : QueueStays s (execTdataWrite a n w s) := by
  unfold execTdataWrite
  split
  · exact controlWrite rfl
  · exact next rfl

theorem argumentRegisterWrite (s : State) (a : AgentId) (o : BitVec 7) (w : Word) :
    QueueStays s (execArgumentRegisterWrite a o w s) := by
  unfold execArgumentRegisterWrite
  split
  · exact next rfl
  split
  · split
    · exact next rfl
    · exact refused s _
  · exact next rfl

theorem unitAdvance (s : State) : QueueStays s (execUnitAdvance s) := by
  unfold execUnitAdvance
  split <;> exact next rfl

theorem leaseExpiry (s : State) (k : LockId) (a : AgentId) : QueueStays s (execLeaseExpiry k a s) := by
  unfold execLeaseExpiry
  split
  · exact next rfl
  split
  · exact next (loseHolder_pending ..)
  · exact next rfl

theorem timeout (s : State) (e : EntryId) : QueueStays s (execTimeout e s) := by
  unfold execTimeout
  split
  · exact next rfl
  split
  · exact next (timeOut_pending ..)
  · exact next rfl

theorem detachSweepVisit (s : State) : QueueStays s (execDetachSweepVisit s) := by
  unfold execDetachSweepVisit
  split
  · split
    · split
      · exact next (detachVisit_pending ..)
      · exact next rfl
    · exact next rfl
  · exact next rfl

theorem clearSweepVisit (s : State) : QueueStays s (execClearSweepVisit s) := by
  unfold execClearSweepVisit
  split
  · split
    · split
      · exact next (clearVisit_pending ..)
      · exact next rfl
    · exact next rfl
  · exact next rfl

theorem sweepCompletion (s : State) : QueueStays s (execSweepCompletion s) := by
  unfold execSweepCompletion
  split
  · split
    · exact next (completeSweep_pending ..)
    · exact next rfl
  · exact next rfl

end QueueStays

theorem exec_queueStays (c : Instr) (s : State) : QueueStays s (exec c s) := by
  cases c with
  | attach a => exact .agentWrite (attach_pending s a)
  | detach a => exact .agentWrite (detach_pending s a)
  | acquire a => exact .agentWrite (acquire_pending s a)
  | release a => exact .agentWrite (release_pending s a)
  | renew a => exact .agentWrite (renew_pending s a)
  | cancel a => exact .agentWrite (cancel_pending s a)
  | probe a => exact .agentWrite (probe_pending s a)
  | openLock a => exact .controlWrite (openLock_pending s a)
  | closeLock a => exact .controlWrite (closeLock_pending s a)
  | revoke a => exact .controlWrite (revokeTarget_pending s a)
  | revokeAll a => exact .controlWrite (revokeTarget_pending s a)
  | detachAgent a => exact .controlWrite (detachAgent_pending s a)
  | clearAll a => exact .controlWrite (clearAll_pending s a)
  | giveSupervisor a => exact .controlWrite (giveSupervisor_pending s a)
  | takeSupervisor a => exact .controlWrite (takeSupervisor_pending s a)
  | badCommand a v code => exact .badCommand s a v code
  | ntake a => exact .ntake s a
  | notifyWrite a w =>
    simp only [exec, execNotifyWrite]
    exact .agentWrite rfl
  | tsel a w =>
    simp only [exec, execTsel]
    exact .controlWrite rfl
  | tdataWrite a n w => exact .tdataWrite s a n w
  | tcommit a => exact .controlWrite (commit_pending s a)
  | prescaleWrite a w =>
    simp only [exec, execPrescaleWrite]
    exact .controlWrite rfl
  | argumentRegisterWrite a o w => exact .argumentRegisterWrite s a o w
  | pinReset low => exact .next rfl
  | unitAdvance => exact .unitAdvance s
  | leaseExpiry k a => exact .leaseExpiry s k a
  | timeout e => exact .timeout s e
  | detachSweepVisit => exact .detachSweepVisit s
  | clearSweepVisit => exact .clearSweepVisit s
  | sweepCompletion => exact .sweepCompletion s

/-- Settles O3, command by command: only a pin reset writes the field, and it writes back what stood there. -/
theorem execLeavesTheQueueAlone : Obligations.ExecLeavesTheQueueAlone :=
  fun c s t h => exec_queueStays c s t h

end Sys2Proof.Machine
end
